-- ==== Sys2Proof/Word.lean ====
section
/-! DEFINITION. The word types of PEELER-DEC and their plainest arithmetic (00_scope.md R8: bits are numbered from 0 at the
least significant bit, nothing is ever sign-extended). -/

namespace Sys2Proof

/-- A byte of IN, OUT or NAME. -/
abbrev Byte := BitVec 8

/-- A 16-bit quantity: a CRC register, Finder flags. -/
abbrev Half := BitVec 16

/-- A 32-bit register of the register file (10_state.md R51). -/
abbrev Word := BitVec 32

/-- `zext_32` of a 16-bit value (00_scope.md R8). -/
def zext32 (h : Half) : Word := h.setWidth 32

/-- Bytes named by their numbers, for the literal byte sequences of the formats. -/
def bytesOf (ns : List Nat) : List Byte := ns.map (BitVec.ofNat 8)

end Sys2Proof
end

