-- ==== Sys2Proof/Machine/Units.lean ====
section
/-! DEFINITION. The internal state of each unit (10_state.md R80-R89), as plain data. Counters and cursors whose bounds the
rules themselves keep are `Nat`; the width 10_state.md names is in the docstring (log 14). A unit's job-start value is
the default value of its fields; where 10_state.md gives a field none, that default is the model's choice (log 23). -/

namespace Sys2Proof.Machine

/-- The three byte memories of 10_state.md R70. -/
inductive ByteSpace where
  /-- IN: the host writes and reads it, the engine reads it. -/
  | inn
  /-- OUT: the engine writes it, the host reads it. -/
  | out
  /-- NAME: the engine writes it, the host reads it. -/
  | name
deriving DecidableEq, Repr, Inhabited

/-- One codeword of a Huffman tree (41_common.md R360): `bits` read as a number of `len` bits stands for `sym`. -/
structure Code where
  sym  : Nat
  len  : Nat
  bits : Nat
deriving DecidableEq, Repr, Inhabited

/-- A Huffman tree: the codewords of its present symbols. No node pool bounds it (41_common.md R365). -/
abbrev Tree := List Code

/-- U_RLE90S (10_state.md R81). -/
structure Rle90Unit where
  /-- 8 bits, job-start 0. -/
  last : Byte := 0
  /-- 8 bits, job-start 0: copies of `last` still to emit. -/
  rep  : Nat := 0
deriving DecidableEq, Repr, Inhabited

/-- `hq_phase`, where U_HQX stands in its input (10_state.md R82). DESIGN CHOICE: no rule says when it changes; SCAN is before the
opening colon, BODY from it to the closing colon, DONE after that (log 31). -/
inductive HqxPhase where
  | scan
  | body
  | done
deriving DecidableEq, Repr, Inhabited

/-- U_HQX (10_state.md R82, 42_binhex.md R414). DESIGN CHOICE: `phase`, `crc` and the container's fields, to which R82 gives no
job-start value, start at SCAN, 0 and empty (log 23). -/
structure HqxUnit where
  phase   : HqxPhase := .scan
  /-- 12 bits: the 6-bit accumulator. -/
  acc     : Nat := 0
  /-- 4 bits: the number of valid bits in `acc`. -/
  nacc    : Nat := 0
  prev    : Byte := 0
  /-- 8 bits: pending repeats of `prev`. -/
  hrep    : Nat := 0
  /-- The CRC-16/XMODEM register of the section being read. -/
  crc     : Half := 0
  nameLen : Nat := 0
  nm      : List Byte := []
  type    : Word := 0
  creator : Word := 0
  flags   : Half := 0
  dl      : Word := 0
  rl      : Word := 0
deriving DecidableEq, Repr, Inhabited

/-- U_MACB (10_state.md R83, 43_macbinary.md R452-R461). DESIGN CHOICE: R83 gives no job-start values, and the unit starts blank
(log 23). -/
structure MacbUnit where
  /-- IN[0..127]. -/
  header  : List Byte := []
  macbin1 : Bool := false
  nameLen : Nat := 0
  nm      : List Byte := []
  type    : Word := 0
  creator : Word := 0
  flags   : Half := 0
  dl      : Word := 0
  rl      : Word := 0
  sh      : Half := 0
  /-- Start of the data fork in IN. -/
  df0     : Nat := 0
  /-- Start of the resource fork in IN. -/
  rf0     : Nat := 0
deriving DecidableEq, Repr, Inhabited

/-- U_RLE81 (10_state.md R84). -/
structure Rle81Unit where
  saved      : Byte := 0
  /-- 8 bits, 0..253: pending copies. -/
  runLeft    : Nat := 0
  halfEscape : Bool := false
deriving DecidableEq, Repr, Inhabited

/-- U_LZH (10_state.md R85). DESIGN CHOICE: `cost`, `blkDataStart` and the three trees, which R85 sets at a block's start and to which
it gives no job-start value, start at 0 and empty, and CPT_LZH with OUT_LEN 0 leaves them so (log 23). -/
structure LzhUnit where
  /-- LWIN, 8192 bytes; a byte not listed is 0, its job-start value. -/
  win          : List Host.Cell := []
  /-- 13 bits: the next window write index. -/
  lpos         : Nat := 0
  /-- 17 bits. -/
  cost         : Nat := 0
  /-- The bit position of the first bit after the block's tables. -/
  blkDataStart : Nat := 0
  /-- TL, 256 symbols. -/
  treeL        : Tree := []
  /-- TN, 64 symbols. -/
  treeN        : Tree := []
  /-- TO, 128 symbols. -/
  treeO        : Tree := []
  /-- 6 bits: what is left of the match being copied. -/
  mlen         : Nat := 0
  /-- 14 bits, 1..8192. -/
  mdist        : Nat := 0
  inblk        : Bool := false
  ended        : Bool := false
deriving DecidableEq, Repr, Inhabited

/-- One entry of U_LZW's four parallel arrays (10_state.md R86). -/
structure LzwEntry where
  /-- 14 bits or NONE. -/
  parent   : Option Nat
  suffix   : Byte
  head     : Byte
  /-- 14 bits. -/
  chainlen : Nat
deriving DecidableEq, Repr, Inhabited

/-- U_LZW (10_state.md R86). -/
structure LzwUnit where
  /-- 4 bits, 9..14. -/
  codeBits   : Nat := 9
  /-- 15 bits, 257..16384. -/
  nextFree   : Nat := 257
  /-- 14 bits or NONE: the previous code since the last reset. -/
  prev       : Option Nat := none
  /-- 3 bits: codes read since the last reset, modulo 8. -/
  blockCount : Nat := 0
  /-- parent[e], suffix[e], head[e], chainlen[e] of the entries written by AddEntry, by rising e. Entries 0..255 are the
  identity and never change (R603), so they are not listed; the other unlisted entries hold no defined value. -/
  dict       : List (Nat × LzwEntry) := []
  /-- stage[0 .. stage_len-1]; stage_len is its length. -/
  stage      : List Byte := []
  stageIdx   : Nat := 0
deriving DecidableEq, Repr, Inhabited

/-- Which literal/length tree of method 13 decodes next (46_method13.md R674). -/
inductive M13Active where
  | t1
  | t2
deriving DecidableEq, Repr, Inhabited

/-- U_M13 (10_state.md R87). -/
structure M13Unit where
  /-- SET, 4 bits, of the header byte. -/
  set    : Nat := 0
  /-- S, 1 bit. -/
  s      : Bool := false
  /-- K, 3 bits. -/
  k      : Nat := 0
  t1     : Tree := []
  t2     : Tree := []
  td     : Tree := []
  active : M13Active := .t1
  /-- MWIN, 65536 bytes; a byte not listed is 0, its job-start value. -/
  win    : List Host.Cell := []
  /-- 16 bits. -/
  mpos   : Nat := 0
  /-- 16 bits. -/
  mlen   : Nat := 0
  /-- 17 bits. -/
  mdist  : Nat := 0
deriving DecidableEq, Repr, Inhabited

/-- One adaptive model of the arithmetic decoder (47_arsenic.md R724). Its last symbol is `first + freq.length - 1`. -/
structure ArsModel where
  first     : Nat
  increment : Nat
  limit     : Nat
  freq      : List Nat
  total     : Nat
deriving DecidableEq, Repr, Inhabited

/-- U_ARS (10_state.md R88). -/
structure ArsUnit where
  /-- 26 bits, job-start 2^25. -/
  range    : Nat
  /-- 26 bits. -/
  code     : Nat
  primary  : ArsModel
  selector : ArsModel
  /-- The seven MTF group models. -/
  groups   : Vector ArsModel 7
  /-- 256 bytes. -/
  mtf      : List Byte
  /-- B, 4 bits. -/
  blockExp : Nat
  eos      : Bool
  randf    : Bool
  /-- Up to 24 bits: the BWT primary index. -/
  prim     : Nat
  /-- The block buffer buf[0..L-1]. -/
  buf      : List Byte
  /-- L, 25 bits. -/
  len      : Nat
  /-- The LF-map T[0..L-1]. -/
  lfMap    : List Nat
  idx      : Nat
  /-- The post-BWT output position in the block. -/
  opos     : Nat
  /-- 8 bits. -/
  ti       : Nat
  /-- Up to 25 bits. -/
  rnext    : Nat
  rprev    : Byte
  /-- 3 bits. -/
  streak   : Nat
  /-- `repeat`, 8 bits. -/
  rep      : Nat
deriving DecidableEq, Repr, Inhabited

/-- U_CRC (10_state.md R89). -/
structure CrcUnit where
  crc : Half := 0
deriving DecidableEq, Repr, Inhabited

/-- Every unit's internal state (10_state.md R71, R80-R89). U_RAW has none (R80). -/
structure Units where
  rle90 : Rle90Unit
  hqx   : HqxUnit
  macb  : MacbUnit
  rle81 : Rle81Unit
  lzh   : LzhUnit
  lzw   : LzwUnit
  m13   : M13Unit
  ars   : ArsUnit
  crc   : CrcUnit
deriving DecidableEq, Repr, Inhabited

end Sys2Proof.Machine
end

