-- ==== Sys2Proof/Config.lean ====
section
/-! DEFINITION. What an implementation of PEELER-DEC fixes (the OPEN parameters of 00_scope.md R7 and 20_memory.md R152) and
the free values (log 1, log 5, log 7). -/

namespace Sys2Proof

open Machine (ByteSpace Tree Units LzwEntry)

/-- The predefined trees of one method-13 set (46_method13.md R653). -/
structure TreeSet where
  t1 : Tree
  t2 : Tree
  td : Tree
deriving DecidableEq, Repr, Inhabited

/-- The order in which the host bus places the four bytes of a word: the one at the lowest address first (20_memory.md R156). -/
inductive ByteOrder where
  | little
  | big
deriving DecidableEq, Repr, Inhabited

/-- The OPEN parameters, fixed when the block is built (70_reset_and_hazards.md R906). They stand in `State.cfg`, which no
step changes, so that a statement about every state holds for every value of every parameter (log 1). -/
structure Config where
  /-- IN_CAP, bytes (92_eei_decisions.md D4). -/
  inCap       : Nat
  /-- OUT_CAP, bytes (D4). -/
  outCap      : Nat
  /-- ARS_BLOCK_CAP, bytes (D68). -/
  arsBlockCap : Nat
  /-- HQX_ALPHABET, index 0 first (D31). -/
  hqxAlphabet : Vector Byte 64
  /-- M13_META: the (codeword, length) pair of each meta command (D59). -/
  m13Meta     : Vector (Nat × Nat) 37
  /-- M13_PREDEF[1..5], SET 1 at index 0 (D58). -/
  m13Predef   : Vector TreeSet 5
  /-- ARS_RAND (D64). -/
  arsRand     : Vector Nat 256
  /-- REG_BASE (D2). -/
  regBase     : Nat
  /-- IN_BASE (D2). -/
  inBase      : Nat
  /-- OUT_BASE (D2). -/
  outBase     : Nat
  /-- NAME_BASE (D2). -/
  nameBase    : Nat
  /-- The host bus's byte order, which "is not observable inside the block" (20_memory.md R156; log 22). -/
  busOrder    : ByteOrder
deriving DecidableEq, Repr, Inhabited

/-- What the spec asks of the parameters: the alphabet's characters differ and are neither whitespace nor a colon
(30_encoding.md R209), every meta codeword has a length and fits it (46_method13.md R660), a predefined distance tree
has at most 17 symbols (46_method13.md R653). -/
abbrev Config.wf (c : Config) : Prop :=
  c.hqxAlphabet.toList.Nodup ∧
  (∀ b ∈ bytesOf [0x0D, 0x0A, 0x09, 0x20, 0x3A], b ∉ c.hqxAlphabet.toList) ∧
  (∀ p ∈ c.m13Meta.toList, 1 ≤ p.2 ∧ p.1 < 2 ^ p.2) ∧
  (∀ t ∈ c.m13Predef.toList, ∀ code ∈ t.td, code.sym ≤ 16)

/-- The default HQX_ALPHABET of 30_encoding.md R209. PRESUMED: the spec marks it [from general knowledge, not in source]
(93_implementation_defined.md G1). Nothing in the machine uses it but as a value a `Config` may have. -/
def Config.defaultAlphabet : List Byte :=
  bytesOf ([0x21, 0x22, 0x23, 0x24, 0x25, 0x26, 0x27, 0x28, 0x29, 0x2A, 0x2B, 0x2C, 0x2D, 0x30, 0x31, 0x32]
    ++ [0x33, 0x34, 0x35, 0x36, 0x38, 0x39, 0x40, 0x41, 0x42, 0x43, 0x44, 0x45, 0x46, 0x47, 0x48, 0x49]
    ++ [0x4A, 0x4B, 0x4C, 0x4D, 0x4E, 0x50, 0x51, 0x52, 0x53, 0x54, 0x55, 0x56, 0x58, 0x59, 0x5A, 0x5B]
    ++ [0x60, 0x61, 0x62, 0x63, 0x64, 0x65, 0x66, 0x68, 0x69, 0x6A, 0x6B, 0x6C, 0x6D, 0x70, 0x71, 0x72])

/-- The default ARS_BLOCK_CAP of 00_scope.md R7. -/
def Config.defaultArsBlockCap : Nat := 2 ^ 24

/-- The parameters of the block that `State.reset` is a state of: no value is chosen for any of them (log 1). -/
opaque Config.built : Config

/-- A byte whose value the spec leaves open: the byte at index `addr` of a memory, in the `epoch` since when nothing has
given it a value (70_reset_and_hazards.md R900, R911, 40_job_control.md R309; log 5, log 7, log 9). -/
opaque Config.freeByte (space : ByteSpace) (epoch addr : Nat) : Byte

/-- A 32-bit value the spec leaves open: the `k`-th of the occasion `n` (10_state.md R68, 70_reset_and_hazards.md R910). -/
opaque Config.freeWord (n k : Nat) : Word

/-- A count the spec leaves open: a cursor or the error code of a job whose input changed (log 8). -/
opaque Config.freeNat (n k : Nat) : Nat

/-- Unit state the spec leaves open: after an error (60_exceptions.md R852; log 7). -/
opaque Config.freeUnits (n : Nat) : Units

/-- A dictionary entry that nothing has written (10_state.md R86: it "holds no defined value"; log 15). -/
opaque Config.freeLzwEntry (e : Nat) : LzwEntry

end Sys2Proof
end

