-- ==== Sys2Proof/Syntax.lean ====
section
/-! DEFINITION. The instructions of PEELER-DEC: one constructor per row of spec/opcode_table.json. An instruction is one
command word CMD (30_encoding.md R200): OP, CRC_EN and the reserved bits. CRC_EN is an operand of every row, also where the
operation ignores it (30_encoding.md R203). -/

namespace Sys2Proof

inductive Instr where
  /-- SIT_RAW, OP 0x00 (R310): StuffIt method 0, raw copy. -/
  | sitRaw (crcEn : Bool)
  /-- SIT_RLE90, OP 0x01 (R580): StuffIt method 1, RLE90. -/
  | sitRle90 (crcEn : Bool)
  /-- SIT_LZW, OP 0x02 (R600): StuffIt method 2, LZW. -/
  | sitLzw (crcEn : Bool)
  /-- SIT_UNSUP_M3, OP 0x03 (R311): StuffIt method 3, unsupported. -/
  | sitUnsupM3 (crcEn : Bool)
  /-- SIT_UNSUP_M4, OP 0x04 (R311): StuffIt method 4, unsupported. -/
  | sitUnsupM4 (crcEn : Bool)
  /-- SIT_UNSUP_M5, OP 0x05 (R311): StuffIt method 5, unsupported. -/
  | sitUnsupM5 (crcEn : Bool)
  /-- SIT_UNSUP_M6, OP 0x06 (R311): StuffIt method 6, unsupported. -/
  | sitUnsupM6 (crcEn : Bool)
  /-- SIT_UNSUP_M7, OP 0x07 (R311): StuffIt method 7, unsupported. -/
  | sitUnsupM7 (crcEn : Bool)
  /-- SIT_UNSUP_M8, OP 0x08 (R311): StuffIt method 8, unsupported. -/
  | sitUnsupM8 (crcEn : Bool)
  /-- SIT_UNSUP_M9, OP 0x09 (R311): StuffIt method 9, unsupported. -/
  | sitUnsupM9 (crcEn : Bool)
  /-- SIT_UNSUP_M10, OP 0x0A (R311): StuffIt method 10, unsupported. -/
  | sitUnsupM10 (crcEn : Bool)
  /-- SIT_UNSUP_M11, OP 0x0B (R311): StuffIt method 11, unsupported. -/
  | sitUnsupM11 (crcEn : Bool)
  /-- SIT_UNSUP_M12, OP 0x0C (R311): StuffIt method 12, unsupported. -/
  | sitUnsupM12 (crcEn : Bool)
  /-- SIT_UNSUP_M14, OP 0x0E (R311): StuffIt method 14, unsupported. -/
  | sitUnsupM14 (crcEn : Bool)
  /-- SIT_M13, OP 0x0D (R650): StuffIt method 13, LZSS and two Huffman trees. -/
  | sitM13 (crcEn : Bool)
  /-- SIT_ARS, OP 0x0F (R720): StuffIt method 15, Arsenic. -/
  | sitArs (crcEn : Bool)
  /-- CPT_RLE, OP 0x10 (R500): Compact Pro fork, RLE only. -/
  | cptRle (crcEn : Bool)
  /-- CPT_LZH, OP 0x11 (R501): Compact Pro fork, LZH then RLE. -/
  | cptLzh (crcEn : Bool)
  /-- HQX_DETECT, OP 0x20 (R400): BinHex probe. -/
  | hqxDetect (crcEn : Bool)
  /-- HQX_FILE, OP 0x21 (R401): BinHex decode, both forks and metadata. -/
  | hqxFile (crcEn : Bool)
  /-- HQX_WRAP, OP 0x22 (R402): BinHex decode, data fork only. -/
  | hqxWrap (crcEn : Bool)
  /-- BIN_DETECT, OP 0x30 (R450): MacBinary probe. -/
  | binDetect (crcEn : Bool)
  /-- BIN_FILE, OP 0x31 (R463): MacBinary decode, both forks and metadata. -/
  | binFile (crcEn : Bool)
  /-- BIN_WRAP, OP 0x32 (R464): MacBinary decode, one fork. -/
  | binWrap (crcEn : Bool)
  /-- CRC_XMODEM, OP 0x40 (R355): CRC-16/XMODEM of IN. -/
  | crcXmodem (crcEn : Bool)
  /-- CRC_ARC, OP 0x41 (R356): CRC-16/ARC of IN. -/
  | crcArc (crcEn : Bool)
  /-- RESERVED_OP (R202): an OP value outside R201's table, with bits 31:9 zero. -/
  | reservedOp (op : BitVec 8) (crcEn : Bool)
  /-- RESERVED_BITS (R200): bits 31:9 not zero, whatever OP and CRC_EN are. -/
  | reservedBits (rsvd : BitVec 23) (crcEn : Bool) (op : BitVec 8)
deriving DecidableEq, Repr

end Sys2Proof
end

