-- ==== Sys2Proof/WellFormed.lean ====
section
/-! DEFINITION. Which terms of `Instr` stand for a command word: the two checks on the reserved rows. -/

namespace Sys2Proof

/-- 30_encoding.md R202: the OP values outside R201's table. -/
def isReservedOp (op : BitVec 8) : Bool :=
  let n := op.toNat
  (0x12 ≤ n && n ≤ 0x1F) || (0x23 ≤ n && n ≤ 0x2F) || (0x33 ≤ n && n ≤ 0x3F) || 0x42 ≤ n

/-- A RESERVED_OP term has a reserved OP; a RESERVED_BITS term has a bit set among 31:9. Every other term is a command. -/
def Instr.wf : Instr → Bool
  | .reservedOp op _ => isReservedOp op
  | .reservedBits rsvd _ _ => rsvd != 0
  | _ => true

end Sys2Proof
end

