-- ==== Sys2Proof/Decode.lean ====
section
/-! DEFINITION. Decoding and encoding the command word (30_encoding.md R200-R202; opcode_table.json). The unit of decoding is
one 32-bit word, because REG is accessed as whole words and a register has no byte order inside the block (20_memory.md
R156; log 12). -/

namespace Sys2Proof

/-- Why a sequence of command words does not decode: there is no word. Every 32-bit word is some row of the table. -/
inductive DecodeReject where
  /-- The word list is empty. -/
  | noCommandWord
deriving DecidableEq, Repr

/-- OP, CMD[7:0] (R200). -/
def cmdOp (w : Word) : BitVec 8 := w.extractLsb' 0 8

/-- CRC_EN, CMD[8] (R200). -/
def cmdCrcEn (w : Word) : Bool := w.getLsbD 8

/-- The reserved bits CMD[31:9] (R200). -/
def cmdRsvd (w : Word) : BitVec 23 := w.extractLsb' 9 23

/-- The command word with these fields (R200). -/
def cmdWord (rsvd : BitVec 23) (crcEn : Bool) (op : BitVec 8) : Word :=
  (rsvd ++ BitVec.ofBool crcEn) ++ op

/-- The OP map (R201); a value outside it is reserved (R202). -/
def decodeOp (op : BitVec 8) (crcEn : Bool) : Instr :=
  match op.toNat with
  | 0x00 => .sitRaw crcEn
  | 0x01 => .sitRle90 crcEn
  | 0x02 => .sitLzw crcEn
  | 0x03 => .sitUnsupM3 crcEn
  | 0x04 => .sitUnsupM4 crcEn
  | 0x05 => .sitUnsupM5 crcEn
  | 0x06 => .sitUnsupM6 crcEn
  | 0x07 => .sitUnsupM7 crcEn
  | 0x08 => .sitUnsupM8 crcEn
  | 0x09 => .sitUnsupM9 crcEn
  | 0x0A => .sitUnsupM10 crcEn
  | 0x0B => .sitUnsupM11 crcEn
  | 0x0C => .sitUnsupM12 crcEn
  | 0x0D => .sitM13 crcEn
  | 0x0E => .sitUnsupM14 crcEn
  | 0x0F => .sitArs crcEn
  | 0x10 => .cptRle crcEn
  | 0x11 => .cptLzh crcEn
  | 0x20 => .hqxDetect crcEn
  | 0x21 => .hqxFile crcEn
  | 0x22 => .hqxWrap crcEn
  | 0x30 => .binDetect crcEn
  | 0x31 => .binFile crcEn
  | 0x32 => .binWrap crcEn
  | 0x40 => .crcXmodem crcEn
  | 0x41 => .crcArc crcEn
  | _ => .reservedOp op crcEn

/-- The instruction a command word stands for: RESERVED_BITS before the OP map (R200; opcode_table.json RESERVED_BITS). -/
def decodeWord (w : Word) : Instr :=
  if cmdRsvd w = 0 then decodeOp (cmdOp w) (cmdCrcEn w)
  else .reservedBits (cmdRsvd w) (cmdCrcEn w) (cmdOp w)

/-- Decoding the first of a list of command words. -/
def decode : List Word → Except DecodeReject (Instr × List Word)
  | [] => .error .noCommandWord
  | w :: rest => .ok (decodeWord w, rest)

/-- The word of an instruction (R200, R201). -/
def encodeWord : Instr → Word
  | .sitRaw crcEn => cmdWord 0 crcEn 0x00
  | .sitRle90 crcEn => cmdWord 0 crcEn 0x01
  | .sitLzw crcEn => cmdWord 0 crcEn 0x02
  | .sitUnsupM3 crcEn => cmdWord 0 crcEn 0x03
  | .sitUnsupM4 crcEn => cmdWord 0 crcEn 0x04
  | .sitUnsupM5 crcEn => cmdWord 0 crcEn 0x05
  | .sitUnsupM6 crcEn => cmdWord 0 crcEn 0x06
  | .sitUnsupM7 crcEn => cmdWord 0 crcEn 0x07
  | .sitUnsupM8 crcEn => cmdWord 0 crcEn 0x08
  | .sitUnsupM9 crcEn => cmdWord 0 crcEn 0x09
  | .sitUnsupM10 crcEn => cmdWord 0 crcEn 0x0A
  | .sitUnsupM11 crcEn => cmdWord 0 crcEn 0x0B
  | .sitUnsupM12 crcEn => cmdWord 0 crcEn 0x0C
  | .sitUnsupM14 crcEn => cmdWord 0 crcEn 0x0E
  | .sitM13 crcEn => cmdWord 0 crcEn 0x0D
  | .sitArs crcEn => cmdWord 0 crcEn 0x0F
  | .cptRle crcEn => cmdWord 0 crcEn 0x10
  | .cptLzh crcEn => cmdWord 0 crcEn 0x11
  | .hqxDetect crcEn => cmdWord 0 crcEn 0x20
  | .hqxFile crcEn => cmdWord 0 crcEn 0x21
  | .hqxWrap crcEn => cmdWord 0 crcEn 0x22
  | .binDetect crcEn => cmdWord 0 crcEn 0x30
  | .binFile crcEn => cmdWord 0 crcEn 0x31
  | .binWrap crcEn => cmdWord 0 crcEn 0x32
  | .crcXmodem crcEn => cmdWord 0 crcEn 0x40
  | .crcArc crcEn => cmdWord 0 crcEn 0x41
  | .reservedOp op crcEn => cmdWord 0 crcEn op
  | .reservedBits rsvd crcEn op => cmdWord rsvd crcEn op

/-- The words of an instruction: one. -/
def encode (i : Instr) : List Word := [encodeWord i]

/-- The command word of an opcode-table row given by its low `nbits` bits, the bits above zero; none for a width no command
word has (log 12). -/
def tableWord (nbits w : Nat) : Option Word :=
  if nbits ≤ 32 then some (BitVec.ofNat 32 (w % 2 ^ nbits)) else none

/-- What the decoder reads from an opcode-table row's bits. -/
def decodeTableWord (nbits w : Nat) : Option Instr :=
  match tableWord nbits w with
  | none => none
  | some word =>
    match decode [word] with
    | .ok (i, _) => some i
    | .error _ => none

end Sys2Proof
end

