-- ==== Sys2Proof/Machine/State.lean ====
section
/-! DEFINITION. The state of PEELER-DEC (10_state.md), its errors, the model's fault and refusal reasons, and power-on reset
(70_reset_and_hazards.md R900). Plain data throughout. -/

namespace Sys2Proof.Machine

/-- The named errors of 60_exceptions.md R851, by ECODE. The two marked "cannot arise" there are kept. -/
inductive Err where
  | cmdReservedOp | cmdReservedBits | cmdInLen
  | resOutCap | resArsBlock
  | fmtHqxNoPreamble | fmtArsSignature
  | trnEof | trnLzhEnd | trnArsEos
  | valHqxNameLen | valHqxHdrCrc | valHqxDataCrc | valHqxRsrcCrc
  | valMacbHeader | valMacbNameLen | valMacbCrc | valMacbForkLen | valM13Set
  | intForkCrc
  | feaMethod
  | decUnderflow | decHqxBadChar | decHqxRle01 | decLzwCode
  | decHuffOversub | decHuffNocode | decM13Sym320 | decM13Lengths
  | decLzhTable | decLzhLen0
  | decArsZeroScale | decArsBwtIndex | decArsOverflow | decArsLfMap
deriving DecidableEq, Repr

/-- Why the model stops with a fault. Only a host access raises one; no instruction does. -/
inductive Fault where
  /-- A host access to an index at or beyond the size of IN, OUT or NAME: 20_memory.md R150 says it "addresses nothing".
  `index` is the first such index of the access. Raised by the host's accesses of these memories. Safe (log 11). -/
  | noSuchIndex (space : ByteSpace) (index : Nat)
  /-- A host access to a register offset at or beyond 0x100, outside REG (20_memory.md R150). Safe (log 11). -/
  | noSuchRegister (offset : Nat)
  /-- A host access that reaches an address the placement map gives to no space, the first such address (20_memory.md R152).
  Safe (log 22). -/
  | noSuchAddress (address : Nat)
deriving DecidableEq, Repr

/-- Why the model refuses. No modelled instruction does. -/
inductive Refusal where
  /-- The instruction has no meaning in the model yet. Raised by `exec`'s arms only. Safe. -/
  | notModelled (mnemonic : String)
  /-- A sub-word or misaligned REG access, "outside the interface, and a model refuses it" (20_memory.md R165). Raised by the
  host's register accesses. Safe (log 11). -/
  | regAccessShape (offset size : Nat)
  /-- The latch holds no command word. Raised by `step` if decoding fails, which it never does. Safe. -/
  | undecodable
deriving DecidableEq, Repr

/-- The register file (10_state.md R51). The reserved offsets 0x3C-0xFC hold nothing (R67). -/
structure Regs where
  /-- 0x00. Only bit 1, IRQ_EN, ever stores a value (R52). -/
  ctrl      : Word
  /-- 0x04 (R53). -/
  cmd       : Word
  /-- 0x08 (R54). -/
  inLen     : Word
  /-- 0x0C (R55). -/
  outLen    : Word
  /-- 0x10 (R56). -/
  expCrc    : Word
  /-- 0x14 (R57). -/
  status    : Word
  /-- 0x18 (R58). -/
  outCount  : Word
  /-- 0x1C (R59). -/
  crcOut    : Word
  /-- 0x20 (R60). -/
  result    : Word
  /-- 0x24 (R61). -/
  dataLen   : Word
  /-- 0x28 (R62). -/
  rsrcLen   : Word
  /-- 0x2C (R63). -/
  mdType    : Word
  /-- 0x30 (R64). -/
  mdCreator : Word
  /-- 0x34 (R65). -/
  mdFlags   : Word
  /-- 0x38 (R66). -/
  mdNameLen : Word
deriving DecidableEq, Repr

/-- The job latch (10_state.md R75). -/
structure Latch where
  /-- J_OP. -/
  op     : BitVec 8
  /-- J_CRC_EN. -/
  crcEn  : Bool
  /-- J_IN_LEN. -/
  inLen  : Word
  /-- J_OUT_LEN. -/
  outLen : Word
  /-- J_EXP_CRC. -/
  expCrc : Half
  /-- The model's own: CMD[31:9] as START saw it, for 40_job_control.md R301 step 1 (log 13). -/
  rsvd   : BitVec 23
deriving DecidableEq, Repr

/-- `phase` of 10_state.md R76. -/
inductive Phase where
  | idle
  | run
deriving DecidableEq, Repr

/-- The sequencing state of 10_state.md R76 and R77. -/
structure Sequencer where
  phase    : Phase
  /-- out_count: bytes written to OUT by the job. -/
  outCount : Nat
  /-- The byte cursor. -/
  bpos     : Nat
  /-- The bit cursor. -/
  bitpos   : Nat
deriving DecidableEq, Repr

/-- A byte memory (10_state.md R70): the bytes that have been given a value, by rising index. A byte not listed has a free
value, one for each `epoch` (log 5, log 7). -/
structure Space where
  cells : List Host.Cell
  epoch : Nat
deriving DecidableEq, Repr

/-- An access through the host's address map (20_memory.md R152; log 22): a 32-bit word, or bytes in address order, as many as
the host's bus moves at once (R166). -/
inductive BusOp where
  | readWord
  | writeWord (v : Word)
  | readBytes (n : Nat)
  | writeBytes (bs : List Byte)
deriving DecidableEq, Repr

/-- What a host's read returns: a register's word, or bytes in index order (20_memory.md R166). -/
inductive ReadResult where
  | word (v : Word)
  | bytes (bs : List Byte)
deriving DecidableEq, Repr

/-- What the host can do to the block (10_state.md R50). -/
inductive HostAct where
  /-- A write of `size` bytes at byte offset `off` of REG. -/
  | regWrite (off size : Nat) (v : Word)
  /-- A read of `size` bytes at byte offset `off` of REG. -/
  | regRead (off size : Nat)
  /-- A write of these bytes to IN, OUT or NAME from index `index` up, at any width (20_memory.md R166). -/
  | memWrite (space : ByteSpace) (index : Nat) (bs : List Byte)
  /-- A read of `n` bytes of IN, OUT or NAME from index `index` up, at any width. -/
  | memRead (space : ByteSpace) (index n : Nat)
  /-- An access by address in the host's map. -/
  | bus (address : Nat) (op : BusOp)
  /-- The host does nothing until BUSY = 0: polling, or waiting for IRQ (70_reset_and_hazards.md R905 step 8). -/
  | wait
  /-- Power-on reset (70_reset_and_hazards.md R900, R901; log 28). -/
  | powerOn
deriving DecidableEq, Repr

/-- The whole state. `cfg`, `host`, `readData`, `inTouched` and `freeCtr` are the model's own fields (log 1, 3, 8, 22, 29). -/
structure State where
  /-- The OPEN parameters; no step changes them. -/
  cfg       : Config
  regs      : Regs
  latch     : Latch
  seq       : Sequencer
  units     : Units
  inn       : Space
  out       : Space
  name      : Space
  /-- The host's pending accesses, the next one first. -/
  host      : List HostAct
  /-- What the host's last read returned. -/
  readData  : ReadResult
  /-- The host has written IN while BUSY = 1 since the last START (20_memory.md R176). -/
  inTouched : Bool
  /-- The number of free values taken so far. -/
  freeCtr   : Nat
deriving DecidableEq, Repr

/-- The empty arithmetic model: what an Arsenic model is before a job sets it (log 6). -/
def ArsModel.blank : ArsModel := { first := 0, increment := 0, limit := 0, freq := [], total := 0 }

/-- U_ARS before any job: 47_arsenic.md gives job-start values to some fields, and the rest are blank (log 6). -/
def ArsUnit.blank : ArsUnit :=
  { range := 2 ^ 25, code := 0, primary := ArsModel.blank, selector := ArsModel.blank,
    groups := Vector.replicate 7 ArsModel.blank, mtf := [], blockExp := 0, eos := false, randf := false, prim := 0,
    buf := [], len := 0, lfMap := [], idx := 0, opos := 0, ti := 0, rnext := 0, rprev := 0, streak := 0, rep := 0 }

/-- Every unit at its job-start value. DESIGN CHOICE: 70_reset_and_hazards.md R900 leaves it unspecified (log 6). -/
def Units.powerOn : Units :=
  { rle90 := {}, hqx := {}, macb := {}, rle81 := {}, lzh := {}, lzw := {}, m13 := {}, ars := ArsUnit.blank, crc := {} }

/-- The register file after power-on reset (70_reset_and_hazards.md R900, 10_state.md R51): all zero. -/
def Regs.powerOn : Regs :=
  { ctrl := 0, cmd := 0, inLen := 0, outLen := 0, expCrc := 0, status := 0, outCount := 0, crcOut := 0, result := 0,
    dataLen := 0, rsrcLen := 0, mdType := 0, mdCreator := 0, mdFlags := 0, mdNameLen := 0 }

/-- Power-on reset (70_reset_and_hazards.md R900). The registers and `phase` are as R900 states; IN, OUT and NAME are
unspecified, so nothing is listed; the latch, the cursors and the units are unspecified there and hold the values of
log 6. -/
def State.reset : State :=
  { cfg := Config.built
    regs := Regs.powerOn
    latch := { op := 0, crcEn := false, inLen := 0, outLen := 0, expCrc := 0, rsvd := 0 }
    seq := { phase := .idle, outCount := 0, bpos := 0, bitpos := 0 }
    units := Units.powerOn
    inn := { cells := [], epoch := 0 }
    out := { cells := [], epoch := 0 }
    name := { cells := [], epoch := 0 }
    host := []
    readData := .word 0
    inTouched := false
    freeCtr := 1 }

end Sys2Proof.Machine
end

