-- ==== Sys2Proof/Machine/Flags.lean ====
section
/-! DEFINITION. Every flag PEELER-DEC keeps or computes: the fields of STATUS and RESULT (10_state.md R57, R60), the error
classes and codes (60_exceptions.md R850, R851), the IRQ output (R870), the Finder flag cleanups (42_binhex.md R427,
43_macbinary.md R466) and the masks of the result registers' reserved bits. -/

namespace Sys2Proof.Machine

/-- ECLASS of an error (60_exceptions.md R850, R851). -/
def Err.eclass : Err → BitVec 4
  | .cmdReservedOp | .cmdReservedBits | .cmdInLen => 8
  | .resOutCap | .resArsBlock => 7
  | .fmtHqxNoPreamble | .fmtArsSignature => 1
  | .trnEof | .trnLzhEnd | .trnArsEos => 2
  | .valHqxNameLen | .valHqxHdrCrc | .valHqxDataCrc | .valHqxRsrcCrc
  | .valMacbHeader | .valMacbNameLen | .valMacbCrc | .valMacbForkLen | .valM13Set => 3
  | .intForkCrc => 4
  | .feaMethod => 5
  | .decUnderflow | .decHqxBadChar | .decHqxRle01 | .decLzwCode
  | .decHuffOversub | .decHuffNocode | .decM13Sym320 | .decM13Lengths
  | .decLzhTable | .decLzhLen0
  | .decArsZeroScale | .decArsBwtIndex | .decArsOverflow | .decArsLfMap => 6

/-- ECODE of an error (60_exceptions.md R851). -/
def Err.ecode : Err → BitVec 8
  | .cmdReservedOp => 0x01 | .cmdReservedBits => 0x02 | .cmdInLen => 0x03
  | .resOutCap => 0x10 | .resArsBlock => 0x11
  | .fmtHqxNoPreamble => 0x20 | .fmtArsSignature => 0x21
  | .trnEof => 0x30 | .trnLzhEnd => 0x31 | .trnArsEos => 0x32
  | .valHqxNameLen => 0x40 | .valHqxHdrCrc => 0x41 | .valHqxDataCrc => 0x42 | .valHqxRsrcCrc => 0x43
  | .valMacbHeader => 0x44 | .valMacbNameLen => 0x45 | .valMacbCrc => 0x46 | .valMacbForkLen => 0x47
  | .valM13Set => 0x48
  | .intForkCrc => 0x50
  | .feaMethod => 0x58
  | .decUnderflow => 0x60 | .decHqxBadChar => 0x61 | .decHqxRle01 => 0x62 | .decLzwCode => 0x63
  | .decHuffOversub => 0x64 | .decHuffNocode => 0x65 | .decM13Sym320 => 0x66 | .decM13Lengths => 0x67
  | .decLzhTable => 0x68 | .decLzhLen0 => 0x69
  | .decArsZeroScale => 0x6A | .decArsBwtIndex => 0x6B | .decArsOverflow => 0x6C | .decArsLfMap => 0x6D

/-- The errors a job can end with: all of 60_exceptions.md R851 but the two that "cannot arise". -/
def Err.raisable : List Err :=
  [.cmdReservedOp, .cmdReservedBits, .cmdInLen, .resOutCap, .resArsBlock, .fmtHqxNoPreamble, .fmtArsSignature,
   .trnEof, .trnLzhEnd, .trnArsEos, .valHqxNameLen, .valHqxHdrCrc, .valHqxDataCrc, .valHqxRsrcCrc,
   .valMacbHeader, .valMacbNameLen, .valMacbCrc, .valMacbForkLen, .valM13Set, .intForkCrc, .feaMethod,
   .decUnderflow, .decHqxBadChar, .decHqxRle01, .decLzwCode, .decHuffOversub, .decHuffNocode, .decM13Sym320,
   .decM13Lengths, .decLzhTable, .decLzhLen0, .decArsBwtIndex, .decArsOverflow]

/-- STATUS while a job runs: BUSY = 1 and everything else 0 (40_job_control.md R300). -/
def statusBusy : Word := 0x00000001

/-- STATUS after a successful job (40_job_control.md R305). -/
def statusDone : Word := 0x00000002

/-- STATUS after an error: `(code << 16) | (class << 8) | 0x4` (60_exceptions.md R852). -/
def Err.status (e : Err) : Word :=
  (e.ecode.setWidth 32 <<< 16) ||| (e.eclass.setWidth 32 <<< 8) ||| 0x4

/-- STATUS.BUSY, bit 0 (10_state.md R57). -/
def State.busy (s : State) : Bool := s.regs.status.getLsbD 0

/-- STATUS.DONE, bit 1 (10_state.md R57). -/
def State.done (s : State) : Bool := s.regs.status.getLsbD 1

/-- STATUS.ERR, bit 2 (10_state.md R57). -/
def State.err (s : State) : Bool := s.regs.status.getLsbD 2

/-- STATUS.ECLASS, bits 11:8 (10_state.md R57). -/
def State.eclass (s : State) : BitVec 4 := s.regs.status.extractLsb' 8 4

/-- STATUS.ECODE, bits 23:16 (10_state.md R57). -/
def State.ecode (s : State) : BitVec 8 := s.regs.status.extractLsb' 16 8

/-- CTRL.IRQ_EN, bit 1 (10_state.md R52). -/
def State.irqEn (s : State) : Bool := s.regs.ctrl.getLsbD 1

/-- The interrupt output: `IRQ = (STATUS.DONE or STATUS.ERR) and CTRL.IRQ_EN` (60_exceptions.md R870). -/
def State.irq (s : State) : Bool := (s.done || s.err) && s.irqEn

/-- RESULT from its three flags (10_state.md R60). -/
def resultWord (isMatch macbin1 rsrcSel : Bool) : Word :=
  (BitVec.ofBool rsrcSel ++ BitVec.ofBool macbin1 ++ BitVec.ofBool isMatch).setWidth 32

/-- 42_binhex.md R427: bits 14, 7 and 2 of the Finder flags are cleared. -/
def hqxCleanFlags (f : Half) : Half := f &&& 0xBF7B

/-- 43_macbinary.md R466: bits 0, 1, 8, 9 and 10 of the Finder flags are cleared. -/
def macbCleanFlags (f : Half) : Half := f &&& 0xF8FC

/-- The bits of CTRL that store (10_state.md R52). -/
def ctrlMask : Word := 0x00000002

/-- The bits of CRC_OUT that are not reserved (10_state.md R59). -/
def crcOutMask : Word := 0x0000FFFF

/-- The bits of RESULT that are not reserved (10_state.md R60). -/
def resultMask : Word := 0x00000007

/-- The bits of MD_FLAGS that are not reserved (10_state.md R65). -/
def mdFlagsMask : Word := 0x0000FFFF

/-- The bits of MD_NAMELEN that are not reserved (10_state.md R66). -/
def mdNameLenMask : Word := 0x000000FF

end Sys2Proof.Machine
end

