-- ==== Sys2Proof/Machine/Ops.lean ====
section
/-! DEFINITION. The named operations over memory, windows and registers, and what every job shares: START (40_job_control.md
R300), CheckCommand (R301), the successful end (R305), and the error entry (60_exceptions.md R852), which plays the part of
taking an exception. There is no return from an error (60_exceptions.md R857). -/

namespace Sys2Proof.Machine

/-! ### Sparse arrays in canonical form: keys strictly rising -/

/-- What is stored at key `a`. -/
def sparseGet {α : Type} : List (Nat × α) → Nat → Option α
  | [], _ => none
  | (k, v) :: rest, a => if k = a then some v else sparseGet rest a

/-- Store `v` at key `a`, keeping the keys strictly rising. -/
def sparseSet {α : Type} : List (Nat × α) → Nat → α → List (Nat × α)
  | [], a, v => [(a, v)]
  | (k, w) :: rest, a, v =>
    if a < k then (a, v) :: (k, w) :: rest
    else if a = k then (a, v) :: rest
    else (k, w) :: sparseSet rest a v

/-- Forget what is stored at key `a`. -/
def sparseErase {α : Type} (xs : List (Nat × α)) (a : Nat) : List (Nat × α) :=
  xs.filter fun c => c.1 != a

/-- The canonical form: keys strictly rising. -/
abbrev SparseWf {α : Type} (xs : List (Nat × α)) : Prop := xs.Pairwise fun c d => c.1 < d.1

/-! ### The byte memories IN, OUT and NAME (10_state.md R70, 20_memory.md R150) -/

/-- What a byte that is not listed reads as: a free value of the memory's epoch (log 5, log 7). -/
def unlistedByte (k : ByteSpace) (m : Space) (a : Nat) : Byte := Config.freeByte k m.epoch a

/-- Byte `a` of a memory. -/
def Space.read (k : ByteSpace) (m : Space) (a : Nat) : Byte :=
  (sparseGet m.cells a).getD (unlistedByte k m a)

/-- `MemWrite(a, 1, b)` (00_scope.md R9). -/
def Space.write (m : Space) (a : Nat) (b : Byte) : Space := { m with cells := sparseSet m.cells a b }

/-- Bytes written one at a time at rising indexes from `a` (40_job_control.md R308). -/
def Space.writeList (m : Space) (a : Nat) : List Byte → Space
  | [] => m
  | b :: rest => (m.write a b).writeList (a + 1) rest

/-- `n` bytes read from index `a` up. -/
def Space.slice (k : ByteSpace) (m : Space) (a : Nat) : Nat → List Byte
  | 0 => []
  | n + 1 => m.read k a :: m.slice k (a + 1) n

/-- A memory whose every byte holds any value: nothing listed, in an epoch of its own (log 7). -/
def Space.forget (epoch : Nat) : Space := { cells := [], epoch }

/-- The canonical form of a memory of `cap` bytes: indexes strictly rising and below the size. No entry can equal what an
unlisted index reads as, since an unlisted byte has no value but a free one. -/
abbrev Space.wf (m : Space) (cap : Nat) : Prop := SparseWf m.cells ∧ ∀ c ∈ m.cells, c.1 < cap

/-- The size of a memory (10_state.md R70). -/
def spaceSize (cfg : Config) : ByteSpace → Nat
  | .inn => cfg.inCap
  | .out => cfg.outCap
  | .name => 256

/-- The memory of that name. -/
def State.space (s : State) : ByteSpace → Space
  | .inn => s.inn
  | .out => s.out
  | .name => s.name

/-- The state with that memory replaced. -/
def State.setSpace (s : State) (k : ByteSpace) (m : Space) : State :=
  match k with
  | .inn => { s with inn := m }
  | .out => { s with out := m }
  | .name => { s with name := m }

/-! ### Sliding windows (20_memory.md R170, R171). A byte not listed is 0, its job-start value. -/

/-- Byte `i` of a window. -/
def winRead (w : List Host.Cell) (i : Nat) : Byte := (sparseGet w i).getD 0

/-- Byte `i` of a window set to `b`; a 0 is not listed. -/
def winWrite (w : List Host.Cell) (i : Nat) (b : Byte) : List Host.Cell :=
  if b = 0 then sparseErase w i else sparseSet w i b

/-- The canonical form of a window: indexes strictly rising, no 0 listed. -/
abbrev WinWf (w : List Host.Cell) : Prop := SparseWf w ∧ ∀ c ∈ w, c.2 ≠ 0

/-- `WinPut` (R170): the byte goes to `pos`, and `pos` moves on modulo the size. -/
def winPut (w : List Host.Cell) (size pos : Nat) (b : Byte) : List Host.Cell × Nat :=
  (winWrite w pos b, (pos + 1) % size)

/-- `WinGet` (R170): the byte `dist` before `pos`, modulo the size. -/
def winGet (w : List Host.Cell) (size pos dist : Nat) : Byte :=
  winRead w ((pos + (size - dist % size)) % size)

/-- One step of a match copy (R171): the byte is read, then written, then handed on. -/
def winCopy (w : List Host.Cell) (size pos dist : Nat) : Byte × List Host.Cell × Nat :=
  let b := winGet w size pos dist
  (b, winPut w size pos b)

/-! ### START (40_job_control.md R300) -/

/-- The latch that START fills from the registers (10_state.md R75). -/
def latchOf (r : Regs) : Latch :=
  { op := cmdOp r.cmd, crcEn := cmdCrcEn r.cmd, inLen := r.inLen, outLen := r.outLen,
    expCrc := r.expCrc.setWidth 16, rsvd := cmdRsvd r.cmd }

/-- The registers with STATUS at `st` and every result register 0 (40_job_control.md R300, 60_exceptions.md R852). -/
def Regs.cleared (r : Regs) (st : Word) : Regs :=
  { r with
    status := st, outCount := 0, crcOut := 0, result := 0, dataLen := 0, rsrcLen := 0,
    mdType := 0, mdCreator := 0, mdFlags := 0, mdNameLen := 0 }

/-- START up to CheckCommand (R300): latch, BUSY, results 0, phase RUN, cursors 0. CheckCommand and Dispatch are the engine's
turn that follows (log 2). -/
def startJob (s : State) : State :=
  { s with
    latch := latchOf s.regs
    regs := s.regs.cleared statusBusy
    seq := { phase := .run, outCount := 0, bpos := 0, bitpos := 0 }
    inTouched := false }

/-- The command word that START latched. -/
def latchWord (l : Latch) : Word := cmdWord l.rsvd l.crcEn l.op

/-! ### Errors -/

/-- An error where an operation's rules reach it: the bytes the job has written and the cursors as they stand there (10_state.md
R76, R77). A read past the end of input leaves its cursor where it was (20_memory.md R163). -/
structure Raise where
  err      : Err
  outCount : Nat := 0
  bpos     : Nat := 0
  bitpos   : Nat := 0
deriving DecidableEq, Repr

/-- The error of a byte-stream unit whose byte cursor stands at `p`. -/
def Raise.atByte (p : Nat) (e : Err) : Raise := { err := e, bpos := p }

/-- The error of a bit-stream unit whose bit cursor stands at `k`. -/
def Raise.atBit (k : Nat) (e : Err) : Raise := { err := e, bitpos := k }

/-- The error of a job that had written `n` more bytes before. -/
def Raise.after (n : Nat) (r : Raise) : Raise := { r with outCount := n + r.outCount }

/-! ### CheckCommand (40_job_control.md R301) -/

/-- StuffIt methods the block does not implement: OP 0x03-0x0C and 0x0E (30_encoding.md R201). -/
def isUnsupOp (op : BitVec 8) : Bool :=
  let n := op.toNat
  (0x03 ≤ n && n ≤ 0x0C) || n == 0x0E

/-- The fork ops: OP 0x00-0x11 (30_encoding.md R201). -/
def isForkOp (op : BitVec 8) : Bool := op.toNat ≤ 0x11

/-- The five checks of R301, in its order. No input has been read yet. -/
def checkCommand (s : State) (rsvd : BitVec 23) (op : BitVec 8) : Except Raise Unit :=
  if rsvd ≠ 0 then .error { err := .cmdReservedBits }
  else if isReservedOp op then .error { err := .cmdReservedOp }
  else if s.cfg.inCap < s.latch.inLen.toNat then .error { err := .cmdInLen }
  else if isUnsupOp op then .error { err := .feaMethod }
  else if isForkOp op && decide (s.cfg.outCap < s.latch.outLen.toNat) then .error { err := .resOutCap }
  else .ok ()

/-! ### The end of a job -/

/-- What a successful operation leaves (40_job_control.md R305, R320): the bytes it emitted, the result registers, the bytes it
writes to NAME if it writes any, the units' state and the cursors. -/
structure JobResult where
  out       : List Byte
  crcOut    : Half := 0
  result    : Word := 0
  dataLen   : Word := 0
  rsrcLen   : Word := 0
  mdType    : Word := 0
  mdCreator : Word := 0
  mdFlags   : Half := 0
  /-- The name bytes without the final 0x00, where the operation writes NAME. -/
  name      : Option (List Byte) := none
  units     : Units
  bpos      : Nat := 0
  bitpos    : Nat := 0

/-- NAME after a job: the name and then 0x00, or as it was (R320). -/
def nameAfter (m : Space) : Option (List Byte) → Space
  | none => m
  | some nm => m.writeList 0 (nm ++ [0])

/-- Successful job end (R305): OUT from index 0 on (R308), the result registers (R320), STATUS, phase IDLE. -/
def finishJob (s : State) (r : JobResult) : State :=
  { s with
    out := s.out.writeList 0 r.out
    name := nameAfter s.name r.name
    regs :=
      { s.regs with
        status := statusDone
        outCount := BitVec.ofNat 32 r.out.length
        crcOut := zext32 r.crcOut
        result := r.result
        dataLen := r.dataLen
        rsrcLen := r.rsrcLen
        mdType := r.mdType
        mdCreator := r.mdCreator
        mdFlags := zext32 r.mdFlags
        mdNameLen := BitVec.ofNat 32 (r.name.getD []).length }
    seq := { phase := .idle, outCount := r.out.length, bpos := r.bpos, bitpos := r.bitpos }
    units := r.units }

/-- `raise Error(class, code)` (60_exceptions.md R852): STATUS names the error, every result register is 0, phase IDLE. The
cursors stay where the error found them (20_memory.md R163). OUT and NAME (40_job_control.md R309) and the units' state (R852)
hold any value (log 7). -/
def raiseError (r : Raise) (s : State) : State :=
  { s with
    regs := s.regs.cleared r.err.status
    seq := { phase := .idle, outCount := r.outCount, bpos := r.bpos, bitpos := r.bitpos }
    out := Space.forget s.freeCtr
    name := Space.forget s.freeCtr
    units := Config.freeUnits s.freeCtr
    freeCtr := s.freeCtr + 1 }

/-- How a job ends: successfully, or with the first error its rules reach (60_exceptions.md R853). The writer's own check of
R308 stands here: no operation can fail it, since R301 step 5, 42_binhex.md R417 and 43_macbinary.md R463, R464 have
checked the output's length before (log 20). -/
def endJob (s : State) : Except Raise JobResult → Host.Outcome State Fault Refusal
  | .error r => .next (raiseError r s)
  | .ok r =>
    if s.cfg.outCap < r.out.length then
      .next (raiseError { err := .resOutCap, outCount := s.cfg.outCap, bpos := r.bpos, bitpos := r.bitpos } s)
    else .next (finishJob s r)

/-- The error recorded by a job whose input changed under it: any that a job can end with (70_reset_and_hazards.md R910). -/
def freeErr (n : Nat) : Err := Err.raisable.getD (Config.freeNat n 3 % Err.raisable.length) .decUnderflow

/-- The end of a job during which the host wrote IN (20_memory.md R176, 70_reset_and_hazards.md R910): DONE or ERR, and OUT,
NAME and every result register hold any value, the registers' reserved bits still 0 (log 8, log 24). -/
def endUnconstrained (s : State) : State :=
  let w := Config.freeWord s.freeCtr
  { s with
    regs :=
      { s.regs with
        status := if Config.freeNat s.freeCtr 4 % 2 = 0 then statusDone else (freeErr s.freeCtr).status
        outCount := w 0
        crcOut := w 1 &&& crcOutMask
        result := w 2 &&& resultMask
        dataLen := w 3
        rsrcLen := w 4
        mdType := w 5
        mdCreator := w 6
        mdFlags := w 7 &&& mdFlagsMask
        mdNameLen := w 8 &&& mdNameLenMask }
    seq :=
      { phase := .idle, outCount := Config.freeNat s.freeCtr 0, bpos := Config.freeNat s.freeCtr 1,
        bitpos := Config.freeNat s.freeCtr 2 }
    out := Space.forget s.freeCtr
    name := Space.forget s.freeCtr
    units := Config.freeUnits s.freeCtr
    freeCtr := s.freeCtr + 1 }

/-! ### The byte loop of a fork op -/

/-- `while out_count < J_OUT_LEN: emit(step())` (40_job_control.md R307): exactly `n` bytes, and no step after them. An error
comes after the bytes the steps before it gave. -/
def forkLoop {σ : Type} (produce : σ → Except Raise (Byte × σ)) : Nat → σ → Except Raise (List Byte × σ)
  | 0, u => .ok ([], u)
  | n + 1, u => do
    let (b, u) ← produce u
    let (bs, u) ← (forkLoop produce n u).mapError (Raise.after 1)
    .ok (b :: bs, u)

end Sys2Proof.Machine
end

