-- ==== Sys2Proof/Machine/Operands.lean ====
section
/-! DEFINITION. Every way an operation reads its operands: the latched input bytes, the byte cursor and the two bit cursors
(20_memory.md R160-R164), and big-endian fields (00_scope.md R10, 20_memory.md R155). -/

namespace Sys2Proof.Machine

/-- IN[0 .. J_IN_LEN-1], the job's "contiguous immutable byte slice" (10_state.md R54). -/
def jobInput (s : State) : List Byte := s.inn.slice .inn 0 s.latch.inLen.toNat

/-- J_OUT_LEN as a count. -/
def jobOutLen (s : State) : Nat := s.latch.outLen.toNat

/-- `ReadByte()` (R160) at the byte cursor `p`; past the end it raises TRN_EOF (R163). -/
def readByte (inp : List Byte) (p : Nat) : Except Raise (Byte × Nat) :=
  match inp[p]? with
  | none => .error (.atByte p .trnEof)
  | some b => .ok (b, p + 1)

/-- Stream bit `k` in LSB-first order (R161), as 0 or 1. -/
def bitLE (inp : List Byte) (k : Nat) : Nat := ((inp.getD (k / 8) 0).toNat >>> (k % 8)) % 2

/-- Stream bit `k` in MSB-first order (R162), as 0 or 1. -/
def bitBE (inp : List Byte) (k : Nat) : Nat := ((inp.getD (k / 8) 0).toNat >>> (7 - k % 8)) % 2

/-- The number whose bit `j` is stream bit `k + j`, LSB-first (R161). -/
def bitsLE (inp : List Byte) (k : Nat) : Nat → Nat
  | 0 => 0
  | n + 1 => bitLE inp k + 2 * bitsLE inp (k + 1) n

/-- The number whose most significant bit is stream bit `k`, MSB-first (R162). -/
def bitsBE (inp : List Byte) (k : Nat) : Nat → Nat
  | 0 => 0
  | n + 1 => 2 * bitsBE inp k n + bitBE inp (k + n)

/-- `ReadBitsLE(n)` (R161) at the bit cursor `k`; none past the end of input (R163). A field of 0 bits reads nothing. -/
def readBitsLE (inp : List Byte) (k n : Nat) : Option (Nat × Nat) :=
  if n = 0 then some (0, k)
  else if 8 * inp.length < k + n then none
  else some (bitsLE inp k n, k + n)

/-- `ReadBitsBE(n)` (R162) at the bit cursor `k`; none past the end of input (R163). -/
def readBitsBE (inp : List Byte) (k n : Nat) : Option (Nat × Nat) :=
  if n = 0 then some (0, k)
  else if 8 * inp.length < k + n then none
  else some (bitsBE inp k n, k + n)

/-- The outcome of a bit read at bit cursor `k` in a unit whose end-of-input error is `e`: the cursor does not move (R163). -/
def orEnd (e : Err) (k : Nat) : Option (Nat × Nat) → Except Raise (Nat × Nat)
  | none => .error (.atBit k e)
  | some r => .ok r

/-- `SkipBits(n)` (R164). -/
def skipBits (k n : Nat) : Nat := k + n

/-- `AlignByte()` (R164). -/
def alignByte (k : Nat) : Nat := 8 * ((k + 7) / 8)

/-- A big-endian number (R155). -/
def beNat (bs : List Byte) : Nat := bs.foldl (fun v b => 256 * v + b.toNat) 0

/-- `u8(p)` of 43_macbinary.md. -/
def u8 (inp : List Byte) (p : Nat) : Byte := inp.getD p 0

/-- `be16(p)` (00_scope.md R10). -/
def be16 (inp : List Byte) (p : Nat) : Half := BitVec.ofNat 16 (beNat ((inp.drop p).take 2))

/-- `be32(p)` (00_scope.md R10). -/
def be32 (inp : List Byte) (p : Nat) : Word := BitVec.ofNat 32 (beNat ((inp.drop p).take 4))

end Sys2Proof.Machine
end

