-- ==== Sys2Proof/Machine/Arsenic.lean ====
section
/-! DEFINITION. U_ARS, StuffIt method 15 "Arsenic" (47_arsenic.md): the arithmetic decoder and its models, the blocks, the inverse
BWT and randomisation, the final RLE, and the operation SIT_ARS. -/

namespace Sys2Proof.Machine

/-! ### Arithmetic decoding (R722-R725) -/

/-- A model after Init or Reset (R724): every frequency is the increment. -/
def arsModel (first last increment limit : Nat) : ArsModel :=
  let n := last + 1 - first
  { first, increment, limit, freq := List.replicate n increment, total := n * increment }

/-- The primary model (R721). -/
def arsPrimary : ArsModel := arsModel 0 1 1 256

/-- The selector model (R731). -/
def arsSelector : ArsModel := arsModel 0 10 8 1024

/-- The seven MTF group models (R731). -/
def arsGroups : Vector ArsModel 7 :=
  #v[arsModel 2 3 8 1024, arsModel 4 7 4 1024, arsModel 8 15 4 1024, arsModel 16 31 4 1024, arsModel 32 63 2 1024,
     arsModel 64 127 2 1024, arsModel 128 255 1 1024]

/-- Update(m, k) (R724), with the halving that rounds up. -/
def arsUpdate (m : ArsModel) (k : Nat) : ArsModel :=
  let freq := m.freq.modify k (· + m.increment)
  let total := m.total + m.increment
  if m.limit < total then
    let freq := freq.map fun f => (f + 1) / 2
    { m with freq, total := freq.sum }
  else { m with freq, total }

/-- The search of Decode (R723): the cumulative frequency below the symbol, the symbol's index, its frequency. The last symbol
takes every target at or above it. -/
def arsSearch (target : Nat) : List Nat → Nat → Nat → Nat × Nat × Nat
  | [], cum, k => (cum, k, 0)
  | [f], cum, k => (cum, k, f)
  | f :: g :: rest, cum, k => if cum + f ≤ target then arsSearch target (g :: rest) (cum + f) (k + 1) else (cum, k, f)

/-- `while range <= 2^24` of Decode (R723). Each turn reads one bit, so the bits left bound the turns; with none left the read
raises DEC_UNDERFLOW. -/
def arsRenorm (inp : List Byte) : Nat → Nat → Nat → Nat → Except Raise (Nat × Nat × Nat)
  | 0, range, code, k => if 2 ^ 24 < range then .ok (range, code, k) else .error (.atBit k .decUnderflow)
  | n + 1, range, code, k =>
    if 2 ^ 24 < range then .ok (range, code, k)
    else
      match readBitsBE inp k 1 with
      | none => .error (.atBit k .decUnderflow)
      | some (b, k) => arsRenorm inp n (2 * range) (2 * code + b) k

/-- What a decode leaves: range, code and the bit cursor. -/
structure ArsCoder where
  range : Nat
  code  : Nat
  pos   : Nat
deriving DecidableEq, Repr

/-- Decode(m) (R723): the symbol, the coder and the model after it. -/
def arsDecode (inp : List Byte) (c : ArsCoder) (m : ArsModel) : Except Raise (Nat × ArsCoder × ArsModel) :=
  let scale := c.range / m.total
  if scale = 0 then .error (.atBit c.pos .decArsZeroScale)
  else
    let (cum, k, f) := arsSearch (c.code / scale) m.freq 0 0
    let range := if cum + f = m.total then c.range - scale * cum else f * scale
    match arsRenorm inp (8 * inp.length - c.pos) range (c.code - scale * cum) c.pos with
    | .error e => .error e
    | .ok (range, code, pos) => .ok (m.first + k, { range, code, pos }, arsUpdate m k)

/-- The coder held in the unit, at bit cursor `k`. -/
def arsCoderOf (u : ArsUnit) (k : Nat) : ArsCoder := { range := u.range, code := u.code, pos := k }

/-- One symbol of the primary model. -/
def arsPrimarySym (inp : List Byte) (u : ArsUnit) (k : Nat) : Except Raise (Nat × ArsUnit × Nat) := do
  let (sym, c, m) ← arsDecode inp (arsCoderOf u k) u.primary
  .ok (sym, { u with range := c.range, code := c.code, primary := m }, c.pos)

/-- One symbol of the selector model. -/
def arsSelectorSym (inp : List Byte) (u : ArsUnit) (k : Nat) : Except Raise (Nat × ArsUnit × Nat) := do
  let (sym, c, m) ← arsDecode inp (arsCoderOf u k) u.selector
  .ok (sym, { u with range := c.range, code := c.code, selector := m }, c.pos)

/-- One symbol of MTF group model `g`. -/
def arsGroupSym (inp : List Byte) (g : Fin 7) (u : ArsUnit) (k : Nat) : Except Raise (Nat × ArsUnit × Nat) := do
  let (sym, c, m) ← arsDecode inp (arsCoderOf u k) u.groups[g]
  .ok (sym, { u with range := c.range, code := c.code, groups := u.groups.set g m }, c.pos)

/-- Field(primary, n) (R725): the first symbol decoded is the least significant bit. -/
def arsField (inp : List Byte) : Nat → ArsUnit → Nat → Except Raise (Nat × ArsUnit × Nat)
  | 0, u, k => .ok (0, u, k)
  | n + 1, u, k => do
    let (b, u, k) ← arsPrimarySym inp u k
    let (v, u, k) ← arsField inp n u k
    .ok (b + 2 * v, u, k)

/-! ### The stream header (R721) -/

/-- Reset(selector); Reset(group[0..6]) (R731). -/
def arsResetModels (u : ArsUnit) : ArsUnit := { u with selector := arsSelector, groups := arsGroups }

/-- The block size, `1 << (B + 9)` bytes (R721). -/
def arsBlockSize (u : ArsUnit) : Nat := 2 ^ (u.blockExp + 9)

/-- U_ARS once the 26 code bits are read: the job-start values of 10_state.md R88 and those that R721 and R720 assign. With L = 0 the
buffer and the LF-map have no entry (DEDUCED). DESIGN CHOICE: `randf`, `prim`, `idx`, `ti` and `rnext`, to which no rule gives a value before
the first block is fetched, start at false and 0, and SIT_ARS with OUT_LEN 0 leaves them so (log 23). -/
def arsInit (code : Nat) : ArsUnit :=
  { ArsUnit.blank with
    range := 2 ^ 25, code, primary := arsPrimary, selector := arsSelector, groups := arsGroups,
    mtf := (List.range 256).map (BitVec.ofNat 8) }

/-- ArsStart (R721), with `cap` = ARS_BLOCK_CAP. -/
def arsStart (cap : Nat) (inp : List Byte) : Except Raise (ArsUnit × Nat) := do
  let (code, k) ← orEnd .decUnderflow 0 (readBitsBE inp 0 26)
  let (a, u, k) ← arsField inp 8 (arsInit code) k
  if a ≠ 0x41 then .error (.atBit k .fmtArsSignature)
  else
    let (b, u, k) ← arsField inp 8 u k
    if b ≠ 0x73 then .error (.atBit k .fmtArsSignature)
    else
      let (blockExp, u, k) ← arsField inp 4 u k
      let u := { u with blockExp }
      if cap < arsBlockSize u then .error (.atBit k .resArsBlock)
      else
        let (eos, u, k) ← arsField inp 1 u k
        .ok (arsResetModels { u with eos := eos == 1 }, k)

/-! ### Block data (R732-R737). `rbuf` is the block buffer with the last byte first; `u.len` is its length, L. -/

/-- A bound on the decodes a job can make. A decode that reads no bit lowers range by at least 2^14, so at least one bit is
read in every 1025 decodes (70_reset_and_hazards.md R920; log 17). -/
def arsFuel (inp : List Byte) : Nat := 1025 * (8 * inp.length + 2)

/-- MtfDecode(i) (R732). -/
def arsMtf (u : ArsUnit) (rbuf : List Byte) (i : Nat) : Except Err (ArsUnit × List Byte) :=
  let b := u.mtf.getD i 0
  let u := { u with mtf := b :: u.mtf.eraseIdx i }
  if arsBlockSize u ≤ u.len then .error .decArsOverflow else .ok ({ u with len := u.len + 1 }, b :: rbuf)

/-- The zero-run sub-loop (R733): selectors 0 and 1 add digits; the total and the selector that ended the run. -/
def arsZeroRun (inp : List Byte) : Nat → Nat → Nat → Nat → ArsUnit → Nat → Except Raise (Nat × Nat × ArsUnit × Nat)
  | 0, _, _, _, _, k => .error (.atBit k .decUnderflow)
  | n + 1, total, p, sel, u, k =>
    if sel ≤ 1 then do
      let (next, u, k) ← arsSelectorSym inp u k
      arsZeroRun inp n (total + (sel + 1) * 2 ^ p) (p + 1) next u k
    else .ok (total, sel, u, k)

/-- The loop of DecodeBlockData (R733-R737) with current selector `sel`. -/
def arsBlockLoop (inp : List Byte) : Nat → Nat → ArsUnit → List Byte → Nat → Except Raise (ArsUnit × List Byte × Nat)
  | 0, _, _, _, k => .error (.atBit k .decUnderflow)
  | n + 1, sel, u, rbuf, k =>
    if sel ≤ 1 then do
      let (total, sel, u, k) ← arsZeroRun inp (arsFuel inp) 0 0 sel u k
      if arsBlockSize u < u.len + total then .error (.atBit k .decArsOverflow)
      else
        arsBlockLoop inp n sel { u with len := u.len + total } (List.replicate total (u.mtf.getD 0 0) ++ rbuf) k
    else if sel = 10 then .ok (u, rbuf, k)
    else if sel = 2 then do
      let (u, rbuf) ← (arsMtf u rbuf 1).mapError (.atBit k)
      let (sel, u, k) ← arsSelectorSym inp u k
      arsBlockLoop inp n sel u rbuf k
    else do
      let (i, u, k) ← arsGroupSym inp (Fin.ofNat 7 (sel - 3)) u k
      let (u, rbuf) ← (arsMtf u rbuf i).mapError (.atBit k)
      let (sel, u, k) ← arsSelectorSym inp u k
      arsBlockLoop inp n sel u rbuf k

/-- DecodeBlockData (R733): L and buf of the block. -/
def arsBlockData (inp : List Byte) (u : ArsUnit) (k : Nat) : Except Raise (ArsUnit × Nat) := do
  let (sel, u, k) ← arsSelectorSym inp { u with len := 0 } k
  let (u, rbuf, k) ← arsBlockLoop inp (arsFuel inp) sel u [] k
  .ok ({ u with buf := rbuf.reverse }, k)

/-- Footer() (R738): the CRC field is read and discarded. -/
def arsFooter (inp : List Byte) (u : ArsUnit) (k : Nat) : Except Raise (ArsUnit × Nat) := do
  let (eos, u, k) ← arsField inp 1 (arsResetModels u) k
  let u := { u with eos := eos == 1 }
  if eos = 1 then
    let (_, u, k) ← arsField inp 32 u k
    .ok (u, k)
  else .ok (u, k)

/-! ### Inverse BWT and randomisation (R740-R742) -/

/-- The LF-map of R741. T[base[c] + j] is the position of the j-th byte c, and base[c] counts the bytes below c: so T lists the
positions of byte 0, then those of byte 1, and so on, each in rising order. -/
def arsLfMap (buf : List Byte) : List Nat :=
  (List.range 256).flatMap fun c => (buf.zipIdx.filter fun p => p.1.toNat == c).map (·.2)

/-- ARS_RAND[i] (00_scope.md R7); `ti` is always below 256. -/
def arsRandAt (cfg : Config) (i : Nat) : Nat := cfg.arsRand.toList.getD i 0

/-- FetchBlock (R730). -/
def arsFetchBlock (cfg : Config) (inp : List Byte) (u : ArsUnit) (k : Nat) : Except Raise (ArsUnit × Nat) := do
  if u.eos then .error (.atBit k .trnArsEos)
  else
    let (randf, u, k) ← arsField inp 1 u k
    let (prim, u, k) ← arsField inp (u.blockExp + 9) u k
    let u := { arsResetModels u with randf := randf == 1, prim, mtf := (List.range 256).map (BitVec.ofNat 8) }
    let (u, k) ← arsBlockData inp u k
    let (u, k) ← arsFooter inp u k
    if 0 < u.len ∧ u.len ≤ u.prim then .error (.atBit k .decArsBwtIndex)
    else .ok ({ u with lfMap := arsLfMap u.buf, idx := u.prim, ti := 0, rnext := arsRandAt cfg 0, opos := 0 }, k)

/-- `while opos >= L: FetchBlock()` (R745): empty blocks are skipped. Every block takes decodes, so their bound bounds the
turns too (log 17). -/
def arsFetch (cfg : Config) (inp : List Byte) : Nat → ArsUnit → Nat → Except Raise (ArsUnit × Nat)
  | 0, _, k => .error (.atBit k .decUnderflow)
  | n + 1, u, k =>
    if u.len ≤ u.opos then do
      let (u, k) ← arsFetchBlock cfg inp u k
      arsFetch cfg inp n u k
    else .ok (u, k)

/-- BwtNext with Randomise (R741, R742). -/
def arsBwtNext (cfg : Config) (u : ArsUnit) : Except Err (Byte × ArsUnit) :=
  match u.lfMap[u.idx]? with
  | none => .error .decArsLfMap
  | some idx =>
    match u.buf[idx]? with
    | none => .error .decArsLfMap
    | some b =>
      if u.randf && u.opos == u.rnext then
        let ti := (u.ti + 1) % 256
        .ok (b ^^^ 0x01, { u with idx, opos := u.opos + 1, ti, rnext := u.rnext + arsRandAt cfg ti })
      else .ok (b, { u with idx, opos := u.opos + 1 })

/-- The next post-BWT byte, its block fetched where need be (R745). -/
def arsNextByte (cfg : Config) (inp : List Byte) (u : ArsUnit) (k : Nat) : Except Raise (Byte × ArsUnit × Nat) := do
  let (u, k) ← arsFetch cfg inp (arsFuel inp) u k
  let (b, u) ← (arsBwtNext cfg u).mapError (.atBit k)
  .ok (b, u, k)

/-! ### Final RLE (R745, R746) -/

/-- ARS_RLE_BYTE with a byte that is no count (R745). -/
def arsRlePlain (u : ArsUnit) (b : Byte) (k : Nat) : Byte × ArsUnit × Nat :=
  if b = u.rprev then (b, { u with streak := u.streak + 1 }, k) else (b, { u with rprev := b, streak := 1 }, k)

/-- ArsRleStep (R745, R746). A count of 0 is discarded and leaves streak 0, so the byte after it is no count. -/
def arsRleStep (cfg : Config) (inp : List Byte) : ArsUnit × Nat → Except Raise (Byte × ArsUnit × Nat)
  | (u, k) => do
    if 0 < u.rep then .ok (u.rprev, { u with rep := u.rep - 1 }, k)
    else
      let (b, u, k) ← arsNextByte cfg inp u k
      if u.streak = 4 then
        let u := { u with streak := 0 }
        if b = 0 then
          let (b, u, k) ← arsNextByte cfg inp u k
          .ok (arsRlePlain u b k)
        else .ok (u.rprev, { u with rep := b.toNat - 1 }, k)
      else .ok (arsRlePlain u b k)

/-- SIT_ARS (R720). No CRC is checked or stored (40_job_control.md R316, R317). -/
def sitArsJob (s : State) : Except Raise JobResult := do
  checkCommand s 0 0x0F
  let inp := jobInput s
  let start ← arsStart s.cfg.arsBlockCap inp
  let (fork, u, k) ← forkLoop (arsRleStep s.cfg inp) (jobOutLen s) start
  .ok { out := fork, units := { s.units with ars := u }, bitpos := k }

/-- SIT_ARS, OP 0x0F (R720). CRC_EN is ignored (40_job_control.md R316). -/
def execSitArs (_crcEn : Bool) (s : State) : Host.Outcome State Fault Refusal := endJob s (sitArsJob s)

end Sys2Proof.Machine
end

