-- ==== Sys2Proof/Machine/Crc.lean ====
section
/-! DEFINITION. U_CRC: the two CRC-16 algorithms (41_common.md R350-R353), the fork CRC check (40_job_control.md R316, R317),
and the operations CRC_XMODEM (R355) and CRC_ARC (R356). -/

namespace Sys2Proof.Machine

/-- One of the 8 shifts of CRC16_XMODEM (R350). -/
def crcXmodemShift (c : Half) : Half := if c.getLsbD 15 then (c <<< 1) ^^^ 0x1021 else c <<< 1

/-- `n` shifts of CRC16_XMODEM. -/
def crcXmodemShifts : Nat → Half → Half
  | 0, c => c
  | n + 1, c => crcXmodemShifts n (crcXmodemShift c)

/-- CRC16_XMODEM of one more byte (R350). -/
def crcXmodemByte (c : Half) (b : Byte) : Half := crcXmodemShifts 8 (c ^^^ (b.setWidth 16 <<< 8))

/-- `CRC16_XMODEM(d, c)` (R350). -/
def crcXmodem (d : List Byte) (c : Half := 0) : Half := d.foldl crcXmodemByte c

/-- One of the 8 shifts of CRC16_ARC (R351). -/
def crcArcShift (c : Half) : Half := if c.getLsbD 0 then (c >>> 1) ^^^ 0xA001 else c >>> 1

/-- `n` shifts of CRC16_ARC. -/
def crcArcShifts : Nat → Half → Half
  | 0, c => c
  | n + 1, c => crcArcShifts n (crcArcShift c)

/-- CRC16_ARC of one more byte (R351). -/
def crcArcByte (c : Half) (b : Byte) : Half := crcArcShifts 8 (c ^^^ b.setWidth 16)

/-- `CRC16_ARC(d)` (R351). -/
def crcArc (d : List Byte) : Half := d.foldl crcArcByte 0

/-- ForkCrcCheck (40_job_control.md R316): the CRC-16/ARC of the fork's bytes, or INT_FORK_CRC where CRC_EN asks for another. DESIGN
CHOICE: `fork` is the bytes the job produced, also where the host wrote OUT while BUSY = 1. R316 takes the CRC of OUT's bytes,
and 20_memory.md R176 leaves those that the host wrote unconstrained (log 33). -/
def forkCrcCheck (crcEn : Bool) (s : State) (fork : List Byte) : Except Err Half :=
  let c := crcArc fork
  if crcEn && c != s.latch.expCrc then .error .intForkCrc else .ok c

/-- The result of a StuffIt fork op of method 0, 1, 2 or 13 (40_job_control.md R316, R317, R320), with the units as its
decoder left them and the cursors. DESIGN CHOICE: CRC_OUT and INT_FORK_CRC stay defined where the host wrote OUT while BUSY = 1
(log 33), and ForkCrcCheck's `c` is left in U_CRC's register (10_state.md R89; log 32). -/
def forkResult (crcEn : Bool) (s : State) (fork : List Byte) (units : Units) (bpos bitpos : Nat) :
    Except Raise JobResult := do
  let c ← (forkCrcCheck crcEn s fork).mapError fun e => { err := e, outCount := fork.length, bpos, bitpos }
  .ok { out := fork, crcOut := c, units := { units with crc := { crc := c } }, bpos, bitpos }

/-- CRC_XMODEM (R355): every input byte is read and CRC_OUT is their CRC. -/
def crcXmodemJob (s : State) : Except Raise JobResult := do
  checkCommand s 0 0x40
  let inp := jobInput s
  let c := crcXmodem inp
  .ok { out := [], crcOut := c, units := { s.units with crc := { crc := c } }, bpos := inp.length }

/-- CRC_ARC (R356). DESIGN CHOICE: the byte cursor ends behind the input, which R356 reads without moving it (log 30). -/
def crcArcJob (s : State) : Except Raise JobResult := do
  checkCommand s 0 0x41
  let inp := jobInput s
  let c := crcArc inp
  .ok { out := [], crcOut := c, units := { s.units with crc := { crc := c } }, bpos := inp.length }

/-- CRC_XMODEM, OP 0x40 (R355). CRC_EN is ignored (30_encoding.md R203). -/
def execCrcXmodem (_crcEn : Bool) (s : State) : Host.Outcome State Fault Refusal := endJob s (crcXmodemJob s)

/-- CRC_ARC, OP 0x41 (R356). CRC_EN is ignored (30_encoding.md R203). -/
def execCrcArc (_crcEn : Bool) (s : State) : Host.Outcome State Fault Refusal := endJob s (crcArcJob s)

end Sys2Proof.Machine
end

