-- ==== Sys2Proof/Machine/BinHex.lean ====
section
/-! DEFINITION. U_HQX, BinHex 4.0 (42_binhex.md): the text envelope, the six-to-eight stage, BinHex RLE90, the container, and the
operations HQX_DETECT, HQX_FILE and HQX_WRAP. -/

namespace Sys2Proof.Machine

/-- PREAMBLE, the 40 ASCII bytes `(This file must be converted with BinHex`. -/
def hqxPreamble : List Byte :=
  bytesOf ([0x28, 0x54, 0x68, 0x69, 0x73, 0x20, 0x66, 0x69, 0x6C, 0x65, 0x20, 0x6D, 0x75, 0x73, 0x74, 0x20, 0x62, 0x65, 0x20, 0x63]
    ++ [0x6F, 0x6E, 0x76, 0x65, 0x72, 0x74, 0x65, 0x64, 0x20, 0x77, 0x69, 0x74, 0x68, 0x20, 0x42, 0x69, 0x6E, 0x48, 0x65, 0x78])

/-- WS: CR, LF, TAB and SP (30_encoding.md R209). -/
def isHqxWs (c : Byte) : Bool := c == 0x0D || c == 0x0A || c == 0x09 || c == 0x20

/-- A line break: CR or LF (R403). -/
def isLineBreak (c : Byte) : Bool := c == 0x0D || c == 0x0A

/-- The least `i` (counted from `k`) where PREAMBLE stands whole. -/
def findPreamble : List Byte → Nat → Option Nat
  | [], _ => none
  | c :: rest, k => if hqxPreamble.isPrefixOf (c :: rest) then some k else findPreamble rest (k + 1)

/-- The least index at or after `k` whose byte passes the test. -/
def findFrom (test : Byte → Bool) (inp : List Byte) (k : Nat) : Option Nat :=
  match (inp.drop k).findIdx? test with
  | none => none
  | some j => some (k + j)

/-- FindBody (R403): the index after the opening colon. It scans by index: the byte cursor is set only once the colon is found. -/
def findBody (inp : List Byte) : Except Raise Nat :=
  match findPreamble inp 0 with
  | none => .error { err := .fmtHqxNoPreamble }
  | some i =>
    match findFrom isLineBreak inp (i + 40) with
    | none => .error { err := .trnEof }
    | some j =>
      match findFrom (· == 0x3A) inp (j + 1) with
      | none => .error { err := .trnEof }
      | some k => .ok (k + 1)

/-- The 6-bit value of a body character: its index in HQX_ALPHABET (30_encoding.md R209). -/
def hqxIndex (cfg : Config) (c : Byte) : Option Nat := cfg.hqxAlphabet.toList.idxOf? c

/-- The loop of NextRaw (R405) over the input from byte cursor `p` on: characters are taken until 8 bits are buffered. -/
def hqxFill (cfg : Config) : List Byte → Nat → Nat → Nat → Except Raise (Nat × Nat × Nat)
  | rest, acc, nacc, p =>
    if 8 ≤ nacc then .ok (acc, nacc, p)
    else
      match rest with
      | [] => .error (.atByte p .trnEof)
      | c :: rest =>
        if isHqxWs c then hqxFill cfg rest acc nacc (p + 1)
        else if c = 0x3A then .error (.atByte (p + 1) .trnEof)
        else
          match hqxIndex cfg c with
          | none => .error (.atByte (p + 1) .decHqxBadChar)
          | some v => hqxFill cfg rest (64 * acc + v) (nacc + 6) (p + 1)

/-- NextRaw (R405): one raw byte, the oldest 8 buffered bits. -/
def hqxNextRaw (cfg : Config) (inp : List Byte) (u : HqxUnit) (p : Nat) : Except Raise (Byte × HqxUnit × Nat) := do
  let (acc, nacc, p) ← hqxFill cfg (inp.drop p) u.acc u.nacc p
  let nacc := nacc - 8
  .ok (BitVec.ofNat 8 (acc / 2 ^ nacc), { u with acc := acc % 2 ^ nacc, nacc }, p)

/-- NextByte: pending repeats (R413), a literal (R408), or the marker and what follows it (R409-R412). -/
def hqxNextByte (cfg : Config) (inp : List Byte) (u : HqxUnit) (p : Nat) : Except Raise (Byte × HqxUnit × Nat) := do
  if 0 < u.hrep then .ok (u.prev, { u with hrep := u.hrep - 1 }, p)
  else
    let (r, u, p) ← hqxNextRaw cfg inp u p
    if r ≠ 0x90 then .ok (r, { u with prev := r }, p)
    else
      let (n, u, p) ← hqxNextRaw cfg inp u p
      if n = 0x00 then .ok (0x90, { u with prev := 0x90 }, p)
      else if n = 0x01 then .error (.atByte p .decHqxRle01)
      else .ok (u.prev, { u with hrep := n.toNat - 2 }, p)

/-- `H()` of 42_binhex.md section 4: NextByte, with its byte fed to the section's CRC. -/
def hqxH (cfg : Config) (inp : List Byte) : HqxUnit × Nat → Except Raise (Byte × HqxUnit × Nat)
  | (u, p) => do
    let (b, u, p) ← hqxNextByte cfg inp u p
    .ok (b, { u with crc := crcXmodemByte u.crc b }, p)

/-- `n` bytes through `H()` that are not emitted: the job has written `emitted` bytes before them. -/
def hqxTake (cfg : Config) (inp : List Byte) (emitted n : Nat) (u : HqxUnit) (p : Nat) :
    Except Raise (List Byte × HqxUnit × Nat) :=
  (forkLoop (hqxH cfg inp) n (u, p)).mapError fun r => { r with outCount := emitted }

/-- `n` bytes through `H()`, each emitted, after `emitted` bytes before them. -/
def hqxEmit (cfg : Config) (inp : List Byte) (emitted n : Nat) (u : HqxUnit) (p : Nat) :
    Except Raise (List Byte × HqxUnit × Nat) :=
  (forkLoop (hqxH cfg inp) n (u, p)).mapError (.after emitted)

/-- The container header (R414), with the name length check (R415) and the header check (R416). -/
def hqxHeader (cfg : Config) (inp : List Byte) (u : HqxUnit) (p : Nat) : Except Raise (HqxUnit × Nat) := do
  let u := { u with crc := 0 }
  let (l, u, p) ← hqxH cfg inp (u, p)
  if l.toNat < 1 ∨ 63 < l.toNat then .error (.atByte p .valHqxNameLen)
  else
    let u := { u with nameLen := l.toNat }
    let (nm, u, p) ← hqxTake cfg inp 0 l.toNat u p
    let u := { u with nm }
    let (_, u, p) ← hqxTake cfg inp 0 1 u p
    let (type, u, p) ← hqxTake cfg inp 0 4 u p
    let (creator, u, p) ← hqxTake cfg inp 0 4 u p
    let (flags, u, p) ← hqxTake cfg inp 0 2 u p
    let (dl, u, p) ← hqxTake cfg inp 0 4 u p
    let (rl, u, p) ← hqxTake cfg inp 0 4 u p
    let u :=
      { u with
        type := BitVec.ofNat 32 (beNat type), creator := BitVec.ofNat 32 (beNat creator),
        flags := BitVec.ofNat 16 (beNat flags), dl := BitVec.ofNat 32 (beNat dl), rl := BitVec.ofNat 32 (beNat rl) }
    let (_, u, p) ← hqxTake cfg inp 0 2 u p
    if u.crc ≠ 0 then .error (.atByte p .valHqxHdrCrc) else .ok (u, p)

/-- The 2-byte CRC after a fork (R418, R419), and the error where the self-check fails (41_common.md R352). -/
def hqxForkCrc (cfg : Config) (inp : List Byte) (emitted : Nat) (e : Err) (u : HqxUnit) (p : Nat) :
    Except Raise (HqxUnit × Nat) := do
  let (_, u, p) ← hqxTake cfg inp emitted 2 u p
  if u.crc ≠ 0 then .error { err := e, outCount := emitted, bpos := p } else .ok (u, p)

/-- ScanClosingColon (R420) over the input from byte cursor `p` on: the cursor after the colon. -/
def hqxScanColon (cfg : Config) : List Byte → Nat → Except Raise Nat
  | [], p => .error (.atByte p .trnEof)
  | c :: rest, p =>
    if isHqxWs c then hqxScanColon cfg rest (p + 1)
    else if c = 0x3A then .ok (p + 1)
    else if (hqxIndex cfg c).isNone then .error (.atByte (p + 1) .decHqxBadChar)
    else hqxScanColon cfg rest (p + 1)

/-- The two modes of ParseContainer (R401, R402). -/
inductive HqxMode where
  | file
  | wrap
deriving DecidableEq, Repr

/-- The bytes of OUT a container needs (R417): DL + RL, or DL alone. -/
def hqxNeed (mode : HqxMode) (u : HqxUnit) : Nat :=
  match mode with
  | .file => u.dl.toNat + u.rl.toNat
  | .wrap => u.dl.toNat

/-- The resource fork's bytes (R419), emitted in FILE mode only. -/
def hqxRsrc (cfg : Config) (mode : HqxMode) (inp : List Byte) (u : HqxUnit) (p : Nat) :
    Except Raise (List Byte × HqxUnit × Nat) :=
  match mode with
  | .file => hqxEmit cfg inp u.dl.toNat u.rl.toNat { u with crc := 0 } p
  | .wrap => hqxTake cfg inp u.dl.toNat u.rl.toNat { u with crc := 0 } p

/-- FindBody, ParseContainer with the capacity check of R417, and ScanClosingColon (R401): the data fork, the resource fork,
the unit and the byte cursor. DESIGN CHOICE: `hq_phase` (10_state.md R82), which no rule assigns, becomes BODY once the opening
colon is found and DONE once the closing colon is read (log 31). -/
def hqxParse (cfg : Config) (mode : HqxMode) (inp : List Byte) :
    Except Raise (List Byte × List Byte × HqxUnit × Nat) := do
  let p ← findBody inp
  let (u, p) ← hqxHeader cfg inp { phase := .body } p
  if cfg.outCap < hqxNeed mode u then .error (.atByte p .resOutCap)
  else
    let (data, u, p) ← hqxEmit cfg inp 0 u.dl.toNat { u with crc := 0 } p
    let (u, p) ← hqxForkCrc cfg inp u.dl.toNat .valHqxDataCrc u p
    let (rsrc, u, p) ← hqxRsrc cfg mode inp u p
    let (u, p) ← hqxForkCrc cfg inp (hqxNeed mode u) .valHqxRsrcCrc u p
    let p ← (hqxScanColon cfg (inp.drop p) p).mapError (.after (hqxNeed mode u))
    .ok (data, rsrc, { u with phase := .done }, p)

/-- HQX_DETECT (R400): MATCH is 1 when PREAMBLE stands somewhere in the input. U_HQX stays at the job-start values of 10_state.md
R82, to which Dispatch sets it (40_job_control.md R302). DESIGN CHOICE: the probe reads by index and leaves the byte cursor at
0 (log 30). -/
def hqxDetectJob (s : State) : Except Raise JobResult := do
  checkCommand s 0 0x20
  .ok
    { out := [], result := resultWord (findPreamble (jobInput s) 0).isSome false false,
      units := { s.units with hqx := {} } }

/-- HQX_FILE (R401), with SetOutputs(FILE) (R425). -/
def hqxFileJob (s : State) : Except Raise JobResult := do
  checkCommand s 0 0x21
  let (data, rsrc, u, p) ← hqxParse s.cfg .file (jobInput s)
  .ok
    { out := data ++ rsrc, dataLen := u.dl, rsrcLen := u.rl, mdType := u.type, mdCreator := u.creator,
      mdFlags := hqxCleanFlags u.flags, name := some u.nm, units := { s.units with hqx := u }, bpos := p }

/-- HQX_WRAP (R402), with SetOutputs(WRAP) (R425): the data fork only; the resource fork is read and checked. -/
def hqxWrapJob (s : State) : Except Raise JobResult := do
  checkCommand s 0 0x22
  let (data, _, u, p) ← hqxParse s.cfg .wrap (jobInput s)
  .ok { out := data, units := { s.units with hqx := u }, bpos := p }

/-- HQX_DETECT, OP 0x20 (R400). CRC_EN is ignored (30_encoding.md R203). -/
def execHqxDetect (_crcEn : Bool) (s : State) : Host.Outcome State Fault Refusal := endJob s (hqxDetectJob s)

/-- HQX_FILE, OP 0x21 (R401). CRC_EN is ignored (30_encoding.md R203). -/
def execHqxFile (_crcEn : Bool) (s : State) : Host.Outcome State Fault Refusal := endJob s (hqxFileJob s)

/-- HQX_WRAP, OP 0x22 (R402). CRC_EN is ignored (30_encoding.md R203). -/
def execHqxWrap (_crcEn : Bool) (s : State) : Host.Outcome State Fault Refusal := endJob s (hqxWrapJob s)

end Sys2Proof.Machine
end

