-- ==== Sys2Proof/Machine/Huffman.lean ====
section
/-! DEFINITION. Canonical Huffman trees: building one from code lengths and decoding a symbol (41_common.md R360-R365). -/

namespace Sys2Proof.Machine

/-- `maxl`: the longest code length; 0 when every symbol is absent (R360). -/
def maxLength (lens : List Nat) : Nat := lens.foldl max 0

/-- `sum over l in 1..m of cnt[l] * 2^(m - l)` (R360), taken up to `l`. -/
def kraftSum (lens : List Nat) (m : Nat) : Nat → Nat
  | 0 => 0
  | l + 1 => kraftSum lens m l + lens.count (l + 1) * 2 ^ (m - (l + 1))

/-- The first code of each length (R360): 0 for length 1, then `(code + cnt[l-1]) << 1`. -/
def firstCode (lens : List Nat) : Nat → Nat
  | 0 => 0
  | l + 1 => if l = 0 then 0 else 2 * (firstCode lens l + lens.count l)

/-- The codeword of symbol `s` of length `l`: codes of one length are consecutive in symbol order (R360). -/
def codewordOf (lens : List Nat) (s l : Nat) : Code :=
  { sym := s, len := l, bits := firstCode lens l + (lens.take s).count l }

/-- The codewords of the present symbols, in symbol order. -/
def canonicalCodes (lens : List Nat) : Tree :=
  lens.zipIdx.filterMap fun p => if p.1 = 0 then none else some (codewordOf lens p.2 p.1)

/-- BuildCanonical (R360). An oversubscribed list raises DEC_HUFF_OVERSUB (R361); an incomplete or empty one is accepted. -/
def buildCanonical (lens : List Nat) : Except Err Tree :=
  let m := maxLength lens
  if 2 ^ m < kraftSum lens m m then .error .decHuffOversub else .ok (canonicalCodes lens)

/-- The tree of the (codeword, length) pairs of M13_META, inserted as given (46_method13.md R660). -/
def metaTree (cfg : Config) : Tree :=
  cfg.m13Meta.toList.zipIdx.map fun p => { sym := p.2, len := p.1.2, bits := p.1.1 }

/-- The bit-by-bit walk of Decode (R362), with `l` bits read and worth `v`. `eof` is the unit's end-of-input error; every bit read before an error has moved the cursor. A walk is
over at the longest codeword at the latest, so the number of bits is bounded by it. -/
def huffWalk (bit : Nat → Option (Nat × Nat)) (eof : Err) (t : Tree) : Nat → Nat → Nat → Nat →
    Except Raise (Nat × Nat)
  | 0, _, _, k => .error (.atBit k .decHuffNocode)
  | n + 1, v, l, k =>
    match bit k with
    | none => .error (.atBit k eof)
    | some (b, k) =>
      let v := 2 * v + b
      let l := l + 1
      match t.find? fun c => c.len == l && c.bits == v with
      | some c => .ok (c.sym, k)
      | none =>
        if t.any fun c => decide (l < c.len) && c.bits >>> (c.len - l) == v then huffWalk bit eof t n v l k
        else .error (.atBit k .decHuffNocode)

/-- Decode (R362) at bit cursor `k`: the symbol and the cursor after it. An empty tree raises DEC_HUFF_NOCODE (R363); with
`single`, a one-symbol tree reads no bits (R364). -/
def huffDecode (bit : Nat → Option (Nat × Nat)) (eof : Err) (single : Bool) (t : Tree) (k : Nat) :
    Except Raise (Nat × Nat) :=
  match t with
  | [] => .error (.atBit k .decHuffNocode)
  | [c] => if single then .ok (c.sym, k) else huffWalk bit eof t (maxLength (t.map (·.len)) + 1) 0 0 k
  | _ => huffWalk bit eof t (maxLength (t.map (·.len)) + 1) 0 0 k

end Sys2Proof.Machine
end

