-- ==== Sys2Proof/Machine/CompactPro.lean ====
section
/-! DEFINITION. Compact Pro: U_RLE81 (44_compactpro.md R502-R508), U_LZH (R520-R527), and the operations CPT_RLE (R500) and
CPT_LZH (R501). -/

namespace Sys2Proof.Machine

/-! ### RLE 0x81. `pull` is the source of the stage: ReadByte on IN, or LzhNext. -/

/-- What follows a byte 0x81 (R504, R503, R505, R506). -/
def rle81Escape {σ : Type} (pull : σ → Except Raise (Byte × σ)) (u : Rle81Unit) (c : σ) :
    Except Raise (Byte × Rle81Unit × σ) := do
  let (x, c) ← pull c
  if x = 0x82 then
    let (n, c) ← pull c
    if n = 0 then .ok (0x81, { u with saved := 0x82, runLeft := 1 }, c)
    else .ok (u.saved, { u with runLeft := n.toNat - 2 }, c)
  else if x = 0x81 then .ok (0x81, { u with saved := 0x81, halfEscape := true }, c)
  else .ok (0x81, { u with saved := x, runLeft := 1 }, c)

/-- Rle81Step (R508, R502, then R507 or the escape). -/
def rle81Step {σ : Type} (pull : σ → Except Raise (Byte × σ)) : Rle81Unit × σ → Except Raise (Byte × Rle81Unit × σ)
  | (u, c) => do
    if 0 < u.runLeft then .ok (u.saved, { u with runLeft := u.runLeft - 1 }, c)
    else if u.halfEscape then rle81Escape pull { u with halfEscape := false } c
    else
      let (b, c) ← pull c
      if b ≠ 0x81 then .ok (b, { u with saved := b }, c) else rle81Escape pull u c

/-- CPT_RLE (R500). -/
def cptRleJob (s : State) : Except Raise JobResult := do
  checkCommand s 0 0x10
  let (fork, u, p) ← forkLoop (rle81Step (readByte (jobInput s))) (jobOutLen s) ({}, 0)
  .ok { out := fork, units := { s.units with rle81 := u }, bpos := p }

/-- CPT_RLE, OP 0x10 (R500). CRC_EN is ignored (30_encoding.md R203). -/
def execCptRle (_crcEn : Bool) (s : State) : Host.Outcome State Fault Refusal := endJob s (cptRleJob s)

/-! ### LZH -/

/-- LZH_WINDOW (00_scope.md R7). -/
def lzhWindow : Nat := 8192

/-- LZH_COST_LIMIT (00_scope.md R7). -/
def lzhCostLimit : Nat := 0x1FFF0

/-- The unit's bit reads: MSB-first, and past the end the stream ends with TRN_LZH_END (R527; log 16). -/
def lzhBits (inp : List Byte) (k n : Nat) : Except Raise (Nat × Nat) := orEnd .trnLzhEnd k (readBitsBE inp k n)

/-- Decode of an LZH tree: no single-symbol case (41_common.md R364). -/
def lzhDecode (inp : List Byte) (t : Tree) (k : Nat) : Except Raise (Nat × Nat) :=
  huffDecode (fun k => readBitsBE inp k 1) .trnLzhEnd false t k

/-- The nibble pairs of ReadTable (R521), high nibble first. -/
def lzhNibbles (inp : List Byte) : Nat → Nat → Except Raise (List Nat × Nat)
  | 0, k => .ok ([], k)
  | n + 1, k => do
    let (v, k) ← lzhBits inp k 8
    let (rest, k) ← lzhNibbles inp n k
    .ok (v / 16 :: v % 16 :: rest, k)

/-- ReadTable(n) (R521). -/
def lzhReadTable (inp : List Byte) (n k : Nat) : Except Raise (Tree × Nat) := do
  let (nb, k) ← lzhBits inp k 8
  if n / 2 < nb then .error (.atBit k .decLzhTable)
  else
    let (lens, k) ← lzhNibbles inp nb k
    let t ← (buildCanonical (lens ++ List.replicate (n - 2 * nb) 0)).mapError (.atBit k)
    .ok (t, k)

/-- The start of a block (R520): its three tables. -/
def lzhStartBlock (inp : List Byte) (u : LzhUnit) (k : Nat) : Except Raise (LzhUnit × Nat) := do
  let (treeL, k) ← lzhReadTable inp 256 k
  let (treeN, k) ← lzhReadTable inp 64 k
  let (treeO, k) ← lzhReadTable inp 128 k
  .ok ({ u with treeL, treeN, treeO, blkDataStart := k, cost := 0, inblk := true }, k)

/-- BlockEnd (R524): the cursor after the alignment and the 2 or 3 bytes skipped. -/
def lzhBlockEnd (u : LzhUnit) (k : Nat) : Nat :=
  let k := alignByte k
  let nbytes := (k - u.blkDataStart) / 8
  skipBits k (8 * (if nbytes % 2 = 1 then 3 else 2))

/-- The distance of a 13-bit combined offset (R525). -/
def lzhDistance (v : Nat) : Nat := if v = 0 then 8192 else v

/-- One byte of the match being copied (R520; 20_memory.md R171). -/
def lzhCopy (u : LzhUnit) (k : Nat) : Byte × LzhUnit × Nat :=
  let (b, win, lpos) := winCopy u.win lzhWindow u.lpos u.mdist
  (b, { u with win, lpos, mlen := u.mlen - 1 }, k)

/-- LZH_LIT (R522). -/
def lzhLiteral (inp : List Byte) (u : LzhUnit) (k : Nat) : Except Raise (Byte × LzhUnit × Nat) := do
  let (sym, k) ← lzhDecode inp u.treeL k
  let b := BitVec.ofNat 8 sym
  let (win, lpos) := winPut u.win lzhWindow u.lpos b
  .ok (b, { u with win, lpos, cost := u.cost + 2 }, k)

/-- LZH_MATCH (R523): the unit with the match to copy. -/
def lzhMatch (inp : List Byte) (u : LzhUnit) (k : Nat) : Except Raise (LzhUnit × Nat) := do
  let (l, k) ← lzhDecode inp u.treeN k
  if l = 0 then .error (.atBit k .decLzhLen0)
  else
    let (hi, k) ← lzhDecode inp u.treeO k
    let (lo, k) ← lzhBits inp k 6
    .ok ({ u with mlen := l, mdist := lzhDistance (64 * hi + lo), cost := u.cost + 3 }, k)

/-- The symbol after the flag bit (R520); a match gives its first byte at once. -/
def lzhSymbol (inp : List Byte) (u : LzhUnit) (k : Nat) : Except Raise (Byte × LzhUnit × Nat) := do
  let (f, k) ← lzhBits inp k 1
  if f = 1 then lzhLiteral inp u k
  else
    let (u, k) ← lzhMatch inp u k
    .ok (lzhCopy u k)

/-- LzhNext (R520). A block that has reached the cost limit ends, and the next one's tables are read; a block just started has
cost 0. -/
def lzhNext (inp : List Byte) : LzhUnit × Nat → Except Raise (Byte × LzhUnit × Nat)
  | (u, k) => do
    if u.ended then .error (.atBit k .trnLzhEnd)
    else if 0 < u.mlen then .ok (lzhCopy u k)
    else if !u.inblk then
      let (u, k) ← lzhStartBlock inp u k
      lzhSymbol inp u k
    else if lzhCostLimit ≤ u.cost then
      let (u, k) ← lzhStartBlock inp { u with inblk := false } (lzhBlockEnd u k)
      lzhSymbol inp u k
    else lzhSymbol inp u k

/-- CPT_LZH (R501): the LZH stream feeds the RLE stage. With OUT_LEN 0 no block is started, and U_LZH keeps its job-start values, of
which some are the model's choice (log 23). -/
def cptLzhJob (s : State) : Except Raise JobResult := do
  checkCommand s 0 0x11
  let (fork, r, u, k) ← forkLoop (rle81Step (lzhNext (jobInput s))) (jobOutLen s) ({}, {}, 0)
  .ok { out := fork, units := { s.units with rle81 := r, lzh := u }, bitpos := k }

/-- CPT_LZH, OP 0x11 (R501). CRC_EN is ignored (30_encoding.md R203). -/
def execCptLzh (_crcEn : Bool) (s : State) : Host.Outcome State Fault Refusal := endJob s (cptLzhJob s)

end Sys2Proof.Machine
end

