-- ==== Sys2Proof/Machine/JobControl.lean ====
section
/-! DEFINITION. StuffIt method 0 and the commands that are errors: SIT_RAW (40_job_control.md R310), SIT_UNSUP (R311),
RESERVED_OP (30_encoding.md R202) and RESERVED_BITS (30_encoding.md R200). -/

namespace Sys2Proof.Machine

/-- The bytes of SIT_RAW (R310): one ReadByte for each byte emitted. -/
def sitRawStep (inp : List Byte) (p : Nat) : Except Raise (Byte × Nat) := readByte inp p

/-- SIT_RAW (R310). U_RAW has no state beyond the cursor (10_state.md R80). -/
def sitRawJob (crcEn : Bool) (s : State) : Except Raise JobResult := do
  checkCommand s 0 0x00
  let (fork, p) ← forkLoop (sitRawStep (jobInput s)) (jobOutLen s) 0
  forkResult crcEn s fork s.units p 0

/-- SIT_RAW, OP 0x00 (R310). -/
def execSitRaw (crcEn : Bool) (s : State) : Host.Outcome State Fault Refusal := endJob s (sitRawJob crcEn s)

/-- SIT_UNSUP (R311): CheckCommand raises FEA_METHOD at its step 4 (R301), before any input is read. -/
def sitUnsupJob (op : BitVec 8) (s : State) : Except Raise JobResult := do
  checkCommand s 0 op
  .error { err := .feaMethod }

/-- SIT_UNSUP, OP 0x03 (R311): StuffIt method 3. -/
def execSitUnsupM3 (_crcEn : Bool) (s : State) : Host.Outcome State Fault Refusal := endJob s (sitUnsupJob 0x03 s)

/-- SIT_UNSUP, OP 0x04 (R311): StuffIt method 4. -/
def execSitUnsupM4 (_crcEn : Bool) (s : State) : Host.Outcome State Fault Refusal := endJob s (sitUnsupJob 0x04 s)

/-- SIT_UNSUP, OP 0x05 (R311): StuffIt method 5. -/
def execSitUnsupM5 (_crcEn : Bool) (s : State) : Host.Outcome State Fault Refusal := endJob s (sitUnsupJob 0x05 s)

/-- SIT_UNSUP, OP 0x06 (R311): StuffIt method 6. -/
def execSitUnsupM6 (_crcEn : Bool) (s : State) : Host.Outcome State Fault Refusal := endJob s (sitUnsupJob 0x06 s)

/-- SIT_UNSUP, OP 0x07 (R311): StuffIt method 7. -/
def execSitUnsupM7 (_crcEn : Bool) (s : State) : Host.Outcome State Fault Refusal := endJob s (sitUnsupJob 0x07 s)

/-- SIT_UNSUP, OP 0x08 (R311): StuffIt method 8. -/
def execSitUnsupM8 (_crcEn : Bool) (s : State) : Host.Outcome State Fault Refusal := endJob s (sitUnsupJob 0x08 s)

/-- SIT_UNSUP, OP 0x09 (R311): StuffIt method 9. -/
def execSitUnsupM9 (_crcEn : Bool) (s : State) : Host.Outcome State Fault Refusal := endJob s (sitUnsupJob 0x09 s)

/-- SIT_UNSUP, OP 0x0A (R311): StuffIt method 10. -/
def execSitUnsupM10 (_crcEn : Bool) (s : State) : Host.Outcome State Fault Refusal := endJob s (sitUnsupJob 0x0A s)

/-- SIT_UNSUP, OP 0x0B (R311): StuffIt method 11. -/
def execSitUnsupM11 (_crcEn : Bool) (s : State) : Host.Outcome State Fault Refusal := endJob s (sitUnsupJob 0x0B s)

/-- SIT_UNSUP, OP 0x0C (R311): StuffIt method 12. -/
def execSitUnsupM12 (_crcEn : Bool) (s : State) : Host.Outcome State Fault Refusal := endJob s (sitUnsupJob 0x0C s)

/-- SIT_UNSUP, OP 0x0E (R311): StuffIt method 14. -/
def execSitUnsupM14 (_crcEn : Bool) (s : State) : Host.Outcome State Fault Refusal := endJob s (sitUnsupJob 0x0E s)

/-- RESERVED_OP (30_encoding.md R202): the job ends with Error(COMMAND, CMD_RESERVED_OP) and has no other effect. -/
def execReservedOp (_op : BitVec 8) (_crcEn : Bool) (s : State) : Host.Outcome State Fault Refusal :=
  endJob s (.error { err := .cmdReservedOp })

/-- RESERVED_BITS (30_encoding.md R200): the job ends with Error(COMMAND, CMD_RESERVED_BITS). -/
def execReservedBits (_rsvd : BitVec 23) (_crcEn : Bool) (_op : BitVec 8) (s : State) :
    Host.Outcome State Fault Refusal :=
  endJob s (.error { err := .cmdReservedBits })

end Sys2Proof.Machine
end

