-- ==== Sys2Proof/Machine/MacBinary.lean ====
section
/-! DEFINITION. U_MACB, MacBinary (43_macbinary.md): the header check, the fields, the fork positions, and the operations
BIN_DETECT, BIN_FILE and BIN_WRAP. -/

namespace Sys2Proof.Machine

/-- HeaderCheck (R451, R453, R452, in that order): whether the header was accepted by the MacBinary I rule. DESIGN CHOICE: the
header's CRC runs through no unit's register, since 10_state.md R83 gives U_MACB none and no rule says that U_CRC's (R89) is
used (log 32). -/
def macbHeaderCheck (inp : List Byte) : Except Err Bool :=
  if inp.length < 128 then .error .trnEof
  else if u8 inp 0 ≠ 0 ∨ u8 inp 74 ≠ 0 then .error .valMacbHeader
  else if (u8 inp 1).toNat < 1 ∨ 63 < (u8 inp 1).toNat then .error .valMacbNameLen
  else if crcXmodem (inp.take 124) = be16 inp 124 then .ok false
  else if u8 inp 82 = 0 then .ok true
  else .error .valMacbCrc

/-- `pad(x)`: what brings `x` to a multiple of 128 (R461). -/
def macbPad (x : Nat) : Nat := (128 - x % 128) % 128

/-- Where the data fork starts (R461). -/
def macbDf0 (sh : Nat) : Nat := 128 + (if sh ≠ 0 then sh + macbPad sh else 0)

/-- Where the resource fork starts (R461). -/
def macbRf0 (df0 dl : Nat) : Nat := df0 + dl + macbPad dl

/-- The header's fields (R456-R461; 30_encoding.md R213). -/
def macbFields (inp : List Byte) (macbin1 : Bool) : MacbUnit :=
  let dl := be32 inp 83
  let sh := be16 inp 120
  let df0 := macbDf0 sh.toNat
  { header := inp.take 128
    macbin1
    nameLen := (u8 inp 1).toNat
    nm := (inp.drop 2).take (u8 inp 1).toNat
    type := be32 inp 65
    creator := be32 inp 69
    flags := u8 inp 73 ++ u8 inp 101
    dl
    rl := be32 inp 87
    sh
    df0
    rf0 := macbRf0 df0 dl.toNat }

/-- The byte cursor once the header has been read. DESIGN CHOICE: 43_macbinary.md reads by index and never moves the cursor that
10_state.md R77 gives this unit; the model puts it behind what was read: 0 on an input too short for a header, else 128, and
then where `macbCursor` says (log 30). -/
def macbHeaderEnd (inp : List Byte) : Nat := if inp.length < 128 then 0 else 128

/-- HeaderCheck and the fields, with the fork length check of R458, DL first. -/
def macbHeader (inp : List Byte) : Except Raise MacbUnit := do
  let macbin1 ← (macbHeaderCheck inp).mapError (.atByte (macbHeaderEnd inp))
  let u := macbFields inp macbin1
  if 0x7FFFFFFF < u.dl.toNat then .error (.atByte (macbHeaderEnd inp) .valMacbForkLen)
  else if 0x7FFFFFFF < u.rl.toNat then .error (.atByte (macbHeaderEnd inp) .valMacbForkLen)
  else .ok u

/-- The byte cursor after `n` bytes of a fork were read; an empty fork reads nothing. DESIGN CHOICE: the spec reads forks by
index (ReadAt, R463) and does not say where this leaves the cursor; the model puts it behind the last byte read (log 30). -/
def macbCursor (p start n : Nat) : Nat := if n = 0 then p else start + n

/-- `for i in 0..n-1: emit(ReadAt(start + i))` (R463), with the byte cursor at `p` and `emitted` bytes written before: the fork
and the cursor. TRN_EOF where a byte is missing (R461), after the bytes before it. -/
def macbFork (inp : List Byte) (p emitted start n : Nat) : Except Raise (List Byte × Nat) :=
  let fork := (inp.drop start).take n
  if 0 < n ∧ inp.length < start + n then
    .error { err := .trnEof, outCount := emitted + fork.length, bpos := macbCursor p start fork.length }
  else .ok (fork, macbCursor p start n)

/-- The nine signatures of StuffIt classic (R465): `SIT!`, `ST46`, `ST50`, `ST60`, `ST65`, `STin`, `STi2`, `STi3`, `STi4`. -/
def sitSignatures : List (List Byte) :=
  [bytesOf [0x53, 0x49, 0x54, 0x21], bytesOf [0x53, 0x54, 0x34, 0x36], bytesOf [0x53, 0x54, 0x35, 0x30],
   bytesOf [0x53, 0x54, 0x36, 0x30], bytesOf [0x53, 0x54, 0x36, 0x35], bytesOf [0x53, 0x54, 0x69, 0x6E],
   bytesOf [0x53, 0x54, 0x69, 0x32], bytesOf [0x53, 0x54, 0x69, 0x33], bytesOf [0x53, 0x54, 0x69, 0x34]]

/-- `rLau` (R465). -/
def sitMark : List Byte := bytesOf [0x72, 0x4C, 0x61, 0x75]

/-- `StuffIt (c)1997-` (R465). -/
def sit5Start : List Byte :=
  bytesOf [0x53, 0x74, 0x75, 0x66, 0x66, 0x49, 0x74, 0x20, 0x28, 0x63, 0x29, 0x31, 0x39, 0x39, 0x37, 0x2D]

/-- ` Aladdin Systems, Inc., http://www.aladdinsys.com/StuffIt/` (R465), 58 bytes. -/
def sit5Rest : List Byte :=
  bytesOf ([0x20, 0x41, 0x6C, 0x61, 0x64, 0x64, 0x69, 0x6E, 0x20, 0x53, 0x79, 0x73, 0x74, 0x65, 0x6D, 0x73, 0x2C, 0x20, 0x49, 0x6E]
    ++ [0x63, 0x2E, 0x2C, 0x20, 0x68, 0x74, 0x74, 0x70, 0x3A, 0x2F, 0x2F, 0x77, 0x77, 0x77, 0x2E, 0x61, 0x6C, 0x61, 0x64, 0x64]
    ++ [0x69, 0x6E, 0x73, 0x79, 0x73, 0x2E, 0x63, 0x6F, 0x6D, 0x2F, 0x53, 0x74, 0x75, 0x66, 0x66, 0x49, 0x74, 0x2F])

/-- SitSignature (R465) of a data fork's bytes. A test that needs a byte beyond the fork fails. -/
def sitSignature (fork : List Byte) : Bool :=
  (sitSignatures.any (fun m => fork.take 4 == m) && (fork.drop 10).take 4 == sitMark) ||
  (fork.take 16 == sit5Start && (fork.drop 20).take 58 == sit5Rest)

/-- U_MACB after the probe. Dispatch sets it to its job-start values (40_job_control.md R302), which are blank; then the header, if
there is one, has been read (10_state.md R83) and HeaderCheck has set `macbin1` where it raised nothing (R452). The fields of
R456-R460 are not derived (log 23). -/
def macbProbed (inp : List Byte) : MacbUnit :=
  { header := if inp.length < 128 then [] else inp.take 128
    macbin1 :=
      match macbHeaderCheck inp with
      | .ok macbin1 => macbin1
      | .error _ => false }

/-- BIN_DETECT (R450): MATCH is 1 when HeaderCheck raises nothing. DESIGN CHOICE: the probe leaves the byte cursor at 0 (log 30)
and U_CRC as it was (log 32). -/
def binDetectJob (s : State) : Except Raise JobResult := do
  checkCommand s 0 0x30
  let inp := jobInput s
  .ok
    { out := [], result := resultWord (macbHeaderCheck inp).isOk false false,
      units := { s.units with macb := macbProbed inp } }

/-- BIN_FILE (R463), with SetOutputs(FILE) (R467). Where the byte cursor ends is `macbCursor`'s choice (log 30). DESIGN CHOICE: U_CRC
stays as it was (log 32). -/
def binFileJob (s : State) : Except Raise JobResult := do
  checkCommand s 0 0x31
  let inp := jobInput s
  let u ← macbHeader inp
  let p := macbHeaderEnd inp
  if s.cfg.outCap < u.dl.toNat + u.rl.toNat then .error (.atByte p .resOutCap)
  else
    let (data, p) ← macbFork inp p 0 u.df0 u.dl.toNat
    let (rsrc, p) ← macbFork inp p u.dl.toNat u.rf0 u.rl.toNat
    .ok
      { out := data ++ rsrc, result := resultWord false u.macbin1 false, dataLen := u.dl, rsrcLen := u.rl,
        mdType := u.type, mdCreator := u.creator, mdFlags := macbCleanFlags u.flags, name := some u.nm,
        units := { s.units with macb := u }, bpos := p }

/-- BIN_WRAP (R464): the resource fork where the data fork has no StuffIt signature and a resource fork is present, else the
data fork. The check of the data fork and its signature move no cursor; where it ends is `macbCursor`'s choice (log 30). DESIGN
CHOICE: U_CRC stays as it was (log 32). -/
def binWrapJob (s : State) : Except Raise JobResult := do
  checkCommand s 0 0x32
  let inp := jobInput s
  let u ← macbHeader inp
  let p := macbHeaderEnd inp
  if 0 < u.dl.toNat ∧ inp.length < u.df0 + u.dl.toNat then .error (.atByte p .trnEof)
  else
    let rsrcSel := !sitSignature ((inp.drop u.df0).take u.dl.toNat) && decide (0 < u.rl.toNat)
    let start := if rsrcSel then u.rf0 else u.df0
    let len := if rsrcSel then u.rl.toNat else u.dl.toNat
    if s.cfg.outCap < len then .error (.atByte p .resOutCap)
    else
      let (fork, p) ← macbFork inp p 0 start len
      .ok
        { out := fork, result := resultWord false u.macbin1 rsrcSel, units := { s.units with macb := u }, bpos := p }

/-- BIN_DETECT, OP 0x30 (R450). CRC_EN is ignored (30_encoding.md R203). -/
def execBinDetect (_crcEn : Bool) (s : State) : Host.Outcome State Fault Refusal := endJob s (binDetectJob s)

/-- BIN_FILE, OP 0x31 (R463). CRC_EN is ignored (30_encoding.md R203). -/
def execBinFile (_crcEn : Bool) (s : State) : Host.Outcome State Fault Refusal := endJob s (binFileJob s)

/-- BIN_WRAP, OP 0x32 (R464). CRC_EN is ignored (30_encoding.md R203). -/
def execBinWrap (_crcEn : Bool) (s : State) : Host.Outcome State Fault Refusal := endJob s (binWrapJob s)

end Sys2Proof.Machine
end

