-- ==== Sys2Proof/Machine/Method13.lean ====
section
/-! DEFINITION. U_M13, StuffIt method 13 (46_method13.md): the header, the tree serialisation, the main loop, and the operation
SIT_M13. -/

namespace Sys2Proof.Machine

/-- M13_WINDOW (00_scope.md R7). -/
def m13Window : Nat := 65536

/-- The unit's bit reads: LSB-first, and DEC_UNDERFLOW past the end (20_memory.md R163). -/
def m13Bits (inp : List Byte) (k n : Nat) : Except Raise (Nat × Nat) := orEnd .decUnderflow k (readBitsLE inp k n)

/-- Decode of a method-13 tree (41_common.md R362); `single` is R364's case. -/
def m13Decode (inp : List Byte) (single : Bool) (t : Tree) (k : Nat) : Except Raise (Nat × Nat) :=
  huffDecode (fun k => readBitsLE inp k 1) .decUnderflow single t k

/-- `Put(v)` of R661, `c` times: DEC_M13_LENGTHS at the first length past position `n` (R665). `lens` holds the lengths so far,
the last one first, and `k` is the bit cursor. -/
def m13Put (n : Nat) (lens : List Nat) (v c k : Nat) : Except Raise (List Nat) :=
  if n < lens.length + c then .error (.atBit k .decM13Lengths) else .ok (List.replicate c v ++ lens)

/-- One command of a length list (R662, R663) and its standard emit: the running length, the lengths and the cursor. A
running length below 0 or above 32 raises DEC_M13_LENGTHS (R664). -/
def m13Command (inp : List Byte) (n c cur : Nat) (lens : List Nat) (k : Nat) : Except Raise (Nat × List Nat × Nat) := do
  if c ≤ 30 then
    .ok (c + 1, ← m13Put n lens (c + 1) 1 k, k)
  else if c = 31 then
    .ok (0, ← m13Put n lens 0 1 k, k)
  else if c = 32 then
    if 32 < cur + 1 then .error (.atBit k .decM13Lengths) else .ok (cur + 1, ← m13Put n lens (cur + 1) 1 k, k)
  else if c = 33 then
    if cur = 0 then .error (.atBit k .decM13Lengths) else .ok (cur - 1, ← m13Put n lens (cur - 1) 1 k, k)
  else if c = 34 then
    let (e, k) ← m13Bits inp k 1
    .ok (cur, ← m13Put n lens cur (e + 1) k, k)
  else if c = 35 then
    let (e, k) ← m13Bits inp k 3
    .ok (cur, ← m13Put n lens cur (e + 3) k, k)
  else
    let (e, k) ← m13Bits inp k 6
    .ok (cur, ← m13Put n lens cur (e + 11) k, k)

/-- The loop of ReadLengths (R661): every command gives at least one length, so `n` turns reach position `n`. -/
def m13Lengths (cfg : Config) (inp : List Byte) (n : Nat) :
    Nat → Nat → List Nat → Nat → Except Raise (List Nat × Nat)
  | 0, _, lens, k => .ok (lens.reverse, k)
  | turns + 1, cur, lens, k =>
    if n ≤ lens.length then .ok (lens.reverse, k)
    else do
      let (c, k) ← m13Decode inp false (metaTree cfg) k
      let (cur, lens, k) ← m13Command inp n c cur lens k
      m13Lengths cfg inp n turns cur lens k

/-- ReadLengths(n) (R661) and the tree built from it at once (R651, R666). -/
def m13ReadTree (cfg : Config) (inp : List Byte) (n k : Nat) : Except Raise (Tree × Nat) := do
  let (lens, k) ← m13Lengths cfg inp n n 0 [] k
  let t ← (buildCanonical lens).mapError (.atBit k)
  .ok (t, k)

/-- M13_LITLEN_SYMS (00_scope.md R7). -/
def m13LitLenSyms : Nat := 321

/-- The trees of dynamic mode (R654): T1, T2 unless S makes it T1, TD of K + 10 symbols. -/
def m13DynamicTrees (cfg : Config) (inp : List Byte) (u : M13Unit) (k : Nat) : Except Raise (M13Unit × Nat) := do
  let (t1, k) ← m13ReadTree cfg inp m13LitLenSyms k
  let (t2, k) ← if u.s then .ok (t1, k) else m13ReadTree cfg inp m13LitLenSyms k
  let (td, k) ← m13ReadTree cfg inp (u.k + 10) k
  .ok ({ u with t1, t2, td }, k)

/-- M13_PREDEF[SET] (R653), SET in 1..5. -/
def m13Predefined (cfg : Config) (set : Nat) : TreeSet := cfg.m13Predef.toList.getD (set - 1) default

/-- The error of a job whose byte cursor has read the header byte (R651). -/
def Raise.afterM13Header (r : Raise) : Raise := { r with bpos := 1 }

/-- M13Start (R651): the header byte and the trees, also when no output is asked for. -/
def m13Start (cfg : Config) (inp : List Byte) : Except Raise (M13Unit × Nat) :=
  match inp[0]? with
  | none => .error { err := .decUnderflow }
  | some h =>
    let set := h.toNat / 16
    let u : M13Unit := { set, s := h.getLsbD 3, k := h.toNat % 8 }
    if 6 ≤ set then .error { err := .valM13Set, bpos := 1, bitpos := 8 }
    else if 1 ≤ set then
      let p := m13Predefined cfg set
      .ok ({ u with t1 := p.t1, t2 := p.t2, td := p.td }, 8)
    else (m13DynamicTrees cfg inp u 8).mapError .afterM13Header

/-- The active tree (R674). -/
def m13ActiveTree (u : M13Unit) : Tree :=
  match u.active with
  | .t1 => u.t1
  | .t2 => u.t2

/-- Literal(sym) (R670). -/
def m13Literal (u : M13Unit) (sym k : Nat) : Byte × M13Unit × Nat :=
  let b := BitVec.ofNat 8 sym
  let (win, mpos) := winPut u.win m13Window u.mpos b
  (b, { u with win, mpos, active := .t1 }, k)

/-- The length of a length symbol 256..319 (R671; 30_encoding.md R220). -/
def m13Length (inp : List Byte) (sym k : Nat) : Except Raise (Nat × Nat) := do
  if sym ≤ 317 then .ok (sym - 253, k)
  else if sym = 318 then
    let (x, k) ← m13Bits inp k 10
    .ok (x + 65, k)
  else
    let (x, k) ← m13Bits inp k 15
    .ok (x + 65, k)

/-- The distance of a distance symbol (R671; 30_encoding.md R221). -/
def m13Distance (inp : List Byte) (d k : Nat) : Except Raise (Nat × Nat) := do
  if d = 0 then .ok (1, k)
  else
    let (x, k) ← m13Bits inp k (d - 1)
    .ok (2 ^ (d - 1) + x + 1, k)

/-- Match(sym) (R671): the unit with the match to copy. -/
def m13Match (inp : List Byte) (u : M13Unit) (sym k : Nat) : Except Raise (M13Unit × Nat) := do
  let (mlen, k) ← m13Length inp sym k
  let (d, k) ← m13Decode inp true u.td k
  let (mdist, k) ← m13Distance inp d k
  .ok ({ u with mlen, mdist, active := .t2 }, k)

/-- One byte of the match being copied (R673; 20_memory.md R171). -/
def m13Copy (u : M13Unit) (k : Nat) : Byte × M13Unit × Nat :=
  let (b, win, mpos) := winCopy u.win m13Window u.mpos u.mdist
  (b, { u with win, mpos, mlen := u.mlen - 1 }, k)

/-- M13Step (R650). -/
def m13Step (inp : List Byte) : M13Unit × Nat → Except Raise (Byte × M13Unit × Nat)
  | (u, k) => do
    if 0 < u.mlen then .ok (m13Copy u k)
    else
      let (sym, k) ← m13Decode inp true (m13ActiveTree u) k
      if sym ≤ 255 then .ok (m13Literal u sym k)
      else if sym ≤ 319 then
        let (u, k) ← m13Match inp u sym k
        .ok (m13Copy u k)
      else .error (.atBit k .decM13Sym320)

/-- SIT_M13 (R650). -/
def sitM13Job (crcEn : Bool) (s : State) : Except Raise JobResult := do
  checkCommand s 0 0x0D
  let inp := jobInput s
  let start ← m13Start s.cfg inp
  let (fork, u, k) ← (forkLoop (m13Step inp) (jobOutLen s) start).mapError .afterM13Header
  forkResult crcEn s fork { s.units with m13 := u } 1 k

/-- SIT_M13, OP 0x0D (R650). -/
def execSitM13 (crcEn : Bool) (s : State) : Host.Outcome State Fault Refusal := endJob s (sitM13Job crcEn s)

end Sys2Proof.Machine
end

