-- ==== Sys2Proof/Machine/StuffIt.lean ====
section
/-! DEFINITION. StuffIt methods 1 and 2: SIT_RLE90 (45_stuffit_rle90_lzw.md R580-R586) and SIT_LZW (R600-R610). -/

namespace Sys2Proof.Machine

/-! ### Method 1: RLE90 -/

/-- The loop of Rle90sStep (R580) once no copy is pending: `rest` is the input from the byte cursor `p` on. A run leaves
`N - 1` copies, of which this step emits the first (R581, R585). -/
def rle90Scan (last : Byte) : List Byte → Nat → Except Raise (Byte × Rle90Unit × Nat)
  | [], p => .error (.atByte p .trnEof)
  | [b], p => if b ≠ 0x90 then .ok (b, { last := b, rep := 0 }, p + 1) else .error (.atByte (p + 1) .trnEof)
  | b :: n :: rest, p =>
    if b ≠ 0x90 then .ok (b, { last := b, rep := 0 }, p + 1)
    else if n = 0x00 then .ok (0x90, { last, rep := 0 }, p + 2)
    else if n = 0x01 then rle90Scan last rest (p + 2)
    else .ok (last, { last, rep := n.toNat - 2 }, p + 2)

/-- Rle90sStep (R580). -/
def rle90Step (inp : List Byte) : Rle90Unit × Nat → Except Raise (Byte × Rle90Unit × Nat)
  | (u, p) =>
    if 0 < u.rep then .ok (u.last, { u with rep := u.rep - 1 }, p) else rle90Scan u.last (inp.drop p) p

/-- SIT_RLE90 (R580). -/
def sitRle90Job (crcEn : Bool) (s : State) : Except Raise JobResult := do
  checkCommand s 0 0x01
  let (fork, u, p) ← forkLoop (rle90Step (jobInput s)) (jobOutLen s) ({}, 0)
  forkResult crcEn s fork { s.units with rle90 := u } p 0

/-- SIT_RLE90, OP 0x01 (R580). -/
def execSitRle90 (crcEn : Bool) (s : State) : Host.Outcome State Fault Refusal := endJob s (sitRle90Job crcEn s)

/-! ### Method 2: LZW -/

/-- LZW_DICT_CAP (00_scope.md R7). -/
def lzwDictCap : Nat := 16384

/-- Entry `e` of the four arrays: the identity below 256, else what AddEntry wrote (10_state.md R86). -/
def lzwEntry (u : LzwUnit) (e : Nat) : LzwEntry :=
  if e < 256 then { parent := none, suffix := BitVec.ofNat 8 e, head := BitVec.ofNat 8 e, chainlen := 1 }
  else (sparseGet u.dict e).getD (Config.freeLzwEntry e)

/-- The walk of String(c) (R605), the last byte first. A chain is no longer than the dictionary. -/
def lzwChain (u : LzwUnit) : Nat → Option Nat → List Byte → List Byte
  | 0, _, acc => acc
  | _ + 1, none, acc => acc
  | n + 1, some c, acc =>
    let e := lzwEntry u c
    lzwChain u n e.parent (e.suffix :: acc)

/-- String(c) (R605): the bytes of an entry. -/
def lzwString (u : LzwUnit) (c : Nat) : List Byte := lzwChain u lzwDictCap (some c) []

/-- Widen (R601). -/
def lzwWiden (u : LzwUnit) : LzwUnit :=
  if 2 ^ u.codeBits ≤ u.nextFree ∧ u.codeBits < 14 then { u with codeBits := u.codeBits + 1 } else u

/-- The state ClearCode leaves (R603); the entries written stay, unread. -/
def lzwReset (u : LzwUnit) : LzwUnit := { u with codeBits := 9, nextFree := 257, prev := none, blockCount := 0 }

/-- The skip of ClearCode (R603, 30_encoding.md R206), in bits: to the end of the 8-code block, of which `blockCount` codes, the
clear among them, have been read. -/
def lzwClearSkip (u : LzwUnit) : Nat := u.codeBits * ((8 - u.blockCount) % 8)

/-- AddEntry (R607). A full dictionary takes no entry. -/
def lzwAddEntry (u : LzwUnit) (p : Nat) (f : Byte) : LzwUnit :=
  if u.nextFree < lzwDictCap then
    let pe := lzwEntry u p
    { u with
      dict := sparseSet u.dict u.nextFree { parent := some p, suffix := f, head := pe.head, chainlen := pe.chainlen + 1 }
      nextFree := u.nextFree + 1 }
  else u

/-- The string of a code that is not a clear (R604, R605, R606), or DEC_LZW_CODE (R608). -/
def lzwExpand (u : LzwUnit) (code : Nat) : Except Err (List Byte) :=
  match u.prev with
  | none => if 255 < code then .error .decLzwCode else .ok [BitVec.ofNat 8 code]
  | some p =>
    if code < u.nextFree then .ok (lzwString u code)
    else if code = u.nextFree then .ok (lzwString u p ++ [(lzwEntry u p).head])
    else .error .decLzwCode

/-- The entry added after a code (R607): none after the first code of a reset. -/
def lzwLearn (u : LzwUnit) (str : List Byte) : LzwUnit :=
  match u.prev with
  | none => u
  | some p => lzwAddEntry u p (str.headD 0)

/-- The loop of LzwStep (R600): codes are read until one gives a string. Each turn reads at least 9 bits, so the input's
length bounds the turns; past it the next read raises DEC_UNDERFLOW (R610). -/
def lzwNextCode (inp : List Byte) : Nat → LzwUnit → Nat → Except Raise (Byte × LzwUnit × Nat)
  | 0, _, k => .error (.atBit k .decUnderflow)
  | n + 1, u, k =>
    let u := lzwWiden u
    match readBitsLE inp k u.codeBits with
    | none => .error (.atBit k .decUnderflow)
    | some (code, k) =>
      let u := { u with blockCount := (u.blockCount + 1) % 8 }
      if code = 256 then lzwNextCode inp n (lzwReset u) (skipBits k (lzwClearSkip u))
      else
        match lzwExpand u code with
        | .error e => .error (.atBit k e)
        | .ok str =>
          let u := lzwLearn u str
          .ok (str.headD 0, { u with prev := some code, stage := str, stageIdx := 1 }, k)

/-- LzwStep (R600): the staged string first (R609), then the next code. -/
def lzwStep (inp : List Byte) : LzwUnit × Nat → Except Raise (Byte × LzwUnit × Nat)
  | (u, k) =>
    match u.stage[u.stageIdx]? with
    | some b => .ok (b, { u with stageIdx := u.stageIdx + 1 }, k)
    | none => lzwNextCode inp (inp.length + 1) u k

/-- SIT_LZW (R600). -/
def sitLzwJob (crcEn : Bool) (s : State) : Except Raise JobResult := do
  checkCommand s 0 0x02
  let (fork, u, k) ← forkLoop (lzwStep (jobInput s)) (jobOutLen s) ({}, 0)
  forkResult crcEn s fork { s.units with lzw := u } 0 k

/-- SIT_LZW, OP 0x02 (R600). -/
def execSitLzw (crcEn : Bool) (s : State) : Host.Outcome State Fault Refusal := endJob s (sitLzwJob crcEn s)

end Sys2Proof.Machine
end

