-- ==== Sys2Proof/Machine/Dispatch.lean ====
section
/-! DEFINITION. Dispatch (40_job_control.md R302): one arm per constructor of Instr, each one call of its meaning. -/

namespace Sys2Proof.Machine

def exec (i : Instr) (s : State) : Host.Outcome State Fault Refusal :=
  match i with
  | .sitRaw crcEn => Sys2Proof.Machine.execSitRaw crcEn s
  | .sitRle90 crcEn => Sys2Proof.Machine.execSitRle90 crcEn s
  | .sitLzw crcEn => Sys2Proof.Machine.execSitLzw crcEn s
  | .sitUnsupM3 crcEn => Sys2Proof.Machine.execSitUnsupM3 crcEn s
  | .sitUnsupM4 crcEn => Sys2Proof.Machine.execSitUnsupM4 crcEn s
  | .sitUnsupM5 crcEn => Sys2Proof.Machine.execSitUnsupM5 crcEn s
  | .sitUnsupM6 crcEn => Sys2Proof.Machine.execSitUnsupM6 crcEn s
  | .sitUnsupM7 crcEn => Sys2Proof.Machine.execSitUnsupM7 crcEn s
  | .sitUnsupM8 crcEn => Sys2Proof.Machine.execSitUnsupM8 crcEn s
  | .sitUnsupM9 crcEn => Sys2Proof.Machine.execSitUnsupM9 crcEn s
  | .sitUnsupM10 crcEn => Sys2Proof.Machine.execSitUnsupM10 crcEn s
  | .sitUnsupM11 crcEn => Sys2Proof.Machine.execSitUnsupM11 crcEn s
  | .sitUnsupM12 crcEn => Sys2Proof.Machine.execSitUnsupM12 crcEn s
  | .sitUnsupM14 crcEn => Sys2Proof.Machine.execSitUnsupM14 crcEn s
  | .sitM13 crcEn => Sys2Proof.Machine.execSitM13 crcEn s
  | .sitArs crcEn => Sys2Proof.Machine.execSitArs crcEn s
  | .cptRle crcEn => Sys2Proof.Machine.execCptRle crcEn s
  | .cptLzh crcEn => Sys2Proof.Machine.execCptLzh crcEn s
  | .hqxDetect crcEn => Sys2Proof.Machine.execHqxDetect crcEn s
  | .hqxFile crcEn => Sys2Proof.Machine.execHqxFile crcEn s
  | .hqxWrap crcEn => Sys2Proof.Machine.execHqxWrap crcEn s
  | .binDetect crcEn => Sys2Proof.Machine.execBinDetect crcEn s
  | .binFile crcEn => Sys2Proof.Machine.execBinFile crcEn s
  | .binWrap crcEn => Sys2Proof.Machine.execBinWrap crcEn s
  | .crcXmodem crcEn => Sys2Proof.Machine.execCrcXmodem crcEn s
  | .crcArc crcEn => Sys2Proof.Machine.execCrcArc crcEn s
  | .reservedOp op crcEn => Sys2Proof.Machine.execReservedOp op crcEn s
  | .reservedBits rsvd crcEn op => Sys2Proof.Machine.execReservedBits rsvd crcEn op s

end Sys2Proof.Machine
end

