-- ==== Sys2Proof/Machine/HostBus.lean ====
section
/-! DEFINITION. The host's side of the interface: register accesses (10_state.md R51-R68), accesses of IN, OUT and NAME at any
width (20_memory.md R150, R166, R176), the placement map (R152), power-on reset (70_reset_and_hazards.md R900, R901), and the host
program syntax (30_encoding.md R204). -/

namespace Sys2Proof.Machine

/-! ### Registers -/

/-- A write of CTRL (10_state.md R52): bit 1 is stored; bit 0 starts a job unless one runs. -/
def writeCtrl (v : Word) (s : State) : State :=
  let t := { s with regs := { s.regs with ctrl := v &&& ctrlMask } }
  if v.getLsbD 0 && !s.busy then startJob t else t

/-- A register write (10_state.md R51). Writes to read-only registers and reserved offsets are ignored (R67, R68). -/
def writeReg (off : Nat) (v : Word) (s : State) : State :=
  match off with
  | 0x00 => writeCtrl v s
  | 0x04 => { s with regs := { s.regs with cmd := v } }
  | 0x08 => { s with regs := { s.regs with inLen := v } }
  | 0x0C => { s with regs := { s.regs with outLen := v } }
  | 0x10 => { s with regs := { s.regs with expCrc := v } }
  | _ => s

/-- The value of a register (10_state.md R51): START reads 0, since it is never stored (R52); reserved offsets read 0 (R67). -/
def regValue (off : Nat) (r : Regs) : Word :=
  match off with
  | 0x00 => r.ctrl
  | 0x04 => r.cmd
  | 0x08 => r.inLen
  | 0x0C => r.outLen
  | 0x10 => r.expCrc
  | 0x14 => r.status
  | 0x18 => r.outCount
  | 0x1C => r.crcOut
  | 0x20 => r.result
  | 0x24 => r.dataLen
  | 0x28 => r.rsrcLen
  | 0x2C => r.mdType
  | 0x30 => r.mdCreator
  | 0x34 => r.mdFlags
  | 0x38 => r.mdNameLen
  | _ => 0

/-- The result registers, whose reads give any value while BUSY = 1 (10_state.md R68). -/
def isResultReg (off : Nat) : Bool := 0x18 ≤ off && off ≤ 0x38

/-- What the host's read returns, put where the host finds it. -/
def State.returns (s : State) (r : ReadResult) : State := { s with readData := r }

/-- A register read that returns any value (10_state.md R68, 70_reset_and_hazards.md R911; log 9). -/
def State.returnsAny (s : State) : State :=
  { s with readData := .word (Config.freeWord s.freeCtr 0), freeCtr := s.freeCtr + 1 }

/-- A register read. It changes nothing but what the host holds (20_memory.md R166). -/
def readReg (off : Nat) (s : State) : State :=
  if isResultReg off && s.busy then s.returnsAny else s.returns (.word (regValue off s.regs))

/-- REG is accessed as aligned 32-bit words (20_memory.md R165), at offsets below 0x100 (R150). -/
def onReg (off size : Nat) (act : State → State) (s : State) : Host.Outcome State Fault Refusal :=
  if size ≠ 4 ∨ off % 4 ≠ 0 then .refused (.regAccessShape off size)
  else if 0x100 ≤ off then .fault (.noSuchRegister off)
  else .next (act s)

/-! ### Byte memories -/

/-- A host write of one byte. IN takes it; while BUSY = 1 that breaks the job's contract (20_memory.md R176; log 8). A byte of
OUT or NAME that the host writes holds any value (R176; log 10). -/
def writeByte (k : ByteSpace) (i : Nat) (b : Byte) (s : State) : State :=
  match k with
  | .inn => { s with inn := s.inn.write i b, inTouched := s.inTouched || s.busy }
  | .out => { s with out := s.out.write i (Config.freeByte .out s.freeCtr i), freeCtr := s.freeCtr + 1 }
  | .name => { s with name := s.name.write i (Config.freeByte .name s.freeCtr i), freeCtr := s.freeCtr + 1 }

/-- Whether the bytes of a memory read as any value: OUT and NAME while BUSY = 1 (70_reset_and_hazards.md R911). -/
def readsFree (s : State) (k : ByteSpace) : Bool := k != .inn && s.busy

/-- What a host read gives at one byte of a memory (log 9). -/
def byteValue (s : State) (c : ByteSpace × Nat) : Byte :=
  if readsFree s c.1 then Config.freeByte c.1 s.freeCtr c.2 else (s.space c.1).read c.1 c.2

/-- A host read of bytes, each "a separate location" (20_memory.md R166). It changes nothing but what the host holds. -/
def readCells (cells : List (ByteSpace × Nat)) (s : State) : State :=
  { s with
    readData := .bytes (cells.map (byteValue s))
    freeCtr := if cells.any fun c => readsFree s c.1 then s.freeCtr + 1 else s.freeCtr }

/-- A host write of bytes, each to a location of its own (20_memory.md R166), in order. -/
def writeCells (cells : List (ByteSpace × Nat)) (bs : List Byte) (s : State) : State :=
  (cells.zip bs).foldl (fun s c => writeByte c.1.1 c.1.2 c.2 s) s

/-- The `n` bytes of a memory from index `i` up. -/
def cellsFrom (k : ByteSpace) (i n : Nat) : List (ByteSpace × Nat) := (List.range' i n).map fun a => (k, a)

/-- "An index outside a space's size addresses nothing" (20_memory.md R150): an access that reaches one stops there, at the
first (log 11). -/
def onCells (k : ByteSpace) (i n : Nat) (act : List (ByteSpace × Nat) → State → State) (s : State) :
    Host.Outcome State Fault Refusal :=
  if spaceSize s.cfg k < i + n then .fault (.noSuchIndex k (max i (spaceSize s.cfg k)))
  else .next (act (cellsFrom k i n) s)

/-! ### The placement map -/

/-- What an address of the host's map names. -/
inductive Place where
  | reg (off : Nat)
  | byte (k : ByteSpace) (i : Nat)
  | nothing
deriving DecidableEq, Repr

/-- The index of `a` in a window of `size` at `base`. -/
def windowIndex (base size a : Nat) : Option Nat := if base ≤ a ∧ a < base + size then some (a - base) else none

/-- The placement map (20_memory.md R152); the spaces are disjoint, so at most one window holds an address. -/
def locate (cfg : Config) (a : Nat) : Place :=
  match windowIndex cfg.regBase 0x100 a with
  | some off => .reg off
  | none =>
    match windowIndex cfg.inBase cfg.inCap a with
    | some i => .byte .inn i
    | none =>
      match windowIndex cfg.outBase cfg.outCap a with
      | some i => .byte .out i
      | none =>
        match windowIndex cfg.nameBase 256 a with
        | some i => .byte .name i
        | none => .nothing

/-- The locations of the `n` bytes from address `a` up, or the first address that holds no byte of a memory. -/
def busCells (cfg : Config) : Nat → Nat → Except Nat (List (ByteSpace × Nat))
  | _, 0 => .ok []
  | a, n + 1 =>
    match locate cfg a with
    | .byte k i => do
      let cells ← busCells cfg (a + 1) n
      .ok ((k, i) :: cells)
    | _ => .error a

/-- The bytes of a word in the host bus's order, the one at the lowest address first (20_memory.md R156). -/
def wordBytes (o : ByteOrder) (v : Word) : List Byte :=
  let little := [v.extractLsb' 0 8, v.extractLsb' 8 8, v.extractLsb' 16 8, v.extractLsb' 24 8]
  match o with
  | .little => little
  | .big => little.reverse

/-- The word that four bytes make in the host bus's order. -/
def bytesWord (o : ByteOrder) (bs : List Byte) : Word :=
  match o with
  | .little => BitVec.ofNat 32 (beNat bs.reverse)
  | .big => BitVec.ofNat 32 (beNat bs)

/-- What a read returned, as a word. -/
def ReadResult.asWord (o : ByteOrder) : ReadResult → ReadResult
  | .word v => .word v
  | .bytes bs => .word (bytesWord o bs)

/-- What a read returned, as bytes. -/
def ReadResult.asBytes (o : ByteOrder) : ReadResult → ReadResult
  | .word v => .bytes (wordBytes o v)
  | .bytes bs => .bytes bs

/-- An access of `n` bytes from address `a` up: of a register, or of bytes, each located by its own address (20_memory.md R152,
R166). A register is reached by no part of a wider or a narrower access (R165). -/
def onBus (a n : Nat) (reg : Nat → State → State) (bytes : List (ByteSpace × Nat) → State → State) (s : State) :
    Host.Outcome State Fault Refusal :=
  match locate s.cfg a with
  | .reg off => onReg off n (reg off) s
  | _ =>
    match busCells s.cfg a n with
    | .ok cells => .next (bytes cells s)
    | .error b =>
      match locate s.cfg b with
      | .reg off => .refused (.regAccessShape off n)
      | _ => .fault (.noSuchAddress b)

/-- An access by address (log 22). Word and bytes are two views of the same four locations, in the host bus's order. -/
def busAccess (a : Nat) (op : BusOp) (s : State) : Host.Outcome State Fault Refusal :=
  let o := s.cfg.busOrder
  match op with
  | .readWord =>
    onBus a 4 readReg (fun cells s => let t := readCells cells s; t.returns (t.readData.asWord o)) s
  | .writeWord v => onBus a 4 (fun off => writeReg off v) (fun cells => writeCells cells (wordBytes o v)) s
  | .readBytes n =>
    onBus a n (fun off s => let t := readReg off s; t.returns (t.readData.asBytes o)) readCells s
  | .writeBytes bs =>
    onBus a bs.length (fun off => writeReg off (bytesWord o bs)) (fun cells => writeCells cells bs) s

/-! ### The host's turn -/

/-- Power-on reset (70_reset_and_hazards.md R900, R901): `State.reset` but for what is not the block's: its parameters, the host,
and fresh free values in IN, OUT and NAME (log 28). -/
def powerOnReset (s : State) : State :=
  { State.reset with
    cfg := s.cfg, host := s.host, readData := s.readData,
    inn := Space.forget s.freeCtr, out := Space.forget s.freeCtr, name := Space.forget s.freeCtr,
    freeCtr := s.freeCtr + 1 }

/-- One host action. A `wait` that stands first while BUSY = 0 is over. -/
def hostAct (a : HostAct) (s : State) : Host.Outcome State Fault Refusal :=
  match a with
  | .regWrite off size v => onReg off size (writeReg off v) s
  | .regRead off size => onReg off size (readReg off) s
  | .memWrite k i bs => onCells k i bs.length (fun cells => writeCells cells bs) s
  | .memRead k i n => onCells k i n readCells s
  | .bus addr op => busAccess addr op s
  | .wait => .next s
  | .powerOn => .next (powerOnReset s)

/-- Whether the engine has the turn: a job runs, and the host waits or has nothing pending (log 3). -/
def engineTurn (s : State) : Bool :=
  s.seq.phase == .run && (s.host.isEmpty || s.host.head? == some .wait)

/-! ### Host programs (30_encoding.md R204) -/

/-- A statement of the host program syntax. -/
inductive HostStmt where
  /-- `LOAD IN[i], bytes`; `LOAD IN, bytes` is `i` = 0. -/
  | load (i : Nat) (bytes : List Byte)
  /-- `WR reg, value`, the register by its offset. -/
  | wr (off : Nat) (v : Word)
  /-- `CMD mnemonic [, CRC]`. -/
  | cmd (i : Instr)
  /-- `GO`. -/
  | go
  /-- `POLL`. -/
  | poll
  /-- `RD reg`. -/
  | rd (off : Nat)
deriving DecidableEq, Repr

/-- The byte writes of LOAD, in order. -/
def loadActs : Nat → List Byte → List HostAct
  | _, [] => []
  | i, b :: rest => .memWrite .inn i [b] :: loadActs (i + 1) rest

/-- The host accesses a statement stands for (R204). POLL's repeated reads of STATUS are a `wait` and the read that sees
BUSY = 0 (log 25). -/
def HostStmt.acts : HostStmt → List HostAct
  | .load i bytes => loadActs i bytes
  | .wr off v => [.regWrite off 4 v]
  | .cmd i => [.regWrite 0x04 4 (encodeWord i)]
  | .go => [.regWrite 0x00 4 0x1]
  | .poll => [.wait, .regRead 0x14 4]
  | .rd off => [.regRead off 4]

/-- The accesses of a host program. -/
def hostProgram (p : List HostStmt) : List HostAct := p.flatMap HostStmt.acts

end Sys2Proof.Machine
end

