-- ==== Sys2Proof/Machine/Step.lean ====
section
/-! DEFINITION. One step of the block and its host: the engine's turn is the latched command's whole job (10_state.md R78,
70_reset_and_hazards.md R920; log 2); the host's turn is its next pending access (log 3). -/

namespace Sys2Proof.Machine

/-- The engine's turn: the latched command word is decoded and its job run to its end (40_job_control.md R301, R302). A job
whose input the host has written while BUSY = 1 ends with any results (20_memory.md R176). -/
def engineStep (s : State) : Host.Outcome State Fault Refusal :=
  if s.inTouched then .next (endUnconstrained s)
  else
    match decode [latchWord s.latch] with
    | .ok (i, _) => exec i s
    | .error _ => .refused .undecodable

/-- One step. With no job and no host access nothing happens: the engine "runs nothing until a START"
(70_reset_and_hazards.md R900). -/
def step (s : State) : Host.Outcome State Fault Refusal :=
  if engineTurn s then engineStep s
  else
    match s.host with
    | [] => .next s
    | a :: rest => hostAct a { s with host := rest }

/-- `s` with the command word of an opcode-table row in CMD and just started: CMD holds the word, START has latched it with
IN_LEN, OUT_LEN and EXP_CRC as they stand, and the host waits, so that the very next step is the engine's turn with that
command (log 4). A width no command word has changes nothing. -/
def State.withFetchWord (s : State) (nbits w : Nat) : State :=
  match tableWord nbits w with
  | none => s
  | some word => startJob { s with regs := { s.regs with cmd := word }, host := .wait :: s.host }

end Sys2Proof.Machine
end

