-- ==== Sys2Proof/Reference.lean ====
section
/-! DEFINITION. The formats of 30_encoding.md as whole inputs and whole outputs, in the terms the statements use. The machine
produces one byte per step from cursors and unit state; here an input is a list of bytes, bits or tokens, and its meaning is
the list of all the bytes it stands for. Nothing of the machine refers to this file. -/

namespace Sys2Proof.Reference

/-! ### Bits and numbers -/

/-- The `n` low bits of `v`, least significant first (20_memory.md R161). -/
def bitsLsb (n v : Nat) : List Bool := (List.range n).map fun i => v.testBit i

/-- The `n` low bits of `v`, most significant first (20_memory.md R162). -/
def bitsMsb (n v : Nat) : List Bool := (bitsLsb n v).reverse

/-- Stream bit `k` of a byte sequence, LSB-first (20_memory.md R161). -/
def streamBitLsb (bs : List Byte) (k : Nat) : Bool := (bs.getD (k / 8) 0).getLsbD (k % 8)

/-- Stream bit `k` of a byte sequence, MSB-first (20_memory.md R162). -/
def streamBitMsb (bs : List Byte) (k : Nat) : Bool := (bs.getD (k / 8) 0).getLsbD (7 - k % 8)

/-- The bits stand in the LSB-first stream from bit `k` on. -/
abbrev HoldsLsb (bs : List Byte) (k : Nat) (bits : List Bool) : Prop :=
  k + bits.length ≤ 8 * bs.length ∧ ∀ j < bits.length, streamBitLsb bs (k + j) = bits.getD j false

/-- The bits stand in the MSB-first stream from bit `k` on. -/
abbrev HoldsMsb (bs : List Byte) (k : Nat) (bits : List Bool) : Prop :=
  k + bits.length ≤ 8 * bs.length ∧ ∀ j < bits.length, streamBitMsb bs (k + j) = bits.getD j false

/-- The two bytes of a 16-bit field, big-endian (20_memory.md R155). -/
def bytes16 (h : Half) : List Byte := [h.extractLsb' 8 8, h.extractLsb' 0 8]

/-- The four bytes of a 32-bit field, big-endian (20_memory.md R155). -/
def bytes32 (w : Word) : List Byte :=
  [w.extractLsb' 24 8, w.extractLsb' 16 8, w.extractLsb' 8 8, w.extractLsb' 0 8]

/-- The bytes of an ASCII text. -/
def ascii (s : String) : List Byte := s.toList.map fun c => BitVec.ofNat 8 c.toNat

/-! ### CRC-16/ARC as the source words it: reflected, polynomial 0x8005 (41_common.md R351) -/

/-- One byte into the unreflected CRC register of polynomial 0x8005. -/
def crc8005Byte (c : Half) (b : Byte) : Half :=
  (fun c : Half => if c.getLsbD 15 then (c <<< 1) ^^^ 0x8005 else c <<< 1)^[8] (c ^^^ (b.setWidth 16 <<< 8))

/-- The reflected CRC: every byte and the final register bit-reversed. -/
def crcReflected (d : List Byte) : Half := ((d.map BitVec.reverse).foldl crc8005Byte 0).reverse

/-! ### Run-length codings: all the bytes an input stands for -/

/-- StuffIt RLE90 (30_encoding.md R207), with `last` before it. An escape cut off at the end stands for nothing. -/
def rle90 : Byte → List Byte → List Byte
  | _, [] => []
  | last, b :: rest =>
    if b ≠ 0x90 then b :: rle90 b rest
    else
      match rest with
      | [] => []
      | n :: rest =>
        if n = 0x00 then 0x90 :: rle90 last rest else List.replicate (n.toNat - 1) last ++ rle90 last rest

/-- Compact Pro RLE (30_encoding.md R215), with `saved` before it; `esc` says that a 0x81 has been read. The second byte of
`81 81` is itself the 0x81 of the next escape. An escape cut off at the end stands for nothing. -/
def rle81 : (esc : Bool) → (saved : Byte) → List Byte → List Byte
  | _, _, [] => []
  | false, saved, b :: rest => if b ≠ 0x81 then b :: rle81 false b rest else rle81 true saved rest
  | true, saved, x :: rest =>
    if x = 0x82 then
      match rest with
      | [] => []
      | n :: rest =>
        if n = 0x00 then 0x81 :: 0x82 :: rle81 false 0x82 rest
        else List.replicate (max 1 (n.toNat - 1)) saved ++ rle81 false saved rest
    else if x = 0x81 then 0x81 :: rle81 true 0x81 rest
    else 0x81 :: x :: rle81 false x rest

/-- BinHex RLE90 (30_encoding.md R211), with `prev` before it; none for `90 01` and for a marker at the end. -/
def hqxExpand : Byte → List Byte → Option (List Byte)
  | _, [] => some []
  | prev, b :: rest =>
    if b ≠ 0x90 then (hqxExpand b rest).map (b :: ·)
    else
      match rest with
      | [] => none
      | n :: rest =>
        if n = 0x00 then (hqxExpand 0x90 rest).map (0x90 :: ·)
        else if n = 0x01 then none
        else (hqxExpand prev rest).map (List.replicate (n.toNat - 1) prev ++ ·)

/-- Arsenic's final RLE (47_arsenic.md R745, R746), with `prev` and `streak` before it. -/
def arsExpand : Byte → Nat → List Byte → List Byte
  | _, _, [] => []
  | prev, streak, b :: rest =>
    if streak = 4 then List.replicate b.toNat prev ++ arsExpand prev 0 rest
    else if b = prev then b :: arsExpand prev (streak + 1) rest
    else b :: arsExpand b 1 rest

/-! ### Sliding-window copies: the output itself is the window, 0 before its start -/

/-- The output with `len` bytes copied from `dist` back, each seen by the next (20_memory.md R171). -/
def copyBack (dist : Nat) : Nat → List Byte → List Byte
  | 0, out => out
  | len + 1, out => copyBack dist len (out ++ [if dist ≤ out.length then out.getD (out.length - dist) 0 else 0])

/-! ### Canonical Huffman codes (41_common.md R360), in closed form -/

/-- The codeword of symbol `s`, as a number: what the shorter codewords, and those of its own length before it, take up. -/
def codewordValue (lens : List Nat) (s : Nat) : Nat :=
  let l := lens.getD s 0
  ((lens.zipIdx.filter fun p => p.1 != 0 && (decide (p.1 < l) || (p.1 == l && decide (p.2 < s)))).map
    fun p => 2 ^ (l - p.1)).sum

/-- The codeword of symbol `s`, first bit first. -/
def codewordBits (lens : List Nat) (s : Nat) : List Bool := bitsMsb (lens.getD s 0) (codewordValue lens s)

/-- The Kraft sum of the lengths is at most 1 (41_common.md R361); `m` is at least the longest length. -/
abbrev KraftOk (m : Nat) (lens : List Nat) : Prop :=
  (∀ l ∈ lens, l ≤ m) ∧ (lens.map fun l => if l = 0 then 0 else 2 ^ (m - l)).sum ≤ 2 ^ m

/-! ### Compact Pro LZH (30_encoding.md R216, R217) -/

/-- One symbol: a literal, or a match of `len` bytes with the 13-bit offset `v`. -/
inductive LzhToken where
  | lit (b : Byte)
  | copy (len v : Nat)
deriving DecidableEq, Repr

/-- The nibble pairs of a code length list, the high nibble first. -/
def nibbleBytes : List Nat → List Byte
  | a :: b :: rest => BitVec.ofNat 8 (16 * a + b) :: nibbleBytes rest
  | _ => []

/-- A serialised table: its byte count, then the pairs. -/
def lzhTable (lens : List Nat) : List Byte := BitVec.ofNat 8 (lens.length / 2) :: nibbleBytes lens

/-- The lengths of a table for `n` symbols: in pairs, at most `n` of them, each a nibble, and not oversubscribed. -/
abbrev LzhTableOk (n : Nat) (lens : List Nat) : Prop := lens.length % 2 = 0 ∧ lens.length ≤ n ∧ KraftOk 15 lens

/-- A token whose symbols the three tables have. -/
def lzhTokenOk (lit len off : List Nat) : LzhToken → Bool
  | .lit b => lit.getD b.toNat 0 != 0
  | .copy n v => decide (1 ≤ n ∧ n ≤ 63 ∧ v < 8192 ∧ len.getD n 0 ≠ 0 ∧ off.getD (v / 64) 0 ≠ 0)

/-- The bits of a token. -/
def lzhTokenBits (lit len off : List Nat) : LzhToken → List Bool
  | .lit b => true :: codewordBits lit b.toNat
  | .copy n v => false :: (codewordBits len n ++ codewordBits off (v / 64) ++ bitsMsb 6 (v % 64))

/-- The output with one more token; offset 0 stands for 8192 (44_compactpro.md R525). -/
def lzhAppend (out : List Byte) : LzhToken → List Byte
  | .lit b => out ++ [b]
  | .copy n v => copyBack (if v = 0 then 8192 else v) n out

/-- What tokens cost (44_compactpro.md R522, R523). -/
def lzhCost (toks : List LzhToken) : Nat :=
  (toks.map fun tok => match tok with | .lit _ => 2 | .copy _ _ => 3).sum

/-- One block: its three length lists and its tokens. -/
structure LzhBlock where
  lit  : List Nat
  len  : List Nat
  off  : List Nat
  toks : List LzhToken
deriving DecidableEq, Repr

/-- The serialised tables of a block. -/
def LzhBlock.tables (b : LzhBlock) : List Byte := lzhTable b.lit ++ lzhTable b.len ++ lzhTable b.off

/-- The bits of a block's tokens. -/
def LzhBlock.bits (b : LzhBlock) : List Bool := b.toks.flatMap (lzhTokenBits b.lit b.len b.off)

/-- A block whose tables are accepted and have its tokens' symbols, and whose cost limit no token but the last reaches. -/
abbrev LzhBlock.ok (b : LzhBlock) : Prop :=
  LzhTableOk 256 b.lit ∧ LzhTableOk 64 b.len ∧ LzhTableOk 128 b.off ∧
    (∀ tok ∈ b.toks, lzhTokenOk b.lit b.len b.off tok = true) ∧ lzhCost b.toks.dropLast < 0x1FFF0

/-- The bytes from a block's start to the next one's (44_compactpro.md R524): its tables, its tokens' bits up to a byte boundary,
and 3 skipped bytes if those data bytes are odd in number, else 2. -/
def LzhBlock.size (b : LzhBlock) : Nat :=
  let data := (b.bits.length + 7) / 8
  b.tables.length + data + if data % 2 = 1 then 3 else 2

/-- Blocks stand in the input from byte `p` on, each but the last ended by the cost limit. -/
def HoldsLzhBlocks (bs : List Byte) : Nat → List LzhBlock → Prop
  | _, [] => True
  | p, b :: rest =>
    b.ok ∧ b.tables <+: bs.drop p ∧ HoldsMsb bs (8 * (p + b.tables.length)) b.bits ∧
      (rest = [] ∨ 0x1FFF0 ≤ lzhCost b.toks) ∧ HoldsLzhBlocks bs (p + b.size) rest

/-! ### StuffIt LZW codes (30_encoding.md R205) -/

/-- The width of the `j`-th code after a reset, counting from 0 (45_stuffit_rle90_lzw.md R601). -/
def lzwWidth (j : Nat) : Nat :=
  if j < 256 then 9 else if j < 768 then 10 else if j < 1792 then 11 else if j < 3840 then 12
  else if j < 7936 then 13 else 14

/-- The bits of codes, the first of them the `j`-th since the reset. -/
def lzwBits : Nat → List Nat → List Bool
  | _, [] => []
  | j, c :: rest => bitsLsb (lzwWidth j) c ++ lzwBits (j + 1) rest

/-- The string of a code, over the strings of the entries from 257 on. -/
def lzwLookup (dict : List (List Byte)) (c : Nat) : Option (List Byte) :=
  if c < 256 then some [BitVec.ofNat 8 c] else if c = 256 then none else dict[c - 257]?

/-- What a sequence of codes stands for, none of them a clear: each code's string, and one new entry for each code after the
first while the dictionary has room. None where a code has no meaning. -/
def lzwDecode : List (List Byte) → Option (List Byte) → List Nat → Option (List Byte)
  | _, _, [] => some []
  | dict, none, c :: rest =>
    if c < 256 then (lzwDecode dict (some [BitVec.ofNat 8 c]) rest).map ([BitVec.ofNat 8 c] ++ ·) else none
  | dict, some p, c :: rest =>
    match (if c = 257 + dict.length ∧ dict.length < 16127 then some (p ++ [p.headD 0]) else lzwLookup dict c) with
    | none => none
    | some str =>
      (lzwDecode (if dict.length < 16127 then dict ++ [p ++ [str.headD 0]] else dict) (some str) rest).map (str ++ ·)

/-- The bits a clear skips that follows `n` codes since the reset (45_stuffit_rle90_lzw.md R603): to the end of its 8-code block,
at the width it was read at. -/
def lzwSkip (n : Nat) : Nat := lzwWidth n * ((8 - (n + 1) % 8) % 8)

/-- Runs of codes stand in the stream from bit `k` on, a clear and its skip after each run but the last. A skip may pass the end of
the input where no code follows it (45_stuffit_rle90_lzw.md R610). -/
def HoldsLzwRuns (bs : List Byte) : Nat → List (List Nat) → Prop
  | _, [] => True
  | k, [codes] => codes = [] ∨ HoldsLsb bs k (lzwBits 0 codes)
  | k, codes :: next :: rest =>
    HoldsLsb bs k (lzwBits 0 (codes ++ [256])) ∧
      HoldsLzwRuns bs (k + (lzwBits 0 (codes ++ [256])).length + lzwSkip codes.length) (next :: rest)

/-- The stream bit behind runs of codes that begin at bit `k`, the clears and skips between them counted. -/
def lzwEnd : Nat → List (List Nat) → Nat
  | k, [] => k
  | k, [codes] => k + (lzwBits 0 codes).length
  | k, codes :: next :: rest => lzwEnd (k + (lzwBits 0 (codes ++ [256])).length + lzwSkip codes.length) (next :: rest)

/-! ### Method 13 symbols (30_encoding.md R220, R221) -/

open Machine (Tree Code)

/-- One symbol of the main loop: a literal, or a length symbol with its extra bits and a distance symbol with its own. -/
inductive M13Token where
  | lit (b : Byte)
  | copy (sym x d y : Nat)
deriving DecidableEq, Repr

/-- The number of extra bits of a length symbol. -/
def m13LengthBits (sym : Nat) : Nat := if sym ≤ 317 then 0 else if sym = 318 then 10 else 15

/-- The length of a length symbol with extra bits `x`. -/
def m13LengthOf (sym x : Nat) : Nat := if sym ≤ 317 then sym - 253 else x + 65

/-- The distance of a distance symbol with extra bits `y`. -/
def m13DistanceOf (d y : Nat) : Nat := if d = 0 then 1 else 2 ^ (d - 1) + y + 1

/-- A token that the format has. -/
def m13TokenOk : M13Token → Bool
  | .lit _ => true
  | .copy sym x d y => decide (256 ≤ sym ∧ sym ≤ 319 ∧ x < 2 ^ m13LengthBits sym ∧ d ≤ 16 ∧ y < 2 ^ (d - 1))

/-- The bits of a symbol in a tree; none in a tree of one symbol (41_common.md R364). -/
def symbolBits (t : Tree) (s : Nat) : Option (List Bool) :=
  match t with
  | [c] => if c.sym = s then some [] else none
  | _ => (t.find? fun c => c.sym == s).map fun c => bitsMsb c.len c.bits

/-- The bits of tokens, `act` the active tree: the first tree after a literal, the second after a match (46_method13.md R674). -/
def m13TokenBits (t1 t2 td : Tree) : Tree → List M13Token → Option (List Bool)
  | _, [] => some []
  | act, .lit b :: rest => do
    let w ← symbolBits act b.toNat
    let bits ← m13TokenBits t1 t2 td t1 rest
    some (w ++ bits)
  | act, .copy sym x d y :: rest => do
    let w ← symbolBits act sym
    let v ← symbolBits td d
    let bits ← m13TokenBits t1 t2 td t2 rest
    some (w ++ bitsLsb (m13LengthBits sym) x ++ v ++ bitsLsb (d - 1) y ++ bits)

/-- The tree that decodes the symbol after these tokens (46_method13.md R674). -/
def m13Active (t1 t2 : Tree) (toks : List M13Token) : Tree :=
  match toks.getLast? with
  | some (.copy _ _ _ _) => t2
  | _ => t1

/-- The output with one more token. -/
def m13Append (out : List Byte) : M13Token → List Byte
  | .lit b => out ++ [b]
  | .copy sym x d y => copyBack (m13DistanceOf d y) (m13LengthOf sym x) out

/-- The tree of a length list: its canonical codewords (41_common.md R360). -/
def canonicalTree (lens : List Nat) : Tree :=
  lens.zipIdx.filterMap fun p => if p.1 = 0 then none else some { sym := p.2, len := p.1, bits := codewordValue lens p.2 }

/-- Codewords that differ, none the start of another, each of its length. -/
abbrev PrefixCode (t : Tree) : Prop :=
  (∀ c ∈ t, 1 ≤ c.len ∧ c.bits < 2 ^ c.len) ∧
  t.Pairwise fun c d => ¬ bitsMsb c.len c.bits <+: bitsMsb d.len d.bits ∧ ¬ bitsMsb d.len d.bits <+: bitsMsb c.len c.bits

/-- One command of a serialised length list (30_encoding.md R219) with its extra bits: the running length after it and how
many lengths it gives. None for a running length outside 0..32 (46_method13.md R664). -/
def m13CommandOf (cur c x : Nat) : Option (Nat × Nat) :=
  if c ≤ 30 then some (c + 1, 1)
  else if c = 31 then some (0, 1)
  else if c = 32 then if cur ≤ 31 then some (cur + 1, 1) else none
  else if c = 33 then if 1 ≤ cur then some (cur - 1, 1) else none
  else if c = 34 then some (cur, x + 1)
  else if c = 35 then some (cur, x + 3)
  else some (cur, x + 11)

/-- The number of extra bits of a command. -/
def m13CommandBits (c : Nat) : Nat := if c = 34 then 1 else if c = 35 then 3 else if c = 36 then 6 else 0

/-- The lengths a list of commands gives. -/
def m13LengthList : Nat → List (Nat × Nat) → Option (List Nat)
  | _, [] => some []
  | cur, (c, x) :: rest =>
    match m13CommandOf cur c x with
    | none => none
    | some (cur, n) => (m13LengthList cur rest).map (List.replicate n cur ++ ·)

/-- The bits of a list of commands, the codewords as M13_META gives them (46_method13.md R660). -/
def m13CommandListBits (cfg : Config) : List (Nat × Nat) → List Bool
  | [] => []
  | (c, x) :: rest =>
    let w := cfg.m13Meta.toList.getD c (0, 0)
    bitsMsb w.2 w.1 ++ bitsLsb (m13CommandBits c) x ++ m13CommandListBits cfg rest

/-- The meta code is a prefix code, so that its commands can be told apart. -/
abbrev MetaPrefixCode (cfg : Config) : Prop :=
  PrefixCode (cfg.m13Meta.toList.map fun p => { sym := 0, len := p.2, bits := p.1 })

/-! ### BinHex (30_encoding.md R208-R212) -/

/-- A section of a container: bytes and their CRC (41_common.md R352). -/
def hqxSection (bytes : List Byte) : List Byte := bytes ++ bytes16 (Machine.crcXmodem bytes)

/-- The header of a container, before its CRC (R212). `nul` is the byte after the name, whose value is not checked. -/
def hqxHead (name : List Byte) (nul : Byte) (type creator : Word) (flags : Half) (dl rl : Word) : List Byte :=
  BitVec.ofNat 8 name.length :: name ++ [nul] ++ bytes32 type ++ bytes32 creator ++ bytes16 flags ++ bytes32 dl ++ bytes32 rl

/-- The container of a file. -/
def hqxContainer (name : List Byte) (nul : Byte) (type creator : Word) (flags : Half) (data rsrc : List Byte) : List Byte :=
  hqxSection (hqxHead name nul type creator flags (BitVec.ofNat 32 data.length) (BitVec.ofNat 32 rsrc.length)) ++
    hqxSection data ++ hqxSection rsrc

/-- `digits` are the 6-bit values of the raw bytes, in order; the bits left over in the last one are free (R210). -/
abbrev SixBits (raw : List Byte) (digits : List (Fin 64)) : Prop :=
  digits.length = (8 * raw.length + 5) / 6 ∧
  ∀ k < 8 * raw.length, streamBitMsb raw k = (digits.getD (k / 6) 0).val.testBit (5 - k % 6)

/-- `raw` are the whole bytes that the digits make; the bits left over, fewer than 8, are free. -/
abbrev WholeBytes (raw : List Byte) (digits : List (Fin 64)) : Prop :=
  raw.length = 6 * digits.length / 8 ∧
  ∀ k < 8 * raw.length, streamBitMsb raw k = (digits.getD (k / 6) 0).val.testBit (5 - k % 6)

/-- Whitespace of a BinHex body (R209). -/
def isWhitespace (c : Byte) : Bool := c == 0x0D || c == 0x0A || c == 0x09 || c == 0x20

/-- The preamble (R208). -/
def preamble : List Byte := ascii "(This file must be converted with BinHex"

/-- A BinHex input (R208) up to and with its first preamble, and then, on the preamble's line, `mid`. -/
abbrev HqxPreambleLine (input pre mid rest : List Byte) : Prop :=
  input = pre ++ preamble ++ mid ++ rest ∧ (∀ i < pre.length, ¬ preamble <+: input.drop i) ∧ ∀ c ∈ mid, c ≠ 0x0D ∧ c ≠ 0x0A

/-- A BinHex input (R208) whose body begins with the digits, with whitespace anywhere between them, and then `tail`. -/
structure HqxBody (cfg : Config) (input : List Byte) (digits : List (Fin 64)) (tail : List Byte) : Prop where
  parts : ∃ pre mid brk gap body,
    HqxPreambleLine input pre mid (brk :: gap ++ [0x3A] ++ body ++ tail) ∧
    (brk = 0x0D ∨ brk = 0x0A) ∧ (∀ c ∈ gap, c ≠ 0x3A) ∧
    body.filter (fun c => !isWhitespace c) = digits.map (fun d => cfg.hqxAlphabet[d])
  alphabetNodup : cfg.hqxAlphabet.toList.Nodup
  alphabetPlain : ∀ c ∈ cfg.hqxAlphabet.toList, isWhitespace c = false ∧ c ≠ 0x3A

/-- A whole BinHex input: the body holds exactly the digits, and the closing colon ends it. -/
abbrev HqxText (cfg : Config) (input : List Byte) (digits : List (Fin 64)) : Prop :=
  ∃ post, HqxBody cfg input digits (0x3A :: post)

/-- A character that a BinHex body cannot hold (42_binhex.md R406). -/
abbrev HqxBadChar (cfg : Config) (c : Byte) : Prop :=
  isWhitespace c = false ∧ c ≠ 0x3A ∧ c ∉ cfg.hqxAlphabet.toList

/-! ### MacBinary (30_encoding.md R213, R214) -/

/-- The 16-bit field at offset `p`, big-endian. -/
def field16 (bs : List Byte) (p : Nat) : Half := bs.getD p 0 ++ bs.getD (p + 1) 0

/-- The 32-bit field at offset `p`, big-endian. -/
def field32 (bs : List Byte) (p : Nat) : Word := (field16 bs p ++ field16 bs (p + 2) : BitVec (16 + 16))

/-- The least multiple of 128 at or above `x`. -/
def upTo128 (x : Nat) : Nat := (x + 127) / 128 * 128

/-- Where the data fork starts: after the header and the padded secondary header. -/
def dataStart (bs : List Byte) : Nat := 128 + upTo128 (field16 bs 120).toNat

/-- The data fork's length. -/
def dataLength (bs : List Byte) : Nat := (field32 bs 83).toNat

/-- The resource fork's length. -/
def rsrcLength (bs : List Byte) : Nat := (field32 bs 87).toNat

/-- Where the resource fork starts: after the padded data fork. -/
def rsrcStart (bs : List Byte) : Nat := dataStart bs + upTo128 (dataLength bs)

/-- The header's CRC matches (41_common.md R353). -/
abbrev HeaderCrcOk (bs : List Byte) : Prop := Machine.crcXmodem (bs.take 124) = field16 bs 124

/-- The first check of HeaderCheck that fails (43_macbinary.md R451, R453, R452), in that order. -/
def headerFault (bs : List Byte) : Option Machine.Err :=
  if bs.length < 128 then some .trnEof
  else if bs.getD 0 0 ≠ 0 ∨ bs.getD 74 0 ≠ 0 then some .valMacbHeader
  else if (bs.getD 1 0).toNat = 0 ∨ 63 < (bs.getD 1 0).toNat then some .valMacbNameLen
  else if ¬ HeaderCrcOk bs ∧ bs.getD 82 0 ≠ 0 then some .valMacbCrc
  else none

/-- The first check of the header and of the fork lengths that fails (43_macbinary.md R458 last). -/
def fieldsFault (bs : List Byte) : Option Machine.Err :=
  match headerFault bs with
  | some e => some e
  | none => if 0x7FFFFFFF < dataLength bs ∨ 0x7FFFFFFF < rsrcLength bs then some .valMacbForkLen else none

/-- A fork's bytes. -/
def forkBytes (bs : List Byte) (start len : Nat) : List Byte := (bs.drop start).take len

/-- A fork that is not empty reaches past the end of the input (43_macbinary.md R461). -/
abbrev ForkCut (bs : List Byte) (start len : Nat) : Prop := 0 < len ∧ bs.length < start + len

/-- The bytes stand at index `k`. -/
abbrev StandsAt (bs : List Byte) (k : Nat) (part : List Byte) : Prop := part <+: bs.drop k

/-- A fork that begins with a StuffIt signature (43_macbinary.md R465). -/
abbrev HasSitSignature (fork : List Byte) : Prop :=
  ((∃ m ∈ ["SIT!", "ST46", "ST50", "ST60", "ST65", "STin", "STi2", "STi3", "STi4"], StandsAt fork 0 (ascii m)) ∧
    StandsAt fork 10 (ascii "rLau")) ∨
  (StandsAt fork 0 (ascii "StuffIt (c)1997-") ∧
    StandsAt fork 20 (ascii " Aladdin Systems, Inc., http://www.aladdinsys.com/StuffIt/"))

/-! ### Arsenic (47_arsenic.md) -/

/-- Move-to-front coding: the index of each byte in the table it finds, the byte then moved to the front (R732). -/
def mtfEncode : List Byte → List Byte → List Nat
  | _, [] => []
  | table, b :: rest => table.idxOf b :: mtfEncode (b :: table.erase b) rest

/-- `buf` is the Burrows-Wheeler transform of `text` with primary index `prim`: the last bytes of the rotations of `text` in
order, `text` itself at `prim` (00_scope.md glossary; R741). -/
abbrev IsBwt (text buf : List Byte) (prim : Nat) : Prop :=
  ∃ rots : List (List Byte),
    rots.Perm ((List.range text.length).map text.rotate) ∧
    (rots.map (List.map BitVec.toNat)).Pairwise (fun r q => ¬ q < r) ∧
    rots[prim]? = some text ∧ buf = rots.map fun r => r.getLastD 0

/-- The length that the digits of a zero run stand for: bijective base 2, least significant digit first (47_arsenic.md R733). -/
def zeroRunLength : List Nat → Nat
  | [] => 0
  | d :: rest => d + 1 + 2 * zeroRunLength rest

/-- A part of an Arsenic block's data: the digits of a zero run (R733), or one byte by its move-to-front index (R734, R735). -/
inductive ArsItem where
  | run (digits : List Nat)
  | index (i : Nat)
deriving DecidableEq, Repr

/-- How many bytes of the block it stands for. -/
def ArsItem.length : ArsItem → Nat
  | .run digits => zeroRunLength digits
  | .index _ => 1

/-- Randomisation (47_arsenic.md R742) of the bytes from position `p` on, the next flip due at `next` with table index `ti`. -/
def arsFlip (rand : Nat → Nat) : (p ti next : Nat) → List Byte → List Byte
  | _, _, _, [] => []
  | p, ti, next, b :: rest =>
    if p = next then (b ^^^ 0x01) :: arsFlip rand (p + 1) ((ti + 1) % 256) (next + rand ((ti + 1) % 256)) rest
    else b :: arsFlip rand (p + 1) ti next rest

end Sys2Proof.Reference
end

