-- ==== Sys2Proof/Safety.lean ====
section
/-! DEFINITION. What a sound state is and what a host may do, in the terms the statements use: the invariant of
10_state.md's registers, phase and memories, and the host's duty of 70_reset_and_hazards.md R910. -/

namespace Sys2Proof.Machine

/-- The legal values of STATUS (10_state.md R57): power-on, BUSY, DONE, or an error of 60_exceptions.md R851. -/
abbrev StatusLegal (w : Word) : Prop :=
  w = 0 ∨ w = statusBusy ∨ w = statusDone ∨ ∃ e ∈ Err.raisable, w = e.status

/-- The reserved bits of CTRL, CRC_OUT, RESULT, MD_FLAGS and MD_NAMELEN read 0 (10_state.md R52, R59, R60, R65, R66). -/
abbrev ReservedBitsZero (r : Regs) : Prop :=
  r.ctrl &&& ctrlMask = r.ctrl ∧ r.crcOut &&& crcOutMask = r.crcOut ∧ r.result &&& resultMask = r.result ∧
  r.mdFlags &&& mdFlagsMask = r.mdFlags ∧ r.mdNameLen &&& mdNameLenMask = r.mdNameLen

/-- The three byte memories have their canonical form within their sizes (10_state.md R70). -/
abbrev State.memWf (s : State) : Prop :=
  s.inn.wf s.cfg.inCap ∧ s.out.wf s.cfg.outCap ∧ s.name.wf 256

/-- Every result register is 0 (40_job_control.md R300, 60_exceptions.md R852). -/
abbrev ResultsZero (r : Regs) : Prop :=
  r.outCount = 0 ∧ r.crcOut = 0 ∧ r.result = 0 ∧ r.dataLen = 0 ∧ r.rsrcLen = 0 ∧
  r.mdType = 0 ∧ r.mdCreator = 0 ∧ r.mdFlags = 0 ∧ r.mdNameLen = 0

/-- The invariant of the block: canonical memories, a legal STATUS, BUSY exactly while phase is RUN, reserved bits 0, and result
registers 0 while a job runs. -/
structure State.Inv (s : State) : Prop where
  mem      : s.memWf
  status   : StatusLegal s.regs.status
  phase    : s.seq.phase = .run ↔ s.busy = true
  reserved : ReservedBitsZero s.regs
  running  : s.busy = true → ResultsZero s.regs

/-- A job has started and the engine has not had its turn: what START leaves (40_job_control.md R300). -/
abbrev State.started (s : State) : Prop :=
  s.seq.phase = .run ∧ s.regs.status = statusBusy ∧ s.inTouched = false

/-- The host keeps to 70_reset_and_hazards.md R910: no write of IN while BUSY = 1, so the job's input is its own. -/
abbrev State.hostKeepsDuty (s : State) : Prop := s.inTouched = false

/-- What a job that ended without error leaves in STATUS and `phase` (40_job_control.md R305). -/
abbrev State.endedDone (t : State) : Prop := t.regs.status = statusDone ∧ t.seq.phase = .idle

/-- What a job that ended with an error leaves in the registers and `phase` (60_exceptions.md R852). -/
abbrev State.endedErr (t : State) (e : Err) : Prop :=
  t.regs.status = e.status ∧ t.seq.phase = .idle ∧ ResultsZero t.regs

/-- The job's input, IN[0 .. J_IN_LEN-1], is these bytes (10_state.md R54, R75). -/
abbrev State.inputIs (s : State) (bs : List Byte) : Prop :=
  s.latch.inLen.toNat = bs.length ∧ ∀ i < bs.length, s.inn.read .inn i = bs.getD i 0

/-- What CheckCommand asks of IN_LEN (40_job_control.md R301 step 3). -/
abbrev State.inputFits (s : State) : Prop := s.latch.inLen.toNat ≤ s.cfg.inCap

/-- What CheckCommand asks of IN_LEN and of a fork op's OUT_LEN (40_job_control.md R301 steps 3 and 5). -/
abbrev State.forkFits (s : State) : Prop := s.inputFits ∧ s.latch.outLen.toNat ≤ s.cfg.outCap

/-- The result registers but OUT_COUNT, as one value; a register not given is 0 (40_job_control.md R320). -/
structure Results where
  crcOut    : Word := 0
  result    : Word := 0
  dataLen   : Word := 0
  rsrcLen   : Word := 0
  mdType    : Word := 0
  mdCreator : Word := 0
  mdFlags   : Word := 0
  mdNameLen : Word := 0
deriving DecidableEq, Repr

/-- The result registers but OUT_COUNT. -/
def Regs.results (r : Regs) : Results :=
  { crcOut := r.crcOut, result := r.result, dataLen := r.dataLen, rsrcLen := r.rsrcLen, mdType := r.mdType,
    mdCreator := r.mdCreator, mdFlags := r.mdFlags, mdNameLen := r.mdNameLen }

/-- What no job changes: the latch, the registers the host writes, IN, and all that is not the block's. -/
abbrev JobKeeps (s t : State) : Prop :=
  t.latch = s.latch ∧ t.regs.ctrl = s.regs.ctrl ∧ t.regs.cmd = s.regs.cmd ∧ t.regs.inLen = s.regs.inLen ∧
  t.regs.outLen = s.regs.outLen ∧ t.regs.expCrc = s.regs.expCrc ∧ t.inn = s.inn ∧ t.cfg = s.cfg ∧ t.host = s.host ∧
  t.readData = s.readData ∧ t.inTouched = s.inTouched

/-- OUT holds these bytes from index 0 on and is otherwise as it was, and OUT_COUNT counts them. DESIGN CHOICE: also those of them that
the host wrote while BUSY = 1 (log 10). -/
abbrev OutputIs (s t : State) (bs : List Byte) : Prop :=
  t.regs.outCount = BitVec.ofNat 32 bs.length ∧ t.seq.outCount = bs.length ∧
  (∀ i < bs.length, t.out.read .out i = bs.getD i 0) ∧ ∀ i, bs.length ≤ i → t.out.read .out i = s.out.read .out i

/-- NAME is as it was. -/
abbrev NameKept (s t : State) : Prop := ∀ i, t.name.read .name i = s.name.read .name i

/-- NAME holds the name and then 0x00 and is otherwise as it was (40_job_control.md R320). DESIGN CHOICE: also where the host wrote
them while BUSY = 1 (log 10). -/
abbrev NameIs (s t : State) (nm : List Byte) : Prop :=
  (∀ i < nm.length, t.name.read .name i = nm.getD i 0) ∧ t.name.read .name nm.length = 0 ∧
  ∀ i, nm.length < i → t.name.read .name i = s.name.read .name i

/-- The job ended with DONE, with this output and these result registers, and changed neither NAME nor anything else. -/
abbrev DoneWith (s t : State) (bs : List Byte) (r : Results) : Prop :=
  t.endedDone ∧ OutputIs s t bs ∧ t.regs.results = r ∧ NameKept s t ∧ JobKeeps s t

/-- The job ended with DONE, with this output, this name and these result registers, and changed nothing else. -/
abbrev DoneNamed (s t : State) (bs nm : List Byte) (r : Results) : Prop :=
  t.endedDone ∧ OutputIs s t bs ∧ t.regs.results = r ∧ NameIs s t nm ∧ JobKeeps s t

/-- The job ended with this error, STATUS naming it and every result register 0, and changed nothing the host wrote. -/
abbrev FailedWith (s t : State) (e : Err) : Prop := t.endedErr e ∧ JobKeeps s t

/-- How a StuffIt fork op of method 0, 1, 2 or 13 ends once it has produced its fork (40_job_control.md R316, R317): INT_FORK_CRC
where CRC_EN is set and EXP_CRC names another CRC, else DONE with the fork and its CRC. DESIGN CHOICE: this is so too where the
host wrote OUT while BUSY = 1, whose bytes R316's CRC would read as 20_memory.md R176 leaves them (log 33). -/
abbrev StuffItForkEnds (s : State) (crcEn : Bool) (r : Host.Outcome State Fault Refusal) (fork : List Byte) : Prop :=
  if crcEn = true ∧ crcArc fork ≠ s.latch.expCrc then ∃ t, r = .next t ∧ FailedWith s t .intForkCrc
  else ∃ t, r = .next t ∧ DoneWith s t fork { crcOut := zext32 (crcArc fork) }

/-- The window of `size` bytes written up to `pos` holds the end of `out`, and 0 before its start (20_memory.md R170). -/
abbrev WindowHolds (w : List Host.Cell) (size pos : Nat) (out : List Byte) : Prop :=
  pos < size ∧
  ∀ d, 1 ≤ d → d ≤ size → winGet w size pos d = if d ≤ out.length then out.getD (out.length - d) 0 else 0

/-- A model of the arithmetic decoder as 47_arsenic.md R724 and R731 keep it: no frequency 0, `total` their sum and at most the
limit, the limit at most 1024 and with room for one more increment of every symbol. -/
abbrev ArsModelOk (m : ArsModel) : Prop :=
  m.freq ≠ [] ∧ (∀ f ∈ m.freq, 1 ≤ f) ∧ m.total = m.freq.sum ∧ m.total ≤ m.limit ∧ m.limit ≤ 1024 ∧
  m.increment + m.freq.length ≤ m.limit

/-- The decoder's range between decodes (47_arsenic.md R723). -/
abbrev ArsRangeOk (range : Nat) : Prop := 2 ^ 24 < range ∧ range ≤ 2 ^ 25

/-- The command runs and ends with this error. -/
abbrev FailsWith (i : Instr) (s : State) (e : Err) : Prop := ∃ t, exec i s = .next t ∧ FailedWith s t e

/-- The command ends with this error and has written nothing and moved no cursor. -/
abbrev FailsAtOnce (i : Instr) (s : State) (e : Err) : Prop :=
  ∃ t, exec i s = .next t ∧ FailedWith s t e ∧ t.seq = { phase := .idle, outCount := 0, bpos := 0, bitpos := 0 }

/-- How many bytes an access by address takes in. -/
def BusOp.size : BusOp → Nat
  | .readWord | .writeWord _ => 4
  | .readBytes n => n
  | .writeBytes bs => bs.length

/-- How SIT_M13 ends on tokens whose bits stand in the input from stream bit `k` on, in trees `t1`, `t2` and `td`. With enough output it
ends as a fork op does. Else the next thing decides: symbol 320 (46_method13.md R672), or a token that the input ends inside of, or
right before (20_memory.md R163). -/
def M13Ends (s : State) (c : Bool) (bs : List Byte) (k : Nat) (t1 t2 td : Tree) (toks : List Reference.M13Token)
    (bits : List Bool) : Prop :=
  let out := toks.foldl Reference.m13Append []
  let act := Reference.m13Active t1 t2 toks
  (s.latch.outLen.toNat ≤ out.length → Reference.HoldsLsb bs k bits →
    StuffItForkEnds s c (exec (.sitM13 c) s) (out.take s.latch.outLen.toNat)) ∧
  (out.length < s.latch.outLen.toNat →
    (∀ w, Reference.symbolBits act 320 = some w → Reference.HoldsLsb bs k (bits ++ w) →
      FailsWith (.sitM13 c) s .decM13Sym320) ∧
    ∀ (tok : Reference.M13Token) (more part : List Bool), Reference.m13TokenOk tok = true →
      Reference.m13TokenBits t1 t2 td act [tok] = some more → part <+: more → part ≠ more →
      Reference.HoldsLsb bs k (bits ++ part) → k + (bits ++ part).length = 8 * bs.length →
      FailsWith (.sitM13 c) s .decUnderflow)

/-- Selectors read one after another from unit `u` at bit cursor `k` (47_arsenic.md R731), and where that leaves both. -/
def ReadsSelectors (bs : List Byte) : ArsUnit → Nat → List Nat → ArsUnit → Nat → Prop
  | u, k, [], v, k' => v = u ∧ k' = k
  | u, k, sel :: rest, v, k' => ∃ u' m, arsSelectorSym bs u k = .ok (sel, u', m) ∧ ReadsSelectors bs u' m rest v k'

/-- Blocks fetched one after another (47_arsenic.md R730) from unit `u` at bit cursor `k`, what each of them holds once its transform is
undone and its flips are made (R741, R742), and the unit and the cursor behind the last one: empty blocks hold nothing. -/
def HoldsArsBlocks (cfg : Config) (bs : List Byte) : ArsUnit → Nat → List (List Byte) → ArsUnit → Nat → Prop
  | u, k, [], v, k' => v = u ∧ k' = k
  | u, k, out :: rest, v, k' =>
    ∃ w m text, arsFetchBlock cfg bs u k = .ok (w, m) ∧ w.len = text.length ∧
      (text = [] ∨ Reference.IsBwt text w.buf w.prim) ∧
      out =
        (if w.randf = true then
          Reference.arsFlip (fun i => cfg.arsRand.toList.getD i 0) 0 0 (cfg.arsRand.toList.getD 0 0) text
        else text) ∧
      HoldsArsBlocks cfg bs w m rest v k'

/-- The header of the next block is read from unit `v` at bit cursor `k` (47_arsenic.md R730, R731), the stream not being at its end,
and leaves the unit and the cursor at `w` and `m`. -/
def ReadsArsHeader (bs : List Byte) (v : ArsUnit) (k : Nat) (w : ArsUnit) (m : Nat) : Prop :=
  v.eos = false ∧
  ∃ randf u1 k1 prim u2, arsField bs 1 v k = .ok (randf, u1, k1) ∧ arsField bs (v.blockExp + 9) u1 k1 = .ok (prim, u2, m) ∧
    w = { arsResetModels u2 with randf := randf == 1, prim, mtf := (List.range 256).map (BitVec.ofNat 8) }

/-- The parts of a block's data read one after another from selector `sel` on, each with the selector behind it (47_arsenic.md
R733-R735), and the selector, the unit and the cursor that this leaves. -/
def ReadsItems (bs : List Byte) : Nat → ArsUnit → Nat → List Reference.ArsItem → Nat → ArsUnit → Nat → Prop
  | sel, u, k, [], sel', v, k' => sel' = sel ∧ v = u ∧ k' = k
  | sel, u, k, .run digits :: rest, sel', v, k' =>
    ∃ more next w m, digits = sel :: more ∧ (∀ d ∈ digits, d ≤ 1) ∧ 2 ≤ next ∧
      ReadsSelectors bs u k (more ++ [next]) w m ∧ ReadsItems bs next w m rest sel' v k'
  | sel, u, k, .index i :: rest, sel', v, k' =>
    ∃ u1 k1 next w m,
      (sel = 2 ∧ i = 1 ∧ u1 = u ∧ k1 = k ∨ 3 ≤ sel ∧ sel ≤ 9 ∧ arsGroupSym bs (Fin.ofNat 7 (sel - 3)) u k = .ok (i, u1, k1)) ∧
      arsSelectorSym bs u1 k1 = .ok (next, w, m) ∧ ReadsItems bs next w m rest sel' v k'

/-- What selector `sel` begins is more than `room` bytes: a zero run (47_arsenic.md R733), or a byte where there is no room (R732). -/
def ArsOverflows (bs : List Byte) (room sel : Nat) (u : ArsUnit) (k : Nat) : Prop :=
  (∃ more next v k', sel ≤ 1 ∧ (∀ d ∈ more, d ≤ 1) ∧ 2 ≤ next ∧ more.length + 2 ≤ arsFuel bs ∧
    ReadsSelectors bs u k (more ++ [next]) v k' ∧ room < Reference.zeroRunLength (sel :: more)) ∨
  room = 0 ∧
    (sel = 2 ∨ 3 ≤ sel ∧ sel ≤ 9 ∧ ∃ i v k', arsGroupSym bs (Fin.ofNat 7 (sel - 3)) u k = .ok (i, v, k'))

end Sys2Proof.Machine
end

