-- ==== Sys2Proof/Certificates/Slice0/Obligations.lean ====
section
/-! DEFINITION. The statements for the provers. They speak of `exec` and `step` in the terms of Sys2Proof/Safety.lean, and of
the formats in the terms of Sys2Proof/Reference.lean. -/

open Sys2Proof Sys2Proof.Machine Sys2Proof.Reference

/-- 70_reset_and_hazards.md R900. What R900 calls unspecified is left out. -/
def Obligations.ResetValues : Prop :=
  (∀ off, regValue off State.reset.regs = 0) ∧ State.reset.busy = false ∧ State.reset.done = false ∧
  State.reset.err = false ∧ State.reset.eclass = 0 ∧ State.reset.ecode = 0 ∧ State.reset.seq.phase = .idle ∧
  State.reset.irq = false ∧ step State.reset = .next State.reset

/-- State.Inv at reset. That nothing is listed in IN, OUT and NAME is the model's choice (log 5). -/
def Obligations.ResetMeetsInvariant : Prop :=
  State.reset.Inv

/-- State.Inv over one step from any state, whether the engine or the host has the turn. For a job whose input the
host wrote (R910: any value), STATUS is log 8's reading, and the reserved bits that read 0 are log 24's DESIGN CHOICE
(unsafe). -/
def Obligations.StepKeepsInvariant : Prop :=
  ∀ s t : State, s.Inv → step s = .next t → t.Inv

/-- The model's step around exec: nothing (log 2, log 3). That the latched command word holds CMD[31:9] is log 13's
(DEDUCED). -/
def Obligations.StepRunsDecodedCommand : Prop :=
  ∀ (s : State) (i : Instr), s.seq.phase = .run → (s.host = [] ∨ s.host.head? = some .wait) → s.inTouched = false →
    decode [latchWord s.latch] = .ok (i, []) → i.wf = true ∧ step s = exec i s

/-- 40_job_control.md R300 up to CheckCommand, which is the engine's turn that follows (log 2). 10_state.md R75 gives
the latch J_OP, J_CRC_EN, J_IN_LEN, J_OUT_LEN and J_EXP_CRC; the clause on `latch.rsvd`, CMD[31:9], is the model's own
(log 13, DEDUCED), for R301 step 1. -/
def Obligations.StartLatchesAndClears : Prop :=
  ∀ (s : State) (v : Word) (rest : List HostAct), s.host = .regWrite 0x00 4 v :: rest → s.busy = false →
    v.getLsbD 0 = true →
    ∃ t, step s = .next t ∧
      t.latch.op = s.regs.cmd.extractLsb' 0 8 ∧ t.latch.crcEn = s.regs.cmd.getLsbD 8 ∧
      t.latch.rsvd = s.regs.cmd.extractLsb' 9 23 ∧ t.latch.inLen = s.regs.inLen ∧ t.latch.outLen = s.regs.outLen ∧
      t.latch.expCrc = s.regs.expCrc.extractLsb' 0 16 ∧
      t.regs.status = 0x00000001 ∧ ResultsZero t.regs ∧ t.regs.ctrl = v &&& 0x2 ∧ t.regs.cmd = s.regs.cmd ∧
      t.regs.inLen = s.regs.inLen ∧ t.regs.outLen = s.regs.outLen ∧ t.regs.expCrc = s.regs.expCrc ∧
      t.seq = { phase := .run, outCount := 0, bpos := 0, bitpos := 0 } ∧ t.irq = false ∧
      t.inn = s.inn ∧ t.out = s.out ∧ t.name = s.name ∧ t.cfg = s.cfg ∧ t.host = rest

/-- 30_encoding.md R204's statements. That START and the job are two steps (R300 makes them one) is log 2's, that the
engine's turn comes at the wait is log 3's DESIGN CHOICE, and POLL as a wait and one read is log 25's. That the
latched command word holds CMD[31:9] is log 13's (DEDUCED). -/
def Obligations.HostProgramRunsCommand : Prop :=
  ∀ (s : State) (i : Instr), i.wf = true → s.busy = false → s.seq.phase = .idle →
    s.host = hostProgram [.cmd i, .go, .poll] →
    ∃ s' t u : State,
      latchWord s'.latch = encodeWord i ∧ s'.latch.inLen = s.regs.inLen ∧ s'.latch.outLen = s.regs.outLen ∧
      s'.latch.expCrc = s.regs.expCrc.setWidth 16 ∧ s'.inn = s.inn ∧ s'.cfg = s.cfg ∧
      exec i s' = .next t ∧ Sys2Proof.core.run 3 s = .next t ∧ Sys2Proof.core.run 5 s = .next u ∧
      u.readData = .word t.regs.status ∧ u.regs = t.regs ∧ u.out = t.out ∧ u.name = t.name ∧ u.host = []

/-- 10_state.md R52. -/
def Obligations.CtrlWrite : Prop :=
  ∀ (s : State) (v : Word) (rest : List HostAct), s.host = .regWrite 0x00 4 v :: rest →
    ∃ t, step s = .next t ∧ regValue 0x00 t.regs = v &&& 0x00000002 ∧
      if v.getLsbD 0 = true ∧ s.busy = false then t.busy = true ∧ t.seq.phase = .run
      else t = { s with regs := { s.regs with ctrl := v &&& 0x00000002 }, host := rest }

/-- 70_reset_and_hazards.md R912. -/
def Obligations.WritesDuringAJob : Prop :=
  ∀ (s : State) (off : Nat) (v : Word) (rest : List HostAct), s.busy = true → s.host = .regWrite off 4 v :: rest →
    (off ∈ [0x04, 0x08, 0x0C, 0x10] →
      ∃ t, step s = .next t ∧ regValue off t.regs = v ∧ (∀ o, o ≠ off → regValue o t.regs = regValue o s.regs) ∧
        t.latch = s.latch ∧ t.seq = s.seq ∧ t.units = s.units ∧ t.inn = s.inn ∧ t.out = s.out ∧ t.name = s.name ∧
        t.inTouched = s.inTouched) ∧
    (off = 0x00 → v.getLsbD 0 = true →
      ∃ t, step s = .next t ∧ t.latch = s.latch ∧ t.seq = s.seq ∧ t.regs.status = s.regs.status ∧ t.host = rest)

/-- 10_state.md R51, R67 and R68, with 70_reset_and_hazards.md R911 and 20_memory.md R166 for reads. The value of a
result register while BUSY = 1 is free (log 9), and REG's window in the address map is log 22's DESIGN CHOICE. -/
def Obligations.ReservedAndReadOnlyOffsets : Prop :=
  (∀ (s : State) (off : Nat) (v : Word) (rest : List HostAct), off % 4 = 0 → off ≤ 0xFC →
    (0x14 ≤ off → s.host = .regWrite off 4 v :: rest → step s = .next { s with host := rest }) ∧
    (s.host = .regRead off 4 :: rest →
      if s.busy = true ∧ 0x18 ≤ off ∧ off ≤ 0x38 then
        ∃ w, step s = .next { s with host := rest, readData := .word w, freeCtr := s.freeCtr + 1 }
      else step s = .next { s with host := rest, readData := .word (regValue off s.regs) }) ∧
    (0x3C ≤ off → regValue off s.regs = 0) ∧
    ∀ a, locate s.cfg a = .reg off →
      (s.host = .bus a .readWord :: rest → step s = step { s with host := .regRead off 4 :: rest }) ∧
      (s.host = .bus a (.writeWord v) :: rest → step s = step { s with host := .regWrite off 4 v :: rest })) ∧
  ∀ r : Regs,
    [0x00, 0x04, 0x08, 0x0C, 0x10, 0x14, 0x18, 0x1C, 0x20, 0x24, 0x28, 0x2C, 0x30, 0x34, 0x38].map (regValue · r) =
      [r.ctrl, r.cmd, r.inLen, r.outLen, r.expCrc, r.status, r.outCount, r.crcOut, r.result, r.dataLen, r.rsrcLen,
        r.mdType, r.mdCreator, r.mdFlags, r.mdNameLen]

/-- 20_memory.md R165; the faults for R150's index that addresses nothing and for R152's address in no space are the
model's (log 11, log 22), and so is the refusal of an access of memory that runs into REG (log 22). -/
def Obligations.AccessesOutsideTheInterface : Prop :=
  ∀ (s : State) (rest : List HostAct) (off size : Nat) (v : Word) (k : ByteSpace) (i n a : Nat) (bs : List Byte)
      (op : BusOp),
    (size ≠ 4 ∨ off % 4 ≠ 0 →
      (s.host = .regWrite off size v :: rest → step s = .refused (.regAccessShape off size)) ∧
      (s.host = .regRead off size :: rest → step s = .refused (.regAccessShape off size))) ∧
    (off % 4 = 0 → 0x100 ≤ off →
      (s.host = .regWrite off 4 v :: rest → step s = .fault (.noSuchRegister off)) ∧
      (s.host = .regRead off 4 :: rest → step s = .fault (.noSuchRegister off))) ∧
    (spaceSize s.cfg k < i + n →
      (s.host = .memRead k i n :: rest → step s = .fault (.noSuchIndex k (max i (spaceSize s.cfg k)))) ∧
      (s.host = .memWrite k i bs :: rest → bs.length = n →
        step s = .fault (.noSuchIndex k (max i (spaceSize s.cfg k))))) ∧
    (s.host = .bus a op :: rest →
      (locate s.cfg a = .reg off → op.size ≠ 4 ∨ off % 4 ≠ 0 → step s = .refused (.regAccessShape off op.size)) ∧
      ∀ j < op.size, (∀ l < j, ∃ m b, locate s.cfg (a + l) = .byte m b) →
        (0 < j → locate s.cfg (a + j) = .reg off → step s = .refused (.regAccessShape off op.size)) ∧
        (locate s.cfg (a + j) = .nothing → step s = .fault (.noSuchAddress (a + j))))

/-- 70_reset_and_hazards.md R901. -/
def Obligations.PowerOnResetDuringAJob : Prop :=
  (∀ (s : State) (rest : List HostAct), s.host = .powerOn :: rest →
    ∃ t, step s = .next t ∧ (∀ off, regValue off t.regs = 0) ∧ t.seq.phase = .idle ∧ t.irq = false ∧ t.host = rest) ∧
  ∀ (s t : State) (a : HostAct) (rest : List HostAct), s.seq.phase = .run → s.busy = true → s.host = a :: rest →
    a ≠ .powerOn → a ≠ .wait → step s = .next t → t.seq.phase = .run ∧ t.busy = true ∧ t.latch = s.latch

/-- 60_exceptions.md R870. -/
def Obligations.InterruptOutput : Prop :=
  (∀ s : State, s.irq = ((s.regs.status.getLsbD 1 || s.regs.status.getLsbD 2) && s.regs.ctrl.getLsbD 1)) ∧
  (∀ (i : Instr) (s t : State), exec i s = .next t → t.irq = s.regs.ctrl.getLsbD 1) ∧
  (∀ s : State, (startJob s).irq = false) ∧
  ∀ (s : State) (v : Word) (rest : List HostAct), s.host = .regWrite 0x00 4 v :: rest → v.getLsbD 1 = false →
    ∃ t, step s = .next t ∧ t.irq = false

/-- 10_state.md R57 over the states of State.Inv, and 60_exceptions.md R850-R852 for the error words. -/
def Obligations.StatusFields : Prop :=
  (∀ s : State, s.Inv →
    (s.busy && s.done) = false ∧ (s.busy && s.err) = false ∧ (s.done && s.err) = false ∧
    s.regs.status &&& 0xFF00F0F8 = 0 ∧ (s.err = false → s.eclass = 0 ∧ s.ecode = 0)) ∧
  ∀ e ∈ Err.raisable, ∀ s : State, s.regs.status = e.status →
    s.busy = false ∧ s.done = false ∧ s.err = true ∧ s.eclass = e.eclass ∧ s.ecode = e.ecode ∧
    1 ≤ e.eclass.toNat ∧ e.eclass.toNat ≤ 8 ∧ e.ecode ≠ 0

/-- 60_exceptions.md R851's codes and classes in R852's word, as 95_test_vectors.md lists them. -/
def Obligations.ErrorStatusWords : Prop :=
  Err.raisable.map Err.status =
    [0x00010804, 0x00020804, 0x00030804, 0x00100704, 0x00110704, 0x00200104, 0x00210104, 0x00300204, 0x00310204,
     0x00320204, 0x00400304, 0x00410304, 0x00420304, 0x00430304, 0x00440304, 0x00450304, 0x00460304, 0x00470304,
     0x00480304, 0x00500404, 0x00580504, 0x00600604, 0x00610604, 0x00620604, 0x00630604, 0x00640604, 0x00650604,
     0x00660604, 0x00670604, 0x00680604, 0x00690604, 0x006B0604, 0x006C0604]

/-- Over all instructions and states: a job ends (R920, R921), no unlisted or impossible error is recorded (R851), and
an error leaves no result (R852). -/
def Obligations.JobAlwaysEnds : Prop :=
  ∀ (i : Instr) (s : State), ∃ t, exec i s = .next t ∧ JobKeeps s t ∧
    (t.endedDone ∨ ∃ e ∈ Err.raisable, t.endedErr e)

/-- The frame over every instruction: 40_job_control.md R320, R309 and 20_memory.md R150, R166. After an error OUT and
NAME are free (log 7). OUT_COUNT modulo 2^32 is log 14's. -/
def Obligations.JobChangesOnlyItsOutput : Prop :=
  ∀ (i : Instr) (s t : State), exec i s = .next t →
    JobKeeps s t ∧
    (t.endedDone →
      (∀ a, t.seq.outCount ≤ a → t.out.read .out a = s.out.read .out a) ∧
      t.regs.outCount = BitVec.ofNat 32 t.seq.outCount ∧ t.seq.outCount ≤ s.cfg.outCap ∧
      ∀ a, ((∀ c, i ≠ .hqxFile c) ∧ (∀ c, i ≠ .binFile c) ∨ t.regs.mdNameLen.toNat < a) →
        t.name.read .name a = s.name.read .name a)

/-- The rows of 40_job_control.md R320. The BinHex container's lengths are read from U_HQX after the job, whose state
there is log 23's DESIGN CHOICE. OUT_COUNT as a 32-bit sum is log 14's. OUT and CRC_OUT where the host wrote OUT while
BUSY = 1 are the DESIGN CHOICES of logs 10 and 33 (unsafe). -/
def Obligations.ResultRegistersByCommand : Prop :=
  ∀ (i : Instr) (s t : State), exec i s = .next t → t.endedDone →
    let inp := s.inn.slice .inn 0 s.latch.inLen.toNat
    match i with
    | .sitRaw _ | .sitRle90 _ | .sitLzw _ | .sitM13 _ =>
      t.regs.outCount = s.latch.outLen ∧
      t.regs.results = { crcOut := zext32 (crcArc (t.out.slice .out 0 s.latch.outLen.toNat)) }
    | .sitArs _ | .cptRle _ | .cptLzh _ => t.regs.outCount = s.latch.outLen ∧ t.regs.results = {}
    | .hqxDetect _ | .binDetect _ =>
      t.regs.outCount = 0 ∧ t.regs.results = { result := t.regs.result } ∧ t.regs.result.toNat ≤ 1
    | .hqxFile _ =>
      t.regs.dataLen = t.units.hqx.dl ∧ t.regs.rsrcLen = t.units.hqx.rl ∧
      t.regs.outCount = t.regs.dataLen + t.regs.rsrcLen ∧ t.regs.crcOut = 0 ∧ t.regs.result = 0 ∧
      1 ≤ t.regs.mdNameLen.toNat ∧ t.regs.mdNameLen.toNat ≤ 63 ∧ t.name.read .name t.regs.mdNameLen.toNat = 0
    | .hqxWrap _ => t.regs.outCount = t.units.hqx.dl ∧ t.regs.results = {}
    | .binFile _ =>
      t.regs.dataLen = field32 inp 83 ∧ t.regs.rsrcLen = field32 inp 87 ∧
      t.regs.outCount = t.regs.dataLen + t.regs.rsrcLen ∧ t.regs.crcOut = 0 ∧
      t.regs.result &&& 0x2 = t.regs.result ∧ 1 ≤ t.regs.mdNameLen.toNat ∧ t.regs.mdNameLen.toNat ≤ 63 ∧
      t.name.read .name t.regs.mdNameLen.toNat = 0
    | .binWrap _ =>
      t.regs.outCount = (if t.regs.result.getLsbD 2 = true then field32 inp 87 else field32 inp 83) ∧
      t.regs.results = { result := t.regs.result } ∧ t.regs.result &&& 0x6 = t.regs.result
    | .crcXmodem _ => t.regs.outCount = 0 ∧ t.regs.results = { crcOut := zext32 (crcXmodem inp) }
    | .crcArc _ => t.regs.outCount = 0 ∧ t.regs.results = { crcOut := zext32 (crcArc inp) }
    | .sitUnsupM3 _ | .sitUnsupM4 _ | .sitUnsupM5 _ | .sitUnsupM6 _ | .sitUnsupM7 _ | .sitUnsupM8 _ | .sitUnsupM9 _
    | .sitUnsupM10 _ | .sitUnsupM11 _ | .sitUnsupM12 _ | .sitUnsupM14 _ | .reservedOp _ _ | .reservedBits _ _ _ => False

/-- 70_reset_and_hazards.md R902: nothing carries from one job to the next but what the host wrote, and the NAME
bytes. That it holds of the byte count and the cursors, also after an error, rests on log 7 (DEDUCED, unsafe for them)
and, for bpos after reads by index, on log 30 (DESIGN CHOICE). That they do not depend on what the host wrote to OUT
or NAME while BUSY = 1 is the DESIGN CHOICE of log 10 (the produced bytes) and log 33 (STATUS and CRC_OUT of the four
commands that R316 checks), both unsafe. -/
def Obligations.NothingCarriesOver : Prop :=
  ∀ (i : Instr) (s s' t t' : State), s.cfg = s'.cfg → s.latch = s'.latch →
    (∀ a < s.latch.inLen.toNat, s.inn.read .inn a = s'.inn.read .inn a) →
    exec i s = .next t → exec i s' = .next t' →
    t.regs.status = t'.regs.status ∧ t.regs.outCount = t'.regs.outCount ∧ t.regs.results = t'.regs.results ∧
    t.seq = t'.seq ∧
    (t.endedDone →
      (∀ a < t.seq.outCount, t.out.read .out a = t'.out.read .out a) ∧
      ∀ c, (i = .hqxFile c ∨ i = .binFile c) →
        ∀ a ≤ t.regs.mdNameLen.toNat, t.name.read .name a = t'.name.read .name a)

/-- 70_reset_and_hazards.md R910. How the model remembers the write is its own (log 8). -/
def Obligations.InputWrittenDuringAJob : Prop :=
  (∀ (s : State) (a : Nat) (bs : List Byte) (rest : List HostAct), s.busy = true → bs ≠ [] →
    a + bs.length ≤ s.cfg.inCap → s.host = .memWrite .inn a bs :: rest →
    ∃ t, step s = .next t ∧ t.inTouched = true ∧
      (∀ c, t.inn.read .inn c = if a ≤ c ∧ c < a + bs.length then bs.getD (c - a) 0 else s.inn.read .inn c) ∧
      t.regs = s.regs ∧ t.latch = s.latch ∧ t.seq = s.seq) ∧
  ∀ s : State, s.seq.phase = .run → s.inTouched = true → (s.host = [] ∨ s.host.head? = some .wait) →
    ∃ t, step s = .next t ∧ t.seq.phase = .idle ∧ t.inn = s.inn ∧ t.latch = s.latch ∧
      (t.regs.status = statusDone ∨ ∃ e ∈ Err.raisable, t.regs.status = e.status)

/-- 30_encoding.md R204's LOAD and 20_memory.md R166, R175, R176, with 70_reset_and_hazards.md R911. What a host write
leaves in OUT and NAME is log 10's, and the address map and the bus's byte order are log 22's. -/
def Obligations.LoadFillsInput : Prop :=
  (∀ (s : State) (k : Nat) (bs : List Byte), s.busy = false → s.host = loadActs k bs → k + bs.length ≤ s.cfg.inCap →
    ∃ t : State, Sys2Proof.core.run bs.length s = .next t ∧ t.host = [] ∧
      (∀ a, t.inn.read .inn a =
        if k ≤ a ∧ a < k + bs.length then bs.getD (a - k) 0 else s.inn.read .inn a) ∧
      t.regs = s.regs ∧ t.out = s.out ∧ t.name = s.name ∧ t.inTouched = s.inTouched) ∧
  ∀ (s : State) (k : ByteSpace) (i n : Nat) (bs : List Byte) (rest : List HostAct), i + n ≤ spaceSize s.cfg k →
    (bs.length = n → s.host = .memWrite k i bs :: rest →
      ∃ t, step s = .next t ∧ t.host = rest ∧ t.regs = s.regs ∧ t.latch = s.latch ∧ t.seq = s.seq ∧ t.units = s.units ∧
        t.cfg = s.cfg ∧ t.readData = s.readData ∧ (∀ l, l ≠ k → t.space l = s.space l) ∧
        (∀ a, a < i ∨ i + n ≤ a → (t.space k).read k a = (s.space k).read k a) ∧
        (k = .inn → ∀ j < n, t.inn.read .inn (i + j) = bs.getD j 0)) ∧
    (s.host = .memRead k i n :: rest →
      if k = .inn ∨ s.busy = false then
        step s = .next { s with host := rest, readData := .bytes ((s.space k).slice k i n) }
      else ∃ bs ctr, bs.length = n ∧ step s = .next { s with host := rest, readData := .bytes bs, freeCtr := ctr }) ∧
    ∀ (a : Nat) (v : Word), 1 ≤ n → (∀ j < n, locate s.cfg (a + j) = .byte k (i + j)) →
      (s.host = .bus a (.readBytes n) :: rest → step s = step { s with host := .memRead k i n :: rest }) ∧
      (bs.length = n → s.host = .bus a (.writeBytes bs) :: rest →
        step s = step { s with host := .memWrite k i bs :: rest }) ∧
      (n = 4 → s.host = .bus a (.writeWord v) :: rest →
        step s = step { s with host := .memWrite k i (wordBytes s.cfg.busOrder v) :: rest }) ∧
      (n = 4 → s.host = .bus a .readWord :: rest →
        if k = .inn ∨ s.busy = false then
          ∃ w, wordBytes s.cfg.busOrder w = (s.space k).slice k i 4 ∧
            step s = .next { s with host := rest, readData := .word w }
        else ∃ w ctr, step s = .next { s with host := rest, readData := .word w, freeCtr := ctr })

/-- 40_job_control.md R301. The byte count and the cursors after the error are log 7's DEDUCED reading (unsafe). That
the latched command word holds CMD[31:9] is log 13's (DEDUCED). -/
def Obligations.CheckCommandOrder : Prop :=
  ∀ (s : State) (i : Instr), decode [latchWord s.latch] = .ok (i, []) →
    let op := s.latch.op.toNat
    if s.latch.rsvd ≠ 0 then FailsAtOnce i s .cmdReservedBits
    else if isReservedOp s.latch.op = true then FailsAtOnce i s .cmdReservedOp
    else if s.cfg.inCap < s.latch.inLen.toNat then FailsAtOnce i s .cmdInLen
    else if (0x03 ≤ op ∧ op ≤ 0x0C) ∨ op = 0x0E then FailsAtOnce i s .feaMethod
    else op ≤ 0x11 → s.cfg.outCap < s.latch.outLen.toNat → FailsAtOnce i s .resOutCap

/-- 40_job_control.md R311: the error is these commands' own effect. -/
def Obligations.UnsupportedMethods : Prop :=
  ∀ (s : State) (c : Bool), s.inputFits →
    ∀ i ∈ [Instr.sitUnsupM3 c, .sitUnsupM4 c, .sitUnsupM5 c, .sitUnsupM6 c, .sitUnsupM7 c, .sitUnsupM8 c,
        .sitUnsupM9 c, .sitUnsupM10 c, .sitUnsupM11 c, .sitUnsupM12 c, .sitUnsupM14 c],
      ∃ t, exec i s = .next t ∧ FailedWith s t .feaMethod ∧ t.regs.status = 0x00580504

/-- 30_encoding.md R202, and R200 for the reserved bits: the errors are these words' own effect. OUT and NAME are free
then (log 7). -/
def Obligations.ReservedCommands : Prop :=
  (∀ (s : State) (op : BitVec 8) (c : Bool),
    ∃ t, exec (.reservedOp op c) s = .next t ∧ FailedWith s t .cmdReservedOp ∧ t.regs.status = 0x00010804) ∧
  (∀ op : BitVec 8, isReservedOp op = true ↔
    op.toNat ∉ [0x00, 0x01, 0x02, 0x03, 0x04, 0x05, 0x06, 0x07, 0x08, 0x09, 0x0A, 0x0B, 0x0C, 0x0D, 0x0E, 0x0F, 0x10,
      0x11, 0x20, 0x21, 0x22, 0x30, 0x31, 0x32, 0x40, 0x41]) ∧
  ∀ (s : State) (rsvd : BitVec 23) (c : Bool) (op : BitVec 8),
    ∃ t, exec (.reservedBits rsvd c op) s = .next t ∧ FailedWith s t .cmdReservedBits ∧ t.regs.status = 0x00020804

/-- 30_encoding.md R203, with 40_job_control.md R316 for the four commands it reaches. CRC_OUT and INT_FORK_CRC where
the host wrote OUT while BUSY = 1 are log 33's DESIGN CHOICE (unsafe). -/
def Obligations.CrcEnableReaches : Prop :=
  (∀ (s : State) (mk : Bool → Instr),
    mk ∈ [Instr.sitUnsupM3, .sitUnsupM4, .sitUnsupM5, .sitUnsupM6, .sitUnsupM7, .sitUnsupM8, .sitUnsupM9, .sitUnsupM10,
      .sitUnsupM11, .sitUnsupM12, .sitUnsupM14, .sitArs, .cptRle, .cptLzh, .hqxDetect, .hqxFile, .hqxWrap, .binDetect,
      .binFile, .binWrap, .crcXmodem, .crcArc] → exec (mk true) s = exec (mk false) s) ∧
  ∀ (s t : State) (mk : Bool → Instr), mk ∈ [Instr.sitRaw, .sitRle90, .sitLzw, .sitM13] →
    exec (mk false) s = .next t →
    if t.endedDone ∧ t.regs.crcOut ≠ zext32 s.latch.expCrc then
      ∃ u, exec (mk true) s = .next u ∧ FailedWith s u .intForkCrc
    else exec (mk true) s = .next t

/-- 30_encoding.md R200, R201. -/
def Obligations.DecodesWrittenWords : Prop :=
  decode [0b00000000000000000000000000000000#32] = .ok (.sitRaw false, []) ∧
  decode [0b00000000000000000000000100000001#32] = .ok (.sitRle90 true, []) ∧
  decode [0b00000000000000000000000000000010#32] = .ok (.sitLzw false, []) ∧
  decode [0b00000000000000000000000000001110#32] = .ok (.sitUnsupM14 false, []) ∧
  decode [0b00000000000000000000000100001101#32] = .ok (.sitM13 true, []) ∧
  decode [0b00000000000000000000000000001111#32] = .ok (.sitArs false, []) ∧
  decode [0b00000000000000000000000000010001#32] = .ok (.cptLzh false, []) ∧
  decode [0b00000000000000000000000000100001#32] = .ok (.hqxFile false, []) ∧
  decode [0b00000000000000000000000000110010#32] = .ok (.binWrap false, []) ∧
  decode [0b00000000000000000000000001000001#32] = .ok (.crcArc false, []) ∧
  decode [0b00000000000000000000000100010010#32] = .ok (.reservedOp 0x12 true, []) ∧
  decode [0b00000000000000000000001000000101#32] = .ok (.reservedBits 1 false 0x05, [])

/-- Every row of the opcode table: 30_encoding.md R200-R202. -/
def Obligations.DecodeEncodeRoundTrip : Prop :=
  ∀ (i : Instr) (rest : List Word), i.wf = true → decode (encode i ++ rest) = .ok (i, rest)

/-- 30_encoding.md R200's layout covers bits 31:0, and its match/mask pair. -/
def Obligations.EveryWordIsOneInstruction : Prop :=
  (∀ (w : Word) (rest : List Word),
    ∃ i, decode (w :: rest) = .ok (i, rest) ∧ i.wf = true ∧ encode i = [w] ∧
      ∀ j : Instr, j.wf = true → encode j = [w] → j = i) ∧
  ∀ (w : Word) (op : BitVec 8), w &&& 0xFFFFFEFF = op.setWidth 32 ↔ decodeWord w = decodeOp op (w.getLsbD 8)

/-- The inference of 41_common.md R352: 'This holds exactly when CRC16_XMODEM(d) = be16(s)'. -/
def Obligations.CrcSelfCheck : Prop :=
  ∀ (d : List Byte) (a b : Byte), crcXmodem (d ++ [a, b]) = 0 ↔ crcXmodem d = (a ++ b : BitVec (8 + 8))

/-- 41_common.md R351's quotation: reflected, polynomial 0x8005, table 0xA001. -/
def Obligations.CrcArcIsTheReflectedCrc : Prop :=
  ∀ d : List Byte, crcArc d = crcReflected d

/-- 41_common.md R355, with its corner cases and example. -/
def Obligations.CrcXmodemCommand : Prop :=
  (∀ (s : State) (c : Bool) (bs : List Byte), s.inputIs bs → s.inputFits →
    ∃ t, exec (.crcXmodem c) s = .next t ∧ DoneWith s t [] { crcOut := zext32 (crcXmodem bs) }) ∧
  crcXmodem [] = 0 ∧ crcXmodem (ascii "123456789") = 0x31C3 ∧
  ∀ d : List Byte, crcXmodem (d ++ bytes16 (crcXmodem d)) = 0

/-- 41_common.md R356, with its corner case and examples. -/
def Obligations.CrcArcCommand : Prop :=
  (∀ (s : State) (c : Bool) (bs : List Byte), s.inputIs bs → s.inputFits →
    ∃ t, exec (.crcArc c) s = .next t ∧ DoneWith s t [] { crcOut := zext32 (crcArc bs) }) ∧
  crcArc [] = 0 ∧ crcArc (ascii "123456789") = 0xBB3D ∧ crcArc (ascii "A") = 0x30C0

/-- 40_job_control.md R310, with R316 for the CRC. The byte count and the cursors after the error are log 7's DEDUCED
reading (unsafe). OUT and CRC_OUT where the host wrote OUT while BUSY = 1 are the DESIGN CHOICES of logs 10 and 33
(unsafe). -/
def Obligations.SitRawCopies : Prop :=
  ∀ (s : State) (c : Bool) (bs : List Byte), s.inputIs bs → s.forkFits →
    (s.latch.outLen.toNat ≤ bs.length →
      StuffItForkEnds s c (exec (.sitRaw c) s) (bs.take s.latch.outLen.toNat)) ∧
    (bs.length < s.latch.outLen.toNat →
      ∃ t, exec (.sitRaw c) s = .next t ∧ FailedWith s t .trnEof ∧
        t.seq = { phase := .idle, outCount := bs.length, bpos := bs.length, bitpos := 0 })

/-- 45_stuffit_rle90_lzw.md R580: the machine's byte steps against the whole expansion. The byte count and the cursors
after the error are log 7's DEDUCED reading (unsafe). OUT and CRC_OUT where the host wrote OUT while BUSY = 1 are the
DESIGN CHOICES of logs 10 and 33 (unsafe). -/
def Obligations.SitRle90Decodes : Prop :=
  ∀ (s : State) (c : Bool) (bs : List Byte), s.inputIs bs → s.forkFits →
    (s.latch.outLen.toNat ≤ (rle90 0 bs).length →
      StuffItForkEnds s c (exec (.sitRle90 c) s) ((rle90 0 bs).take s.latch.outLen.toNat)) ∧
    ((rle90 0 bs).length < s.latch.outLen.toNat →
      ∃ t, exec (.sitRle90 c) s = .next t ∧ FailedWith s t .trnEof ∧
        t.seq = { phase := .idle, outCount := (rle90 0 bs).length, bpos := bs.length, bitpos := 0 })

/-- 45_stuffit_rle90_lzw.md R600-R609: the arrays, the walk and the staging buffer against a list of strings. OUT and
CRC_OUT where the host wrote OUT while BUSY = 1 are the DESIGN CHOICES of logs 10 and 33 (unsafe). -/
def Obligations.SitLzwDecodesCodes : Prop :=
  ∀ (s : State) (c : Bool) (bs : List Byte) (codes : List Nat) (out : List Byte), s.inputIs bs → s.forkFits →
    (∀ j < codes.length, codes.getD j 0 < 2 ^ lzwWidth j ∧ codes.getD j 0 ≠ 256) →
    HoldsLsb bs 0 (lzwBits 0 codes) → lzwDecode [] none codes = some out → s.latch.outLen.toNat ≤ out.length →
    StuffItForkEnds s c (exec (.sitLzw c) s) (out.take s.latch.outLen.toNat)

/-- 45_stuffit_rle90_lzw.md R603 with 90_conflicts.md C2's reading of the skip; any number of clears, at 9 to 14 bits.
OUT and CRC_OUT where the host wrote OUT while BUSY = 1 are the DESIGN CHOICES of logs 10 and 33 (unsafe). -/
def Obligations.SitLzwClearRestarts : Prop :=
  ∀ (s : State) (c : Bool) (bs : List Byte) (runs : List (List Nat)) (outs : List (List Byte)), s.inputIs bs →
    s.forkFits → (∀ codes ∈ runs, ∀ j < codes.length, codes.getD j 0 < 2 ^ lzwWidth j ∧ codes.getD j 0 ≠ 256) →
    HoldsLzwRuns bs 0 runs → runs.mapM (lzwDecode [] none) = some outs →
    s.latch.outLen.toNat ≤ outs.flatten.length →
    StuffItForkEnds s c (exec (.sitLzw c) s) (outs.flatten.take s.latch.outLen.toNat)

/-- 45_stuffit_rle90_lzw.md R608 and R610, from the start of a job and after any clears (R603). -/
def Obligations.SitLzwBadCode : Prop :=
  ∀ (s : State) (c : Bool) (bs : List Byte) (init : List (List Nat)) (codes : List Nat) (outs : List (List Byte)),
    s.inputIs bs → s.forkFits →
    (∀ run ∈ init ++ [codes], ∀ j < run.length, run.getD j 0 < 2 ^ lzwWidth j ∧ run.getD j 0 ≠ 256) →
    (init ++ [codes]).mapM (lzwDecode [] none) = some outs → outs.flatten.length < s.latch.outLen.toNat →
    (∀ bad, 256 + codes.length < bad → bad < 2 ^ lzwWidth codes.length → HoldsLzwRuns bs 0 (init ++ [codes ++ [bad]]) →
      FailsWith (.sitLzw c) s .decLzwCode) ∧
    (HoldsLzwRuns bs 0 (init ++ [codes]) → 8 * bs.length < lzwEnd 0 (init ++ [codes]) + lzwWidth codes.length →
      FailsWith (.sitLzw c) s .decUnderflow)

/-- 41_common.md R360, R362, R363's dead prefix, R364. The cursor at the error is log 7's DEDUCED reading (unsafe). -/
def Obligations.HuffmanDecodesCanonicalCodewords : Prop :=
  ∀ (lens : List Nat) (m sym k : Nat) (bs : List Byte) (eof : Err) (single : Bool), KraftOk m lens →
    lens.getD sym 0 ≠ 0 →
    ∃ t, buildCanonical lens = .ok t ∧
      ((single = true → ∃ l, l ≠ sym ∧ lens.getD l 0 ≠ 0) →
        (HoldsLsb bs k (codewordBits lens sym) →
          huffDecode (fun k => readBitsLE bs k 1) eof single t k = .ok (sym, k + lens.getD sym 0)) ∧
        (HoldsMsb bs k (codewordBits lens sym) →
          huffDecode (fun k => readBitsBE bs k 1) eof single t k = .ok (sym, k + lens.getD sym 0)) ∧
        ∀ bits : List Bool, bits ≠ [] → bits.dropLast <+: codewordBits lens sym →
          (∀ l, lens.getD l 0 ≠ 0 → ¬ bits <+: codewordBits lens l ∧ ¬ codewordBits lens l <+: bits) →
          (HoldsLsb bs k bits →
            huffDecode (fun k => readBitsLE bs k 1) eof single t k = .error (.atBit (k + bits.length) .decHuffNocode)) ∧
          (HoldsMsb bs k bits →
            huffDecode (fun k => readBitsBE bs k 1) eof single t k = .error (.atBit (k + bits.length) .decHuffNocode))) ∧
      ((∀ l, l ≠ sym → lens.getD l 0 = 0) → huffDecode (fun k => readBitsLE bs k 1) eof true t k = .ok (sym, k))

/-- 41_common.md R361, and R363 for the empty tree. That its error moves no cursor is log 7's DEDUCED reading
(unsafe). -/
def Obligations.OversubscribedListsAreRefused : Prop :=
  (∀ (lens : List Nat) (m : Nat), (∀ l ∈ lens, l ≤ m) →
    if KraftOk m lens then ∃ t, buildCanonical lens = .ok t
    else buildCanonical lens = .error .decHuffOversub) ∧
  (∀ lens : List Nat, (∀ l ∈ lens, l = 0) → buildCanonical lens = .ok []) ∧
  ∀ (bit : Nat → Option (Nat × Nat)) (eof : Err) (single : Bool) (k : Nat),
    huffDecode bit eof single [] k = .error (.atBit k .decHuffNocode)

/-- 20_memory.md R170, R171: each byte is written before the next is read. -/
def Obligations.WindowHoldsTheOutput : Prop :=
  ∀ (w : List Host.Cell) (size pos : Nat) (out : List Byte), WindowHolds w size pos out →
    (∀ b : Byte, WindowHolds (winPut w size pos b).1 size (winPut w size pos b).2 (out ++ [b])) ∧
    ∀ dist, 1 ≤ dist → dist ≤ size →
      let r := winCopy w size pos dist
      copyBack dist 1 out = out ++ [r.1] ∧ WindowHolds r.2.1 size r.2.2 (out ++ [r.1])

/-- 46_method13.md R650-R653, R670-R674, R672 for symbol 320, and 20_memory.md R163 for the end of input. That
M13_PREDEF gives three lists of codewords is log 19's DESIGN CHOICE: R653 does not say. OUT and CRC_OUT where the host
wrote OUT while BUSY = 1 are the DESIGN CHOICES of logs 10 and 33 (unsafe). -/
def Obligations.SitM13PredefinedTrees : Prop :=
  ∀ (s : State) (c : Bool) (bs : List Byte) (h : Byte) (p : TreeSet) (toks : List M13Token) (bits : List Bool),
    s.inputIs bs → s.forkFits → bs.head? = some h → 1 ≤ h.toNat / 16 → h.toNat / 16 ≤ 5 →
    s.cfg.m13Predef.toList[h.toNat / 16 - 1]? = some p → PrefixCode p.t1 → PrefixCode p.t2 → PrefixCode p.td →
    (∀ tok ∈ toks, m13TokenOk tok = true) → m13TokenBits p.t1 p.t2 p.td p.t1 toks = some bits →
    M13Ends s c bs 8 p.t1 p.t2 p.td toks bits

/-- 46_method13.md R660-R666. The cursors at the errors are log 7's DEDUCED reading (unsafe). -/
def Obligations.M13ReadsLengthLists : Prop :=
  ∀ (cfg : Config) (bs : List Byte) (k : Nat) (cmds : List (Nat × Nat)) (lens : List Nat), MetaPrefixCode cfg →
    (∀ q ∈ cmds, q.1 ≤ 36 ∧ q.2 < 2 ^ m13CommandBits q.1) → m13LengthList 0 cmds = some lens →
    HoldsLsb bs k (m13CommandListBits cfg cmds) →
    let k' := k + (m13CommandListBits cfg cmds).length
    (if KraftOk 32 lens then ∃ t, buildCanonical lens = .ok t ∧ m13ReadTree cfg bs lens.length k = .ok (t, k')
    else m13ReadTree cfg bs lens.length k = .error (.atBit k' .decHuffOversub)) ∧
    ∀ q, cmds.getLast? = some q → (q.1 = 34 ∧ q.2 = 1 ∨ q.1 = 35 ∨ q.1 = 36) →
      m13ReadTree cfg bs (lens.length - 1) k = .error (.atBit k' .decM13Lengths)

/-- 46_method13.md R650, R651, R654, R660-R666, R670-R674, and 20_memory.md R163 for the end of input. OUT and CRC_OUT
where the host wrote OUT while BUSY = 1 are the DESIGN CHOICES of logs 10 and 33 (unsafe). -/
def Obligations.SitM13DynamicTrees : Prop :=
  ∀ (s : State) (c : Bool) (bs : List Byte) (h : Byte) (cmds1 cmds2 cmdsD : List (Nat × Nat))
    (lens1 lens2 lensD : List Nat),
    s.inputIs bs → s.forkFits → bs.head? = some h → h.toNat / 16 = 0 → MetaPrefixCode s.cfg →
    (∀ q ∈ cmds1 ++ cmds2 ++ cmdsD, q.1 ≤ 36 ∧ q.2 < 2 ^ m13CommandBits q.1) →
    m13LengthList 0 cmds1 = some lens1 → lens1.length = 321 → KraftOk 32 lens1 →
    (if h.getLsbD 3 = true then cmds2 = [] ∧ lens2 = lens1
      else m13LengthList 0 cmds2 = some lens2 ∧ lens2.length = 321 ∧ KraftOk 32 lens2) →
    m13LengthList 0 cmdsD = some lensD → lensD.length = h.toNat % 8 + 10 → KraftOk 32 lensD →
    let trees := m13CommandListBits s.cfg cmds1 ++ m13CommandListBits s.cfg cmds2 ++ m13CommandListBits s.cfg cmdsD
    (∀ part : List Bool, part <+: trees → part ≠ trees → HoldsLsb bs 8 part → 8 + part.length = 8 * bs.length →
      FailsWith (.sitM13 c) s .decUnderflow) ∧
    ∀ (toks : List M13Token) (bits : List Bool), HoldsLsb bs 8 trees → (∀ tok ∈ toks, m13TokenOk tok = true) →
      let t1 := canonicalTree lens1
      let t2 := canonicalTree lens2
      let td := canonicalTree lensD
      m13TokenBits t1 t2 td t1 toks = some bits → M13Ends s c bs (8 + trees.length) t1 t2 td toks bits

/-- 46_method13.md R652; R651 for the empty input. R651 gives the header's read. The byte count and the cursors after
the error are log 7's DEDUCED reading (unsafe). -/
def Obligations.SitM13HeaderSet : Prop :=
  ∀ (s : State) (c : Bool) (bs : List Byte), s.inputIs bs → s.forkFits →
    (∀ h, bs.head? = some h → 6 ≤ h.toNat / 16 →
      ∃ t, exec (.sitM13 c) s = .next t ∧ FailedWith s t .valM13Set ∧
        t.seq = { phase := .idle, outCount := 0, bpos := 1, bitpos := 8 }) ∧
    (bs = [] → FailsAtOnce (.sitM13 c) s .decUnderflow)

/-- 47_arsenic.md R720's example (vector ARS-1). OUT where the host wrote it while BUSY = 1 is log 10's DESIGN CHOICE
(unsafe). -/
def Obligations.SitArsDecodesBanana : Prop :=
  ∀ (s : State) (c : Bool),
    s.inputIs (bytesOf [0x42, 0xC1, 0xC5, 0x40, 0xF2, 0x3C, 0x7E, 0x25, 0xFA, 0x64, 0xBE, 0xD0, 0x00, 0x00]) →
    s.forkFits → 512 ≤ s.cfg.arsBlockCap →
    (s.latch.outLen.toNat ≤ 6 →
      ∃ t, exec (.sitArs c) s = .next t ∧ DoneWith s t ((ascii "banana").take s.latch.outLen.toNat) {}) ∧
    (6 < s.latch.outLen.toNat → ∃ t, exec (.sitArs c) s = .next t ∧ FailedWith s t .trnArsEos)

/-- 47_arsenic.md R730, R738 and R740-R747 over decoded blocks, one or several, some of them empty: inverse transform,
randomisation and final RLE. The bound on their number is log 17's. OUT where the host wrote it while BUSY = 1 is log
10's DESIGN CHOICE (unsafe). -/
def Obligations.SitArsOneBlock : Prop :=
  ∀ (s : State) (c : Bool) (bs : List Byte) (u v : ArsUnit) (k k' : Nat) (outs : List (List Byte)), s.inputIs bs →
    s.forkFits → arsStart s.cfg.arsBlockCap bs = .ok (u, k) → HoldsArsBlocks s.cfg bs u k outs v k' →
    outs.length < arsFuel bs →
    let out := arsExpand 0 0 outs.flatten
    (s.latch.outLen.toNat ≤ out.length →
      ∃ t, exec (.sitArs c) s = .next t ∧ DoneWith s t (out.take s.latch.outLen.toNat) {}) ∧
    (v.eos = true → out.length < s.latch.outLen.toNat → FailsWith (.sitArs c) s .trnArsEos)

/-- 47_arsenic.md R741; the transform as the glossary words it. -/
def Obligations.InverseBwtRecoversTheText : Prop :=
  ∀ (cfg : Config) (u : ArsUnit) (text : List Byte), IsBwt text u.buf u.prim → u.lfMap = arsLfMap u.buf →
    u.idx = u.prim → u.randf = false →
    ∃ v, forkLoop (fun w => (arsBwtNext cfg w).mapError (.atBit 0)) text.length u = .ok (text, v) ∧
      v.opos = u.opos + text.length

/-- 47_arsenic.md R723, R724, R731: the inference that DEC_ARS_ZERO_SCALE cannot arise. -/
def Obligations.ArsDecoderKeepsItsRange : Prop :=
  (∀ (bs : List Byte) (a : ArsCoder) (m : ArsModel), ArsModelOk m → ArsRangeOk a.range →
    (∀ r, arsDecode bs a m = .error r → r.err = .decUnderflow) ∧
    ∀ sym b n, arsDecode bs a m = .ok (sym, b, n) →
      m.first ≤ sym ∧ sym < m.first + m.freq.length ∧ ArsRangeOk b.range ∧ ArsModelOk n ∧ n.first = m.first ∧
      n.freq.length = m.freq.length) ∧
  ArsModelOk arsPrimary ∧ ArsModelOk arsSelector ∧ ∀ m ∈ arsGroups.toList, ArsModelOk m

/-- 47_arsenic.md R732 and R733. The bound on the number of digits is log 17's. The cursor at DEC_ARS_OVERFLOW is log
7's DEDUCED reading (unsafe). -/
def Obligations.MoveToFrontInverts : Prop :=
  (∀ (u : ArsUnit) (text rbuf : List Byte), u.mtf.Nodup → (∀ b ∈ text, b ∈ u.mtf) →
    (u.len + text.length ≤ arsBlockSize u →
      ∃ v, (mtfEncode u.mtf text).foldlM (fun p i => arsMtf p.1 p.2 i) (u, rbuf) = .ok (v, text.reverse ++ rbuf) ∧
        v.len = u.len + text.length ∧ v.mtf.Perm u.mtf) ∧
    (arsBlockSize u < u.len + text.length → u.len ≤ arsBlockSize u →
      (mtfEncode u.mtf text).foldlM (fun p i => arsMtf p.1 p.2 i) (u, rbuf) = .error .decArsOverflow)) ∧
  ∀ (bs rbuf : List Byte) (u v : ArsUnit) (k k' first last n : Nat) (digits : List Nat), first ≤ 1 →
    (∀ d ∈ digits, d ≤ 1) → 2 ≤ last → ReadsSelectors bs u k (digits ++ [last]) v k' →
    digits.length + 2 ≤ arsFuel bs →
    let total := zeroRunLength (first :: digits)
    arsBlockLoop bs (n + 1) first u rbuf k =
      if arsBlockSize u < u.len + total then .error (.atBit k' .decArsOverflow)
      else arsBlockLoop bs n last { v with len := v.len + total } (List.replicate total (u.mtf.getD 0 0) ++ rbuf) k'

/-- 47_arsenic.md R721, R725 and their examples, over every header; R740 and R732, R733 over every block that is
reached. The bounds on the numbers of blocks, parts and digits are log 17's. FailsAtOnce's cursors are log 7's DEDUCED
reading (unsafe). -/
def Obligations.SitArsHeaderErrors : Prop :=
  ∀ (s : State) (c : Bool) (bs : List Byte), s.inputIs bs → s.forkFits →
    (bs.length ≤ 3 → FailsAtOnce (.sitArs c) s .decUnderflow) ∧
    (4 ≤ bs.length →
      match arsField bs 8 (arsInit (bitsBE bs 0 26)) 26 with
      | .error _ => FailsWith (.sitArs c) s .decUnderflow
      | .ok (sig1, u, k) =>
        if sig1 ≠ 0x41 then FailsWith (.sitArs c) s .fmtArsSignature
        else
          match arsField bs 8 u k with
          | .error _ => FailsWith (.sitArs c) s .decUnderflow
          | .ok (sig2, u, k) =>
            if sig2 ≠ 0x73 then FailsWith (.sitArs c) s .fmtArsSignature
            else
              match arsField bs 4 u k with
              | .error _ => FailsWith (.sitArs c) s .decUnderflow
              | .ok (b, u, k) =>
                if s.cfg.arsBlockCap < 2 ^ (b + 9) then FailsWith (.sitArs c) s .resArsBlock
                else
                  match arsField bs 1 u k with
                  | .error _ => FailsWith (.sitArs c) s .decUnderflow
                  | .ok (eos, _, _) =>
                    (s.latch.outLen = 0 → ∃ t, exec (.sitArs c) s = .next t ∧ DoneWith s t [] {}) ∧
                    (eos = 1 → s.latch.outLen ≠ 0 → FailsWith (.sitArs c) s .trnArsEos)) ∧
    (bs = bytesOf [0x42, 0xC1, 0xC6, 0xA3, 0xFD, 0xE8] →
      if s.cfg.arsBlockCap < 512 then FailsWith (.sitArs c) s .resArsBlock
      else if s.latch.outLen = 0 then ∃ t, exec (.sitArs c) s = .next t ∧ DoneWith s t [] {}
      else FailsWith (.sitArs c) s .trnArsEos) ∧
    (bs = bytesOf [0x42, 0xC1, 0xC4, 0xA3, 0xB8, 0xF4, 0xFE, 0x25, 0xFA, 0x64, 0xBE, 0xD0, 0x00, 0x00] →
      512 ≤ s.cfg.arsBlockCap → s.latch.outLen ≠ 0 → FailsWith (.sitArs c) s .decArsBwtIndex) ∧
    (bs = bytesOf [0x42, 0xC1, 0xC3, 0x5C, 0xEA, 0x7F, 0x1C, 0xBD, 0x00, 0x00, 0x00] →
      512 ≤ s.cfg.arsBlockCap → s.latch.outLen ≠ 0 → FailsWith (.sitArs c) s .decArsOverflow) ∧
    ∀ (u v w : ArsUnit) (k k' m : Nat) (outs : List (List Byte)), arsStart s.cfg.arsBlockCap bs = .ok (u, k) →
      HoldsArsBlocks s.cfg bs u k outs v k' → outs.length < arsFuel bs →
      (arsExpand 0 0 outs.flatten).length < s.latch.outLen.toNat → ReadsArsHeader bs v k' w m →
      (∀ x n y n', arsBlockData bs w m = .ok (x, n) → arsFooter bs x n = .ok (y, n') → 0 < x.len → x.len ≤ w.prim →
        FailsWith (.sitArs c) s .decArsBwtIndex) ∧
      ∀ (first sel : Nat) (w1 x : ArsUnit) (m1 n : Nat) (items : List ArsItem),
        arsSelectorSym bs w m = .ok (first, w1, m1) → ReadsItems bs first w1 m1 items sel x n →
        items.length < arsFuel bs → (∀ ds, ArsItem.run ds ∈ items → ds.length < arsFuel bs) →
        let held := (items.map ArsItem.length).sum
        held ≤ arsBlockSize w → ArsOverflows bs (arsBlockSize w - held) sel x n → FailsWith (.sitArs c) s .decArsOverflow

/-- 44_compactpro.md R500: the machine's byte steps against the whole expansion. The byte count and the cursors after
the error are log 7's DEDUCED reading (unsafe). OUT where the host wrote it while BUSY = 1 is log 10's DESIGN CHOICE
(unsafe). -/
def Obligations.CptRleDecodes : Prop :=
  ∀ (s : State) (c : Bool) (bs : List Byte), s.inputIs bs → s.forkFits →
    let out := rle81 false 0 bs
    (s.latch.outLen.toNat ≤ out.length →
      ∃ t, exec (.cptRle c) s = .next t ∧ DoneWith s t (out.take s.latch.outLen.toNat) {}) ∧
    (out.length < s.latch.outLen.toNat →
      ∃ t, exec (.cptRle c) s = .next t ∧ FailedWith s t .trnEof ∧
        t.seq = { phase := .idle, outCount := out.length, bpos := bs.length, bitpos := 0 })

/-- 44_compactpro.md R501, R520-R525 with the codewords in closed form, over one block or several: R524's end of a
block is the place of the next one. OUT where the host wrote it while BUSY = 1 is log 10's DESIGN CHOICE (unsafe). -/
def Obligations.CptLzhDecodesOneBlock : Prop :=
  ∀ (s : State) (c : Bool) (bs : List Byte) (blocks : List LzhBlock), s.inputIs bs → s.forkFits →
    HoldsLzhBlocks bs 0 blocks →
    let out := rle81 false 0 ((blocks.flatMap LzhBlock.toks).foldl lzhAppend [])
    s.latch.outLen.toNat ≤ out.length →
    ∃ t, exec (.cptLzh c) s = .next t ∧ DoneWith s t (out.take s.latch.outLen.toNat) {}

/-- 44_compactpro.md R501, R521, R523, R527 and 41_common.md R361 for all three tables of any block, R524 for its
place; 40_job_control.md R307 for OUT_LEN 0. The byte count and the cursors after the error are log 7's DEDUCED
reading (unsafe). Where the input ends inside the skipped bytes, the cursor past its end is log 14's DEDUCED reading
of R164 against R77 (unsafe). -/
def Obligations.CptLzhErrors : Prop :=
  ∀ (s : State) (c : Bool) (bs : List Byte), s.inputIs bs → s.forkFits →
    (s.latch.outLen = 0 → ∃ t, exec (.cptLzh c) s = .next t ∧ DoneWith s t [] {}) ∧
    ∀ blocks : List LzhBlock, HoldsLzhBlocks bs 0 blocks →
      let out := rle81 false 0 ((blocks.flatMap LzhBlock.toks).foldl lzhAppend [])
      out.length < s.latch.outLen.toNat →
      ((∀ b ∈ blocks, 0x1FFF0 ≤ lzhCost b.toks) →
        let p := (blocks.map LzhBlock.size).sum
        (∀ lit len off : List Nat, LzhTableOk 256 lit → LzhTableOk 64 len → LzhTableOk 128 off →
          bs.drop p <+: lzhTable lit ++ lzhTable len ++ lzhTable off →
          ∃ t, exec (.cptLzh c) s = .next t ∧ FailedWith s t .trnLzhEnd ∧
            t.seq = { phase := .idle, outCount := out.length, bpos := 0, bitpos := 8 * max p bs.length }) ∧
        ∀ (before : List Byte) (n : Nat),
          (before = [] ∧ n = 256 ∨ (∃ lit, LzhTableOk 256 lit ∧ before = lzhTable lit ∧ n = 64) ∨
            ∃ lit len, LzhTableOk 256 lit ∧ LzhTableOk 64 len ∧ before = lzhTable lit ++ lzhTable len ∧ n = 128) →
          (∀ count rest, bs.drop p = before ++ count :: rest → n / 2 < count.toNat →
            FailsWith (.cptLzh c) s .decLzhTable) ∧
          ∀ lens rest, lens.length % 2 = 0 → lens.length ≤ n → (∀ l ∈ lens, l ≤ 15) → ¬ KraftOk 15 lens →
            bs.drop p = before ++ lzhTable lens ++ rest → FailsWith (.cptLzh c) s .decHuffOversub) ∧
      ∀ b, blocks.getLast? = some b → lzhCost b.toks < 0x1FFF0 →
        let q := 8 * ((blocks.dropLast.map LzhBlock.size).sum + b.tables.length) + b.bits.length
        (b.len.getD 0 0 ≠ 0 → HoldsMsb bs q (false :: codewordBits b.len 0) → FailsWith (.cptLzh c) s .decLzhLen0) ∧
        ∀ (tok : LzhToken) (part : List Bool), lzhTokenOk b.lit b.len b.off tok = true →
          part <+: lzhTokenBits b.lit b.len b.off tok → part ≠ lzhTokenBits b.lit b.len b.off tok →
          HoldsMsb bs q part → q + part.length = 8 * bs.length → FailsWith (.cptLzh c) s .trnLzhEnd

/-- 42_binhex.md R400. -/
def Obligations.HqxDetectFindsThePreamble : Prop :=
  ∀ (s : State) (c : Bool) (bs : List Byte), s.inputIs bs → s.inputFits →
    ((∃ i, i + 40 ≤ bs.length ∧ (bs.drop i).take 40 = preamble) →
      ∃ t, exec (.hqxDetect c) s = .next t ∧ DoneWith s t [] { result := 1 }) ∧
    ((¬ ∃ i, i + 40 ≤ bs.length ∧ (bs.drop i).take 40 = preamble) →
      ∃ t, exec (.hqxDetect c) s = .next t ∧ DoneWith s t [] {})

/-- 42_binhex.md R401, R403-R427 for inputs that are well made, R420's characters after the container among them.
Where DL + RL reaches 2^32, OUT_COUNT modulo 2^32 is log 14's. OUT and NAME where the host wrote them while BUSY = 1
are log 10's DESIGN CHOICE (unsafe). -/
def Obligations.HqxFileDecodes : Prop :=
  ∀ (s : State) (c : Bool) (bs nm data rsrc raw : List Byte) (nul : Byte) (type creator : Word) (flags : Half)
    (digits extra : List (Fin 64)), s.inputIs bs → s.inputFits → 1 ≤ nm.length → nm.length ≤ 63 →
    data.length < 2 ^ 32 → rsrc.length < 2 ^ 32 → data.length + rsrc.length ≤ s.cfg.outCap →
    hqxExpand 0 raw = some (hqxContainer nm nul type creator flags data rsrc) → SixBits raw digits →
    HqxText s.cfg bs (digits ++ extra) →
    ∃ t, exec (.hqxFile c) s = .next t ∧
      DoneNamed s t (data ++ rsrc) nm
        { dataLen := BitVec.ofNat 32 data.length, rsrcLen := BitVec.ofNat 32 rsrc.length, mdType := type,
          mdCreator := creator, mdFlags := zext32 (flags &&& 0xBF7B), mdNameLen := BitVec.ofNat 32 nm.length }

/-- 42_binhex.md R402, R403-R420 for inputs that are well made, R420's characters after the container among them. OUT
where the host wrote it while BUSY = 1 is log 10's DESIGN CHOICE (unsafe). -/
def Obligations.HqxWrapDecodes : Prop :=
  ∀ (s : State) (c : Bool) (bs nm data rsrc raw : List Byte) (nul : Byte) (type creator : Word) (flags : Half)
    (digits extra : List (Fin 64)), s.inputIs bs → s.inputFits → 1 ≤ nm.length → nm.length ≤ 63 →
    data.length < 2 ^ 32 → rsrc.length < 2 ^ 32 → data.length ≤ s.cfg.outCap →
    hqxExpand 0 raw = some (hqxContainer nm nul type creator flags data rsrc) → SixBits raw digits →
    HqxText s.cfg bs (digits ++ extra) →
    ∃ t, exec (.hqxWrap c) s = .next t ∧ DoneWith s t data {}

/-- 42_binhex.md R401-R420: each error of R401's list, at the first place where it can arise. A container cut inside
an escape is among those that stop early. The cursors and the counts at the errors are log 7's DEDUCED reading
(unsafe). -/
def Obligations.HqxRejects : Prop :=
  ∀ (s : State) (c : Bool) (i : Instr) (bs : List Byte), s.inputIs bs → s.inputFits →
    i ∈ [Instr.hqxFile c, .hqxWrap c] →
    ((¬ ∃ k, k + 40 ≤ bs.length ∧ (bs.drop k).take 40 = preamble) → FailsAtOnce i s .fmtHqxNoPreamble) ∧
    (∀ pre mid rest : List Byte, HqxPreambleLine bs pre mid rest →
      (rest = [] ∨ ∃ brk gap, rest = brk :: gap ∧ (brk = 0x0D ∨ brk = 0x0A) ∧ ∀ b ∈ gap, b ≠ 0x3A) →
      FailsAtOnce i s .trnEof) ∧
    ∀ (digits : List (Fin 64)) (tail : List Byte), HqxBody s.cfg bs digits tail →
      (∀ (raw more : List Byte) (l : Byte) (rest : List Byte), WholeBytes (raw ++ more) digits →
        hqxExpand 0 raw = some (l :: rest) → (l.toNat = 0 ∨ 63 < l.toNat) → FailsWith i s .valHqxNameLen) ∧
      ∀ (nm : List Byte) (nul : Byte) (type creator : Word) (flags : Half), 1 ≤ nm.length → nm.length ≤ 63 →
        (∀ (raw more rest : List Byte) (dl rl : Word) (a b : Byte), WholeBytes (raw ++ more) digits →
          let head := hqxHead nm nul type creator flags dl rl
          hqxExpand 0 raw = some (head ++ [a, b] ++ rest) →
          if [a, b] ≠ bytes16 (crcXmodem head) then FailsWith i s .valHqxHdrCrc
          else s.cfg.outCap < (if i = .hqxFile c then dl.toNat + rl.toNat else dl.toNat) → FailsWith i s .resOutCap) ∧
        ∀ data rsrc : List Byte, data.length < 2 ^ 32 → rsrc.length < 2 ^ 32 →
          (if i = .hqxFile c then data.length + rsrc.length else data.length) ≤ s.cfg.outCap →
          let head := hqxHead nm nul type creator flags (BitVec.ofNat 32 data.length) (BitVec.ofNat 32 rsrc.length)
          let file := hqxContainer nm nul type creator flags data rsrc
          (∀ (raw more rest : List Byte) (a b : Byte), WholeBytes (raw ++ more) digits →
            (hqxExpand 0 raw = some (hqxSection head ++ data ++ [a, b] ++ rest) → [a, b] ≠ bytes16 (crcXmodem data) →
              FailsWith i s .valHqxDataCrc) ∧
            (hqxExpand 0 raw = some (hqxSection head ++ hqxSection data ++ rsrc ++ [a, b] ++ rest) →
              [a, b] ≠ bytes16 (crcXmodem rsrc) → FailsWith i s .valHqxRsrcCrc)) ∧
          ∀ raw part : List Byte, hqxExpand 0 raw = some part →
            (part <+: file → part ≠ file →
              ∀ more, WholeBytes (raw ++ [0x90, 0x01] ++ more) digits → FailsWith i s .decHqxRle01) ∧
            ((part <+: file ∧ part ≠ file ∧ (WholeBytes raw digits ∨ WholeBytes (raw ++ [0x90]) digits)) ∨
                (part = file ∧ ∃ used extra, digits = used ++ extra ∧ SixBits raw used) →
              (∀ bad post, tail = bad :: post → HqxBadChar s.cfg bad →
                ∃ t, exec i s = .next t ∧ FailedWith s t .decHqxBadChar ∧ t.seq.bpos + post.length = bs.length) ∧
              (tail = [] ∨ part ≠ file ∧ tail.head? = some 0x3A →
                ∃ t, exec i s = .next t ∧ FailedWith s t .trnEof ∧
                  t.seq.bpos + tail.tail.length = bs.length))

/-- 42_binhex.md R427 and 43_macbinary.md R466, with their examples. -/
def Obligations.FinderFlagCleanup : Prop :=
  (∀ (f : Half) (i : Nat), (hqxCleanFlags f).getLsbD i = (f.getLsbD i && !(i == 14 || i == 7 || i == 2))) ∧
  (∀ (f : Half) (i : Nat),
    (macbCleanFlags f).getLsbD i = (f.getLsbD i && !(i == 0 || i == 1 || i == 8 || i == 9 || i == 10))) ∧
  hqxCleanFlags 0x4184 = 0x0100 ∧ macbCleanFlags 0x0100 = 0x0000 ∧ macbCleanFlags 0x2021 = 0x2020

/-- 43_macbinary.md R450. -/
def Obligations.BinDetectChecksTheHeader : Prop :=
  ∀ (s : State) (c : Bool) (bs : List Byte), s.inputIs bs → s.inputFits →
    ∃ t, exec (.binDetect c) s = .next t ∧
      if 128 ≤ bs.length ∧ bs.getD 0 0 = 0 ∧ bs.getD 74 0 = 0 ∧ 1 ≤ (bs.getD 1 0).toNat ∧ (bs.getD 1 0).toNat ≤ 63 ∧
        (HeaderCrcOk bs ∨ bs.getD 82 0 = 0)
      then DoneWith s t [] { result := 1 } else DoneWith s t [] {}

/-- 43_macbinary.md R463, R467. OUT and NAME where the host wrote them while BUSY = 1 are log 10's DESIGN CHOICE
(unsafe). -/
def Obligations.BinFileExtracts : Prop :=
  ∀ (s : State) (c : Bool) (bs : List Byte), s.inputIs bs → s.inputFits →
    ∃ t, exec (.binFile c) s = .next t ∧
      match fieldsFault bs with
      | some e => FailedWith s t e
      | none =>
        if s.cfg.outCap < dataLength bs + rsrcLength bs then FailedWith s t .resOutCap
        else if ForkCut bs (dataStart bs) (dataLength bs) ∨ ForkCut bs (rsrcStart bs) (rsrcLength bs) then
          FailedWith s t .trnEof
        else
          DoneNamed s t
            (forkBytes bs (dataStart bs) (dataLength bs) ++ forkBytes bs (rsrcStart bs) (rsrcLength bs))
            (forkBytes bs 2 (bs.getD 1 0).toNat)
            { result := if HeaderCrcOk bs then 0 else 2, dataLen := field32 bs 83, rsrcLen := field32 bs 87,
              mdType := field32 bs 65, mdCreator := field32 bs 69,
              mdFlags := zext32 ((bs.getD 73 0 ++ bs.getD 101 0 : BitVec (8 + 8)) &&& 0xF8FC),
              mdNameLen := (bs.getD 1 0).setWidth 32 }

/-- 43_macbinary.md R464, R465. OUT where the host wrote it while BUSY = 1 is log 10's DESIGN CHOICE (unsafe). -/
def Obligations.BinWrapSelectsAFork : Prop :=
  ∀ (s : State) (c : Bool) (bs : List Byte), s.inputIs bs → s.inputFits →
    ∃ t, exec (.binWrap c) s = .next t ∧
      match fieldsFault bs with
      | some e => FailedWith s t e
      | none =>
        if ForkCut bs (dataStart bs) (dataLength bs) then FailedWith s t .trnEof
        else if ¬ HasSitSignature (forkBytes bs (dataStart bs) (dataLength bs)) ∧ 0 < rsrcLength bs then
          if s.cfg.outCap < rsrcLength bs then FailedWith s t .resOutCap
          else if ForkCut bs (rsrcStart bs) (rsrcLength bs) then FailedWith s t .trnEof
          else
            DoneWith s t (forkBytes bs (rsrcStart bs) (rsrcLength bs))
              { result := if HeaderCrcOk bs then 4 else 6 }
        else if s.cfg.outCap < dataLength bs then FailedWith s t .resOutCap
        else
          DoneWith s t (forkBytes bs (dataStart bs) (dataLength bs)) { result := if HeaderCrcOk bs then 0 else 2 }
end

