-- ==== Sys2Proof/Laws/Decode.lean ====
section
/-! SUPPORT. The fields of a command word: reading a field of a word made of fields gives the field, and a word is made of its
fields. -/

namespace Sys2Proof

theorem getLsbD_cmdWord (rsvd : BitVec 23) (crcEn : Bool) (op : BitVec 8) (i : Nat) :
    (cmdWord rsvd crcEn op).getLsbD i =
      if i < 8 then op.getLsbD i else if i = 8 then crcEn else rsvd.getLsbD (i - 9) := by
  unfold cmdWord
  rw [show ((rsvd ++ BitVec.ofBool crcEn) ++ op : Word).getLsbD i = _ from BitVec.getLsbD_append,
    BitVec.getLsbD_append]
  by_cases h8 : i < 8
  · simp [h8]
  · by_cases h9 : i = 8
    · subst h9
      simp
    · have h1 : ¬ i - 8 < 1 := by omega
      have h2 : i - 8 - 1 = i - 9 := by omega
      simp [h8, h9, h1, h2]

@[simp] theorem cmdOp_cmdWord (rsvd : BitVec 23) (crcEn : Bool) (op : BitVec 8) :
    cmdOp (cmdWord rsvd crcEn op) = op := by
  apply BitVec.eq_of_getLsbD_eq
  intro i hi
  simp [cmdOp, getLsbD_cmdWord, hi]

@[simp] theorem cmdCrcEn_cmdWord (rsvd : BitVec 23) (crcEn : Bool) (op : BitVec 8) :
    cmdCrcEn (cmdWord rsvd crcEn op) = crcEn := by
  rw [cmdCrcEn, getLsbD_cmdWord, if_neg (by omega), if_pos rfl]

@[simp] theorem cmdRsvd_cmdWord (rsvd : BitVec 23) (crcEn : Bool) (op : BitVec 8) :
    cmdRsvd (cmdWord rsvd crcEn op) = rsvd := by
  apply BitVec.eq_of_getLsbD_eq
  intro i hi
  have h8 : ¬ 9 + i < 8 := by omega
  have h9 : ¬ 9 + i = 8 := by omega
  simp [cmdRsvd, getLsbD_cmdWord, hi, h8, h9]

/-- A command word is made of its three fields (30_encoding.md R200). -/
theorem cmdWord_fields (w : Word) : cmdWord (cmdRsvd w) (cmdCrcEn w) (cmdOp w) = w := by
  apply BitVec.eq_of_getLsbD_eq
  intro i hi
  rw [getLsbD_cmdWord]
  by_cases h8 : i < 8
  · simp [h8, cmdOp]
  · by_cases h9 : i = 8
    · subst h9
      simp [cmdCrcEn]
    · have h1 : i - 9 < 23 := by omega
      have h2 : 9 + (i - 9) = i := by omega
      simp [h8, h9, cmdRsvd, h1, h2]

theorem cmdWord_injective {r₁ r₂ : BitVec 23} {c₁ c₂ : Bool} {o₁ o₂ : BitVec 8}
    (h : cmdWord r₁ c₁ o₁ = cmdWord r₂ c₂ o₂) : r₁ = r₂ ∧ c₁ = c₂ ∧ o₁ = o₂ :=
  ⟨by simpa using congrArg cmdRsvd h, by simpa using congrArg cmdCrcEn h, by simpa using congrArg cmdOp h⟩

/-- Every OP of R201's table decodes to its row: a reserved OP is the only one that decodes to RESERVED_OP. -/
theorem decodeOp_of_reserved (op : BitVec 8) (crcEn : Bool) (h : isReservedOp op = true) :
    decodeOp op crcEn = .reservedOp op crcEn := by
  revert op crcEn
  decide +kernel

@[simp] theorem decodeWord_cmdWord_zero (crcEn : Bool) (op : BitVec 8) :
    decodeWord (cmdWord 0 crcEn op) = decodeOp op crcEn := by
  simp [decodeWord]

theorem decodeWord_cmdWord_of_ne (rsvd : BitVec 23) (crcEn : Bool) (op : BitVec 8) (h : rsvd ≠ 0) :
    decodeWord (cmdWord rsvd crcEn op) = .reservedBits rsvd crcEn op := by
  rw [decodeWord, cmdRsvd_cmdWord, if_neg h, cmdCrcEn_cmdWord, cmdOp_cmdWord]

@[simp] theorem decode_singleton (w : Word) : decode [w] = .ok (decodeWord w, []) := rfl

end Sys2Proof
end

