-- ==== Sys2Proof/Laws/Memory.lean ====
section
/-! SUPPORT. The laws of the sparse arrays, the byte memories and the windows: a read after a write, the bytes a write leaves
alone, and the canonical forms, which every operation keeps. -/

namespace Sys2Proof.Machine

/-! ### Sparse arrays -/

theorem sparseGet_sparseSet {α : Type} (xs : List (Nat × α)) (a b : Nat) (v : α) :
    sparseGet (sparseSet xs a v) b = if a = b then some v else sparseGet xs b := by
  induction xs with
  | nil => simp [sparseSet, sparseGet]
  | cons c rest ih =>
    obtain ⟨k, w⟩ := c
    by_cases h1 : a < k
    · simp [sparseSet, sparseGet, h1]
    · by_cases h2 : a = k
      · subst h2
        by_cases h3 : a = b <;> simp [sparseSet, sparseGet, h3]
      · by_cases h3 : k = b
        · have h4 : ¬ a = b := by omega
          rw [sparseSet, if_neg h1, if_neg h2, if_neg h4]
          simp [sparseGet, h3]
        · simp [sparseSet, sparseGet, h1, h2, h3, ih]

@[simp] theorem sparseGet_sparseSet_self {α : Type} (xs : List (Nat × α)) (a : Nat) (v : α) :
    sparseGet (sparseSet xs a v) a = some v := by
  simp [sparseGet_sparseSet]

theorem sparseGet_sparseErase {α : Type} (xs : List (Nat × α)) (a b : Nat) :
    sparseGet (sparseErase xs a) b = if a = b then none else sparseGet xs b := by
  induction xs with
  | nil => simp [sparseErase, sparseGet]
  | cons c rest ih =>
    obtain ⟨k, w⟩ := c
    rw [sparseErase] at ih ⊢
    by_cases h : k = a
    · subst h
      rw [List.filter_cons_of_neg (by simp), ih]
      by_cases h2 : k = b <;> simp [sparseGet, h2]
    · rw [List.filter_cons_of_pos (by simpa using h), sparseGet, ih, sparseGet]
      by_cases h2 : k = b
      · have h3 : ¬ a = b := by omega
        simp [h2, h3]
      · simp [h2]

/-- What a key of an array after a store is: the key stored, or a key from before. -/
theorem mem_sparseSet {α : Type} {xs : List (Nat × α)} {a : Nat} {v : α} {c : Nat × α}
    (h : c ∈ sparseSet xs a v) : c = (a, v) ∨ c ∈ xs := by
  induction xs with
  | nil => simpa [sparseSet] using h
  | cons d rest ih =>
    obtain ⟨k, w⟩ := d
    unfold sparseSet at h
    split at h
    · simpa using h
    · split at h
      · simp only [List.mem_cons] at h ⊢
        tauto
      · simp only [List.mem_cons] at h ⊢
        rcases h with h | h
        · exact .inr (.inl h)
        · rcases ih h with h | h <;> tauto

theorem sparseSet_wf {α : Type} {xs : List (Nat × α)} (a : Nat) (v : α) (h : SparseWf xs) :
    SparseWf (sparseSet xs a v) := by
  induction xs with
  | nil => simp [sparseSet, SparseWf]
  | cons d rest ih =>
    obtain ⟨k, w⟩ := d
    obtain ⟨hk, hr⟩ := List.pairwise_cons.1 h
    unfold sparseSet
    split
    · refine List.pairwise_cons.2 ⟨fun c hc => ?_, h⟩
      rcases List.mem_cons.1 hc with rfl | hc
      · assumption
      · have := hk c hc
        simp only at this ⊢
        omega
    · split
      · rename_i h1 h2
        subst h2
        exact List.pairwise_cons.2 ⟨hk, hr⟩
      · refine List.pairwise_cons.2 ⟨fun c hc => ?_, ih hr⟩
        rcases mem_sparseSet hc with rfl | hc
        · simp only
          omega
        · exact hk c hc

theorem sparseErase_wf {α : Type} {xs : List (Nat × α)} (a : Nat) (h : SparseWf xs) : SparseWf (sparseErase xs a) :=
  List.Pairwise.filter _ h

/-! ### IN, OUT and NAME -/

theorem Space.read_write (k : ByteSpace) (m : Space) (a b : Nat) (v : Byte) :
    (m.write a v).read k b = if a = b then v else m.read k b := by
  simp only [Space.read, Space.write, sparseGet_sparseSet, unlistedByte]
  split <;> rfl

@[simp] theorem Space.read_write_self (k : ByteSpace) (m : Space) (a : Nat) (v : Byte) :
    (m.write a v).read k a = v := by
  simp [Space.read_write]

@[simp] theorem Space.write_epoch (m : Space) (a : Nat) (v : Byte) : (m.write a v).epoch = m.epoch := rfl

@[simp] theorem Space.read_forget (k : ByteSpace) (e a : Nat) : (Space.forget e).read k a = Config.freeByte k e a := rfl

/-- A byte read after a list was written: the list's byte where it covers the index, the old byte elsewhere. -/
theorem Space.read_writeList (k : ByteSpace) (m : Space) (a b : Nat) (bs : List Byte) :
    (m.writeList a bs).read k b = if a ≤ b ∧ b < a + bs.length then bs.getD (b - a) 0 else m.read k b := by
  induction bs generalizing m a with
  | nil =>
    rw [if_neg (by simp)]
    rfl
  | cons v rest ih =>
    rw [Space.writeList, ih, Space.read_write]
    by_cases h1 : a = b
    · subst h1
      simp
    · by_cases h2 : a + 1 ≤ b ∧ b < a + 1 + rest.length
      · have h3 : a ≤ b ∧ b < a + (v :: rest).length := by
          simp only [List.length_cons]
          omega
        rw [if_pos h2, if_pos h3, show b - a = (b - (a + 1)) + 1 by omega, List.getD_cons_succ]
      · have h3 : ¬ (a ≤ b ∧ b < a + (v :: rest).length) := by
          simp only [List.length_cons]
          omega
        rw [if_neg h2, if_neg h3, if_neg h1]

theorem Space.write_wf {m : Space} {cap a : Nat} (v : Byte) (h : m.wf cap) (ha : a < cap) : (m.write a v).wf cap :=
  ⟨sparseSet_wf a v h.1, fun _ hc => (mem_sparseSet hc).elim (fun e => e ▸ ha) (h.2 _)⟩

theorem Space.writeList_wf {m : Space} {cap a : Nat} {bs : List Byte} (h : m.wf cap) (ha : a + bs.length ≤ cap) :
    (m.writeList a bs).wf cap := by
  induction bs generalizing m a with
  | nil => exact h
  | cons v rest ih =>
    simp only [List.length_cons] at ha
    exact ih (Space.write_wf v h (by omega)) (by omega)

theorem Space.forget_wf (e cap : Nat) : (Space.forget e).wf cap := by
  simp [Space.forget, Space.wf, SparseWf]

@[simp] theorem Space.slice_length (k : ByteSpace) (m : Space) (a n : Nat) : (m.slice k a n).length = n := by
  induction n generalizing a with
  | zero => rfl
  | succ n ih => simp [Space.slice, ih]

theorem Space.getElem?_slice (k : ByteSpace) (m : Space) (a n i : Nat) :
    (m.slice k a n)[i]? = if i < n then some (m.read k (a + i)) else none := by
  induction n generalizing a i with
  | zero => simp [Space.slice]
  | succ n ih =>
    cases i with
    | zero => simp [Space.slice]
    | succ i =>
      have h : a + 1 + i = a + (i + 1) := by omega
      simp [Space.slice, ih, h]

/-- A memory's first bytes are a list when each of them is. -/
theorem Space.slice_eq_of_read (k : ByteSpace) (m : Space) (bs : List Byte)
    (h : ∀ i < bs.length, m.read k i = bs.getD i 0) : m.slice k 0 bs.length = bs := by
  apply List.ext_getElem?
  intro i
  rw [Space.getElem?_slice]
  split
  · rename_i hi
    rw [Nat.zero_add, h i hi, List.getD_eq_getElem?_getD, List.getElem?_eq_getElem hi]
    rfl
  · rename_i hi
    exact (List.getElem?_eq_none (by omega)).symm

/-! ### Windows -/

theorem winRead_winWrite (w : List Host.Cell) (i j : Nat) (b : Byte) :
    winRead (winWrite w i b) j = if i = j then b else winRead w j := by
  unfold winRead winWrite
  split
  · rename_i h
    rw [sparseGet_sparseErase]
    split
    · exact h.symm
    · rfl
  · rw [sparseGet_sparseSet]
    split <;> rfl

@[simp] theorem winRead_winWrite_self (w : List Host.Cell) (i : Nat) (b : Byte) : winRead (winWrite w i b) i = b := by
  simp [winRead_winWrite]

theorem winWrite_wf {w : List Host.Cell} (i : Nat) (b : Byte) (h : WinWf w) : WinWf (winWrite w i b) := by
  unfold winWrite
  split
  · exact ⟨sparseErase_wf i h.1, fun c hc => h.2 c (List.mem_filter.1 hc).1⟩
  · rename_i hb
    exact ⟨sparseSet_wf i b h.1, fun c hc => (mem_sparseSet hc).elim (fun e => e ▸ hb) (h.2 c)⟩

end Sys2Proof.Machine
end

