-- ==== Sys2Proof/Laws/State.lean ====
section
/-! SUPPORT. One lemma per field per named update of the state, true by rfl, so that no proof unfolds a record update. -/

namespace Sys2Proof.Machine

/-! ### startJob -/

@[simp] theorem startJob_cfg (s : State) : (startJob s).cfg = s.cfg := rfl
@[simp] theorem startJob_regs (s : State) : (startJob s).regs = s.regs.cleared statusBusy := rfl
@[simp] theorem startJob_latch (s : State) : (startJob s).latch = latchOf s.regs := rfl
@[simp] theorem startJob_seq (s : State) : (startJob s).seq = { phase := .run, outCount := 0, bpos := 0, bitpos := 0 } := rfl
@[simp] theorem startJob_units (s : State) : (startJob s).units = s.units := rfl
@[simp] theorem startJob_inn (s : State) : (startJob s).inn = s.inn := rfl
@[simp] theorem startJob_out (s : State) : (startJob s).out = s.out := rfl
@[simp] theorem startJob_name (s : State) : (startJob s).name = s.name := rfl
@[simp] theorem startJob_host (s : State) : (startJob s).host = s.host := rfl
@[simp] theorem startJob_readData (s : State) : (startJob s).readData = s.readData := rfl
@[simp] theorem startJob_inTouched (s : State) : (startJob s).inTouched = false := rfl
@[simp] theorem startJob_freeCtr (s : State) : (startJob s).freeCtr = s.freeCtr := rfl

/-! ### finishJob -/

@[simp] theorem finishJob_cfg (s : State) (r : JobResult) : (finishJob s r).cfg = s.cfg := rfl
@[simp] theorem finishJob_latch (s : State) (r : JobResult) : (finishJob s r).latch = s.latch := rfl
@[simp] theorem finishJob_seq (s : State) (r : JobResult) : (finishJob s r).seq = { phase := .idle, outCount := r.out.length, bpos := r.bpos, bitpos := r.bitpos } := rfl
@[simp] theorem finishJob_units (s : State) (r : JobResult) : (finishJob s r).units = r.units := rfl
@[simp] theorem finishJob_inn (s : State) (r : JobResult) : (finishJob s r).inn = s.inn := rfl
@[simp] theorem finishJob_out (s : State) (r : JobResult) : (finishJob s r).out = s.out.writeList 0 r.out := rfl
@[simp] theorem finishJob_name (s : State) (r : JobResult) : (finishJob s r).name = nameAfter s.name r.name := rfl
@[simp] theorem finishJob_host (s : State) (r : JobResult) : (finishJob s r).host = s.host := rfl
@[simp] theorem finishJob_readData (s : State) (r : JobResult) : (finishJob s r).readData = s.readData := rfl
@[simp] theorem finishJob_inTouched (s : State) (r : JobResult) : (finishJob s r).inTouched = s.inTouched := rfl
@[simp] theorem finishJob_freeCtr (s : State) (r : JobResult) : (finishJob s r).freeCtr = s.freeCtr := rfl
@[simp] theorem finishJob_regs_ctrl (s : State) (r : JobResult) : (finishJob s r).regs.ctrl = s.regs.ctrl := rfl
@[simp] theorem finishJob_regs_cmd (s : State) (r : JobResult) : (finishJob s r).regs.cmd = s.regs.cmd := rfl
@[simp] theorem finishJob_regs_inLen (s : State) (r : JobResult) : (finishJob s r).regs.inLen = s.regs.inLen := rfl
@[simp] theorem finishJob_regs_outLen (s : State) (r : JobResult) : (finishJob s r).regs.outLen = s.regs.outLen := rfl
@[simp] theorem finishJob_regs_expCrc (s : State) (r : JobResult) : (finishJob s r).regs.expCrc = s.regs.expCrc := rfl
@[simp] theorem finishJob_regs_status (s : State) (r : JobResult) : (finishJob s r).regs.status = statusDone := rfl
@[simp] theorem finishJob_regs_outCount (s : State) (r : JobResult) : (finishJob s r).regs.outCount = BitVec.ofNat 32 r.out.length := rfl
@[simp] theorem finishJob_regs_crcOut (s : State) (r : JobResult) : (finishJob s r).regs.crcOut = zext32 r.crcOut := rfl
@[simp] theorem finishJob_regs_result (s : State) (r : JobResult) : (finishJob s r).regs.result = r.result := rfl
@[simp] theorem finishJob_regs_dataLen (s : State) (r : JobResult) : (finishJob s r).regs.dataLen = r.dataLen := rfl
@[simp] theorem finishJob_regs_rsrcLen (s : State) (r : JobResult) : (finishJob s r).regs.rsrcLen = r.rsrcLen := rfl
@[simp] theorem finishJob_regs_mdType (s : State) (r : JobResult) : (finishJob s r).regs.mdType = r.mdType := rfl
@[simp] theorem finishJob_regs_mdCreator (s : State) (r : JobResult) : (finishJob s r).regs.mdCreator = r.mdCreator := rfl
@[simp] theorem finishJob_regs_mdFlags (s : State) (r : JobResult) : (finishJob s r).regs.mdFlags = zext32 r.mdFlags := rfl
@[simp] theorem finishJob_regs_mdNameLen (s : State) (r : JobResult) : (finishJob s r).regs.mdNameLen = BitVec.ofNat 32 (r.name.getD []).length := rfl

/-! ### raiseError -/

@[simp] theorem raiseError_cfg (r : Raise) (s : State) : (raiseError r s).cfg = s.cfg := rfl
@[simp] theorem raiseError_regs (r : Raise) (s : State) : (raiseError r s).regs = s.regs.cleared r.err.status := rfl
@[simp] theorem raiseError_latch (r : Raise) (s : State) : (raiseError r s).latch = s.latch := rfl
@[simp] theorem raiseError_seq (r : Raise) (s : State) : (raiseError r s).seq = { phase := .idle, outCount := r.outCount, bpos := r.bpos, bitpos := r.bitpos } := rfl
@[simp] theorem raiseError_units (r : Raise) (s : State) : (raiseError r s).units = Config.freeUnits s.freeCtr := rfl
@[simp] theorem raiseError_inn (r : Raise) (s : State) : (raiseError r s).inn = s.inn := rfl
@[simp] theorem raiseError_out (r : Raise) (s : State) : (raiseError r s).out = Space.forget s.freeCtr := rfl
@[simp] theorem raiseError_name (r : Raise) (s : State) : (raiseError r s).name = Space.forget s.freeCtr := rfl
@[simp] theorem raiseError_host (r : Raise) (s : State) : (raiseError r s).host = s.host := rfl
@[simp] theorem raiseError_readData (r : Raise) (s : State) : (raiseError r s).readData = s.readData := rfl
@[simp] theorem raiseError_inTouched (r : Raise) (s : State) : (raiseError r s).inTouched = s.inTouched := rfl
@[simp] theorem raiseError_freeCtr (r : Raise) (s : State) : (raiseError r s).freeCtr = s.freeCtr + 1 := rfl

/-! ### endUnconstrained -/

@[simp] theorem endUnconstrained_cfg (s : State) : (endUnconstrained s).cfg = s.cfg := rfl
@[simp] theorem endUnconstrained_latch (s : State) : (endUnconstrained s).latch = s.latch := rfl
@[simp] theorem endUnconstrained_units (s : State) : (endUnconstrained s).units = Config.freeUnits s.freeCtr := rfl
@[simp] theorem endUnconstrained_inn (s : State) : (endUnconstrained s).inn = s.inn := rfl
@[simp] theorem endUnconstrained_out (s : State) : (endUnconstrained s).out = Space.forget s.freeCtr := rfl
@[simp] theorem endUnconstrained_name (s : State) : (endUnconstrained s).name = Space.forget s.freeCtr := rfl
@[simp] theorem endUnconstrained_host (s : State) : (endUnconstrained s).host = s.host := rfl
@[simp] theorem endUnconstrained_readData (s : State) : (endUnconstrained s).readData = s.readData := rfl
@[simp] theorem endUnconstrained_inTouched (s : State) : (endUnconstrained s).inTouched = s.inTouched := rfl
@[simp] theorem endUnconstrained_freeCtr (s : State) : (endUnconstrained s).freeCtr = s.freeCtr + 1 := rfl
@[simp] theorem endUnconstrained_seq_phase (s : State) : (endUnconstrained s).seq.phase = .idle := rfl
@[simp] theorem endUnconstrained_regs_ctrl (s : State) : (endUnconstrained s).regs.ctrl = s.regs.ctrl := rfl
@[simp] theorem endUnconstrained_regs_cmd (s : State) : (endUnconstrained s).regs.cmd = s.regs.cmd := rfl
@[simp] theorem endUnconstrained_regs_inLen (s : State) : (endUnconstrained s).regs.inLen = s.regs.inLen := rfl
@[simp] theorem endUnconstrained_regs_outLen (s : State) : (endUnconstrained s).regs.outLen = s.regs.outLen := rfl
@[simp] theorem endUnconstrained_regs_expCrc (s : State) : (endUnconstrained s).regs.expCrc = s.regs.expCrc := rfl
theorem endUnconstrained_regs_status (s : State) : (endUnconstrained s).regs.status =
    if Config.freeNat s.freeCtr 4 % 2 = 0 then statusDone else (freeErr s.freeCtr).status := rfl

/-! ### State.returns -/

@[simp] theorem State.returns_cfg (s : State) (r : ReadResult) : (s.returns r).cfg = s.cfg := rfl
@[simp] theorem State.returns_regs (s : State) (r : ReadResult) : (s.returns r).regs = s.regs := rfl
@[simp] theorem State.returns_latch (s : State) (r : ReadResult) : (s.returns r).latch = s.latch := rfl
@[simp] theorem State.returns_seq (s : State) (r : ReadResult) : (s.returns r).seq = s.seq := rfl
@[simp] theorem State.returns_units (s : State) (r : ReadResult) : (s.returns r).units = s.units := rfl
@[simp] theorem State.returns_inn (s : State) (r : ReadResult) : (s.returns r).inn = s.inn := rfl
@[simp] theorem State.returns_out (s : State) (r : ReadResult) : (s.returns r).out = s.out := rfl
@[simp] theorem State.returns_name (s : State) (r : ReadResult) : (s.returns r).name = s.name := rfl
@[simp] theorem State.returns_host (s : State) (r : ReadResult) : (s.returns r).host = s.host := rfl
@[simp] theorem State.returns_readData (s : State) (r : ReadResult) : (s.returns r).readData = r := rfl
@[simp] theorem State.returns_inTouched (s : State) (r : ReadResult) : (s.returns r).inTouched = s.inTouched := rfl
@[simp] theorem State.returns_freeCtr (s : State) (r : ReadResult) : (s.returns r).freeCtr = s.freeCtr := rfl

/-! ### State.returnsAny -/

@[simp] theorem State.returnsAny_cfg (s : State) : (s.returnsAny).cfg = s.cfg := rfl
@[simp] theorem State.returnsAny_regs (s : State) : (s.returnsAny).regs = s.regs := rfl
@[simp] theorem State.returnsAny_latch (s : State) : (s.returnsAny).latch = s.latch := rfl
@[simp] theorem State.returnsAny_seq (s : State) : (s.returnsAny).seq = s.seq := rfl
@[simp] theorem State.returnsAny_units (s : State) : (s.returnsAny).units = s.units := rfl
@[simp] theorem State.returnsAny_inn (s : State) : (s.returnsAny).inn = s.inn := rfl
@[simp] theorem State.returnsAny_out (s : State) : (s.returnsAny).out = s.out := rfl
@[simp] theorem State.returnsAny_name (s : State) : (s.returnsAny).name = s.name := rfl
@[simp] theorem State.returnsAny_host (s : State) : (s.returnsAny).host = s.host := rfl
@[simp] theorem State.returnsAny_readData (s : State) : (s.returnsAny).readData = .word (Config.freeWord s.freeCtr 0) := rfl
@[simp] theorem State.returnsAny_inTouched (s : State) : (s.returnsAny).inTouched = s.inTouched := rfl
@[simp] theorem State.returnsAny_freeCtr (s : State) : (s.returnsAny).freeCtr = s.freeCtr + 1 := rfl

/-! ### readCells -/

@[simp] theorem readCells_cfg (cells : List (ByteSpace × Nat)) (s : State) : (readCells cells s).cfg = s.cfg := rfl
@[simp] theorem readCells_regs (cells : List (ByteSpace × Nat)) (s : State) : (readCells cells s).regs = s.regs := rfl
@[simp] theorem readCells_latch (cells : List (ByteSpace × Nat)) (s : State) : (readCells cells s).latch = s.latch := rfl
@[simp] theorem readCells_seq (cells : List (ByteSpace × Nat)) (s : State) : (readCells cells s).seq = s.seq := rfl
@[simp] theorem readCells_units (cells : List (ByteSpace × Nat)) (s : State) : (readCells cells s).units = s.units := rfl
@[simp] theorem readCells_inn (cells : List (ByteSpace × Nat)) (s : State) : (readCells cells s).inn = s.inn := rfl
@[simp] theorem readCells_out (cells : List (ByteSpace × Nat)) (s : State) : (readCells cells s).out = s.out := rfl
@[simp] theorem readCells_name (cells : List (ByteSpace × Nat)) (s : State) : (readCells cells s).name = s.name := rfl
@[simp] theorem readCells_host (cells : List (ByteSpace × Nat)) (s : State) : (readCells cells s).host = s.host := rfl
@[simp] theorem readCells_readData (cells : List (ByteSpace × Nat)) (s : State) : (readCells cells s).readData = .bytes (cells.map (byteValue s)) := rfl
@[simp] theorem readCells_inTouched (cells : List (ByteSpace × Nat)) (s : State) : (readCells cells s).inTouched = s.inTouched := rfl
@[simp] theorem readCells_freeCtr (cells : List (ByteSpace × Nat)) (s : State) : (readCells cells s).freeCtr = if cells.any fun c => readsFree s c.1 then s.freeCtr + 1 else s.freeCtr := rfl

/-! ### powerOnReset -/

@[simp] theorem powerOnReset_cfg (s : State) : (powerOnReset s).cfg = s.cfg := rfl
@[simp] theorem powerOnReset_regs (s : State) : (powerOnReset s).regs = Regs.powerOn := rfl
@[simp] theorem powerOnReset_latch (s : State) : (powerOnReset s).latch = State.reset.latch := rfl
@[simp] theorem powerOnReset_seq (s : State) : (powerOnReset s).seq = State.reset.seq := rfl
@[simp] theorem powerOnReset_units (s : State) : (powerOnReset s).units = Units.powerOn := rfl
@[simp] theorem powerOnReset_inn (s : State) : (powerOnReset s).inn = Space.forget s.freeCtr := rfl
@[simp] theorem powerOnReset_out (s : State) : (powerOnReset s).out = Space.forget s.freeCtr := rfl
@[simp] theorem powerOnReset_name (s : State) : (powerOnReset s).name = Space.forget s.freeCtr := rfl
@[simp] theorem powerOnReset_host (s : State) : (powerOnReset s).host = s.host := rfl
@[simp] theorem powerOnReset_readData (s : State) : (powerOnReset s).readData = s.readData := rfl
@[simp] theorem powerOnReset_inTouched (s : State) : (powerOnReset s).inTouched = false := rfl
@[simp] theorem powerOnReset_freeCtr (s : State) : (powerOnReset s).freeCtr = s.freeCtr + 1 := rfl

/-! ### One byte written by the host -/

@[simp] theorem writeByte_cfg (k : ByteSpace) (i : Nat) (b : Byte) (s : State) : (writeByte k i b s).cfg = s.cfg := by
  cases k <;> rfl
@[simp] theorem writeByte_regs (k : ByteSpace) (i : Nat) (b : Byte) (s : State) : (writeByte k i b s).regs = s.regs := by
  cases k <;> rfl
@[simp] theorem writeByte_latch (k : ByteSpace) (i : Nat) (b : Byte) (s : State) : (writeByte k i b s).latch = s.latch := by
  cases k <;> rfl
@[simp] theorem writeByte_seq (k : ByteSpace) (i : Nat) (b : Byte) (s : State) : (writeByte k i b s).seq = s.seq := by
  cases k <;> rfl
@[simp] theorem writeByte_units (k : ByteSpace) (i : Nat) (b : Byte) (s : State) : (writeByte k i b s).units = s.units := by
  cases k <;> rfl
@[simp] theorem writeByte_host (k : ByteSpace) (i : Nat) (b : Byte) (s : State) : (writeByte k i b s).host = s.host := by
  cases k <;> rfl
@[simp] theorem writeByte_readData (k : ByteSpace) (i : Nat) (b : Byte) (s : State) : (writeByte k i b s).readData = s.readData := by
  cases k <;> rfl

/-! ### Errors with the cursors where they stand -/

@[simp] theorem Raise.atByte_err (p : Nat) (e : Err) : (Raise.atByte p e).err = e := rfl
@[simp] theorem Raise.atByte_outCount (p : Nat) (e : Err) : (Raise.atByte p e).outCount = 0 := rfl
@[simp] theorem Raise.atByte_bpos (p : Nat) (e : Err) : (Raise.atByte p e).bpos = p := rfl
@[simp] theorem Raise.atByte_bitpos (p : Nat) (e : Err) : (Raise.atByte p e).bitpos = 0 := rfl
@[simp] theorem Raise.atBit_err (k : Nat) (e : Err) : (Raise.atBit k e).err = e := rfl
@[simp] theorem Raise.atBit_outCount (k : Nat) (e : Err) : (Raise.atBit k e).outCount = 0 := rfl
@[simp] theorem Raise.atBit_bpos (k : Nat) (e : Err) : (Raise.atBit k e).bpos = 0 := rfl
@[simp] theorem Raise.atBit_bitpos (k : Nat) (e : Err) : (Raise.atBit k e).bitpos = k := rfl
@[simp] theorem Raise.after_err (n : Nat) (r : Raise) : (r.after n).err = r.err := rfl
@[simp] theorem Raise.after_bpos (n : Nat) (r : Raise) : (r.after n).bpos = r.bpos := rfl
@[simp] theorem Raise.after_bitpos (n : Nat) (r : Raise) : (r.after n).bitpos = r.bitpos := rfl
@[simp] theorem Raise.after_outCount (n : Nat) (r : Raise) : (r.after n).outCount = n + r.outCount := rfl

/-! ### The register file cleared by START or an error -/

@[simp] theorem Regs.cleared_ctrl (r : Regs) (st : Word) : (r.cleared st).ctrl = r.ctrl := rfl
@[simp] theorem Regs.cleared_cmd (r : Regs) (st : Word) : (r.cleared st).cmd = r.cmd := rfl
@[simp] theorem Regs.cleared_inLen (r : Regs) (st : Word) : (r.cleared st).inLen = r.inLen := rfl
@[simp] theorem Regs.cleared_outLen (r : Regs) (st : Word) : (r.cleared st).outLen = r.outLen := rfl
@[simp] theorem Regs.cleared_expCrc (r : Regs) (st : Word) : (r.cleared st).expCrc = r.expCrc := rfl
@[simp] theorem Regs.cleared_status (r : Regs) (st : Word) : (r.cleared st).status = st := rfl
@[simp] theorem Regs.cleared_outCount (r : Regs) (st : Word) : (r.cleared st).outCount = 0 := rfl
@[simp] theorem Regs.cleared_crcOut (r : Regs) (st : Word) : (r.cleared st).crcOut = 0 := rfl
@[simp] theorem Regs.cleared_result (r : Regs) (st : Word) : (r.cleared st).result = 0 := rfl
@[simp] theorem Regs.cleared_dataLen (r : Regs) (st : Word) : (r.cleared st).dataLen = 0 := rfl
@[simp] theorem Regs.cleared_rsrcLen (r : Regs) (st : Word) : (r.cleared st).rsrcLen = 0 := rfl
@[simp] theorem Regs.cleared_mdType (r : Regs) (st : Word) : (r.cleared st).mdType = 0 := rfl
@[simp] theorem Regs.cleared_mdCreator (r : Regs) (st : Word) : (r.cleared st).mdCreator = 0 := rfl
@[simp] theorem Regs.cleared_mdFlags (r : Regs) (st : Word) : (r.cleared st).mdFlags = 0 := rfl
@[simp] theorem Regs.cleared_mdNameLen (r : Regs) (st : Word) : (r.cleared st).mdNameLen = 0 := rfl

/-! ### Replacing one byte memory -/

@[simp] theorem State.setSpace_cfg (s : State) (k : ByteSpace) (m : Space) : (s.setSpace k m).cfg = s.cfg := by
  cases k <;> rfl
@[simp] theorem State.setSpace_regs (s : State) (k : ByteSpace) (m : Space) : (s.setSpace k m).regs = s.regs := by
  cases k <;> rfl
@[simp] theorem State.setSpace_latch (s : State) (k : ByteSpace) (m : Space) : (s.setSpace k m).latch = s.latch := by
  cases k <;> rfl
@[simp] theorem State.setSpace_seq (s : State) (k : ByteSpace) (m : Space) : (s.setSpace k m).seq = s.seq := by
  cases k <;> rfl
@[simp] theorem State.setSpace_units (s : State) (k : ByteSpace) (m : Space) : (s.setSpace k m).units = s.units := by
  cases k <;> rfl
@[simp] theorem State.setSpace_host (s : State) (k : ByteSpace) (m : Space) : (s.setSpace k m).host = s.host := by
  cases k <;> rfl
@[simp] theorem State.setSpace_readData (s : State) (k : ByteSpace) (m : Space) : (s.setSpace k m).readData = s.readData := by
  cases k <;> rfl
@[simp] theorem State.setSpace_inTouched (s : State) (k : ByteSpace) (m : Space) : (s.setSpace k m).inTouched = s.inTouched := by
  cases k <;> rfl
@[simp] theorem State.setSpace_freeCtr (s : State) (k : ByteSpace) (m : Space) : (s.setSpace k m).freeCtr = s.freeCtr := by
  cases k <;> rfl
@[simp] theorem State.space_setSpace (s : State) (k : ByteSpace) (m : Space) : (s.setSpace k m).space k = m := by
  cases k <;> rfl
theorem State.space_setSpace_of_ne (s : State) {k l : ByteSpace} (m : Space) (h : l ≠ k) :
    (s.setSpace k m).space l = s.space l := by
  cases k <;> cases l <;> first | rfl | exact absurd rfl h

/-! ### The latch that START fills -/

@[simp] theorem latchOf_op (r : Regs) : (latchOf r).op = cmdOp r.cmd := rfl
@[simp] theorem latchOf_crcEn (r : Regs) : (latchOf r).crcEn = cmdCrcEn r.cmd := rfl
@[simp] theorem latchOf_rsvd (r : Regs) : (latchOf r).rsvd = cmdRsvd r.cmd := rfl
@[simp] theorem latchOf_inLen (r : Regs) : (latchOf r).inLen = r.inLen := rfl
@[simp] theorem latchOf_outLen (r : Regs) : (latchOf r).outLen = r.outLen := rfl
@[simp] theorem latchOf_expCrc (r : Regs) : (latchOf r).expCrc = r.expCrc.setWidth 16 := rfl

/-- The latch holds the command word whole (10_state.md R75). -/
theorem latchWord_latchOf (r : Regs) : latchWord (latchOf r) = r.cmd := cmdWord_fields r.cmd

end Sys2Proof.Machine
end

