-- ==== Sys2Proof/Laws/Jobs.lean ====
section
/-! SUPPORT. What the operations that every job shares can do: CheckCommand, the byte loop, the end of a job, and the engine's
and the host's turns. -/

namespace Sys2Proof.Machine

/-! ### Results of `Except` computations -/

theorem except_bind_eq_ok {ε α β : Type} {x : Except ε α} {f : α → Except ε β} {b : β} :
    (x >>= f) = .ok b ↔ ∃ a, x = .ok a ∧ f a = .ok b := by
  cases x with
  | error e =>
    constructor
    · intro h
      cases h
    · rintro ⟨_, h, _⟩
      cases h
  | ok a =>
    constructor
    · exact fun h => ⟨a, rfl, h⟩
    · rintro ⟨_, h, h'⟩
      cases h
      exact h'

theorem except_bind_eq_error {ε α β : Type} {x : Except ε α} {f : α → Except ε β} {e : ε} :
    (x >>= f) = .error e ↔ x = .error e ∨ ∃ a, x = .ok a ∧ f a = .error e := by
  cases x with
  | error e' =>
    constructor
    · intro h
      cases h
      exact .inl rfl
    · rintro (h | ⟨_, h, _⟩)
      · cases h
        rfl
      · cases h
  | ok a =>
    constructor
    · exact fun h => .inr ⟨a, rfl, h⟩
    · rintro (h | ⟨_, h, h'⟩)
      · cases h
      · cases h
        exact h'

@[simp] theorem except_ok_bind {ε α β : Type} (a : α) (f : α → Except ε β) : (Except.ok a >>= f) = f a := rfl

@[simp] theorem except_error_bind {ε α β : Type} (e : ε) (f : α → Except ε β) :
    ((Except.error e : Except ε α) >>= f) = .error e := rfl

/-- An error that has been given its place: the error itself, and the place. -/
theorem except_mapError_eq_error {ε ε' α : Type} {x : Except ε α} {f : ε → ε'} {e : ε'} :
    x.mapError f = .error e ↔ ∃ d, x = .error d ∧ f d = e := by
  cases x with
  | error d =>
    constructor
    · intro h
      cases h
      exact ⟨d, rfl, rfl⟩
    · rintro ⟨_, h, rfl⟩
      cases h
      rfl
  | ok a =>
    constructor
    · intro h
      cases h
    · rintro ⟨_, h, _⟩
      cases h

/-- Giving an error its place changes no answer. -/
@[simp] theorem except_mapError_eq_ok {ε ε' α : Type} {x : Except ε α} {f : ε → ε'} {a : α} :
    x.mapError f = .ok a ↔ x = .ok a := by
  cases x with
  | error d =>
    constructor <;> (intro h; cases h)
  | ok b =>
    constructor <;> (intro h; cases h; rfl)

/-! ### The end of a job -/

@[simp] theorem endJob_error (s : State) (r : Raise) : endJob s (.error r) = .next (raiseError r s) := rfl

theorem endJob_ok (s : State) (r : JobResult) (h : r.out.length ≤ s.cfg.outCap) :
    endJob s (.ok r) = .next (finishJob s r) := by
  rw [endJob, if_neg (by omega)]

/-- A job ends with an error of its own or with RES_OUT_CAP, or successfully with a result that fits OUT. -/
theorem endJob_next {s t : State} {r : Except Raise JobResult} (h : endJob s r = .next t) :
    (∃ q, (r = .error q ∨ q.err = .resOutCap) ∧ t = raiseError q s) ∨
      ∃ j, r = .ok j ∧ j.out.length ≤ s.cfg.outCap ∧ t = finishJob s j := by
  cases r with
  | error q =>
    rw [endJob_error] at h
    exact .inl ⟨q, .inl rfl, by cases h; rfl⟩
  | ok j =>
    unfold endJob at h
    dsimp only at h
    split at h
    · exact .inl ⟨_, .inr rfl, by cases h; rfl⟩
    · exact .inr ⟨j, rfl, by omega, by cases h; rfl⟩

/-- A job always ends (70_reset_and_hazards.md R921). -/
theorem endJob_total (s : State) (r : Except Raise JobResult) : ∃ t, endJob s r = .next t := by
  cases r with
  | error e => exact ⟨_, rfl⟩
  | ok j =>
    unfold endJob
    dsimp only
    split <;> exact ⟨_, rfl⟩

/-! ### CheckCommand (40_job_control.md R301) -/

/-- CheckCommand passes exactly when none of its five checks fails. -/
theorem checkCommand_eq_ok {s : State} {rsvd : BitVec 23} {op : BitVec 8} :
    checkCommand s rsvd op = .ok () ↔
      rsvd = 0 ∧ isReservedOp op = false ∧ s.latch.inLen.toNat ≤ s.cfg.inCap ∧ isUnsupOp op = false ∧
        (isForkOp op = true → s.latch.outLen.toNat ≤ s.cfg.outCap) := by
  unfold checkCommand
  split
  · simp_all
  · split
    · simp_all
    · split
      · simp_all
      · split
        · simp_all
        · split <;> simp_all

/-- CheckCommand raises nothing but its own five errors, before any input is read. -/
theorem checkCommand_eq_error {s : State} {rsvd : BitVec 23} {op : BitVec 8} {r : Raise}
    (h : checkCommand s rsvd op = .error r) :
    r.err ∈ [Err.cmdReservedBits, .cmdReservedOp, .cmdInLen, .feaMethod, .resOutCap] ∧ r = { err := r.err } := by
  unfold checkCommand at h
  repeat' split at h
  all_goals first | (cases h; simp) | cases h

/-! ### The byte loop of a fork op (40_job_control.md R307) -/

@[simp] theorem forkLoop_zero {σ : Type} (p : σ → Except Raise (Byte × σ)) (u : σ) : forkLoop p 0 u = .ok ([], u) := rfl

theorem forkLoop_succ {σ : Type} (p : σ → Except Raise (Byte × σ)) (n : Nat) (u : σ) :
    forkLoop p (n + 1) u =
      (p u >>= fun r => (forkLoop p n r.2).mapError (.after 1) >>= fun q => .ok (r.1 :: q.1, q.2)) := rfl

theorem forkLoop_length {σ : Type} {p : σ → Except Raise (Byte × σ)} {n : Nat} {u u' : σ} {bs : List Byte}
    (h : forkLoop p n u = .ok (bs, u')) : bs.length = n := by
  induction n generalizing u bs with
  | zero =>
    cases h
    rfl
  | succ n ih =>
    rw [forkLoop_succ, except_bind_eq_ok] at h
    obtain ⟨r, _, h⟩ := h
    obtain ⟨q, hq, h⟩ := except_bind_eq_ok.1 h
    cases h
    simp [ih (bs := q.1) (u := r.2) (except_mapError_eq_ok.1 hq)]

/-- The loop of `m + n` bytes is the loop of `m` bytes and then the loop of `n` bytes from where it stands. -/
theorem forkLoop_add {σ : Type} {p : σ → Except Raise (Byte × σ)} {m n : Nat} {u u' u'' : σ} {bs cs : List Byte}
    (h : forkLoop p m u = .ok (bs, u')) (h' : forkLoop p n u' = .ok (cs, u'')) :
    forkLoop p (m + n) u = .ok (bs ++ cs, u'') := by
  induction m generalizing u bs with
  | zero =>
    cases h
    simpa using h'
  | succ m ih =>
    rw [forkLoop_succ, except_bind_eq_ok] at h
    obtain ⟨r, hr, h⟩ := h
    obtain ⟨q, hq, h⟩ := except_bind_eq_ok.1 h
    cases h
    rw [show m + 1 + n = (m + n) + 1 by omega, forkLoop_succ, hr, except_ok_bind, ih (bs := q.1) (except_mapError_eq_ok.1 hq)]
    rfl

/-- An error of the loop is an error of the step after the bytes that the loop gave, and counts them. -/
theorem forkLoop_error {σ : Type} {p : σ → Except Raise (Byte × σ)} {n : Nat} {u : σ} {r : Raise}
    (h : forkLoop p n u = .error r) :
    ∃ m bs v q, m < n ∧ forkLoop p m u = .ok (bs, v) ∧ p v = .error q ∧ r = q.after m := by
  induction n generalizing u r with
  | zero => cases h
  | succ n ih =>
    rw [forkLoop_succ, except_bind_eq_error] at h
    rcases h with h | ⟨a, ha, h⟩
    · exact ⟨0, [], u, r, by omega, rfl, h, by cases r; simp [Raise.after]⟩
    · rcases except_bind_eq_error.1 h with h | ⟨_, _, h⟩
      · obtain ⟨q, hq, rfl⟩ := except_mapError_eq_error.1 h
        obtain ⟨m, bs, v, q, hm, hl, hv, rfl⟩ := ih hq
        refine ⟨m + 1, a.1 :: bs, v, q, by omega, ?_, hv, ?_⟩
        · rw [forkLoop_succ, ha, except_ok_bind, hl]
          rfl
        · simp only [Raise.after]
          congr 1
          omega
      · cases h

/-- The loop that gives `m` bytes and then cannot step raises that step's error, counting them. -/
theorem forkLoop_of_error {σ : Type} {p : σ → Except Raise (Byte × σ)} {m n : Nat} {u v : σ} {bs : List Byte} {q : Raise}
    (h : forkLoop p m u = .ok (bs, v)) (hv : p v = .error q) (hn : m < n) : forkLoop p n u = .error (q.after m) := by
  induction m generalizing n u bs with
  | zero =>
    cases h
    obtain ⟨n, rfl⟩ : ∃ k, n = k + 1 := ⟨n - 1, by omega⟩
    rw [forkLoop_succ, hv]
    cases q
    simp [Raise.after]
  | succ m ih =>
    obtain ⟨n, rfl⟩ : ∃ k, n = k + 1 := ⟨n - 1, by omega⟩
    rw [forkLoop_succ, except_bind_eq_ok] at h
    obtain ⟨a, ha, h⟩ := h
    obtain ⟨q', hq', h⟩ := except_bind_eq_ok.1 h
    cases h
    rw [forkLoop_succ, ha, except_ok_bind, ih (bs := q'.1) (except_mapError_eq_ok.1 hq') (by omega)]
    show Except.error _ = _
    simp only [Raise.after]
    congr 2
    omega

/-! ### Host accesses -/

theorem onReg_next {off size : Nat} {act : State → State} {s t : State} (h : onReg off size act s = .next t) :
    size = 4 ∧ off % 4 = 0 ∧ off < 0x100 ∧ t = act s := by
  unfold onReg at h
  split at h
  · cases h
  · split at h
    · cases h
    · cases h
      exact ⟨by tauto, by tauto, by omega, rfl⟩

theorem onCells_next {k : ByteSpace} {i n : Nat} {act : List (ByteSpace × Nat) → State → State} {s t : State}
    (h : onCells k i n act s = .next t) : i + n ≤ spaceSize s.cfg k ∧ t = act (cellsFrom k i n) s := by
  unfold onCells at h
  split at h
  · cases h
  · cases h
    exact ⟨by omega, rfl⟩

@[simp] theorem cellsFrom_length (k : ByteSpace) (i n : Nat) : (cellsFrom k i n).length = n := by simp [cellsFrom]

theorem mem_cellsFrom {k : ByteSpace} {i n : Nat} {c : ByteSpace × Nat} :
    c ∈ cellsFrom k i n ↔ c.1 = k ∧ i ≤ c.2 ∧ c.2 < i + n := by
  obtain ⟨l, a⟩ := c
  simp only [cellsFrom, List.mem_map, List.mem_range'_1, Prod.mk.injEq]
  constructor
  · rintro ⟨b, hb, rfl, rfl⟩
    exact ⟨rfl, hb⟩
  · rintro ⟨rfl, ha⟩
    exact ⟨a, ha, rfl, rfl⟩

/-- The cells of an access lie inside their memories. -/
abbrev CellsOk (cfg : Config) (cells : List (ByteSpace × Nat)) : Prop := ∀ c ∈ cells, c.2 < spaceSize cfg c.1

theorem windowIndex_eq_some {base size a i : Nat} (h : windowIndex base size a = some i) : i < size := by
  unfold windowIndex at h
  split at h
  · cases h
    omega
  · cases h

theorem locate_byte {cfg : Config} {a i : Nat} {k : ByteSpace} (h : locate cfg a = .byte k i) : i < spaceSize cfg k := by
  unfold locate at h
  split at h
  · cases h
  · split at h
    · rename_i hi
      cases h
      exact windowIndex_eq_some hi
    · split at h
      · rename_i hi
        cases h
        exact windowIndex_eq_some hi
      · split at h
        · rename_i hi
          cases h
          exact windowIndex_eq_some hi
        · cases h

theorem busCells_ok {cfg : Config} {a n : Nat} {cells : List (ByteSpace × Nat)} (h : busCells cfg a n = .ok cells) :
    CellsOk cfg cells ∧ cells.length = n := by
  induction n generalizing a cells with
  | zero =>
    cases h
    exact ⟨fun c hc => (List.not_mem_nil hc).elim, rfl⟩
  | succ n ih =>
    unfold busCells at h
    split at h
    · rename_i k i hl
      obtain ⟨rest, hr, h⟩ := except_bind_eq_ok.1 h
      cases h
      obtain ⟨h1, h2⟩ := ih hr
      refine ⟨fun c hc => ?_, by simp [h2]⟩
      rcases List.mem_cons.1 hc with rfl | hc
      · exact locate_byte hl
      · exact h1 c hc
    · cases h

/-- An access by address that completes is one register access or one access of bytes inside their memories. -/
theorem onBus_next {a n : Nat} {reg : Nat → State → State} {bytes : List (ByteSpace × Nat) → State → State} {s t : State}
    (h : onBus a n reg bytes s = .next t) :
    (∃ off, n = 4 ∧ off % 4 = 0 ∧ off < 0x100 ∧ t = reg off s) ∨
      ∃ cells, CellsOk s.cfg cells ∧ cells.length = n ∧ t = bytes cells s := by
  unfold onBus at h
  split at h
  · obtain ⟨h1, h2, h3, h4⟩ := onReg_next h
    exact .inl ⟨_, h1, h2, h3, h4⟩
  · split at h
    · rename_i cells hc
      cases h
      exact .inr ⟨cells, (busCells_ok hc).1, (busCells_ok hc).2, rfl⟩
    · split at h <;> cases h

/-- What a host access that completes is: nothing, a reset, or one access of a register or of bytes. The two views of a read,
by word and by bytes, differ in `readData` alone. -/
theorem hostAct_next {a : HostAct} {s t : State} (h : hostAct a s = .next t) :
    t = s ∨ t = powerOnReset s ∨ (∃ off v, t = writeReg off v s) ∨ (∃ off r, t = (readReg off s).returns r) ∨
      (∃ cells bs, CellsOk s.cfg cells ∧ cells.length = bs.length ∧ t = writeCells cells bs s) ∨
      ∃ cells r, CellsOk s.cfg cells ∧ t = (readCells cells s).returns r := by
  cases a with
  | regWrite off size v =>
    obtain ⟨-, -, -, rfl⟩ := onReg_next h
    exact .inr (.inr (.inl ⟨_, _, rfl⟩))
  | regRead off size =>
    obtain ⟨-, -, -, rfl⟩ := onReg_next h
    exact .inr (.inr (.inr (.inl ⟨off, (readReg off s).readData, rfl⟩)))
  | memWrite k i bs =>
    unfold hostAct at h
    obtain ⟨hi, rfl⟩ := onCells_next h
    refine .inr (.inr (.inr (.inr (.inl ⟨_, bs, fun c hc => ?_, cellsFrom_length _ _ _, rfl⟩))))
    obtain ⟨rfl, -, h2⟩ := mem_cellsFrom.1 hc
    omega
  | memRead k i n =>
    unfold hostAct at h
    obtain ⟨hi, rfl⟩ := onCells_next h
    refine .inr (.inr (.inr (.inr (.inr ⟨cellsFrom k i n, (readCells (cellsFrom k i n) s).readData, fun c hc => ?_, rfl⟩))))
    obtain ⟨rfl, -, h2⟩ := mem_cellsFrom.1 hc
    omega
  | bus address op =>
    unfold hostAct busAccess at h
    cases op with
    | readWord =>
      rcases onBus_next (by exact h) with ⟨off, -, -, -, rfl⟩ | ⟨cells, hc, -, rfl⟩
      · exact .inr (.inr (.inr (.inl ⟨off, (readReg off s).readData, rfl⟩)))
      · exact .inr (.inr (.inr (.inr (.inr ⟨cells, _, hc, rfl⟩))))
    | writeWord v =>
      rcases onBus_next (by exact h) with ⟨off, -, -, -, rfl⟩ | ⟨cells, hc, hl, rfl⟩
      · exact .inr (.inr (.inl ⟨_, _, rfl⟩))
      · refine .inr (.inr (.inr (.inr (.inl ⟨cells, _, hc, ?_, rfl⟩))))
        rw [hl]
        unfold wordBytes
        split <;> rfl
    | readBytes n =>
      rcases onBus_next (by exact h) with ⟨off, -, -, -, rfl⟩ | ⟨cells, hc, -, rfl⟩
      · exact .inr (.inr (.inr (.inl ⟨off, _, rfl⟩)))
      · exact .inr (.inr (.inr (.inr (.inr ⟨cells, (readCells cells s).readData, hc, rfl⟩))))
    | writeBytes bs =>
      rcases onBus_next (by exact h) with ⟨off, -, -, -, rfl⟩ | ⟨cells, hc, hl, rfl⟩
      · exact .inr (.inr (.inl ⟨_, _, rfl⟩))
      · exact .inr (.inr (.inr (.inr (.inl ⟨cells, bs, hc, hl, rfl⟩))))
  | wait =>
    cases h
    exact .inl rfl
  | powerOn =>
    cases h
    exact .inr (.inl rfl)

/-! ### What writing bytes leaves alone, and what it leaves in IN -/

theorem writeCells_cons (k : ByteSpace) (i : Nat) (b : Byte) (cells : List (ByteSpace × Nat)) (bs : List Byte) (s : State) :
    writeCells ((k, i) :: cells) (b :: bs) s = writeCells cells bs (writeByte k i b s) := rfl

/-- A field that no byte write changes, no write of bytes changes. -/
theorem writeCells_keeps {α : Type} (f : State → α) (hf : ∀ k i b s, f (writeByte k i b s) = f s)
    (cells : List (ByteSpace × Nat)) (bs : List Byte) (s : State) : f (writeCells cells bs s) = f s := by
  induction cells generalizing bs s with
  | nil => rfl
  | cons c rest ih =>
    cases bs with
    | nil => rfl
    | cons b bs => rw [writeCells_cons, ih, hf]

@[simp] theorem writeCells_cfg (cells : List (ByteSpace × Nat)) (bs : List Byte) (s : State) :
    (writeCells cells bs s).cfg = s.cfg := writeCells_keeps State.cfg writeByte_cfg cells bs s
@[simp] theorem writeCells_regs (cells : List (ByteSpace × Nat)) (bs : List Byte) (s : State) :
    (writeCells cells bs s).regs = s.regs := writeCells_keeps State.regs writeByte_regs cells bs s
@[simp] theorem writeCells_latch (cells : List (ByteSpace × Nat)) (bs : List Byte) (s : State) :
    (writeCells cells bs s).latch = s.latch := writeCells_keeps State.latch writeByte_latch cells bs s
@[simp] theorem writeCells_seq (cells : List (ByteSpace × Nat)) (bs : List Byte) (s : State) :
    (writeCells cells bs s).seq = s.seq := writeCells_keeps State.seq writeByte_seq cells bs s
@[simp] theorem writeCells_units (cells : List (ByteSpace × Nat)) (bs : List Byte) (s : State) :
    (writeCells cells bs s).units = s.units := writeCells_keeps State.units writeByte_units cells bs s
@[simp] theorem writeCells_host (cells : List (ByteSpace × Nat)) (bs : List Byte) (s : State) :
    (writeCells cells bs s).host = s.host := writeCells_keeps State.host writeByte_host cells bs s
@[simp] theorem writeCells_readData (cells : List (ByteSpace × Nat)) (bs : List Byte) (s : State) :
    (writeCells cells bs s).readData = s.readData := writeCells_keeps State.readData writeByte_readData cells bs s

/-- Bytes written to IN from an index up. -/
theorem writeCells_inn (i : Nat) (bs : List Byte) (s : State) :
    (writeCells (cellsFrom .inn i bs.length) bs s).inn = s.inn.writeList i bs := by
  induction bs generalizing i s with
  | nil => rfl
  | cons b rest ih =>
    have h : cellsFrom .inn i (b :: rest).length = (.inn, i) :: cellsFrom .inn (i + 1) rest.length := by
      simp [cellsFrom, List.range'_succ]
    rw [h, writeCells_cons, ih]
    rfl

/-- The canonical form of the memories, under any write of bytes inside them. -/
theorem writeCells_wf {cells : List (ByteSpace × Nat)} {bs : List Byte} {s : State} (hc : CellsOk s.cfg cells)
    (h : s.inn.wf s.cfg.inCap ∧ s.out.wf s.cfg.outCap ∧ s.name.wf 256) :
    let t := writeCells cells bs s
    t.inn.wf s.cfg.inCap ∧ t.out.wf s.cfg.outCap ∧ t.name.wf 256 := by
  induction cells generalizing bs s with
  | nil => exact h
  | cons c rest ih =>
    cases bs with
    | nil => exact h
    | cons b bs =>
      obtain ⟨k, i⟩ := c
      have hi := hc (k, i) (List.mem_cons_self ..)
      have hr : CellsOk (writeByte k i b s).cfg rest := fun c hm => by
        rw [writeByte_cfg]
        exact hc c (List.mem_cons_of_mem _ hm)
      have := ih (bs := bs) (s := writeByte k i b s) hr
      rw [writeByte_cfg] at this
      refine this ?_
      cases k with
      | inn => exact ⟨Space.write_wf _ h.1 hi, h.2⟩
      | out => exact ⟨h.1, Space.write_wf _ h.2.1 hi, h.2.2⟩
      | name => exact ⟨h.1, h.2.1, Space.write_wf _ h.2.2 hi⟩

/-- What a step that answers a next state is: the end of a job whose input changed, the latched command, an idle turn, or a
host access. -/
theorem step_next {s t : State} (h : step s = .next t) :
    (engineTurn s = true ∧ s.inTouched = true ∧ t = endUnconstrained s) ∨
    (engineTurn s = true ∧ s.inTouched = false ∧ exec (decodeWord (latchWord s.latch)) s = .next t) ∨
    (engineTurn s = false ∧ s.host = [] ∧ t = s) ∨
    ∃ a rest, engineTurn s = false ∧ s.host = a :: rest ∧ hostAct a { s with host := rest } = .next t := by
  unfold step at h
  split at h
  · rename_i he
    unfold engineStep at h
    split at h
    · rename_i hi
      cases h
      exact .inl ⟨he, hi, rfl⟩
    · rename_i hi
      rw [decode_singleton] at h
      exact .inr (.inl ⟨he, by simpa using hi, h⟩)
  · rename_i he
    have he : engineTurn s = false := by simpa using he
    split at h
    · rename_i hh
      cases h
      exact .inr (.inr (.inl ⟨he, hh, rfl⟩))
    · rename_i a rest hh
      exact .inr (.inr (.inr ⟨a, rest, he, hh, h⟩))

end Sys2Proof.Machine
end

