-- ==== Sys2Proof/Laws/Dispatch.lean ====
section
/-! SUPPORT. Each arm of Dispatch as the end of its operation's job (40_job_control.md R302, R305). -/

namespace Sys2Proof.Machine

theorem exec_sitRaw (crcEn : Bool) (s : State) : exec (.sitRaw crcEn) s = endJob s (sitRawJob crcEn s) := rfl
theorem exec_sitRle90 (crcEn : Bool) (s : State) : exec (.sitRle90 crcEn) s = endJob s (sitRle90Job crcEn s) := rfl
theorem exec_sitLzw (crcEn : Bool) (s : State) : exec (.sitLzw crcEn) s = endJob s (sitLzwJob crcEn s) := rfl
theorem exec_sitUnsupM3 (crcEn : Bool) (s : State) : exec (.sitUnsupM3 crcEn) s = endJob s (sitUnsupJob 0x03 s) := rfl
theorem exec_sitUnsupM4 (crcEn : Bool) (s : State) : exec (.sitUnsupM4 crcEn) s = endJob s (sitUnsupJob 0x04 s) := rfl
theorem exec_sitUnsupM5 (crcEn : Bool) (s : State) : exec (.sitUnsupM5 crcEn) s = endJob s (sitUnsupJob 0x05 s) := rfl
theorem exec_sitUnsupM6 (crcEn : Bool) (s : State) : exec (.sitUnsupM6 crcEn) s = endJob s (sitUnsupJob 0x06 s) := rfl
theorem exec_sitUnsupM7 (crcEn : Bool) (s : State) : exec (.sitUnsupM7 crcEn) s = endJob s (sitUnsupJob 0x07 s) := rfl
theorem exec_sitUnsupM8 (crcEn : Bool) (s : State) : exec (.sitUnsupM8 crcEn) s = endJob s (sitUnsupJob 0x08 s) := rfl
theorem exec_sitUnsupM9 (crcEn : Bool) (s : State) : exec (.sitUnsupM9 crcEn) s = endJob s (sitUnsupJob 0x09 s) := rfl
theorem exec_sitUnsupM10 (crcEn : Bool) (s : State) : exec (.sitUnsupM10 crcEn) s = endJob s (sitUnsupJob 0x0A s) := rfl
theorem exec_sitUnsupM11 (crcEn : Bool) (s : State) : exec (.sitUnsupM11 crcEn) s = endJob s (sitUnsupJob 0x0B s) := rfl
theorem exec_sitUnsupM12 (crcEn : Bool) (s : State) : exec (.sitUnsupM12 crcEn) s = endJob s (sitUnsupJob 0x0C s) := rfl
theorem exec_sitUnsupM14 (crcEn : Bool) (s : State) : exec (.sitUnsupM14 crcEn) s = endJob s (sitUnsupJob 0x0E s) := rfl
theorem exec_sitM13 (crcEn : Bool) (s : State) : exec (.sitM13 crcEn) s = endJob s (sitM13Job crcEn s) := rfl
theorem exec_sitArs (crcEn : Bool) (s : State) : exec (.sitArs crcEn) s = endJob s (sitArsJob s) := rfl
theorem exec_cptRle (crcEn : Bool) (s : State) : exec (.cptRle crcEn) s = endJob s (cptRleJob s) := rfl
theorem exec_cptLzh (crcEn : Bool) (s : State) : exec (.cptLzh crcEn) s = endJob s (cptLzhJob s) := rfl
theorem exec_hqxDetect (crcEn : Bool) (s : State) : exec (.hqxDetect crcEn) s = endJob s (hqxDetectJob s) := rfl
theorem exec_hqxFile (crcEn : Bool) (s : State) : exec (.hqxFile crcEn) s = endJob s (hqxFileJob s) := rfl
theorem exec_hqxWrap (crcEn : Bool) (s : State) : exec (.hqxWrap crcEn) s = endJob s (hqxWrapJob s) := rfl
theorem exec_binDetect (crcEn : Bool) (s : State) : exec (.binDetect crcEn) s = endJob s (binDetectJob s) := rfl
theorem exec_binFile (crcEn : Bool) (s : State) : exec (.binFile crcEn) s = endJob s (binFileJob s) := rfl
theorem exec_binWrap (crcEn : Bool) (s : State) : exec (.binWrap crcEn) s = endJob s (binWrapJob s) := rfl
theorem exec_crcXmodem (crcEn : Bool) (s : State) : exec (.crcXmodem crcEn) s = endJob s (crcXmodemJob s) := rfl
theorem exec_crcArc (crcEn : Bool) (s : State) : exec (.crcArc crcEn) s = endJob s (crcArcJob s) := rfl
theorem exec_reservedOp (op : BitVec 8) (crcEn : Bool) (s : State) :
    exec (.reservedOp op crcEn) s = endJob s (.error { err := .cmdReservedOp }) := rfl
theorem exec_reservedBits (rsvd : BitVec 23) (crcEn : Bool) (op : BitVec 8) (s : State) :
    exec (.reservedBits rsvd crcEn op) s = endJob s (.error { err := .cmdReservedBits }) := rfl

/-- Every command is a job, which ends as `endJob_next` says. -/
theorem exec_eq_endJob (i : Instr) (s : State) : ∃ r, exec i s = endJob s r := by
  cases i with
  | reservedOp op crcEn => exact ⟨_, exec_reservedOp op crcEn s⟩
  | reservedBits rsvd crcEn op => exact ⟨_, exec_reservedBits rsvd crcEn op s⟩
  | _ => exact ⟨_, rfl⟩

/-! ### The successful results: each operation's checks passed and its parts answered -/

theorem forkCrcCheck_eq_ok {crcEn : Bool} {s : State} {fork : List Byte} {c : Half} :
    forkCrcCheck crcEn s fork = .ok c ↔ c = crcArc fork ∧ (crcEn = true → crcArc fork = s.latch.expCrc) := by
  have h : forkCrcCheck crcEn s fork =
      if crcEn && crcArc fork != s.latch.expCrc then .error .intForkCrc else .ok (crcArc fork) := rfl
  rw [h]
  constructor
  · intro h
    split at h
    · cases h
    · rename_i hn
      cases h
      exact ⟨rfl, fun he => by simpa [he] using hn⟩
  · rintro ⟨rfl, hc⟩
    rw [if_neg]
    cases crcEn
    · simp
    · simp [hc rfl]

theorem forkResult_eq_ok {crcEn : Bool} {s : State} {fork : List Byte} {u : Units} {p k : Nat} {j : JobResult}
    (h : forkResult crcEn s fork u p k = .ok j) :
    (crcEn = true → crcArc fork = s.latch.expCrc) ∧
      j = { out := fork, crcOut := crcArc fork, units := { u with crc := { crc := crcArc fork } }, bpos := p, bitpos := k } := by
  obtain ⟨c, hc, h⟩ := except_bind_eq_ok.1 h
  obtain ⟨rfl, he⟩ := forkCrcCheck_eq_ok.1 (except_mapError_eq_ok.1 hc)
  cases h
  exact ⟨he, rfl⟩

/-- A StuffIt fork that passes its CRC check ends with the CRC of its bytes (40_job_control.md R316, R317). -/
theorem forkResult_of_crc {crcEn : Bool} {s : State} {fork : List Byte} {u : Units} {p k : Nat}
    (h : crcEn = true → crcArc fork = s.latch.expCrc) :
    forkResult crcEn s fork u p k =
      .ok { out := fork, crcOut := crcArc fork, units := { u with crc := { crc := crcArc fork } }, bpos := p, bitpos := k } := by
  rw [forkResult, forkCrcCheck_eq_ok.2 ⟨rfl, h⟩]
  rfl

end Sys2Proof.Machine
end

