-- ==== Sys2Proof/Laws/PerInstr.lean ====
section
/-! SUPPORT. The per-instruction family `Encoding`: what the command word of a well-formed instruction carries
(30_encoding.md R200-R202). Its reserved bits are nonzero exactly for RESERVED_BITS, and with them zero its OP is a reserved
one exactly for RESERVED_OP. -/

namespace Sys2Proof.Laws.Encoding

/-- Whether an instruction is a RESERVED_BITS word. -/
def hasReservedBits : Instr → Bool
  | .reservedBits _ _ _ => true
  | _ => false

/-- Whether an instruction is a RESERVED_OP word. -/
def hasReservedOp : Instr → Bool
  | .reservedOp _ _ => true
  | _ => false

def Statement (i : Instr) : Prop :=
  i.wf = true →
    (cmdRsvd (encodeWord i) != 0) = hasReservedBits i ∧
      (hasReservedBits i = false → isReservedOp (cmdOp (encodeWord i)) = hasReservedOp i)

theorem sitRaw (crcEn : Bool) : Statement (.sitRaw crcEn) := by
  intro _
  simp only [encodeWord, cmdRsvd_cmdWord, cmdOp_cmdWord]
  exact ⟨rfl, fun _ => rfl⟩

theorem sitRle90 (crcEn : Bool) : Statement (.sitRle90 crcEn) := by
  intro _
  simp only [encodeWord, cmdRsvd_cmdWord, cmdOp_cmdWord]
  exact ⟨rfl, fun _ => rfl⟩

theorem sitLzw (crcEn : Bool) : Statement (.sitLzw crcEn) := by
  intro _
  simp only [encodeWord, cmdRsvd_cmdWord, cmdOp_cmdWord]
  exact ⟨rfl, fun _ => rfl⟩

theorem sitUnsupM3 (crcEn : Bool) : Statement (.sitUnsupM3 crcEn) := by
  intro _
  simp only [encodeWord, cmdRsvd_cmdWord, cmdOp_cmdWord]
  exact ⟨rfl, fun _ => rfl⟩

theorem sitUnsupM4 (crcEn : Bool) : Statement (.sitUnsupM4 crcEn) := by
  intro _
  simp only [encodeWord, cmdRsvd_cmdWord, cmdOp_cmdWord]
  exact ⟨rfl, fun _ => rfl⟩

theorem sitUnsupM5 (crcEn : Bool) : Statement (.sitUnsupM5 crcEn) := by
  intro _
  simp only [encodeWord, cmdRsvd_cmdWord, cmdOp_cmdWord]
  exact ⟨rfl, fun _ => rfl⟩

theorem sitUnsupM6 (crcEn : Bool) : Statement (.sitUnsupM6 crcEn) := by
  intro _
  simp only [encodeWord, cmdRsvd_cmdWord, cmdOp_cmdWord]
  exact ⟨rfl, fun _ => rfl⟩

theorem sitUnsupM7 (crcEn : Bool) : Statement (.sitUnsupM7 crcEn) := by
  intro _
  simp only [encodeWord, cmdRsvd_cmdWord, cmdOp_cmdWord]
  exact ⟨rfl, fun _ => rfl⟩

theorem sitUnsupM8 (crcEn : Bool) : Statement (.sitUnsupM8 crcEn) := by
  intro _
  simp only [encodeWord, cmdRsvd_cmdWord, cmdOp_cmdWord]
  exact ⟨rfl, fun _ => rfl⟩

theorem sitUnsupM9 (crcEn : Bool) : Statement (.sitUnsupM9 crcEn) := by
  intro _
  simp only [encodeWord, cmdRsvd_cmdWord, cmdOp_cmdWord]
  exact ⟨rfl, fun _ => rfl⟩

theorem sitUnsupM10 (crcEn : Bool) : Statement (.sitUnsupM10 crcEn) := by
  intro _
  simp only [encodeWord, cmdRsvd_cmdWord, cmdOp_cmdWord]
  exact ⟨rfl, fun _ => rfl⟩

theorem sitUnsupM11 (crcEn : Bool) : Statement (.sitUnsupM11 crcEn) := by
  intro _
  simp only [encodeWord, cmdRsvd_cmdWord, cmdOp_cmdWord]
  exact ⟨rfl, fun _ => rfl⟩

theorem sitUnsupM12 (crcEn : Bool) : Statement (.sitUnsupM12 crcEn) := by
  intro _
  simp only [encodeWord, cmdRsvd_cmdWord, cmdOp_cmdWord]
  exact ⟨rfl, fun _ => rfl⟩

theorem sitUnsupM14 (crcEn : Bool) : Statement (.sitUnsupM14 crcEn) := by
  intro _
  simp only [encodeWord, cmdRsvd_cmdWord, cmdOp_cmdWord]
  exact ⟨rfl, fun _ => rfl⟩

theorem sitM13 (crcEn : Bool) : Statement (.sitM13 crcEn) := by
  intro _
  simp only [encodeWord, cmdRsvd_cmdWord, cmdOp_cmdWord]
  exact ⟨rfl, fun _ => rfl⟩

theorem sitArs (crcEn : Bool) : Statement (.sitArs crcEn) := by
  intro _
  simp only [encodeWord, cmdRsvd_cmdWord, cmdOp_cmdWord]
  exact ⟨rfl, fun _ => rfl⟩

theorem cptRle (crcEn : Bool) : Statement (.cptRle crcEn) := by
  intro _
  simp only [encodeWord, cmdRsvd_cmdWord, cmdOp_cmdWord]
  exact ⟨rfl, fun _ => rfl⟩

theorem cptLzh (crcEn : Bool) : Statement (.cptLzh crcEn) := by
  intro _
  simp only [encodeWord, cmdRsvd_cmdWord, cmdOp_cmdWord]
  exact ⟨rfl, fun _ => rfl⟩

theorem hqxDetect (crcEn : Bool) : Statement (.hqxDetect crcEn) := by
  intro _
  simp only [encodeWord, cmdRsvd_cmdWord, cmdOp_cmdWord]
  exact ⟨rfl, fun _ => rfl⟩

theorem hqxFile (crcEn : Bool) : Statement (.hqxFile crcEn) := by
  intro _
  simp only [encodeWord, cmdRsvd_cmdWord, cmdOp_cmdWord]
  exact ⟨rfl, fun _ => rfl⟩

theorem hqxWrap (crcEn : Bool) : Statement (.hqxWrap crcEn) := by
  intro _
  simp only [encodeWord, cmdRsvd_cmdWord, cmdOp_cmdWord]
  exact ⟨rfl, fun _ => rfl⟩

theorem binDetect (crcEn : Bool) : Statement (.binDetect crcEn) := by
  intro _
  simp only [encodeWord, cmdRsvd_cmdWord, cmdOp_cmdWord]
  exact ⟨rfl, fun _ => rfl⟩

theorem binFile (crcEn : Bool) : Statement (.binFile crcEn) := by
  intro _
  simp only [encodeWord, cmdRsvd_cmdWord, cmdOp_cmdWord]
  exact ⟨rfl, fun _ => rfl⟩

theorem binWrap (crcEn : Bool) : Statement (.binWrap crcEn) := by
  intro _
  simp only [encodeWord, cmdRsvd_cmdWord, cmdOp_cmdWord]
  exact ⟨rfl, fun _ => rfl⟩

theorem crcXmodem (crcEn : Bool) : Statement (.crcXmodem crcEn) := by
  intro _
  simp only [encodeWord, cmdRsvd_cmdWord, cmdOp_cmdWord]
  exact ⟨rfl, fun _ => rfl⟩

theorem crcArc (crcEn : Bool) : Statement (.crcArc crcEn) := by
  intro _
  simp only [encodeWord, cmdRsvd_cmdWord, cmdOp_cmdWord]
  exact ⟨rfl, fun _ => rfl⟩

theorem reservedOp (op : BitVec 8) (crcEn : Bool) : Statement (.reservedOp op crcEn) := by
  intro h
  simp only [encodeWord, cmdRsvd_cmdWord, cmdOp_cmdWord]
  exact ⟨rfl, fun _ => h⟩

theorem reservedBits (rsvd : BitVec 23) (crcEn : Bool) (op : BitVec 8) : Statement (.reservedBits rsvd crcEn op) := by
  intro h
  simp only [encodeWord, cmdRsvd_cmdWord, cmdOp_cmdWord]
  exact ⟨h, fun h => nomatch h⟩

end Sys2Proof.Laws.Encoding
end

