-- ==== Sys2Proof/Tests/Slice0.lean ====
section
/-! SUPPORT. Small checks of the model's own work. Every expected value comes from the spec: the encodings of 30_encoding.md, the
worked examples in the rules, and the vectors of 95_test_vectors.md, each named. The witnesses show that the hypotheses of the
statements in Sys2Proof/Certificates/Slice0/Obligations.lean can be met. -/

set_option maxRecDepth 20000

namespace Sys2Proof.Tests

-- The kernel evaluates one test at a time: many at once want more threads than the memory limit has stacks for.
set_option Elab.async false

open Sys2Proof.Machine Sys2Proof.Reference

/-! ### A configuration and states to try the machine on -/

/-- M13_META_TEST of 46_method13.md R660. -/
def metaTest : Vector (Nat × Nat) 37 := Vector.ofFn fun i => if i.val ≤ 26 then (i.val, 5) else (i.val + 27, 6)

/-- Trees A = `0`, B = `10`, 258 = `11` and distance symbols 0 = `0`, 1 = `1`, as in vector M13-1. -/
def treesTest : TreeSet :=
  let t : Tree := [{ sym := 65, len := 1, bits := 0 }, { sym := 66, len := 2, bits := 2 }, { sym := 258, len := 2, bits := 3 }]
  { t1 := t, t2 := t, td := [{ sym := 0, len := 1, bits := 0 }, { sym := 1, len := 1, bits := 1 }] }

/-- A configuration with the default alphabet, M13_META_TEST and ARS_RAND_TEST (95_test_vectors.md section 0). -/
def cfgTest (outCap : Nat) : Config :=
  { inCap := 1024, outCap, arsBlockCap := Config.defaultArsBlockCap
    hqxAlphabet := Vector.ofFn fun i => Config.defaultAlphabet.getD i.val 0
    m13Meta := metaTest, m13Predef := Vector.replicate 5 treesTest
    arsRand := Vector.ofFn fun i => if i.val = 1 then 2 else 1
    regBase := 0, inBase := 0x1000, outBase := 0x2000, nameBase := 0x3000, busOrder := .little }

/-- An idle block with these bytes in IN, OUT_LEN and EXP_CRC, whose host has these accesses pending. -/
def idleWith (outCap : Nat) (inp : List Byte) (outLen : Nat) (expCrc : Word) (host : List HostAct) : State :=
  { State.reset with
    cfg := cfgTest outCap, inn := Space.writeList { cells := [], epoch := 0 } 0 inp, host
    regs := { Regs.powerOn with inLen := BitVec.ofNat 32 inp.length, outLen := BitVec.ofNat 32 outLen, expCrc } }

/-- The same with the command word just started and the host waiting. -/
def startedWith (outCap : Nat) (inp : List Byte) (outLen : Nat) (expCrc : Word) (cmd : Nat) : State :=
  (idleWith outCap inp outLen expCrc []).withFetchWord 32 cmd

/-- The step answers a next state with this STATUS, these OUT bytes and this CRC_OUT. -/
def ends (s : State) (status : Word) (out : List Byte) (crc : Word) : Bool :=
  match step s with
  | .next t =>
    t.regs.status == status && t.regs.outCount == BitVec.ofNat 32 out.length && t.out.slice .out 0 out.length == out &&
      t.regs.crcOut == crc
  | _ => false

/-- The step answers a next state that passes the test. -/
def endsIn (s : State) (test : State → Bool) : Bool :=
  match step s with
  | .next t => test t
  | _ => false

/-! ### Well-formedness and decoding -/

/-- 0x00 is no reserved OP (30_encoding.md R201). -/
theorem test_wf_refuses_defined_op : Instr.wf (.reservedOp 0x00 false) = false := by decide

/-- 0x41 is the last defined OP, 0x42 the first reserved one after it (R202). -/
theorem test_wf_reserved_op_boundary : Instr.wf (.reservedOp 0x41 true) = false ∧ Instr.wf (.reservedOp 0x42 true) = true := by
  decide

/-- Reserved bits that are all 0 are no RESERVED_BITS (R200). -/
theorem test_wf_refuses_zero_reserved_bits : Instr.wf (.reservedBits 0 true 0x12) = false := by decide

/-- An empty list of words has no command. -/
theorem test_decode_empty : decode [] = .error .noCommandWord := by decide

/-- SIT_RAW: OP 0x00 in bits 7:0, CRC_EN 0 in bit 8 (R200, R201). -/
theorem test_decode_sitRaw : decode [0b00000000000000000000000000000000#32] = .ok (.sitRaw false, []) := by decide

/-- SIT_RLE90: OP 0x01 in bits 7:0, CRC_EN 1 in bit 8 (R200, R201). -/
theorem test_decode_sitRle90 : decode [0b00000000000000000000000100000001#32] = .ok (.sitRle90 true, []) := by decide

/-- SIT_LZW: OP 0x02 in bits 7:0, CRC_EN 0 in bit 8 (R200, R201). -/
theorem test_decode_sitLzw : decode [0b00000000000000000000000000000010#32] = .ok (.sitLzw false, []) := by decide

/-- SIT_UNSUP_M3: OP 0x03 in bits 7:0, CRC_EN 1 in bit 8 (R200, R201). -/
theorem test_decode_sitUnsupM3 : decode [0b00000000000000000000000100000011#32] = .ok (.sitUnsupM3 true, []) := by decide

/-- SIT_UNSUP_M4: OP 0x04 in bits 7:0, CRC_EN 0 in bit 8 (R200, R201). -/
theorem test_decode_sitUnsupM4 : decode [0b00000000000000000000000000000100#32] = .ok (.sitUnsupM4 false, []) := by decide

/-- SIT_UNSUP_M5: OP 0x05 in bits 7:0, CRC_EN 1 in bit 8 (R200, R201). -/
theorem test_decode_sitUnsupM5 : decode [0b00000000000000000000000100000101#32] = .ok (.sitUnsupM5 true, []) := by decide

/-- SIT_UNSUP_M6: OP 0x06 in bits 7:0, CRC_EN 0 in bit 8 (R200, R201). -/
theorem test_decode_sitUnsupM6 : decode [0b00000000000000000000000000000110#32] = .ok (.sitUnsupM6 false, []) := by decide

/-- SIT_UNSUP_M7: OP 0x07 in bits 7:0, CRC_EN 1 in bit 8 (R200, R201). -/
theorem test_decode_sitUnsupM7 : decode [0b00000000000000000000000100000111#32] = .ok (.sitUnsupM7 true, []) := by decide

/-- SIT_UNSUP_M8: OP 0x08 in bits 7:0, CRC_EN 0 in bit 8 (R200, R201). -/
theorem test_decode_sitUnsupM8 : decode [0b00000000000000000000000000001000#32] = .ok (.sitUnsupM8 false, []) := by decide

/-- SIT_UNSUP_M9: OP 0x09 in bits 7:0, CRC_EN 1 in bit 8 (R200, R201). -/
theorem test_decode_sitUnsupM9 : decode [0b00000000000000000000000100001001#32] = .ok (.sitUnsupM9 true, []) := by decide

/-- SIT_UNSUP_M10: OP 0x0A in bits 7:0, CRC_EN 0 in bit 8 (R200, R201). -/
theorem test_decode_sitUnsupM10 : decode [0b00000000000000000000000000001010#32] = .ok (.sitUnsupM10 false, []) := by decide

/-- SIT_UNSUP_M11: OP 0x0B in bits 7:0, CRC_EN 1 in bit 8 (R200, R201). -/
theorem test_decode_sitUnsupM11 : decode [0b00000000000000000000000100001011#32] = .ok (.sitUnsupM11 true, []) := by decide

/-- SIT_UNSUP_M12: OP 0x0C in bits 7:0, CRC_EN 0 in bit 8 (R200, R201). -/
theorem test_decode_sitUnsupM12 : decode [0b00000000000000000000000000001100#32] = .ok (.sitUnsupM12 false, []) := by decide

/-- SIT_UNSUP_M14: OP 0x0E in bits 7:0, CRC_EN 1 in bit 8 (R200, R201). -/
theorem test_decode_sitUnsupM14 : decode [0b00000000000000000000000100001110#32] = .ok (.sitUnsupM14 true, []) := by decide

/-- SIT_M13: OP 0x0D in bits 7:0, CRC_EN 0 in bit 8 (R200, R201). -/
theorem test_decode_sitM13 : decode [0b00000000000000000000000000001101#32] = .ok (.sitM13 false, []) := by decide

/-- SIT_ARS: OP 0x0F in bits 7:0, CRC_EN 1 in bit 8 (R200, R201). -/
theorem test_decode_sitArs : decode [0b00000000000000000000000100001111#32] = .ok (.sitArs true, []) := by decide

/-- CPT_RLE: OP 0x10 in bits 7:0, CRC_EN 0 in bit 8 (R200, R201). -/
theorem test_decode_cptRle : decode [0b00000000000000000000000000010000#32] = .ok (.cptRle false, []) := by decide

/-- CPT_LZH: OP 0x11 in bits 7:0, CRC_EN 1 in bit 8 (R200, R201). -/
theorem test_decode_cptLzh : decode [0b00000000000000000000000100010001#32] = .ok (.cptLzh true, []) := by decide

/-- HQX_DETECT: OP 0x20 in bits 7:0, CRC_EN 0 in bit 8 (R200, R201). -/
theorem test_decode_hqxDetect : decode [0b00000000000000000000000000100000#32] = .ok (.hqxDetect false, []) := by decide

/-- HQX_FILE: OP 0x21 in bits 7:0, CRC_EN 1 in bit 8 (R200, R201). -/
theorem test_decode_hqxFile : decode [0b00000000000000000000000100100001#32] = .ok (.hqxFile true, []) := by decide

/-- HQX_WRAP: OP 0x22 in bits 7:0, CRC_EN 0 in bit 8 (R200, R201). -/
theorem test_decode_hqxWrap : decode [0b00000000000000000000000000100010#32] = .ok (.hqxWrap false, []) := by decide

/-- BIN_DETECT: OP 0x30 in bits 7:0, CRC_EN 1 in bit 8 (R200, R201). -/
theorem test_decode_binDetect : decode [0b00000000000000000000000100110000#32] = .ok (.binDetect true, []) := by decide

/-- BIN_FILE: OP 0x31 in bits 7:0, CRC_EN 0 in bit 8 (R200, R201). -/
theorem test_decode_binFile : decode [0b00000000000000000000000000110001#32] = .ok (.binFile false, []) := by decide

/-- BIN_WRAP: OP 0x32 in bits 7:0, CRC_EN 1 in bit 8 (R200, R201). -/
theorem test_decode_binWrap : decode [0b00000000000000000000000100110010#32] = .ok (.binWrap true, []) := by decide

/-- CRC_XMODEM: OP 0x40 in bits 7:0, CRC_EN 0 in bit 8 (R200, R201). -/
theorem test_decode_crcXmodem : decode [0b00000000000000000000000001000000#32] = .ok (.crcXmodem false, []) := by decide

/-- CRC_ARC: OP 0x41 in bits 7:0, CRC_EN 1 in bit 8 (R200, R201). -/
theorem test_decode_crcArc : decode [0b00000000000000000000000101000001#32] = .ok (.crcArc true, []) := by decide

/-- RESERVED_OP: 0x12 is the first reserved OP (R202). -/
theorem test_decode_reservedOp : decode [0b00000000000000000000000100010010#32] = .ok (.reservedOp 0x12 true, []) := by decide

/-- RESERVED_BITS: bit 9, the lowest reserved bit, over OP 0x05 (vector CMD-3); and bit 31, the highest. -/
theorem test_decode_reservedBits :
    decode [0b00000000000000000000001000000101#32, 7] = .ok (.reservedBits 1 false 0x05, [7]) ∧
    decode [0b10000000000000000000000000000000#32] = .ok (.reservedBits 0x400000 false 0x00, []) := by decide

/-- A row of the table given by 32 bits decodes; a width no command word has does not. -/
theorem test_decodeTableWord : decodeTableWord 32 0x10F = some (.sitArs true) ∧ decodeTableWord 64 0x10F = none := by decide

/-! ### One step per command -/

/-- Vector RAW-2: CRC_EN = 1 and the CRC matches. -/
theorem test_sitRaw_copies :
    ends (startedWith 1024 (bytesOf [0x41, 0x42, 0x43]) 3 0x4521 0x100) 0x00000002
      (bytesOf [0x41, 0x42, 0x43]) 0x4521 = true := by
  decide +kernel

/-- Vector RAW-6: one byte too few. The read past the end leaves the cursor where it was (20_memory.md R163). -/
theorem test_sitRaw_truncated :
    endsIn (startedWith 1024 (bytesOf [0x41, 0x42]) 3 0x0 0x000) (fun t =>
      t.regs.status == 0x00300204 && t.regs.outCount == 0 &&
        t.seq == { phase := .idle, outCount := 2, bpos := 2, bitpos := 0 }) = true := by
  decide +kernel

/-- Vector RLE-1. -/
theorem test_sitRle90_runs :
    ends (startedWith 1024 (bytesOf [0x41, 0x42, 0x42, 0x90, 0x05, 0x90, 0x00, 0x43]) 9 0x0 0x001) 0x00000002
      (bytesOf [0x41, 0x42, 0x42, 0x42, 0x42, 0x42, 0x42, 0x90, 0x43]) 0x0E35 = true := by
  decide +kernel

/-- Vector RLE-5: 90 00 leaves last at 0x41. -/
theorem test_sitRle90_escape_keeps_last :
    ends (startedWith 1024 (bytesOf [0x41, 0x90, 0x00, 0x90, 0x03]) 4 0x0 0x001) 0x00000002
      (bytesOf [0x41, 0x90, 0x41, 0x41]) 0x71E4 = true := by
  decide +kernel

/-- Vector LZW-1. -/
theorem test_sitLzw_kwkwk :
    ends (startedWith 1024 (bytesOf [0x41, 0x84, 0x04, 0x1C, 0x08]) 7 0x0 0x002) 0x00000002
      (bytesOf [0x41, 0x42, 0x41, 0x42, 0x41, 0x42, 0x41]) 0xD5D6 = true := by
  decide +kernel

/-- Vector LZW-5: a clear that ends its 8-code block skips nothing. -/
theorem test_sitLzw_clear_at_block_end :
    ends (startedWith 1024 (bytesOf [0x41, 0x84, 0x0C, 0x21, 0x52, 0xC4, 0xC8, 0x11, 0x80, 0x48, 0x00]) 8 0x0 0x002) 0x00000002
      (bytesOf [0x41, 0x42, 0x43, 0x44, 0x45, 0x46, 0x47, 0x48]) 0x1B9E = true := by
  decide +kernel

/-- SIT_UNSUP_M3 ends with FEA_METHOD, also with no input and OUT_LEN 0 (R311; vectors CMD-4 to CMD-6). -/
theorem test_sitUnsupM3 :
    ends (startedWith 1024 (bytesOf []) 0 0x0 0x003) 0x00580504
      (bytesOf []) 0x0000 = true := by
  decide +kernel

/-- SIT_UNSUP_M4 ends with FEA_METHOD, also with no input and OUT_LEN 0 (R311; vectors CMD-4 to CMD-6). -/
theorem test_sitUnsupM4 :
    ends (startedWith 1024 (bytesOf []) 0 0x0 0x004) 0x00580504
      (bytesOf []) 0x0000 = true := by
  decide +kernel

/-- SIT_UNSUP_M5 ends with FEA_METHOD, also with no input and OUT_LEN 0 (R311; vectors CMD-4 to CMD-6). -/
theorem test_sitUnsupM5 :
    ends (startedWith 1024 (bytesOf []) 0 0x0 0x005) 0x00580504
      (bytesOf []) 0x0000 = true := by
  decide +kernel

/-- SIT_UNSUP_M6 ends with FEA_METHOD, also with no input and OUT_LEN 0 (R311; vectors CMD-4 to CMD-6). -/
theorem test_sitUnsupM6 :
    ends (startedWith 1024 (bytesOf []) 0 0x0 0x006) 0x00580504
      (bytesOf []) 0x0000 = true := by
  decide +kernel

/-- SIT_UNSUP_M7 ends with FEA_METHOD, also with no input and OUT_LEN 0 (R311; vectors CMD-4 to CMD-6). -/
theorem test_sitUnsupM7 :
    ends (startedWith 1024 (bytesOf []) 0 0x0 0x007) 0x00580504
      (bytesOf []) 0x0000 = true := by
  decide +kernel

/-- SIT_UNSUP_M8 ends with FEA_METHOD, also with no input and OUT_LEN 0 (R311; vectors CMD-4 to CMD-6). -/
theorem test_sitUnsupM8 :
    ends (startedWith 1024 (bytesOf []) 0 0x0 0x008) 0x00580504
      (bytesOf []) 0x0000 = true := by
  decide +kernel

/-- SIT_UNSUP_M9 ends with FEA_METHOD, also with no input and OUT_LEN 0 (R311; vectors CMD-4 to CMD-6). -/
theorem test_sitUnsupM9 :
    ends (startedWith 1024 (bytesOf []) 0 0x0 0x009) 0x00580504
      (bytesOf []) 0x0000 = true := by
  decide +kernel

/-- SIT_UNSUP_M10 ends with FEA_METHOD, also with no input and OUT_LEN 0 (R311; vectors CMD-4 to CMD-6). -/
theorem test_sitUnsupM10 :
    ends (startedWith 1024 (bytesOf []) 0 0x0 0x00A) 0x00580504
      (bytesOf []) 0x0000 = true := by
  decide +kernel

/-- SIT_UNSUP_M11 ends with FEA_METHOD, also with no input and OUT_LEN 0 (R311; vectors CMD-4 to CMD-6). -/
theorem test_sitUnsupM11 :
    ends (startedWith 1024 (bytesOf []) 0 0x0 0x00B) 0x00580504
      (bytesOf []) 0x0000 = true := by
  decide +kernel

/-- SIT_UNSUP_M12 ends with FEA_METHOD, also with no input and OUT_LEN 0 (R311; vectors CMD-4 to CMD-6). -/
theorem test_sitUnsupM12 :
    ends (startedWith 1024 (bytesOf []) 0 0x0 0x00C) 0x00580504
      (bytesOf []) 0x0000 = true := by
  decide +kernel

/-- SIT_UNSUP_M14 ends with FEA_METHOD, also with no input and OUT_LEN 0 (R311; vectors CMD-4 to CMD-6). -/
theorem test_sitUnsupM14 :
    ends (startedWith 1024 (bytesOf []) 0 0x0 0x00E) 0x00580504
      (bytesOf []) 0x0000 = true := by
  decide +kernel

/-- Vector M13-1a. -/
theorem test_sitM13_dynamic :
    ends (startedWith 1024 (bytesOf [0x08, 0xBF, 0x0D, 0xE0, 0xF5, 0xFF, 0xFF, 0xFF, 0x7F, 0xF0, 0xFA, 0x65, 0xF0, 0xBA, 0x3E, 0xEA, 0x16]) 7 0x0 0x00D) 0x00000002
      (bytesOf [0x41, 0x42, 0x41, 0x42, 0x41, 0x42, 0x41]) 0xD5D6 = true := by
  decide +kernel

/-- 46_method13.md R664's example: command 33 at running length 0. -/
theorem test_sitM13_lengths_error :
    ends (startedWith 1024 (bytesOf [0x08, 0x0F]) 1 0x0 0x00D) 0x00670604
      (bytesOf []) 0x0000 = true := by
  decide +kernel

/-- Vector ARS-1 with CRC_EN = 1 and a wrong EXP_CRC: no check is made. -/
theorem test_sitArs_banana :
    ends (startedWith 1024 (bytesOf [0x42, 0xC1, 0xC5, 0x40, 0xF2, 0x3C, 0x7E, 0x25, 0xFA, 0x64, 0xBE, 0xD0, 0x00, 0x00]) 6 0x1234 0x10F) 0x00000002
      (bytesOf [0x62, 0x61, 0x6E, 0x61, 0x6E, 0x61]) 0x0000 = true := by
  decide +kernel

/-- Vector ARS-5 [ARS_RAND_TEST]. -/
theorem test_sitArs_randomised :
    ends (startedWith 1024 (bytesOf [0x42, 0xC1, 0xC6, 0x79, 0x65, 0x8D, 0xFD, 0x49, 0x5A, 0xF3, 0x51, 0xC0, 0x00, 0x00]) 6 0x0 0x00F) 0x00000002
      (bytesOf [0x62, 0x61, 0x6E, 0x61, 0x6E, 0x61]) 0x0000 = true := by
  decide +kernel

/-- Vector CRLE-10. -/
theorem test_cptRle_escapes :
    ends (startedWith 1024 (bytesOf [0x41, 0x81, 0x82, 0x05, 0x81, 0x81, 0x82, 0x00, 0x42]) 9 0x0 0x010) 0x00000002
      (bytesOf [0x41, 0x41, 0x41, 0x41, 0x41, 0x81, 0x81, 0x82, 0x42]) 0x0000 = true := by
  decide +kernel

/-- Vector CRLE-12. -/
theorem test_cptRle_truncated :
    ends (startedWith 1024 (bytesOf [0x41, 0x81, 0x82]) 3 0x0 0x010) 0x00300204
      (bytesOf []) 0x0000 = true := by
  decide +kernel

/-- Vector LZH-1a. -/
theorem test_cptLzh_overlap :
    ends (startedWith 1024 (bytesOf ([0x32] ++ List.replicate 48 0x00 ++ [0x01, 0x22, 0x03, 0x00, 0x01, 0x01, 0x01, 0x11, 0xB7, 0x41, 0xF0])) 9 0x0 0x011) 0x00000002
      (bytesOf [0x61, 0x62, 0x63, 0x61, 0x62, 0x63, 0x61, 0x62, 0x63]) 0x0000 = true := by
  decide +kernel

/-- Vector LZH-1b. The 6-bit read that does not fit leaves the bit cursor one bit before the end (20_memory.md R163). -/
theorem test_cptLzh_end_of_stream :
    endsIn (startedWith 1024 (bytesOf ([0x32] ++ List.replicate 48 0x00 ++ [0x01, 0x22, 0x03, 0x00, 0x01, 0x01, 0x01, 0x11, 0xB7, 0x41, 0xF0])) 10 0x0 0x011)
      (fun t => t.regs.status == 0x00310204 && t.regs.outCount == 0 &&
        t.seq == { phase := .idle, outCount := 9, bpos := 0, bitpos := 479 }) = true := by
  decide +kernel

/-- Vector HQD-1. -/
theorem test_hqxDetect_match :
    endsIn (startedWith 0 (ascii "xx(This file must be converted with BinHex 4.0)") 0 0 0x20)
      (fun t => t.regs.status == 2 && t.regs.result == 1) = true := by
  decide +kernel

/-- Vector HQD-3: 39 bytes. Whatever U_HQX held, it is at its job-start values (40_job_control.md R302). -/
theorem test_hqxDetect_no_match :
    endsIn { startedWith 0 (ascii "(This file must be converted with BinHe") 0 0 0x20 with units := Config.freeUnits 0 }
      (fun t => t.regs.status == 2 && t.regs.result == 0 && t.units.hqx == {}) = true := by
  decide +kernel

/-- The characters of a BinHex body that need escaping in a string, by their codes: the "Hi" file (95_test_vectors.md 2.5). -/
def hiBody : List Byte := ascii "!NKT!&4&@&4dG(Kd3B3!!!!&!!!!!2j9D'9XE'r$BJ!!"

/-- The text around a body: the preamble's line, a line break and the opening colon before it, `tail` after it. -/
def hqxInput (body tail : List Byte) : List Byte := preamble ++ ascii " 4.0)" ++ ([0x0D, 0x3A] ++ body ++ tail)

/-- The text of the "Hi" file. -/
def hiText : List Byte := hqxInput hiBody [0x3A, 0x0D]

/-- Vector HQX-1. -/
theorem test_hqxFile_hi :
    endsIn (startedWith 5 hiText 0 0 0x21) (fun t =>
      t.regs.status == 2 && t.out.slice .out 0 5 == ascii "hello" && t.regs.outCount == 5 && t.regs.mdType == 0x54455854 &&
      t.regs.mdCreator == 0x74747874 && t.regs.mdFlags == 0x0100 && t.name.slice .name 0 3 == bytesOf [0x48, 0x69, 0x00]) =
      true := by
  decide +kernel

/-- Vector HQX-3: OUT_CAP = 4. -/
theorem test_hqxFile_no_room : ends (startedWith 4 hiText 0 0 0x21) 0x00100704 [] 0 = true := by
  decide +kernel

/-- Vector HQX-2: the data fork only, and no metadata. -/
theorem test_hqxWrap_hi :
    endsIn (startedWith 5 hiText 0 0 0x22) (fun t =>
      t.regs.status == 2 && t.out.slice .out 0 5 == ascii "hello" && t.regs.dataLen == 0 && t.regs.mdNameLen == 0) = true := by
  decide +kernel

/-- Vector HQX-E8: raw `90 01`. -/
theorem test_hqxWrap_rle01 :
    ends (startedWith 5 (preamble ++ ascii " 4.0)" ++ [0x0D, 0x3A] ++ ascii "N!%:") 0 0 0x22) 0x00620604 [] 0 = true := by
  decide +kernel

/-- The header H1 of 95_test_vectors.md 2.6, with byte 82 and the two CRC bytes given. -/
def headerH1 (b82 crcHi crcLo : Nat) : List Byte :=
  bytesOf ([0x00, 0x02, 0x48, 0x69] ++ List.replicate 61 0 ++ [0x54, 0x45, 0x58, 0x54, 0x74, 0x74, 0x78, 0x74, 0x01] ++
    List.replicate 8 0 ++ [b82, 0, 0, 0, 0x05] ++ List.replicate 37 0 ++ [crcHi, crcLo, 0, 0])

/-- Vector MB-1. -/
theorem test_binDetect_match :
    endsIn (startedWith 0 (headerH1 0 0x59 0x7B) 0 0 0x30) (fun t => t.regs.status == 2 && t.regs.result == 1) = true := by
  decide +kernel

/-- Vector MB-5: a wrong CRC with byte 82 set. Whatever U_MACB held, it holds the header and nothing derived from it (R302; 10_state.md
R83). -/
theorem test_binDetect_no_match :
    endsIn { startedWith 0 (headerH1 1 0x59 0x7B) 0 0 0x30 with units := Config.freeUnits 0 }
      (fun t => t.regs.status == 2 && t.regs.result == 0 && t.units.macb == { header := headerH1 1 0x59 0x7B }) = true := by
  decide +kernel

/-- Vector MB-3: a wrong CRC accepted as MacBinary I. -/
theorem test_binFile_macbinary1 :
    endsIn (startedWith 64 (headerH1 0 0x59 0x7A ++ ascii "hello") 0 0 0x31) (fun t =>
      t.regs.status == 2 && t.out.slice .out 0 5 == ascii "hello" && t.regs.result == 2 && t.regs.mdFlags == 0 &&
      t.regs.dataLen == 5 && t.name.slice .name 0 3 == bytesOf [0x48, 0x69, 0x00]) = true := by
  decide +kernel

/-- Vector MB-8: the data fork is cut short. -/
theorem test_binFile_truncated :
    ends (startedWith 64 (headerH1 0 0x59 0x7B ++ ascii "hell") 0 0 0x31) 0x00300204 [] 0 = true := by
  decide +kernel

/-- The input of vector MB-7: H2, "hello", padding, "rsrc". -/
def inputMb7 : List Byte :=
  bytesOf ([0x00, 0x02, 0x48, 0x69] ++ List.replicate 61 0 ++ [0x54, 0x45, 0x58, 0x54, 0x74, 0x74, 0x78, 0x74, 0x01] ++
    List.replicate 12 0 ++ [0x05, 0, 0, 0, 0x04] ++ List.replicate 33 0 ++ [0x09, 0xAD, 0, 0]) ++
  ascii "hello" ++ List.replicate 123 0 ++ ascii "rsrc"

/-- The input of vector MB-9: H3, a data fork with a StuffIt signature, padding, "rsrc". -/
def inputMb9 : List Byte :=
  bytesOf ([0x00, 0x02, 0x48, 0x69] ++ List.replicate 61 0 ++ [0x53, 0x49, 0x54, 0x21, 0x53, 0x49, 0x54, 0x21, 0x00] ++
    List.replicate 12 0 ++ [0x0E, 0, 0, 0, 0x04] ++ List.replicate 33 0 ++ [0xEF, 0xA9, 0, 0]) ++
  ascii "SIT!" ++ List.replicate 6 0 ++ ascii "rLau" ++ List.replicate 114 0 ++ ascii "rsrc"

/-- Vector MB-7: the resource fork. -/
theorem test_binWrap_resource_fork :
    endsIn (startedWith 64 inputMb7 0 0 0x32) (fun t =>
      t.regs.status == 2 && t.out.slice .out 0 4 == ascii "rsrc" && t.regs.outCount == 4 && t.regs.result == 4) = true := by
  decide +kernel

/-- Vector MB-9: the data fork, which has a signature. -/
theorem test_binWrap_data_fork :
    endsIn (startedWith 64 inputMb9 0 0 0x32) (fun t =>
      t.regs.status == 2 && t.regs.outCount == 14 && t.out.slice .out 0 4 == ascii "SIT!" && t.regs.result == 0) = true := by
  decide +kernel

/-- 41_common.md R355's example. -/
theorem test_crcXmodem_check_value :
    ends (startedWith 1024 (bytesOf [0x31, 0x32, 0x33, 0x34, 0x35, 0x36, 0x37, 0x38, 0x39]) 0 0x0 0x040) 0x00000002
      (bytesOf []) 0x31C3 = true := by
  decide +kernel

/-- 41_common.md R356's example. -/
theorem test_crcArc_check_value :
    ends (startedWith 1024 (bytesOf [0x31, 0x32, 0x33, 0x34, 0x35, 0x36, 0x37, 0x38, 0x39]) 0 0x0 0x041) 0x00000002
      (bytesOf []) 0xBB3D = true := by
  decide +kernel

/-- Vector CMD-1. -/
theorem test_reservedOp :
    ends (startedWith 1024 (bytesOf []) 0 0x0 0x012) 0x00010804
      (bytesOf []) 0x0000 = true := by
  decide +kernel

/-- Vector CMD-3: the reserved bits are checked before the OP. -/
theorem test_reservedBits :
    ends (startedWith 1024 (bytesOf []) 0 0x0 0x205) 0x00020804
      (bytesOf []) 0x0000 = true := by
  decide +kernel

/-! ### The host's side -/

/-- The program of 30_encoding.md R204's statements for vector RAW-1: seven accesses, one engine turn, and STATUS = DONE. -/
theorem test_host_program :
    (match Sys2Proof.core.run 9 { idleWith 16 [] 0 0 (hostProgram [.load 0 (ascii "ABC"), .wr 0x08 3, .wr 0x0C 3,
        .cmd (.sitRaw false), .go, .poll]) with host := hostProgram [.load 0 (ascii "ABC"), .wr 0x08 3, .wr 0x0C 3,
        .cmd (.sitRaw false), .go, .poll, .rd 0x1C] } with
      | .next t => (t.regs.status, t.out.slice .out 0 3, t.host)
      | _ => (0, [], [])) = ((2 : Word), ascii "ABC", [.regRead 0x14 4, .regRead 0x1C 4]) := by
  decide +kernel

/-- A read of the reserved offset 0x3C returns 0, and an access by address reaches the same register (20_memory.md R152). -/
theorem test_reserved_read :
    step (idleWith 0 [] 0 0 [.bus 0x3C .readWord]) = step (idleWith 0 [] 0 0 [.regRead 0x3C 4]) := by
  rfl

/-- A word read by address gives the four bytes of IN in the bus's order, the lowest address first here (20_memory.md R156,
R166); and a word write stores them so. -/
theorem test_wide_accesses :
    endsIn (idleWith 0 (bytesOf [1, 2, 3, 4]) 0 0 [.bus 0x1000 .readWord]) (fun t => t.readData == .word 0x04030201) = true ∧
      endsIn (idleWith 0 [] 0 0 [.bus 0x1001 (.writeWord 0x11223344)])
        (fun t => t.inn.slice .inn 1 4 == bytesOf [0x44, 0x33, 0x22, 0x11]) = true := by
  decide +kernel

/-! ### Witnesses: states and operands that meet the hypotheses of the statements -/

theorem witness_step_and_invariant :
    (startedWith 8 (ascii "AB") 2 0 0x000).Inv ∧ ∃ t, step (startedWith 8 (ascii "AB") 2 0 0x000) = .next t :=
  ⟨⟨by decide +kernel, by decide +kernel, by decide +kernel, by decide +kernel, by decide +kernel⟩, _, rfl⟩

/-- StepRunsDecodedCommand, with the host waiting and with nothing pending. -/
theorem witness_StepRunsDecodedCommand :
    let s := startedWith 8 (ascii "AB") 2 0 0x100
    s.seq.phase = .run ∧ s.host.head? = some .wait ∧ { s with host := [] }.host = [] ∧ s.inTouched = false ∧
      decode [latchWord s.latch] = .ok (.sitRaw true, []) := by
  decide +kernel

/-- StartLatchesAndClears and CtrlWrite with a start; CtrlWrite and InterruptOutput with IRQ_EN alone and with 0. -/
theorem witness_CtrlWrite :
    let s (v : Word) := idleWith 8 [] 0 0 [.regWrite 0x00 4 v]
    (s 3).host = .regWrite 0x00 4 3 :: [] ∧ (s 3).busy = false ∧ (3 : Word).getLsbD 0 = true ∧
      (s 2).host = .regWrite 0x00 4 2 :: [] ∧ (2 : Word).getLsbD 0 = false ∧
      (s 0).host = .regWrite 0x00 4 0 :: [] ∧ (0 : Word).getLsbD 1 = false := by
  decide +kernel

theorem witness_HostProgramRunsCommand :
    let s := idleWith 8 (ascii "AB") 2 0 (hostProgram [.cmd (.sitRaw false), .go, .poll])
    Instr.wf (.sitRaw false) = true ∧ s.busy = false ∧ s.seq.phase = .idle ∧
      s.host = hostProgram [.cmd (.sitRaw false), .go, .poll] := by
  decide +kernel

/-- WritesDuringAJob: each of the four registers, and CTRL with START. -/
theorem witness_WritesDuringAJob :
    let s (off : Nat) : State := { startedWith 8 [] 0 0 0 with host := [.regWrite off 4 1] }
    (∀ off ∈ [0x04, 0x08, 0x0C, 0x10, 0x00], (s off).busy = true ∧ (s off).host = .regWrite off 4 1 :: []) ∧
      (1 : Word).getLsbD 0 = true := by
  decide +kernel

/-- ReservedAndReadOnlyOffsets: writes at the ends of both ranges, reads of an idle and of a busy block at the ends of theirs, and
the same by address. -/
theorem witness_ReservedAndReadOnlyOffsets :
    (∀ off ∈ [0x14, 0x38, 0x3C, 0xFC], off % 4 = 0 ∧ 0x14 ≤ off ∧ off ≤ 0xFC ∧
      (idleWith 8 [] 0 0 [.regWrite off 4 1]).host = .regWrite off 4 1 :: []) ∧
    (∀ off ∈ [0x00, 0x14, 0x18, 0x38, 0x3C, 0xFC], off % 4 = 0 ∧ off ≤ 0xFC ∧
      (let s : State := { startedWith 8 [] 0 0 0 with host := [.regRead off 4] }
       s.busy = true ∧ s.host = .regRead off 4 :: []) ∧
      (let s := idleWith 8 [] 0 0 [.regRead off 4]
       s.busy = false ∧ s.host = .regRead off 4 :: []) ∧
      locate (cfgTest 8) off = .reg off) ∧
    (idleWith 8 [] 0 0 [.bus 0xFC .readWord]).host = .bus 0xFC .readWord :: [] ∧
    (idleWith 8 [] 0 0 [.bus 0xFC (.writeWord 1)]).host = .bus 0xFC (.writeWord 1) :: [] ∧ 0x3C ≤ 0xFC := by
  decide +kernel

/-- AccessesOutsideTheInterface: a byte access of REG, a misaligned word, the first offset past REG, accesses that run past each
memory's end; by address, accesses that begin in REG, run from IN into REG's window right behind it, run from OUT into no window, and
begin in none. -/
theorem witness_AccessesOutsideTheInterface :
    let behind : Config := { cfgTest 8 with regBase := 0x1400 }
    ((1 : Nat) ≠ 4 ∨ 0x04 % 4 ≠ 0) ∧ ((4 : Nat) ≠ 4 ∨ 0x06 % 4 ≠ 0) ∧
      (∀ a : HostAct, (idleWith 8 [] 0 0 [a]).host = a :: [] ∧ { idleWith 8 [] 0 0 [a] with cfg := behind }.host = a :: []) ∧
      (0x100 % 4 = 0 ∧ 0x100 ≤ 0x100) ∧
      (∀ p ∈ [(ByteSpace.inn, 1024, 1), (.inn, 1022, 4), (.out, 8, 1), (.out, 7, 2), (.name, 256, 1), (.name, 300, 0)],
        spaceSize (cfgTest 8) p.1 < p.2.1 + p.2.2) ∧
      (locate (cfgTest 8) 0x04 = .reg 0x04 ∧ (∀ op ∈ [BusOp.readBytes 1, .writeBytes [1, 2], .writeBytes []], op.size ≠ 4) ∧
        locate (cfgTest 8) 0x06 = .reg 0x06) ∧
      (∀ op ∈ [BusOp.readWord, .writeWord 1, .readBytes 3, .writeBytes [1, 2, 3]], 2 < op.size) ∧
      (∀ l < 2, locate behind (0x13FE + l) = .byte .inn (0x3FE + l) ∧ locate (cfgTest 8) (0x2006 + l) = .byte .out (6 + l)) ∧
      locate behind (0x13FE + 2) = .reg 0 ∧ locate (cfgTest 8) (0x2006 + 2) = .nothing ∧
      locate (cfgTest 8) (0x100 + 0) = .nothing ∧ ¬ ∃ l, l < 0 :=
  ⟨by decide, by decide, fun _ => ⟨rfl, rfl⟩, by decide, by decide +kernel, by decide +kernel, by decide, by decide +kernel,
    by decide +kernel, by decide +kernel, by decide +kernel, fun ⟨l, h⟩ => Nat.not_lt_zero l h⟩

/-- PowerOnResetDuringAJob: a reset during a job, and an access that is neither a reset nor a wait. -/
theorem witness_PowerOnResetDuringAJob :
    let s (a : HostAct) : State := { startedWith 8 [] 0 0 0 with host := [a] }
    (s .powerOn).host = .powerOn :: [] ∧ (s .powerOn).seq.phase = .run ∧
      (s (.regRead 0x14 4)).seq.phase = .run ∧ (s (.regRead 0x14 4)).busy = true ∧
      (s (.regRead 0x14 4)).host = .regRead 0x14 4 :: [] ∧ HostAct.regRead 0x14 4 ≠ .powerOn ∧
      HostAct.regRead 0x14 4 ≠ .wait ∧ endsIn (s (.regRead 0x14 4)) (fun _ => true) = true := by
  decide +kernel

/-- InterruptOutput, JobChangesOnlyItsOutput and ResultRegistersByCommand: a command that ends with DONE. -/
theorem witness_command_done :
    ∃ t, exec (.sitRaw false) (startedWith 8 (ascii "AB") 2 0 0) = .next t ∧ t.endedDone :=
  ⟨_, rfl, by decide +kernel⟩

/-- StatusFields: a state of the invariant, and one whose STATUS is an error's. -/
theorem witness_StatusFields :
    Err.trnEof ∈ Err.raisable ∧ (raiseError { err := .trnEof } (idleWith 8 [] 0 0 [])).regs.status = Err.trnEof.status := by
  decide +kernel

/-- NothingCarriesOver: two states that agree on what the job reads and differ in OUT, NAME, the units and beyond the input. -/
theorem witness_NothingCarriesOver :
    let s := startedWith 8 (ascii "AB") 2 0 0
    let s' : State := { s with
      out := s.out.write 0 7, name := s.name.write 0 7, inn := s.inn.write 2 7, units := Config.freeUnits 0 }
    s.cfg = s'.cfg ∧ s.latch = s'.latch ∧ (∀ a < s.latch.inLen.toNat, s.inn.read .inn a = s'.inn.read .inn a) ∧
      ∃ t t', exec (.sitRaw false) s = .next t ∧ exec (.sitRaw false) s' = .next t' ∧ t.endedDone :=
  ⟨rfl, rfl, by decide +kernel, _, _, rfl, rfl, by decide +kernel⟩

/-- InputWrittenDuringAJob: a write that reaches the last index of IN, and the engine's turn after it. -/
theorem witness_InputWrittenDuringAJob :
    let s : State := { startedWith 8 (ascii "AB") 2 0 0 with host := [.memWrite .inn 1022 [7, 8]] }
    let s' : State := { s with inTouched := true, host := [] }
    s.busy = true ∧ ([7, 8] : List Byte) ≠ [] ∧ 1022 + ([7, 8] : List Byte).length ≤ s.cfg.inCap ∧
      s.host = .memWrite .inn 1022 [7, 8] :: [] ∧ s'.seq.phase = .run ∧ s'.inTouched = true ∧ s'.host = [] := by
  decide +kernel

/-- LoadFillsInput: a load that reaches the last index; wide accesses that reach it, of a busy block too; and their addresses. -/
theorem witness_LoadFillsInput :
    (let s := idleWith 8 [] 0 0 (loadActs 1022 (ascii "AB"))
     s.busy = false ∧ s.host = loadActs 1022 (ascii "AB") ∧ 1022 + (ascii "AB").length ≤ s.cfg.inCap) ∧
      (∀ a : HostAct, (idleWith 8 [] 0 0 [a]).host = a :: [] ∧ (idleWith 8 [] 0 0 [a]).busy = false ∧
        { startedWith 8 [] 0 0 0 with host := [a] }.busy = true) ∧
      (∀ p ∈ [(ByteSpace.inn, 1020), (.out, 4), (.name, 252)], p.2 + 4 ≤ spaceSize (cfgTest 8) p.1) ∧
      (bytesOf [1, 2, 3, 4]).length = 4 ∧
      ∀ j < 4, locate (cfgTest 8) (0x1000 + 1020 + j) = .byte .inn (1020 + j) ∧
        locate (cfgTest 8) (0x2004 + j) = .byte .out (4 + j) ∧ locate (cfgTest 8) (0x30FC + j) = .byte .name (252 + j) :=
  ⟨by decide +kernel, fun _ => ⟨rfl, (by decide +kernel : (idleWith 8 [] 0 0 []).busy = false),
    (by decide +kernel : (startedWith 8 [] 0 0 0).busy = true)⟩, by decide +kernel, rfl, by decide +kernel⟩

/-- CheckCommandOrder: each of the five checks fails first in some state, at the ends of the ranges. -/
theorem witness_CheckCommandOrder :
    (startedWith 8 [] 0 0 0x212).latch.rsvd ≠ 0 ∧ isReservedOp (startedWith 8 [] 0 0 0x12).latch.op = true ∧
      (let s := { startedWith 8 [] 0 0 0x03 with latch := latchOf { Regs.powerOn with cmd := 0x03, inLen := 1025 } }
       s.cfg.inCap < s.latch.inLen.toNat ∧ decode [latchWord s.latch] = .ok (.sitUnsupM3 false, [])) ∧
      (∀ op ∈ [0x03, 0x0C, 0x0E], (startedWith 8 [] 0 0 op).latch.op.toNat = op ∧
        (startedWith 8 [] 0 0 op).latch.inLen.toNat ≤ 1024) ∧
      (startedWith 8 [] 9 0 0x11).latch.op.toNat ≤ 0x11 ∧
      (startedWith 8 [] 9 0 0x11).cfg.outCap < (startedWith 8 [] 9 0 0x11).latch.outLen.toNat := by
  decide +kernel

/-- UnsupportedMethods: IN_LEN at IN_CAP. -/
theorem witness_UnsupportedMethods : (startedWith 8 (List.replicate 1024 0) 0 0 0x03).inputFits := by decide +kernel

/-- CrcEnableReaches: a command of each kind, and jobs that end with DONE with EXP_CRC right and wrong, and with an error. -/
theorem witness_CrcEnableReaches :
    ∃ t u v, exec (.sitRaw false) (startedWith 8 (ascii "AB") 2 0x61B0 0) = .next t ∧ t.endedDone ∧ t.regs.crcOut = 0x61B0 ∧
      exec (.sitRaw false) (startedWith 8 (ascii "AB") 2 0 0) = .next u ∧ u.endedDone ∧ u.regs.crcOut ≠ 0 ∧
      exec (.sitRaw false) (startedWith 8 (ascii "AB") 3 0 0) = .next v ∧ ¬ v.endedDone :=
  ⟨_, _, _, rfl, by decide +kernel, by decide +kernel, rfl, by decide +kernel, by decide +kernel, rfl, by decide +kernel⟩

/-- DecodeEncodeRoundTrip: both reserved rows are well-formed somewhere. -/
theorem witness_DecodeEncodeRoundTrip :
    Instr.wf (.reservedOp 0xFF true) = true ∧ Instr.wf (.reservedBits 0x7FFFFF true 0xFF) = true ∧
      Instr.wf (.crcArc true) = true := by
  decide

/-- CrcXmodemCommand, CrcArcCommand, HqxDetect, BinDetect, BinFile, BinWrap: a whole MacBinary file (vector MB-1's header and
its data fork), and the empty input. -/
theorem witness_input_fits :
    let bs := headerH1 0 0x59 0x7B ++ ascii "hello"
    let s := startedWith 64 bs 0 0 0x31
    s.inputIs bs ∧ s.inputFits ∧ fieldsFault bs = none ∧ ¬ ForkCut bs (dataStart bs) (dataLength bs) ∧
      dataLength bs + rsrcLength bs ≤ s.cfg.outCap ∧ (startedWith 64 [] 0 0 0x40).inputIs [] := by
  decide +kernel

/-- SitRawCopies at OUT_LEN = IN_LEN and one above. -/
theorem witness_SitRawCopies :
    let s (n : Nat) := startedWith 8 (ascii "AB") n 0 0
    ((s 2).inputIs (ascii "AB") ∧ (s 2).forkFits ∧ (s 2).latch.outLen.toNat ≤ (ascii "AB").length) ∧
      (s 3).inputIs (ascii "AB") ∧ (s 3).forkFits ∧ (ascii "AB").length < (s 3).latch.outLen.toNat := by
  decide +kernel

/-- SitRle90Decodes at the length of the expansion and one above, on vector RLE-1. -/
theorem witness_SitRle90Decodes :
    let bs := bytesOf [0x41, 0x42, 0x42, 0x90, 0x05, 0x90, 0x00, 0x43]
    let s (n : Nat) := startedWith 16 bs n 0 1
    rle90 0 bs = bytesOf [0x41, 0x42, 0x42, 0x42, 0x42, 0x42, 0x42, 0x90, 0x43] ∧
      ((s 9).inputIs bs ∧ (s 9).forkFits ∧ (s 9).latch.outLen.toNat ≤ (rle90 0 bs).length) ∧
      (s 10).inputIs bs ∧ (s 10).forkFits ∧ (rle90 0 bs).length < (s 10).latch.outLen.toNat := by
  decide +kernel

/-- CptRleDecodes at the length of the expansion and one above, on vector CRLE-10. -/
theorem witness_CptRleDecodes :
    let bs := bytesOf [0x41, 0x81, 0x82, 0x05, 0x81, 0x81, 0x82, 0x00, 0x42]
    let s (n : Nat) := startedWith 16 bs n 0 0x10
    rle81 false 0 bs = bytesOf [0x41, 0x41, 0x41, 0x41, 0x41, 0x81, 0x81, 0x82, 0x42] ∧
      ((s 9).inputIs bs ∧ (s 9).forkFits ∧ (s 9).latch.outLen.toNat ≤ (rle81 false 0 bs).length) ∧
      (s 10).inputIs bs ∧ (s 10).forkFits ∧ (rle81 false 0 bs).length < (s 10).latch.outLen.toNat := by
  decide +kernel

/-- SitLzwDecodesCodes on vector LZW-1, whose last code is the next free entry. -/
theorem witness_SitLzwDecodesCodes :
    let bs := bytesOf [0x41, 0x84, 0x04, 0x1C, 0x08]
    let codes := [65, 66, 257, 259]
    let s := startedWith 16 bs 7 0 2
    s.inputIs bs ∧ s.forkFits ∧ (∀ j < codes.length, codes.getD j 0 < 2 ^ lzwWidth j ∧ codes.getD j 0 ≠ 256) ∧
      HoldsLsb bs 0 (lzwBits 0 codes) ∧ lzwDecode [] none codes = some (ascii "ABABABA") ∧
      s.latch.outLen.toNat ≤ (ascii "ABABABA").length := by
  decide +kernel

/-- SitLzwClearRestarts on vectors LZW-4 (the clear is the 3rd code of its block) and LZW-5 (the 8th). -/
theorem witness_SitLzwClearRestarts :
    (let bs := bytesOf [0x41, 0x84, 0x00, 0x04, 0x00, 0x00, 0x00, 0x00, 0x00, 0x43, 0x88, 0x00]
     let s := startedWith 16 bs 4 0 2
     s.inputIs bs ∧ s.forkFits ∧ HoldsLzwRuns bs 0 [[65, 66], [67, 68]] ∧
       [[65, 66], [67, 68]].mapM (lzwDecode [] none) = some [ascii "AB", ascii "CD"] ∧
       s.latch.outLen.toNat ≤ [ascii "AB", ascii "CD"].flatten.length) ∧
    (let bs := bytesOf [0x41, 0x84, 0x0C, 0x21, 0x52, 0xC4, 0xC8, 0x11, 0x80, 0x48, 0x00]
     HoldsLzwRuns bs 0 [[65, 66, 67, 68, 69, 70, 71], [72]] ∧ lzwSkip 7 = 0) := by
  unfold HoldsLzwRuns HoldsLzwRuns
  decide +kernel

/-- SitLzwClearRestarts with two clears, each the first code after a reset: the codes of vector LZW-6, with the zero byte that
R603 needs and the vector lacks (log 27). -/
theorem witness_SitLzwClearRestarts_two_clears :
    let bs := bytesOf ([0x00, 0x01] ++ List.replicate 8 0x00 ++ [0x01] ++ List.replicate 7 0x00 ++ [0x41, 0x00])
    let s := startedWith 16 bs 1 0 2
    s.inputIs bs ∧ s.forkFits ∧
      (∀ codes ∈ [[], [], [65]], ∀ j < codes.length, codes.getD j 0 < 2 ^ lzwWidth j ∧ codes.getD j 0 ≠ 256) ∧
      HoldsLzwRuns bs 0 [[], [], [65]] ∧ [[], [], [65]].mapM (lzwDecode [] none) = some [[], [], ascii "A"] ∧
      s.latch.outLen.toNat ≤ ([[], [], ascii "A"] : List (List Byte)).flatten.length := by
  unfold HoldsLzwRuns HoldsLzwRuns HoldsLzwRuns
  decide +kernel

/-- 256 zero codes at 9 bits, and then a clear read at 10 bits. -/
def lzwWideClear : List Byte := List.replicate 289 0 ++ bytesOf [0x01] ++ List.replicate 8 0 ++ bytesOf [0x41, 0x00]

/-- Bits that stand one after another stand together. -/
theorem holdsLsb_append {bs : List Byte} {k : Nat} {a b : List Bool} (ha : HoldsLsb bs k a) (hb : HoldsLsb bs (k + a.length) b) :
    HoldsLsb bs k (a ++ b) := by
  refine ⟨by have := hb.1; rw [List.length_append]; omega, fun j hj => ?_⟩
  rw [List.length_append] at hj
  by_cases h : j < a.length
  · rw [ha.2 j h, List.getD_append _ _ _ _ h]
  · have := hb.2 (j - a.length) (by omega)
    rw [List.getD_append_right _ _ _ _ (by omega), ← this]
    congr 1
    omega

/-- Zero bytes at the start hold zero bits. -/
theorem holdsLsb_zeros {n m : Nat} (rest : List Byte) (h : m ≤ 8 * n) :
    HoldsLsb (List.replicate n 0 ++ rest) 0 (List.replicate m false) := by
  refine ⟨by simp; omega, fun j hj => ?_⟩
  rw [List.length_replicate] at hj
  have hd : j / 8 < n := by omega
  rw [streamBitLsb, Nat.zero_add, List.getD_append _ _ _ _ (by simpa using hd), List.getD_replicate _ hd,
    List.getD_replicate _ hj]
  exact BitVec.getLsbD_zero

/-- SitLzwClearRestarts with a clear read at 10 bits, whose skip is of 10 bits a code too. -/
theorem witness_SitLzwClearRestarts_wide_clear :
    lzwSkip 256 = 70 ∧ HoldsLzwRuns lzwWideClear 0 [List.replicate 256 0, [65]] := by
  refine ⟨by decide +kernel, ?_⟩
  unfold HoldsLzwRuns HoldsLzwRuns
  have hbits : lzwBits 0 (List.replicate 256 0 ++ [256]) = List.replicate 2304 false ++ bitsLsb 10 256 := by decide +kernel
  rw [hbits]
  have h0 : HoldsLsb lzwWideClear 0 (List.replicate 2304 false) := by
    rw [lzwWideClear, List.append_assoc, List.append_assoc]
    exact holdsLsb_zeros _ (by decide)
  exact ⟨holdsLsb_append h0 (by decide +kernel), by decide +kernel⟩

/-- SitLzwBadCode: 257 as the first code, 258 after one code (vector LZW-8) and after one code behind a clear (vector LZW-4 with its
last code changed), each one above the next free entry; a cut code (vector LZW-E1), and an input that ends in a clear's skip. -/
theorem witness_SitLzwBadCode :
    (let bs := bytesOf [0x01, 0x01]
     let s := startedWith 16 bs 1 0 2
     s.inputIs bs ∧ s.forkFits ∧ 256 + 0 < 257 ∧ 257 < 2 ^ lzwWidth 0 ∧ HoldsLzwRuns bs 0 ([] ++ [[] ++ [257]]) ∧
       ([] ++ [[]]).mapM (lzwDecode [] none) = some [[]] ∧ 0 < s.latch.outLen.toNat) ∧
    (let bs := bytesOf [0x41, 0x04, 0x02]
     let s := startedWith 16 bs 3 0 2
     s.inputIs bs ∧ s.forkFits ∧ 256 + 1 < 258 ∧ 258 < 2 ^ lzwWidth 1 ∧ HoldsLzwRuns bs 0 ([] ++ [[65] ++ [258]]) ∧
       ([] ++ [[65]]).mapM (lzwDecode [] none) = some [ascii "A"] ∧ 1 < s.latch.outLen.toNat) ∧
    (let bs := bytesOf [0x41, 0x84, 0x00, 0x04, 0x00, 0x00, 0x00, 0x00, 0x00, 0x43, 0x04, 0x02]
     HoldsLzwRuns bs 0 ([[65, 66]] ++ [[67] ++ [258]]) ∧
       ([[65, 66]] ++ [[67]]).mapM (lzwDecode [] none) = some [ascii "AB", ascii "C"]) ∧
    (let bs := bytesOf [0x41, 0x84, 0x00]
     HoldsLzwRuns bs 0 ([] ++ [[65, 66]]) ∧ 8 * bs.length < lzwEnd 0 ([] ++ [[65, 66]]) + lzwWidth 2 ∧
       ([] ++ [[65, 66]]).mapM (lzwDecode [] none) = some [ascii "AB"]) ∧
    (let bs := bytesOf [0x41, 0x84, 0x00, 0x04]
     HoldsLzwRuns bs 0 ([[65, 66]] ++ [[]]) ∧ lzwEnd 0 ([[65, 66]] ++ [[]]) = 72 ∧ 8 * bs.length < 72 + lzwWidth 0) := by
  simp only [List.nil_append, List.cons_append]
  unfold HoldsLzwRuns HoldsLzwRuns
  decide +kernel

/-- HuffmanDecodesCanonicalCodewords on vector HUF-1's `110` in both bit orders, and on a tree of one symbol; the dead prefixes `11` of
a tree whose codewords are `0` and `100`, and `1` of vector HUF-4's. -/
theorem witness_HuffmanDecodesCanonicalCodewords :
    (KraftOk 3 [2, 1, 3, 3] ∧ [2, 1, 3, 3].getD 2 0 ≠ 0 ∧ codewordBits [2, 1, 3, 3] 2 = [true, true, false] ∧
      HoldsLsb (bytesOf [0x03]) 0 (codewordBits [2, 1, 3, 3] 2) ∧ HoldsMsb (bytesOf [0xC0]) 0 (codewordBits [2, 1, 3, 3] 2) ∧
      KraftOk 1 [0, 1] ∧ [0, 1].getD 1 0 ≠ 0 ∧ ∀ l < 2, l ≠ 1 → [0, 1].getD l 0 = 0) ∧
    (KraftOk 3 [1, 3] ∧ [1, 3].getD 1 0 ≠ 0 ∧ (∃ l, l ≠ 1 ∧ [1, 3].getD l 0 ≠ 0) ∧
      [true, true].dropLast <+: codewordBits [1, 3] 1 ∧
      (∀ l, [1, 3].getD l 0 ≠ 0 →
        ¬ [true, true] <+: codewordBits [1, 3] l ∧ ¬ codewordBits [1, 3] l <+: [true, true]) ∧
      HoldsLsb (bytesOf [0x18]) 3 [true, true] ∧ HoldsMsb (bytesOf [0x18]) 3 [true, true]) ∧
    ([true].dropLast <+: codewordBits [0, 1] 1 ∧
      ∀ l, [0, 1].getD l 0 ≠ 0 → ¬ [true] <+: codewordBits [0, 1] l ∧ ¬ codewordBits [0, 1] l <+: [true]) := by
  have two (a b : Nat) (p : Nat → Prop) (h0 : p 0) (h1 : p 1) (l : Nat) (h : [a, b].getD l 0 ≠ 0) : p l :=
    match l with
    | 0 => h0
    | 1 => h1
    | _ + 2 => absurd rfl h
  exact ⟨by decide +kernel, ⟨by decide +kernel, by decide, ⟨0, by decide, by decide⟩, by decide +kernel,
    two 1 3 (fun l => ¬ [true, true] <+: codewordBits [1, 3] l ∧ ¬ codewordBits [1, 3] l <+: [true, true]) (by decide +kernel)
      (by decide +kernel), by decide +kernel, by decide +kernel⟩,
    by decide +kernel, fun l h => by
      have : l = 1 := two 0 1 (fun l => [0, 1].getD l 0 ≠ 0 → l = 1) (fun h => absurd rfl h) (fun _ => rfl) l h h
      subst this
      decide +kernel⟩

/-- OversubscribedListsAreRefused on vector HUF-3, and on a full list one shorter. -/
theorem witness_OversubscribedListsAreRefused :
    (∀ l ∈ [1, 1, 1], l ≤ 1) ∧ ¬ KraftOk 1 [1, 1, 1] ∧ (∀ l ∈ [1, 1], l ≤ 1) ∧ KraftOk 1 [1, 1] ∧ ∀ l ∈ [0, 0], l = 0 := by
  decide +kernel

/-- WindowHoldsTheOutput: the window before any output, and one byte later at the largest distance. -/
theorem witness_WindowHoldsTheOutput :
    WindowHolds [] 8 0 [] ∧ WindowHolds [(7, 0x41)] 8 0 [0x41] ∧ 1 ≤ 8 ∧ 8 ≤ 8 := by
  refine ⟨⟨by decide, fun d _ _ => ?_⟩, ⟨by decide, fun d h1 h2 => ?_⟩, by decide, by decide⟩
  · rw [List.length_nil, List.getD_nil]
    split <;> rfl
  · have : d = 1 ∨ d = 2 ∨ d = 3 ∨ d = 4 ∨ d = 5 ∨ d = 6 ∨ d = 7 ∨ d = 8 := by omega
    rcases this with rfl | rfl | rfl | rfl | rfl | rfl | rfl | rfl <;> rfl

/-- SitM13PredefinedTrees: A, B and a match of length 5 at distance 2 in the trees of `treesTest`. -/
theorem witness_SitM13PredefinedTrees :
    let bs := bytesOf [0x50, 0x3A]
    let toks := [M13Token.lit 65, .lit 66, .copy 258 0 1 0]
    let s := startedWith 16 bs 7 0 0x0D
    let p := treesTest
    s.inputIs bs ∧ s.forkFits ∧ bs.head? = some 0x50 ∧ 1 ≤ (0x50 : Byte).toNat / 16 ∧ (0x50 : Byte).toNat / 16 ≤ 5 ∧
      s.cfg.m13Predef.toList[(0x50 : Byte).toNat / 16 - 1]? = some p ∧ PrefixCode p.t1 ∧ PrefixCode p.t2 ∧
      PrefixCode p.td ∧ (∀ tok ∈ toks, m13TokenOk tok = true) ∧
      m13TokenBits p.t1 p.t2 p.td p.t1 toks = some [false, true, false, true, true, true] ∧
      HoldsLsb bs 8 [false, true, false, true, true, true] ∧ toks.foldl m13Append [] = ascii "ABABABA" ∧
      s.latch.outLen.toNat ≤ (ascii "ABABABA").length := by
  decide +kernel

/-- Trees A = `0`, 258 = `10`, 320 = `11` and one distance symbol. -/
def treesEnd : TreeSet :=
  let t : Tree := [{ sym := 65, len := 1, bits := 0 }, { sym := 258, len := 2, bits := 2 }, { sym := 320, len := 2, bits := 3 }]
  { t1 := t, t2 := t, td := [{ sym := 0, len := 2, bits := 0 }, { sym := 1, len := 1, bits := 1 }] }

/-- SitM13PredefinedTrees where the tokens are too few: symbol 320 after 'A', and an input that ends inside a match, behind its length
symbol, with six literals before it. -/
theorem witness_SitM13PredefinedTrees_ends :
    let s (bs : List Byte) (n : Nat) : State :=
      { startedWith 16 bs n 0 0x0D with cfg := { cfgTest 16 with m13Predef := Vector.replicate 5 treesEnd } }
    let p := treesEnd
    (PrefixCode p.t1 ∧ PrefixCode p.td ∧ (s [] 0).cfg.m13Predef.toList[(0x10 : Byte).toNat / 16 - 1]? = some p) ∧
    (let bs := bytesOf [0x10, 0x06]
     (s bs 2).inputIs bs ∧ (s bs 2).forkFits ∧ ([M13Token.lit 65].foldl m13Append []).length < (s bs 2).latch.outLen.toNat ∧
       m13TokenBits p.t1 p.t2 p.td p.t1 [.lit 65] = some [false] ∧
       symbolBits (m13Active p.t1 p.t2 [.lit 65]) 320 = some [true, true] ∧ HoldsLsb bs 8 ([false] ++ [true, true])) ∧
    (let bs := bytesOf [0x10, 0x40]
     let toks := List.replicate 6 (M13Token.lit 65)
     (s bs 7).inputIs bs ∧ (s bs 7).forkFits ∧ (toks.foldl m13Append []).length < (s bs 7).latch.outLen.toNat ∧
       m13TokenBits p.t1 p.t2 p.td p.t1 toks = some (List.replicate 6 false) ∧ m13TokenOk (.copy 258 0 1 0) = true ∧
       m13TokenBits p.t1 p.t2 p.td (m13Active p.t1 p.t2 toks) [.copy 258 0 1 0] = some [true, false, true] ∧
       [true, false] <+: [true, false, true] ∧ [true, false] ≠ [true, false, true] ∧
       HoldsLsb bs 8 (List.replicate 6 false ++ [true, false]) ∧
       8 + (List.replicate 6 false ++ [true, false]).length = 8 * bs.length) := by
  decide +kernel

/-- M13ReadsLengthLists: a list that is accepted and ends with command 36, one that is oversubscribed, and lists that end with
commands 34 and 35. -/
theorem witness_M13ReadsLengthLists :
    MetaPrefixCode (cfgTest 0) ∧
      (let cmds := [(0, 0), (31, 0), (36, 0)]
       (∀ q ∈ cmds, q.1 ≤ 36 ∧ q.2 < 2 ^ m13CommandBits q.1) ∧
         m13LengthList 0 cmds = some (1 :: List.replicate 12 0) ∧ KraftOk 32 (1 :: List.replicate 12 0) ∧
         HoldsLsb (bytesOf [0xE0, 0xFA, 0x01]) 0 (m13CommandListBits (cfgTest 0) cmds) ∧
         cmds.getLast? = some (36, 0)) ∧
      (let cmds := [(0, 0), (0, 0), (0, 0)]
       m13LengthList 0 cmds = some [1, 1, 1] ∧ ¬ KraftOk 32 [1, 1, 1] ∧
         HoldsLsb (bytesOf [0, 0]) 0 (m13CommandListBits (cfgTest 0) cmds)) ∧
      (m13LengthList 0 [(0, 0), (34, 1)] = some [1, 1, 1] ∧ 1 < 2 ^ m13CommandBits 34 ∧
        HoldsLsb (bytesOf [0xE0, 0x0D]) 0 (m13CommandListBits (cfgTest 0) [(0, 0), (34, 1)])) ∧
      m13LengthList 0 [(35, 0)] = some [0, 0, 0] ∧
        HoldsLsb (bytesOf [0x1F, 0x00]) 0 (m13CommandListBits (cfgTest 0) [(35, 0)]) := by
  decide +kernel

/-- The commands of vector M13-1's first tree and of its distance tree. -/
def cmdsM131 : List (Nat × Nat) × List (Nat × Nat) :=
  ([(36, 54), (0, 0), (1, 0), (31, 0), (36, 63), (36, 63), (36, 31), (1, 0), (31, 0), (36, 50)],
    [(0, 0), (34, 0), (31, 0), (35, 4)])

/-- The length lists they give. -/
def lensM131 : List Nat × List Nat :=
  (List.replicate 65 0 ++ [1, 2] ++ List.replicate 191 0 ++ [2] ++ List.replicate 62 0, [1, 1] ++ List.replicate 8 0)

/-- The input of vector M13-1. -/
def inputM131 : List Byte :=
  bytesOf [0x08, 0xBF, 0x0D, 0xE0, 0xF5, 0xFF, 0xFF, 0xFF, 0x7F, 0xF0, 0xFA, 0x65, 0xF0, 0xBA, 0x3E, 0xEA, 0x16]

/-- The command bits of its trees. -/
def treesM131 : List Bool :=
  m13CommandListBits (cfgTest 16) cmdsM131.1 ++ m13CommandListBits (cfgTest 16) [] ++ m13CommandListBits (cfgTest 16) cmdsM131.2

/-- SitM13DynamicTrees on vector M13-1, whose one shared tree has S = 1, with enough output and, its last byte cut off, one byte
short of it. -/
theorem witness_SitM13DynamicTrees :
    let toks := [M13Token.lit 65, .lit 66, .copy 258 0 1 0]
    let bits := [false, true, false, true, true, true]
    let s := startedWith 16 inputM131 7 0 0x0D
    let t := canonicalTree lensM131.1
    s.inputIs inputM131 ∧ s.forkFits ∧ inputM131.head? = some 0x08 ∧ (0x08 : Byte).toNat / 16 = 0 ∧ s.cfg = cfgTest 16 ∧
      MetaPrefixCode (cfgTest 16) ∧ (∀ q ∈ cmdsM131.1 ++ [] ++ cmdsM131.2, q.1 ≤ 36 ∧ q.2 < 2 ^ m13CommandBits q.1) ∧
      m13LengthList 0 cmdsM131.1 = some lensM131.1 ∧ lensM131.1.length = 321 ∧ KraftOk 32 lensM131.1 ∧
      (0x08 : Byte).getLsbD 3 = true ∧ m13LengthList 0 cmdsM131.2 = some lensM131.2 ∧
      lensM131.2.length = (0x08 : Byte).toNat % 8 + 10 ∧ KraftOk 32 lensM131.2 ∧ HoldsLsb inputM131 8 treesM131 ∧
      (∀ tok ∈ toks, m13TokenOk tok = true) ∧ m13TokenBits t t (canonicalTree lensM131.2) t toks = some bits ∧
      HoldsLsb inputM131 (8 + treesM131.length) bits ∧ s.latch.outLen.toNat ≤ (toks.foldl m13Append []).length ∧
      (let bs := inputM131.take 16
       let s := startedWith 16 bs 8 0 0x0D
       s.inputIs bs ∧ (toks.foldl m13Append []).length < s.latch.outLen.toNat ∧
         m13TokenBits t t (canonicalTree lensM131.2) (m13Active t t toks) [.lit 65] = some [false] ∧ [] ≠ [false] ∧
         HoldsLsb bs (8 + treesM131.length) (bits ++ []) ∧ 8 + treesM131.length + (bits ++ []).length = 8 * bs.length) := by
  decide +kernel

/-- SitM13DynamicTrees with the input cut off inside its trees, right behind the header byte and at the last byte boundary. -/
theorem witness_SitM13DynamicTrees_cut :
    ∀ n ∈ [1, 15], (startedWith 16 (inputM131.take n) 0 0 0x0D).inputIs (inputM131.take n) ∧
      treesM131.take (8 * n - 8) <+: treesM131 ∧ treesM131.take (8 * n - 8) ≠ treesM131 ∧
      HoldsLsb (inputM131.take n) 8 (treesM131.take (8 * n - 8)) ∧
      8 + (treesM131.take (8 * n - 8)).length = 8 * (inputM131.take n).length := by
  decide +kernel

/-- SitM13DynamicTrees' clause on symbol 320: vector M13-E1, 'A' and then that symbol. -/
theorem witness_SitM13DynamicTrees_sym320 :
    let bs := bytesOf [0x08, 0xBF, 0x0D, 0xAE, 0xFF, 0xFF, 0xFF, 0xFF, 0xFF, 0x29, 0x00, 0xAE, 0xAF, 0x02, 0x14]
    let cmds1 := [(36, 54), (0, 0), (31, 0), (36, 63), (36, 63), (36, 63), (36, 20), (0, 0)]
    let cmdsD := [(0, 0), (31, 0), (35, 5)]
    let lens1 := List.replicate 65 0 ++ [1] ++ List.replicate 254 0 ++ [1]
    let lensD := 1 :: List.replicate 9 0
    let trees := m13CommandListBits (cfgTest 16) cmds1 ++ m13CommandListBits (cfgTest 16) cmdsD
    let t := canonicalTree lens1
    let s := startedWith 16 bs 5 0 0x0D
    s.inputIs bs ∧ s.forkFits ∧ m13LengthList 0 cmds1 = some lens1 ∧ lens1.length = 321 ∧ KraftOk 32 lens1 ∧
      m13LengthList 0 cmdsD = some lensD ∧ KraftOk 32 lensD ∧ HoldsLsb bs 8 trees ∧
      m13TokenBits t t (canonicalTree lensD) t [.lit 65] = some [false] ∧ symbolBits (m13Active t t [.lit 65]) 320 = some [true] ∧
      HoldsLsb bs (8 + trees.length) ([false] ++ [true]) := by
  decide +kernel

/-- SitM13DynamicTrees with S = 0: two lists, each with the symbol 0 alone. -/
theorem witness_SitM13DynamicTrees_two_trees :
    let cmds := [(0, 0), (31, 0), (36, 63), (36, 63), (36, 63), (36, 63), (36, 12)]
    m13LengthList 0 cmds = some (1 :: List.replicate 320 0) ∧ (1 :: List.replicate 320 0).length = 321 ∧
      KraftOk 32 (1 :: List.replicate 320 0) ∧ (0x07 : Byte).getLsbD 3 = false := by
  decide +kernel

/-- SitM13HeaderSet at SET 6 and 15, and the empty input. -/
theorem witness_SitM13HeaderSet :
    (∀ h ∈ [(0x60 : Byte), 0xFF], (startedWith 8 [h] 0 0 0x0D).inputIs [h] ∧ (startedWith 8 [h] 0 0 0x0D).forkFits ∧
      6 ≤ h.toNat / 16) ∧ (startedWith 8 [] 0 0 0x0D).inputIs [] := by
  decide +kernel

/-- The "banana" stream of 47_arsenic.md R720. -/
def bananaStream : List Byte := bytesOf [0x42, 0xC1, 0xC5, 0x40, 0xF2, 0x3C, 0x7E, 0x25, 0xFA, 0x64, 0xBE, 0xD0, 0x00, 0x00]

/-- SitArsDecodesBanana at OUT_LEN 6 and 7. -/
theorem witness_SitArsDecodesBanana :
    let s (n : Nat) := startedWith 16 bananaStream n 0 0x0F
    (s 6).inputIs bananaStream ∧ (s 6).forkFits ∧ 512 ≤ (s 6).cfg.arsBlockCap ∧ (s 6).latch.outLen.toNat ≤ 6 ∧
      (s 7).inputIs bananaStream ∧ (s 7).forkFits ∧ 6 < (s 7).latch.outLen.toNat := by
  decide +kernel

/-- What a computation answers, or a value for the case that it does not. -/
def answer {ε α : Type} (d : α) : Except ε α → α
  | .ok a => a
  | .error _ => d

/-- A computation that answers answers its answer. -/
theorem eq_ok_answer {ε α : Type} (d : α) (x : Except ε α) (h : x.isOk = true) : x = .ok (answer d x) := by
  cases x with
  | ok a => rfl
  | error e => cases h

/-- The unit after the header of the "banana" stream. -/
def bananaStart : ArsUnit × Nat := answer (ArsUnit.blank, 0) (arsStart (2 ^ 24) bananaStream)

/-- The unit after its block. -/
def bananaBlock : ArsUnit × Nat :=
  answer (ArsUnit.blank, 0) (arsFetchBlock (cfgTest 16) bananaStream bananaStart.1 bananaStart.2)

/-- "nnbaaa" with index 3 is the transform of "banana" (47_arsenic.md R741's example). -/
theorem witness_bwt_of_banana : IsBwt (ascii "banana") (ascii "nnbaaa") 3 :=
  ⟨[ascii "abanan", ascii "anaban", ascii "ananab", ascii "banana", ascii "nabana", ascii "nanaba"], by decide +kernel,
    by decide +kernel, by decide +kernel, by decide +kernel⟩

/-- A block that is fetched from `p`, the text it holds, and the blocks after it, up to `r`. -/
theorem holdsArsBlocks_cons {bs text out : List Byte} {p q r : ArsUnit × Nat} {outs : List (List Byte)}
    (hq : q = answer (ArsUnit.blank, 0) (arsFetchBlock (cfgTest 16) bs p.1 p.2))
    (hf : (arsFetchBlock (cfgTest 16) bs p.1 p.2).isOk = true) (hl : q.1.len = text.length)
    (ht : text = [] ∨ IsBwt text q.1.buf q.1.prim)
    (ho : out =
      if q.1.randf = true then
        arsFlip (fun i => (cfgTest 16).arsRand.toList.getD i 0) 0 0 ((cfgTest 16).arsRand.toList.getD 0 0) text
      else text)
    (hr : HoldsArsBlocks (cfgTest 16) bs q.1 q.2 outs r.1 r.2) :
    HoldsArsBlocks (cfgTest 16) bs p.1 p.2 (out :: outs) r.1 r.2 :=
  ⟨q.1, q.2, text, hq ▸ eq_ok_answer (ArsUnit.blank, 0) _ hf, hl, ht, ho, hr⟩

/-- SitArsOneBlock on the "banana" stream, whose one block ends it. -/
theorem witness_SitArsOneBlock :
    let s := startedWith 16 bananaStream 6 0 0x0F
    (s.inputIs bananaStream ∧ s.forkFits ∧ s.cfg = cfgTest 16 ∧ (cfgTest 16).arsBlockCap = 2 ^ 24) ∧
      arsStart (2 ^ 24) bananaStream = .ok bananaStart ∧
      HoldsArsBlocks (cfgTest 16) bananaStream bananaStart.1 bananaStart.2 [ascii "banana"] bananaBlock.1 bananaBlock.2 ∧
      bananaBlock.1.eos = true ∧
      [ascii "banana"].length < arsFuel bananaStream ∧
      s.latch.outLen.toNat ≤ (arsExpand 0 0 [ascii "banana"].flatten).length := by
  have hb : bananaBlock.1.buf = ascii "nnbaaa" ∧ bananaBlock.1.prim = 3 := by decide +kernel
  refine ⟨by decide +kernel, eq_ok_answer (ArsUnit.blank, 0) (arsStart (2 ^ 24) bananaStream) (by decide +kernel), ?_,
    by decide +kernel, by decide +kernel, by decide +kernel⟩
  refine holdsArsBlocks_cons (q := bananaBlock) (r := bananaBlock) (text := ascii "banana") rfl (by decide +kernel) (by decide +kernel)
    (.inr (by rw [hb.1, hb.2]; exact witness_bwt_of_banana)) (by decide +kernel) ⟨rfl, rfl⟩

/-- Three blocks, made with an encoder from 47_arsenic.md's rules: "AAA", an empty one, and `41 02 42` randomised with
ARS_RAND_TEST, which flips its second byte. They stand for "AAAA", a count of 3, and "B". -/
def threeBlocks : List Byte :=
  bytesOf [0x42, 0xC1, 0xC3, 0x6F, 0x21, 0xC5, 0x87, 0xA3, 0x39, 0x3C, 0xC9, 0xFF, 0x5A, 0x1B, 0xC6, 0x70, 0x00, 0x00]

/-- The unit after the header of `threeBlocks`. -/
def threeStart : ArsUnit × Nat := answer (ArsUnit.blank, 0) (arsStart (2 ^ 24) threeBlocks)

/-- The unit after a block. -/
def threeFetch (p : ArsUnit × Nat) : ArsUnit × Nat :=
  answer (ArsUnit.blank, 0) (arsFetchBlock (cfgTest 16) threeBlocks p.1 p.2)

/-- The unit after the first block. -/
def threeFirst : ArsUnit × Nat := threeFetch threeStart

/-- The unit after the second block. -/
def threeSecond : ArsUnit × Nat := threeFetch threeFirst

/-- The unit after the third block. -/
def threeThird : ArsUnit × Nat := threeFetch threeSecond

/-- SitArsOneBlock on `threeBlocks`. The count that the run of four waits for comes from the block after the empty one. -/
theorem witness_SitArsOneBlock_three_blocks :
    let outs := [ascii "AAA", [], bytesOf [0x41, 0x03, 0x42]]
    arsStart (2 ^ 24) threeBlocks = .ok threeStart ∧
      HoldsArsBlocks (cfgTest 16) threeBlocks threeStart.1 threeStart.2 outs threeThird.1 threeThird.2 ∧ threeThird.1.eos = true ∧
      outs.length < arsFuel threeBlocks ∧ arsExpand 0 0 outs.flatten = ascii "AAAAAAAB" := by
  have h1 : threeFirst.1.buf = ascii "AAA" ∧ threeFirst.1.prim = 0 := by decide +kernel
  have h3 : threeThird.1.buf = bytesOf [0x41, 0x42, 0x02] ∧ threeThird.1.prim = 1 := by decide +kernel
  have b1 : IsBwt (ascii "AAA") (ascii "AAA") 0 :=
    ⟨[ascii "AAA", ascii "AAA", ascii "AAA"], by decide +kernel, by decide +kernel, by decide +kernel, by decide +kernel⟩
  have b3 : IsBwt (bytesOf [0x41, 0x02, 0x42]) (bytesOf [0x41, 0x42, 0x02]) 1 :=
    ⟨[bytesOf [0x02, 0x42, 0x41], bytesOf [0x41, 0x02, 0x42], bytesOf [0x42, 0x41, 0x02]], by decide +kernel,
      by decide +kernel, by decide +kernel, by decide +kernel⟩
  refine ⟨eq_ok_answer (ArsUnit.blank, 0) (arsStart (2 ^ 24) threeBlocks) (by decide +kernel), ?_, by decide +kernel,
    by decide +kernel, by decide +kernel⟩
  refine holdsArsBlocks_cons (q := threeFirst) (r := threeThird) (text := ascii "AAA") rfl (by decide +kernel) (by decide +kernel)
    (.inr (by rw [h1.1, h1.2]; exact b1)) (by decide +kernel) ?_
  refine holdsArsBlocks_cons (q := threeSecond) (r := threeThird) (text := []) rfl (by decide +kernel) (by decide +kernel) (.inl rfl)
    (by decide +kernel) ?_
  refine holdsArsBlocks_cons (q := threeThird) (r := threeThird) (text := bytesOf [0x41, 0x02, 0x42]) rfl (by decide +kernel) (by decide +kernel)
    (.inr (by rw [h3.1, h3.2]; exact b3)) (by decide +kernel) ⟨rfl, rfl⟩

/-- InverseBwtRecoversTheText on "banana". -/
theorem witness_InverseBwtRecoversTheText :
    let u : ArsUnit := { ArsUnit.blank with buf := ascii "nnbaaa", prim := 3, lfMap := arsLfMap (ascii "nnbaaa"), idx := 3 }
    IsBwt (ascii "banana") u.buf u.prim ∧ u.lfMap = arsLfMap u.buf ∧ u.idx = u.prim ∧ u.randf = false :=
  ⟨witness_bwt_of_banana, rfl, rfl, rfl⟩

/-- ArsDecoderKeepsItsRange: a decode that answers, and one that runs out of input. -/
theorem witness_ArsDecoderKeepsItsRange :
    ArsModelOk arsSelector ∧ ArsRangeOk (2 ^ 25) ∧ ArsRangeOk (2 ^ 24 + 1) ∧
      (arsDecode [0, 0, 0, 0] { range := 2 ^ 25, code := 0, pos := 26 } arsSelector).isOk = true ∧
      (match arsDecode [] { range := 2 ^ 25, code := 0, pos := 0 } arsSelector with
        | .error r => r.err
        | .ok _ => .trnEof) = .decUnderflow := by
  decide +kernel

/-- A symbol computation that answers the symbol `n` answers it. -/
theorem eq_ok_symbol {ε α : Type} (n : Nat) (d : Nat × α) (x : Except ε (Nat × α))
    (h : x.isOk = true ∧ (answer d x).1 = n) : x = .ok (n, (answer d x).2) := by
  cases x with
  | ok a => exact congrArg Except.ok (Prod.ext h.2 rfl)
  | error e => cases h.1

/-- A unit from which a run of selectors can be read: code and range as after a header, at bit 0 of an input of ones. -/
def selectorStart (len : Nat) : ArsUnit := { arsInit 3050399 with mtf := ascii "abc", len }

/-- The selectors it reads, one at a time. -/
def selectorRead (len : Nat) : Nat → ArsUnit × Nat
  | 0 => (selectorStart len, 0)
  | n + 1 =>
    (answer (0, ArsUnit.blank, 0) (arsSelectorSym (List.replicate 4 0xFF) (selectorRead len n).1 (selectorRead len n).2)).2

/-- MoveToFrontInverts: a text that just fits the block and one that is a byte too long; digits that make a run of 3, which just
fits and is a byte too long. -/
theorem witness_MoveToFrontInverts :
    (let u (len : Nat) : ArsUnit := { ArsUnit.blank with mtf := ascii "abc", len }
     (u 509).mtf.Nodup ∧ (∀ b ∈ ascii "cab", b ∈ (u 509).mtf) ∧ (u 509).len + (ascii "cab").length ≤ arsBlockSize (u 509) ∧
       arsBlockSize (u 510) < (u 510).len + (ascii "cab").length ∧ (u 510).len ≤ arsBlockSize (u 510)) ∧
      (∀ len ∈ [509, 510], ReadsSelectors (List.replicate 4 0xFF) (selectorStart len) 0 ([0] ++ [10])
        (selectorRead len 2).1 (selectorRead len 2).2) ∧
      zeroRunLength (0 :: [0]) = 3 ∧ ¬ arsBlockSize (selectorStart 509) < 509 + 3 ∧ arsBlockSize (selectorStart 510) < 510 + 3 ∧
      [0].length + 2 ≤ arsFuel (List.replicate 4 (0xFF : Byte)) := by
  have h (len : Nat) (h0 : _) (h1 : _) : ReadsSelectors (List.replicate 4 0xFF) (selectorStart len) 0 ([0] ++ [10])
      (selectorRead len 2).1 (selectorRead len 2).2 :=
    ⟨(selectorRead len 1).1, (selectorRead len 1).2, eq_ok_symbol 0 (0, ArsUnit.blank, 0) _ h0, (selectorRead len 2).1,
      (selectorRead len 2).2, eq_ok_symbol 10 (0, ArsUnit.blank, 0) _ h1, rfl, rfl⟩
  refine ⟨by decide +kernel, fun len hl => ?_, by decide +kernel, by decide +kernel, by decide +kernel, by decide +kernel⟩
  rcases List.mem_pair.1 hl with rfl | rfl
  · exact h 509 (by decide +kernel) (by decide +kernel)
  · exact h 510 (by decide +kernel) (by decide +kernel)

/-- The four fields of a header, each decoded at the place where the one before it ended. -/
def headerFields (bs : List Byte) : List Nat :=
  let field (n : Nat) (p : ArsUnit × Nat) := answer (0, ArsUnit.blank, 0) (arsField bs n p.1 p.2)
  let a := field 8 (arsInit (bitsBE bs 0 26), 26)
  let b := field 8 a.2
  let c := field 4 b.2
  [a.1, b.1, c.1, (field 1 c.2).1]

/-- SitArsHeaderErrors: an input of three bytes; vector ARS-E1, whose first field is not 0x41; the empty stream, whose fields are
right and whose end-of-stream flag is 1, with the block buffer one byte short and with room; and four bytes, whose fields run
out of input. -/
theorem witness_SitArsHeaderErrors :
    let bs := bytesOf [0x42, 0xC1, 0xC6, 0xA3, 0xFD, 0xE8]
    let s (bs : List Byte) (n cap : Nat) : State :=
      { startedWith 8 bs n 0 0x0F with cfg := { cfgTest 8 with arsBlockCap := cap } }
    (∀ b ∈ [bytesOf [0, 0, 0], bytesOf [0x2D, 0x6C, 0x6D, 0xDC, 0x87, 0x80], bs, bytesOf [0x42, 0xC1, 0xC6, 0xA3],
        bytesOf [0x42, 0xC1, 0xC4, 0xA3, 0xB8, 0xF4, 0xFE, 0x25, 0xFA, 0x64, 0xBE, 0xD0, 0x00, 0x00],
        bytesOf [0x42, 0xC1, 0xC3, 0x5C, 0xEA, 0x7F, 0x1C, 0xBD, 0x00, 0x00, 0x00]],
      ∀ n ≤ 1, ∀ cap ∈ [511, 512], (s b n cap).inputIs b ∧ (s b n cap).forkFits ∧
        ((s b n cap).cfg.arsBlockCap < 2 ^ (0 + 9) ↔ cap = 511) ∧ ((s b n cap).latch.outLen = 0 ↔ n = 0)) ∧
      (bytesOf [0, 0, 0]).length ≤ 3 ∧
      (headerFields (bytesOf [0x2D, 0x6C, 0x6D, 0xDC, 0x87, 0x80])).head? ≠ some 0x41 ∧
      headerFields bs = [0x41, 0x73, 0, 1] ∧
      headerFields (bytesOf [0x42, 0xC1, 0xC4, 0xA3, 0xB8, 0xF4, 0xFE, 0x25]) = [0x41, 0x73, 0, 0] ∧
      (arsField (bytesOf [0x42, 0xC1, 0xC6, 0xA3]) 8 (arsInit (bitsBE (bytesOf [0x42, 0xC1, 0xC6, 0xA3]) 0 26)) 26).isOk = false := by
  decide +kernel

/-- The unit and the cursor after the header of a stream. -/
def arsStarted (bs : List Byte) : ArsUnit × Nat := answer (ArsUnit.blank, 0) (arsStart (2 ^ 24) bs)

/-- The unit and the cursor after the header of a block. -/
def blockHeader (bs : List Byte) (p : ArsUnit × Nat) : ArsUnit × Nat :=
  let r := answer (0, ArsUnit.blank, 0) (arsField bs 1 p.1 p.2)
  let q := answer (0, ArsUnit.blank, 0) (arsField bs (p.1.blockExp + 9) r.2.1 r.2.2)
  ({ arsResetModels q.2.1 with randf := r.1 == 1, prim := q.1, mtf := (List.range 256).map (BitVec.ofNat 8) }, q.2.2)

/-- A block header whose fields can be read is read. -/
theorem readsArsHeader_blockHeader {bs : List Byte} {p : ArsUnit × Nat}
    (h : p.1.eos = false ∧ (arsField bs 1 p.1 p.2).isOk = true ∧
      (let r := answer (0, ArsUnit.blank, 0) (arsField bs 1 p.1 p.2)
       (arsField bs (p.1.blockExp + 9) r.2.1 r.2.2).isOk = true)) :
    ReadsArsHeader bs p.1 p.2 (blockHeader bs p).1 (blockHeader bs p).2 :=
  ⟨h.1, _, _, _, _, _, eq_ok_answer (0, ArsUnit.blank, 0) _ h.2.1, eq_ok_answer (0, ArsUnit.blank, 0) _ h.2.2, rfl⟩

/-- A number of selectors, read one after another, and the unit and the cursor behind them. -/
def readSelectors (bs : List Byte) : Nat → ArsUnit → Nat → Option (List Nat × ArsUnit × Nat)
  | 0, u, k => some ([], u, k)
  | n + 1, u, k =>
    match arsSelectorSym bs u k with
    | .error _ => none
    | .ok (sel, v, m) => (readSelectors bs n v m).map fun r => (sel :: r.1, r.2)

/-- They are the selectors that stand there. -/
theorem readsSelectors_of_readSelectors {bs : List Byte} {n : Nat} {u : ArsUnit} {k : Nat} {r : List Nat × ArsUnit × Nat}
    (h : readSelectors bs n u k = some r) : ReadsSelectors bs u k r.1 r.2.1 r.2.2 := by
  induction n generalizing u k r with
  | zero =>
    cases h
    exact ⟨rfl, rfl⟩
  | succ n ih =>
    rw [readSelectors] at h
    split at h
    · cases h
    · rename_i sel v m heq
      obtain ⟨q, hq, rfl⟩ := Option.map_eq_some_iff.1 h
      exact ⟨v, m, heq, ih hq⟩

/-- Selectors that are known to stand there, with some unit and cursor behind them. -/
theorem readsSelectors_exists {bs : List Byte} {u : ArsUnit} {k : Nat} (n : Nat) (sels : List Nat)
    (h : (readSelectors bs n u k).map (·.1) = some sels) : ∃ v k', ReadsSelectors bs u k sels v k' := by
  obtain ⟨r, hr, rfl⟩ := Option.map_eq_some_iff.1 h
  exact ⟨r.2.1, r.2.2, readsSelectors_of_readSelectors hr⟩

/-- SitArsHeaderErrors' clause on the primary index: vector ARS-E2, whose index is its block's length. -/
theorem witness_SitArsHeaderErrors_index :
    let bs := bytesOf [0x42, 0xC1, 0xC4, 0xA3, 0xB8, 0xF4, 0xFE, 0x25, 0xFA, 0x64, 0xBE, 0xD0, 0x00, 0x00]
    let p := arsStarted bs
    let q := blockHeader bs p
    arsStart (2 ^ 24) bs = .ok p ∧ HoldsArsBlocks (cfgTest 16) bs p.1 p.2 [] p.1 p.2 ∧ (arsExpand 0 0 []).length < 1 ∧
      ReadsArsHeader bs p.1 p.2 q.1 q.2 ∧
      ∃ x n y n', arsBlockData bs q.1 q.2 = .ok (x, n) ∧ arsFooter bs x n = .ok (y, n') ∧ 0 < x.len ∧ x.len ≤ q.1.prim := by
  intro bs p q
  refine ⟨eq_ok_answer (ArsUnit.blank, 0) _ (by decide +kernel), ⟨rfl, rfl⟩, by decide,
    readsArsHeader_blockHeader (by decide +kernel), ?_⟩
  exact ⟨(answer (ArsUnit.blank, 0) (arsBlockData bs q.1 q.2)).1, (answer (ArsUnit.blank, 0) (arsBlockData bs q.1 q.2)).2, _, _,
    eq_ok_answer (ArsUnit.blank, 0) _ (by decide +kernel), eq_ok_answer (ArsUnit.blank, 0) _ (by decide +kernel),
    by decide +kernel, by decide +kernel⟩

/-- SitArsHeaderErrors' clause on the block size, in a block of 512 bytes made with an encoder from 47_arsenic.md's rules: one byte by
its index, and then a zero run of 512. -/
theorem witness_SitArsHeaderErrors_run :
    let bs := bytesOf [0x42, 0xC1, 0xC3, 0x61, 0x5C, 0xDC, 0xA9, 0x22, 0xCD, 0x00, 0x00, 0x00]
    let p := arsStarted bs
    let q := blockHeader bs p
    arsStart (2 ^ 24) bs = .ok p ∧ ReadsArsHeader bs p.1 p.2 q.1 q.2 ∧ arsBlockSize q.1 = 512 ∧
      ∃ w m x n, arsSelectorSym bs q.1 q.2 = .ok (2, w, m) ∧ ReadsItems bs 2 w m [.index 1] 1 x n ∧
        [ArsItem.index 1].length < arsFuel bs ∧ (∀ ds, ArsItem.run ds ∈ [ArsItem.index 1] → ds.length < arsFuel bs) ∧
        ([ArsItem.index 1].map ArsItem.length).sum = 1 ∧ ArsOverflows bs (512 - 1) 1 x n := by
  intro bs p q
  let a := answer (0, ArsUnit.blank, 0) (arsSelectorSym bs q.1 q.2)
  let b := answer (0, ArsUnit.blank, 0) (arsSelectorSym bs a.2.1 a.2.2)
  obtain ⟨v, k', hv⟩ : ∃ v k', ReadsSelectors bs b.2.1 b.2.2 (List.replicate 8 0 ++ [10]) v k' :=
    readsSelectors_exists 9 _ (by decide +kernel)
  refine ⟨eq_ok_answer (ArsUnit.blank, 0) _ (by decide +kernel), readsArsHeader_blockHeader (by decide +kernel), by decide +kernel,
    a.2.1, a.2.2, b.2.1, b.2.2, eq_ok_symbol 2 (0, ArsUnit.blank, 0) _ (by decide +kernel), ?_, by decide +kernel, ?_, rfl, ?_⟩
  · exact ⟨a.2.1, a.2.2, 1, b.2.1, b.2.2, .inl ⟨rfl, rfl, rfl, rfl⟩, eq_ok_symbol 1 (0, ArsUnit.blank, 0) _ (by decide +kernel),
      rfl, rfl, rfl⟩
  · exact fun ds h => nomatch List.mem_singleton.1 h
  · exact .inl ⟨List.replicate 8 0, 10, v, k', by decide, by decide, by decide, by decide +kernel, hv, by decide⟩

/-- The same with a zero run of 512, which fills the block, and then a byte by its index. -/
theorem witness_SitArsHeaderErrors_full :
    let bs := bytesOf [0x42, 0xC1, 0xC3, 0x5E, 0xD9, 0x70, 0x48, 0x4C, 0xD0, 0x00, 0x00, 0x00]
    let p := arsStarted bs
    let q := blockHeader bs p
    let run := ArsItem.run (1 :: List.replicate 8 0)
    arsStart (2 ^ 24) bs = .ok p ∧ ReadsArsHeader bs p.1 p.2 q.1 q.2 ∧ arsBlockSize q.1 = 512 ∧ run.length = 512 ∧
      ∃ w m x n, arsSelectorSym bs q.1 q.2 = .ok (1, w, m) ∧ ReadsItems bs 1 w m [run] 3 x n ∧
        ArsOverflows bs (512 - 512) 3 x n := by
  intro bs p q run
  let a := answer (0, ArsUnit.blank, 0) (arsSelectorSym bs q.1 q.2)
  have hr : ((readSelectors bs 9 a.2.1 a.2.2).map fun r =>
      (r.1, (arsGroupSym bs (Fin.ofNat 7 (3 - 3)) r.2.1 r.2.2).isOk)) = some (List.replicate 8 0 ++ [3], true) := by
    decide +kernel
  obtain ⟨r, hr, he⟩ := Option.map_eq_some_iff.1 hr
  have hs := readsSelectors_of_readSelectors hr
  rw [show r.1 = List.replicate 8 0 ++ [3] from congrArg Prod.fst he] at hs
  refine ⟨eq_ok_answer (ArsUnit.blank, 0) _ (by decide +kernel), readsArsHeader_blockHeader (by decide +kernel), by decide +kernel,
    by decide +kernel, a.2.1, a.2.2, r.2.1, r.2.2, eq_ok_symbol 1 (0, ArsUnit.blank, 0) _ (by decide +kernel), ?_, ?_⟩
  · exact ⟨List.replicate 8 0, 3, r.2.1, r.2.2, rfl, by decide, by decide, hs, rfl, rfl, rfl⟩
  · exact .inr ⟨rfl, .inr ⟨by decide, by decide, _, _, _,
      eq_ok_answer (0, ArsUnit.blank, 0) _ (congrArg Prod.snd he)⟩⟩

/-- CptLzhDecodesOneBlock on vector LZH-1. -/
theorem witness_CptLzhDecodesOneBlock :
    let bs := bytesOf ([0x32] ++ List.replicate 48 0x00 ++ [0x01, 0x22, 0x03, 0x00, 0x01, 0x01, 0x01, 0x11, 0xB7, 0x41, 0xF0])
    let block : LzhBlock :=
      { lit := List.replicate 97 0 ++ [1, 2, 2], len := [0, 0, 0, 1, 0, 1], off := [1, 1]
        toks := [.lit 97, .lit 98, .lit 99, .copy 5 3, .lit 99] }
    let s := startedWith 16 bs 9 0 0x11
    s.inputIs bs ∧ s.forkFits ∧ HoldsLzhBlocks bs 0 [block] ∧
      rle81 false 0 (([block].flatMap LzhBlock.toks).foldl lzhAppend []) = ascii "abcabcabc" ∧ s.latch.outLen.toNat ≤ 9 := by
  unfold HoldsLzhBlocks HoldsLzhBlocks
  decide +kernel

/-- `m` literals of the byte 0, whose codeword is one bit; the other two tables are empty. -/
def zeroLiterals (m : Nat) : LzhBlock := { lit := [1, 0], len := [], off := [], toks := List.replicate m (.lit 0) }

/-- The bits of one of those literals, over and over. -/
theorem zeroLiterals_bits_getD (m j : Nat) (h : j < 2 * m) : (zeroLiterals m).bits.getD j false = (j % 2 == 0) := by
  induction m generalizing j with
  | zero => omega
  | succ m ih =>
    have hb : (zeroLiterals (m + 1)).bits = true :: false :: (zeroLiterals m).bits := by
      simp only [LzhBlock.bits, zeroLiterals, List.replicate_succ, List.flatMap_cons]
      rfl
    rw [hb]
    match j, h with
    | 0, _ => rfl
    | 1, _ => rfl
    | j + 2, h =>
      rw [List.getD_cons_succ, List.getD_cons_succ, ih j (by omega), Nat.add_mod_right]

/-- How many they are. -/
theorem zeroLiterals_bits_length (m : Nat) : (zeroLiterals m).bits.length = 2 * m := by
  induction m with
  | zero => rfl
  | succ m ih =>
    have hb : (zeroLiterals (m + 1)).bits = true :: false :: (zeroLiterals m).bits := by
      simp only [LzhBlock.bits, zeroLiterals, List.replicate_succ, List.flatMap_cons]
      rfl
    rw [hb, List.length_cons, List.length_cons, ih]
    omega

/-- What they cost. -/
theorem zeroLiterals_cost (m : Nat) : lzhCost (List.replicate m (.lit 0)) = 2 * m := by
  induction m with
  | zero => rfl
  | succ m ih =>
    simp only [lzhCost, List.replicate_succ, List.map_cons, List.sum_cons] at ih ⊢
    omega

/-- What they stand for. -/
theorem zeroLiterals_output (m : Nat) (acc : List Byte) :
    (List.replicate m (LzhToken.lit 0)).foldl lzhAppend acc = acc ++ List.replicate m 0 := by
  induction m generalizing acc with
  | zero => simp
  | succ m ih =>
    rw [List.replicate_succ, List.foldl_cons, ih, lzhAppend, List.append_assoc]
    rfl

/-- Zeros are no escapes. -/
theorem rle81_zeros (m : Nat) (saved : Byte) : rle81 false saved (List.replicate m 0) = List.replicate m 0 := by
  induction m generalizing saved with
  | zero => rfl
  | succ m ih => rw [List.replicate_succ, rle81, if_pos (by decide), ih]

/-- Their block's tables. -/
theorem zeroLiterals_tables (m : Nat) : (zeroLiterals m).tables = bytesOf [0x01, 0x10, 0x00, 0x00] := by
  simp only [LzhBlock.tables, zeroLiterals]
  decide

/-- The size of a block that ends after an even number of data bytes. -/
theorem zeroLiterals_size (n : Nat) (he : n % 2 = 0) : (zeroLiterals (4 * n)).size = n + 6 := by
  have h : (2 * (4 * n) + 7) / 8 = n := by omega
  simp only [LzhBlock.size, zeroLiterals_tables, zeroLiterals_bits_length, h, he]
  simp [bytesOf]
  omega

/-- A block of them is one where no token but the last reaches the cost limit. -/
theorem zeroLiterals_ok (m : Nat) (h : 2 * (m - 1) < 0x1FFF0) : (zeroLiterals m).ok := by
  refine ⟨(by decide : LzhTableOk 256 [1, 0]), (by decide : LzhTableOk 64 []), (by decide : LzhTableOk 128 []), fun tok ht => ?_, ?_⟩
  · rw [List.eq_of_mem_replicate ht]
    rfl
  · rw [zeroLiterals, List.dropLast_replicate, zeroLiterals_cost]
    exact h

/-- `4 * n` of them as bytes, and what follows, the two skipped bytes first as far as there are any. -/
def fullBlock (n : Nat) (tail : List Byte) : List Byte :=
  bytesOf [0x01, 0x10, 0x00, 0x00] ++ (List.replicate n 0xAA ++ tail)

/-- Its length. -/
theorem fullBlock_length (n : Nat) (tail : List Byte) : (fullBlock n tail).length = n + 4 + tail.length := by
  simp [fullBlock, bytesOf]
  omega

/-- What follows the skipped bytes. -/
theorem fullBlock_drop (n : Nat) (tail : List Byte) : (fullBlock n tail).drop (n + 6) = tail.drop 2 := by
  have h : fullBlock n tail = (bytesOf [0x01, 0x10, 0x00, 0x00] ++ List.replicate n 0xAA) ++ tail := by simp [fullBlock]
  have h4 : (bytesOf [0x01, 0x10, 0x00, 0x00] ++ List.replicate n (0xAA : Byte)).length = n + 4 := by simp [bytesOf]
  rw [h, ← List.drop_drop (i := 2) (j := n + 4), List.drop_left' h4]

/-- A block that reaches the cost limit and ends after an even number of data bytes, and the blocks that follow 2 bytes later. -/
theorem fullBlock_holds (n : Nat) (tail : List Byte) (rest : List LzhBlock) (he : n % 2 = 0) (hlo : 0x1FFF0 ≤ 8 * n)
    (hhi : 8 * n < 0x1FFF0 + 2) (hr : HoldsLzhBlocks (fullBlock n tail) (n + 6) rest) :
    HoldsLzhBlocks (fullBlock n tail) 0 (zeroLiterals (4 * n) :: rest) := by
  refine ⟨zeroLiterals_ok _ (by omega), by rw [zeroLiterals_tables]; exact List.prefix_append _ _, ⟨?_, fun j hj => ?_⟩, .inr ?_, ?_⟩
  · rw [zeroLiterals_bits_length, fullBlock_length, zeroLiterals_tables]
    simp [bytesOf]
    omega
  · rw [zeroLiterals_bits_length] at hj
    rw [zeroLiterals_bits_getD _ _ hj, streamBitMsb, fullBlock, zeroLiterals_tables,
      List.getD_append_right _ _ _ _ (by simp [bytesOf]; omega), List.getD_append _ _ _ _ (by simp [bytesOf]; omega),
      List.getD_replicate _ (by simp [bytesOf]; omega)]
    have h8 : (8 * (0 + (bytesOf [0x01, 0x10, 0x00, 0x00]).length) + j) % 8 = j % 8 := by simp [bytesOf]; omega
    have h2 : j % 2 = j % 8 % 2 := by omega
    rw [h8, h2]
    exact (by decide +kernel : ∀ r < 8, ((0xAA : Byte).getLsbD (7 - r)) = (r % 2 == 0)) _ (Nat.mod_lt _ (by decide))
  · rw [zeroLiterals, zeroLiterals_cost]
    omega
  · rw [zeroLiterals_size n he, Nat.zero_add]
    exact hr

/-- A second block of one literal behind it. -/
theorem secondBlock_holds (n : Nat) :
    HoldsLzhBlocks (fullBlock n (bytesOf [0xFF, 0xFF, 0x01, 0x10, 0x00, 0x00, 0x80])) (n + 6) [zeroLiterals 1] := by
  refine ⟨zeroLiterals_ok 1 (by decide), by rw [zeroLiterals_tables, fullBlock_drop]; exact ⟨[0x80], rfl⟩, ⟨?_, fun j hj => ?_⟩,
    .inl rfl, trivial⟩
  · rw [zeroLiterals_bits_length, fullBlock_length, zeroLiterals_tables]
    simp [bytesOf]
    omega
  · rw [zeroLiterals_bits_length] at hj
    rw [zeroLiterals_bits_getD _ _ hj, streamBitMsb, zeroLiterals_tables]
    have h8 : (8 * (n + 6 + (bytesOf [0x01, 0x10, 0x00, 0x00]).length) + j) / 8 = n + 6 + 4 := by simp [bytesOf]; omega
    have hr : (8 * (n + 6 + (bytesOf [0x01, 0x10, 0x00, 0x00]).length) + j) % 8 = j := by simp [bytesOf]; omega
    have hd (tail : List Byte) : (fullBlock n tail).getD (n + 6 + 4) 0 = (tail.drop 2).getD 4 0 := by
      rw [← fullBlock_drop n tail, List.getD_eq_getElem?_getD, List.getD_eq_getElem?_getD, List.getElem?_drop]
    rw [h8, hr, hd]
    have : j = 0 ∨ j = 1 := by omega
    rcases this with rfl | rfl <;> rfl

/-- Any bytes that fit a length register can be a job's input. -/
theorem startedWith_inputIs (cap outLen : Nat) (bs : List Byte) (cfg : Config) (h : bs.length < 2 ^ 32) :
    ({ startedWith cap bs outLen 0 0x11 with cfg := cfg }).inputIs bs := by
  refine ⟨Nat.mod_eq_of_lt h, fun i hi => ?_⟩
  have hr := Space.read_writeList .inn { cells := [], epoch := 0 } 0 i bs
  rw [if_pos (by omega), Nat.sub_zero] at hr
  exact hr

/-- CptLzhDecodesOneBlock with two blocks: the first one's 65528 literals cost the limit. -/
theorem witness_CptLzhDecodesOneBlock_two_blocks :
    let bs := fullBlock 16382 (bytesOf [0xFF, 0xFF, 0x01, 0x10, 0x00, 0x00, 0x80])
    let s : State := { startedWith 8 bs 1 0 0x11 with cfg := { cfgTest 8 with inCap := 2 ^ 16 } }
    s.inputIs bs ∧ s.forkFits ∧ HoldsLzhBlocks bs 0 [zeroLiterals (4 * 16382), zeroLiterals 1] := by
  intro bs s
  have hlen := fullBlock_length 16382 (bytesOf [0xFF, 0xFF, 0x01, 0x10, 0x00, 0x00, 0x80])
  have hin := startedWith_inputIs 8 1 bs { cfgTest 8 with inCap := 2 ^ 16 } (by rw [hlen]; decide)
  exact ⟨hin, ⟨hin.1.trans_le (by rw [hlen]; decide), (by decide : (1 : Nat) ≤ 8)⟩,
    fullBlock_holds 16382 _ _ (by decide) (by decide) (by decide) (secondBlock_holds _)⟩

/-- CptLzhErrors with no block before: OUT_LEN 0; tables cut short at every place, the last one whole; a count one above half of each
table's symbols (vector LZH-E1 for the first); and lengths that are oversubscribed in each table. -/
theorem witness_CptLzhErrors :
    let s (bs : List Byte) := startedWith 8 bs 1 0 0x11
    let tables := lzhTable [1, 0] ++ lzhTable [] ++ lzhTable [1, 1]
    (startedWith 8 [0x81] 0 0 0x11).latch.outLen = 0 ∧
      (∀ bs ∈ [[]] ++ tables.inits ++ [[0x81], [0, 33], [0, 0, 65], [2, 0x11, 0x10], [0, 2, 0x11, 0x10], [0, 0, 2, 0x11, 0x10]],
        (s bs).inputIs bs ∧ (s bs).forkFits ∧ HoldsLzhBlocks bs 0 [] ∧ bs.drop (([] : List LzhBlock).map LzhBlock.size).sum = bs ∧
          (rle81 false 0 ((([] : List LzhBlock).flatMap LzhBlock.toks).foldl lzhAppend [])).length < (s bs).latch.outLen.toNat) ∧
      (LzhTableOk 256 [1, 0] ∧ LzhTableOk 64 [] ∧ LzhTableOk 128 [1, 1] ∧ (∀ bs ∈ tables.inits, bs <+: tables)) ∧
      (LzhTableOk 256 [] ∧ lzhTable [] = [0]) ∧
      (256 / 2 < (0x81 : Byte).toNat ∧ 64 / 2 < (33 : Byte).toNat ∧ 128 / 2 < (65 : Byte).toNat) ∧
      (lzhTable [1, 1, 1, 0] = [2, 0x11, 0x10] ∧ [1, 1, 1, 0].length ≤ 64 ∧ ¬ KraftOk 15 [1, 1, 1, 0]) := by
  unfold HoldsLzhBlocks
  decide +kernel

/-- CptLzhErrors behind a full block, whose 65528 literals are one byte fewer than OUT_LEN: an input that ends with its data, inside or
behind the 2 skipped bytes or inside the next tables, and a wrong count and oversubscribed lengths there. Where fewer than 2 bytes stand
behind the data, the skip passes the end of input (log 14). -/
theorem witness_CptLzhErrors_full_block :
    let blocks := [zeroLiterals (4 * 16382)]
    (∀ tail ∈ [[], bytesOf [0xFF], bytesOf [0xFF, 0xFF], bytesOf [0xFF, 0xFF, 0x01], bytesOf [0xFF, 0xFF, 0x81],
        bytesOf [0xFF, 0xFF, 2, 0x11, 0x10]],
      let bs := fullBlock 16382 tail
      let s : State := { startedWith 8 bs 65529 0 0x11 with cfg := { cfgTest 65529 with inCap := 2 ^ 16 } }
      s.inputIs bs ∧ s.forkFits ∧ HoldsLzhBlocks bs 0 blocks ∧
        (rle81 false 0 ((blocks.flatMap LzhBlock.toks).foldl lzhAppend [])).length < s.latch.outLen.toNat ∧
        bs.drop (blocks.map LzhBlock.size).sum = tail.drop 2 ∧
        (tail.length < 2 → bs.length < (blocks.map LzhBlock.size).sum)) ∧
      (∀ b ∈ blocks, 0x1FFF0 ≤ lzhCost b.toks) ∧ [] <+: lzhTable [1, 0] ∧ bytesOf [0x01] <+: lzhTable [1, 0] := by
  intro blocks
  have hsize : (blocks.map LzhBlock.size).sum = 16382 + 6 := by
    rw [List.map_singleton, List.sum_singleton, zeroLiterals_size 16382 (by decide)]
  have hout : (rle81 false 0 ((blocks.flatMap LzhBlock.toks).foldl lzhAppend [])).length = 65528 := by
    have hf : blocks.flatMap LzhBlock.toks = List.replicate 65528 (.lit 0) := by
      simp only [blocks, List.flatMap_cons, List.flatMap_nil, List.append_nil, zeroLiterals]
    rw [hf, zeroLiterals_output, List.nil_append, rle81_zeros, List.length_replicate]
  refine ⟨fun tail ht => ?_, fun b hb => ?_, by decide +kernel, by decide +kernel⟩
  · have hlen := fullBlock_length 16382 tail
    have htail : tail.length ≤ 5 :=
      (by decide : ∀ tail ∈ [[], bytesOf [0xFF], bytesOf [0xFF, 0xFF], bytesOf [0xFF, 0xFF, 0x01], bytesOf [0xFF, 0xFF, 0x81],
        bytesOf [0xFF, 0xFF, 2, 0x11, 0x10]],
        tail.length ≤ 5) tail ht
    have hin := startedWith_inputIs 8 65529 (fullBlock 16382 tail) { cfgTest 65529 with inCap := 2 ^ 16 } (by omega)
    refine ⟨hin, ⟨hin.1.trans_le ?_, (by decide : (65529 : Nat) ≤ 65529)⟩,
      fullBlock_holds 16382 _ _ (by decide) (by decide) (by decide) trivial, ?_, ?_, fun h2 => ?_⟩
    · have h16 : (fullBlock 16382 tail).length ≤ 2 ^ 16 := by omega
      exact h16
    · rw [hout]
      exact (by decide : 65528 < 65529)
    · rw [hsize]
      exact fullBlock_drop 16382 tail
    · rw [hsize]
      show (fullBlock 16382 tail).length < _
      omega
  · rw [List.mem_singleton.1 hb, zeroLiterals, zeroLiterals_cost]

/-- CptLzhErrors where the last block goes on, and a match has length symbol 0: vector LZH-E2. -/
theorem witness_CptLzhErrors_len0 :
    let bs := bytesOf [0x00, 0x01, 0x10, 0x00, 0x00]
    let b : LzhBlock := { lit := [], len := [1, 0], off := [], toks := [] }
    let s := startedWith 16 bs 1 0 0x11
    s.inputIs bs ∧ s.forkFits ∧ HoldsLzhBlocks bs 0 [b] ∧ lzhCost b.toks < 0x1FFF0 ∧
      (rle81 false 0 (([b].flatMap LzhBlock.toks).foldl lzhAppend [])).length < s.latch.outLen.toNat ∧ b.len.getD 0 0 ≠ 0 ∧
      HoldsMsb bs (8 * (([b].dropLast.map LzhBlock.size).sum + b.tables.length) + b.bits.length)
        (false :: codewordBits b.len 0) := by
  unfold HoldsLzhBlocks HoldsLzhBlocks
  decide +kernel

/-- The block of vector LZH-1. -/
def blockLzh1 : LzhBlock :=
  { lit := List.replicate 97 0 ++ [1, 2, 2], len := [0, 0, 0, 1, 0, 1], off := [1, 1]
    toks := [.lit 97, .lit 98, .lit 99, .copy 5 3, .lit 99] }

/-- CptLzhErrors where the input ends inside a token: vector LZH-1b, whose padding bits begin a match. -/
theorem witness_CptLzhErrors_cut :
    let bs := bytesOf ([0x32] ++ List.replicate 48 0x00 ++ [0x01, 0x22, 0x03, 0x00, 0x01, 0x01, 0x01, 0x11, 0xB7, 0x41, 0xF0])
    let b := blockLzh1
    let s := startedWith 16 bs 10 0 0x11
    let q := 8 * (([b].dropLast.map LzhBlock.size).sum + b.tables.length) + b.bits.length
    let more := lzhTokenBits b.lit b.len b.off (.copy 3 1)
    (s.inputIs bs ∧ s.forkFits ∧ HoldsLzhBlocks bs 0 [b] ∧ lzhCost b.toks < 0x1FFF0 ∧
      (rle81 false 0 (([b].flatMap LzhBlock.toks).foldl lzhAppend [])).length < s.latch.outLen.toNat) ∧
      lzhTokenOk b.lit b.len b.off (.copy 3 1) = true ∧ List.replicate 4 false <+: more ∧ List.replicate 4 false ≠ more ∧
      HoldsMsb bs q (List.replicate 4 false) ∧ q + (List.replicate 4 false).length = 8 * bs.length := by
  unfold HoldsLzhBlocks HoldsLzhBlocks
  decide +kernel

/-- HqxDetectFindsThePreamble: an input with the preamble and one without. -/
theorem witness_HqxDetectFindsThePreamble :
    (∃ i, i + 40 ≤ hiText.length ∧ (hiText.drop i).take 40 = preamble) ∧ (startedWith 8 hiText 0 0 0x20).inputIs hiText ∧
      (startedWith 8 hiText 0 0 0x20).inputFits ∧
      ¬ ∃ i, i + 40 ≤ ([] : List Byte).length ∧ (([] : List Byte).drop i).take 40 = preamble :=
  ⟨⟨0, by decide +kernel, by decide +kernel⟩, by decide +kernel, by decide +kernel, fun ⟨i, h, _⟩ => by simp at h⟩

/-- The raw bytes of the "Hi" file (95_test_vectors.md 2.5), none of them 0x90. -/
def hiRaw : List Byte :=
  bytesOf [0x02, 0x48, 0x69, 0x00, 0x54, 0x45, 0x58, 0x54, 0x74, 0x74, 0x78, 0x74, 0x41, 0x84, 0x00, 0x00, 0x00, 0x05, 0x00, 0x00, 0x00, 0x00, 0xFE, 0x55, 0x68, 0x65, 0x6C, 0x6C, 0x6F, 0xC3, 0x62, 0x00, 0x00]

/-- The 6-bit values of a body. -/
def digitsOf (body : List Byte) : List (Fin 64) :=
  (body.filter fun c => !isWhitespace c).map fun c => Fin.ofNat 64 ((cfgTest 0).hqxAlphabet.toList.idxOf c)

/-- A body of these 6-bit values. -/
def bodyOf (digits : List (Fin 64)) : List Byte := digits.map fun d => (cfgTest 0).hqxAlphabet[d]

/-- The whole bytes that 6-bit values make. -/
def rawOf (digits : List (Fin 64)) : List Byte :=
  (List.range (6 * digits.length / 8)).map fun i =>
    BitVec.ofNat 8 (((List.range 8).map fun j =>
      if (digits.getD ((8 * i + j) / 6) 0).val.testBit (5 - (8 * i + j) % 6) then 2 ^ (7 - j) else 0).sum)

/-- A body of alphabet characters and whitespace holds its digits, and `tail` follows them. -/
theorem hqxBody_of_body (outCap : Nat) (body tail : List Byte)
    (h : body.filter (fun c => !isWhitespace c) = bodyOf (digitsOf body)) :
    HqxBody (cfgTest outCap) (hqxInput body tail) (digitsOf body) tail where
  parts := ⟨[], ascii " 4.0)", 0x0D, [], body, ⟨rfl, fun i hi => absurd hi (Nat.not_lt_zero i), by decide +kernel⟩,
    .inl rfl, fun c hc => (List.not_mem_nil hc).elim, h⟩
  alphabetNodup := (by decide +kernel : (cfgTest 0).hqxAlphabet.toList.Nodup)
  alphabetPlain := (by decide +kernel : ∀ c ∈ (cfgTest 0).hqxAlphabet.toList, isWhitespace c = false ∧ c ≠ 0x3A)

/-- HqxFileDecodes and HqxWrapDecodes on the "Hi" file, with OUT_CAP its 5 bytes, without and with three more characters between
the container and the closing colon. -/
theorem witness_HqxFileDecodes :
    (∀ bs ∈ [hiText, hqxInput (hiBody ++ ascii "!!N") [0x3A]],
      (startedWith 5 bs 0 0 0x21).inputIs bs ∧ (startedWith 5 bs 0 0 0x21).inputFits) ∧
      hqxExpand 0 hiRaw =
        some (hqxContainer (ascii "Hi") 0 0x54455854 0x74747874 0x4184 (ascii "hello") []) ∧
      SixBits hiRaw (digitsOf hiBody) ∧ (ascii "hello").length + 0 ≤ 5 ∧
      HqxText (cfgTest 5) hiText (digitsOf hiBody ++ []) ∧
      HqxText (cfgTest 5) (hqxInput (hiBody ++ ascii "!!N") [0x3A]) (digitsOf hiBody ++ digitsOf (ascii "!!N")) :=
  ⟨by decide +kernel, by decide +kernel, by decide +kernel, by decide,
    ⟨[0x0D], hqxBody_of_body 5 hiBody [0x3A, 0x0D] (by decide +kernel)⟩,
    ⟨[], hqxBody_of_body 5 (hiBody ++ ascii "!!N") [0x3A] (by decide +kernel)⟩⟩

/-- HqxRejects' first two clauses: an input without the preamble; a preamble with no line break after it (vector HQX-E9) and with
one and no colon. -/
theorem witness_HqxRejects_envelope :
    (¬ ∃ i, i + 40 ≤ ([] : List Byte).length ∧ (([] : List Byte).drop i).take 40 = preamble) ∧
      HqxPreambleLine (preamble ++ ascii " 4.0)") [] (ascii " 4.0)") [] ∧
      HqxPreambleLine (preamble ++ ascii " 4.0)" ++ [0x0D, 0x41]) [] (ascii " 4.0)") ([0x0D] ++ [0x41]) ∧
      (∀ b ∈ ([0x41] : List Byte), b ≠ 0x3A) ∧
      ∀ bs ∈ [[], preamble ++ ascii " 4.0)", preamble ++ ascii " 4.0)" ++ [0x0D, 0x41]],
        (startedWith 5 bs 0 0 0x21).inputIs bs ∧ (startedWith 5 bs 0 0 0x21).inputFits :=
  ⟨fun ⟨i, h, _⟩ => by simp at h, ⟨by decide +kernel, fun i hi => absurd hi (Nat.not_lt_zero i), by decide +kernel⟩,
    ⟨by decide +kernel, fun i hi => absurd hi (Nat.not_lt_zero i), by decide +kernel⟩, by decide, by decide +kernel⟩

/-- The bodies of vectors HQX-E1 to HQX-E8 up to where their tails begin, a first byte of 64, and a body cut inside an escape. -/
def rejectedBodies : List (List Byte × List Byte) :=
  [(hiBody.set 1 0x21, [0x3A]), (bodyOf [16, 0], []), (hiBody.set 12 0x48, [0x3A]), (hiBody, [0x3A]), (hiBody.set 33 0x21, [0x3A]),
    (hiBody.set 43 0x22, [0x3A]), (ascii "N!%", [0x3A]), (hiBody.take 5, 0x37 :: hiBody.drop 6), (hiBody, [0x37, 0x3A]),
    (hiBody ++ [0x0D], []), (hiBody.take 5, []), (hiBody.take 5, [0x3A]), (bodyOf [0, 41, 0], [0x3A])]

/-- They stand in inputs that a job can have. -/
theorem witness_HqxRejects_bodies :
    ∀ p ∈ rejectedBodies, HqxBody (cfgTest 5) (hqxInput p.1 p.2) (digitsOf p.1) p.2 ∧
      (startedWith 5 (hqxInput p.1 p.2) 0 0 0x21).inputIs (hqxInput p.1 p.2) ∧
      (startedWith 5 (hqxInput p.1 p.2) 0 0 0x21).inputFits := by
  have h : ∀ p ∈ rejectedBodies, p.1.filter (fun c => !isWhitespace c) = bodyOf (digitsOf p.1) ∧
      (startedWith 5 (hqxInput p.1 p.2) 0 0 0x21).inputIs (hqxInput p.1 p.2) ∧
      (startedWith 5 (hqxInput p.1 p.2) 0 0 0x21).inputFits := by decide +kernel
  exact fun p hp => ⟨hqxBody_of_body 5 p.1 p.2 (h p hp).1, (h p hp).2⟩

/-- HqxRejects' clauses on the header: name lengths 0 and 64, a wrong CRC (vector HQX-E2), and one byte too few in OUT. -/
theorem witness_HqxRejects_header :
    (let raw := rawOf (digitsOf (hiBody.set 1 0x21))
     WholeBytes (raw.take 1 ++ raw.drop 1) (digitsOf (hiBody.set 1 0x21)) ∧ hqxExpand 0 (raw.take 1) = some (0 :: [])) ∧
    (WholeBytes ([0x40] ++ []) (digitsOf (bodyOf [16, 0])) ∧ hqxExpand 0 [0x40] = some (0x40 :: []) ∧ 63 < (0x40 : Byte).toNat) ∧
    (let raw := rawOf (digitsOf (hiBody.set 12 0x48))
     let head := hqxHead (ascii "Hi") 0 0x54455854 (field32 raw 8) 0x4184 5 0
     WholeBytes (raw.take 24 ++ raw.drop 24) (digitsOf (hiBody.set 12 0x48)) ∧
       hqxExpand 0 (raw.take 24) = some (head ++ [0xFE, 0x55] ++ []) ∧ [0xFE, 0x55] ≠ bytes16 (crcXmodem head)) ∧
    (let head := hqxHead (ascii "Hi") 0 0x54455854 0x74747874 0x4184 5 0
     WholeBytes (hiRaw.take 24 ++ hiRaw.drop 24) (digitsOf hiBody) ∧
       hqxExpand 0 (hiRaw.take 24) = some (head ++ [0xFE, 0x55] ++ []) ∧ [0xFE, 0x55] = bytes16 (crcXmodem head) ∧
       4 < (5 : Word).toNat + (0 : Word).toNat) := by
  decide +kernel

/-- HqxRejects' clauses on the two forks' CRCs (vectors HQX-E3 and HQX-E4). -/
theorem witness_HqxRejects_forks :
    let head := hqxHead (ascii "Hi") 0 0x54455854 0x74747874 0x4184 5 0
    (let raw := rawOf (digitsOf (hiBody.set 33 0x21))
     let data := (raw.drop 24).take 5
     WholeBytes (raw.take 31 ++ raw.drop 31) (digitsOf (hiBody.set 33 0x21)) ∧
       hqxExpand 0 (raw.take 31) = some (hqxSection head ++ data ++ [0xC3, 0x62] ++ []) ∧
       [0xC3, 0x62] ≠ bytes16 (crcXmodem data) ∧ data.length = 5) ∧
    (let raw := rawOf (digitsOf (hiBody.set 43 0x22))
     WholeBytes (raw ++ []) (digitsOf (hiBody.set 43 0x22)) ∧
       hqxExpand 0 raw = some (hqxSection head ++ hqxSection (ascii "hello") ++ [] ++ raw.drop 31 ++ []) ∧
       raw.drop 31 ≠ bytes16 (crcXmodem [])) := by
  decide +kernel

/-- HqxRejects' last clauses: `90 01` (vector HQX-E8); a body cut by a character outside the alphabet (HQX-E5), by the end of input,
by the colon, and inside an escape; and a whole body that a bad character or the end of input follows (HQX-E6). -/
theorem witness_HqxRejects_cut :
    let file := hqxContainer (ascii "Hi") 0 0x54455854 0x74747874 0x4184 (ascii "hello") []
    (hqxExpand 0 [] = some [] ∧ [] <+: file ∧ [] ≠ file ∧ WholeBytes ([] ++ [0x90, 0x01] ++ []) (digitsOf (ascii "N!%"))) ∧
    (hqxExpand 0 (hiRaw.take 3) = some (hiRaw.take 3) ∧ hiRaw.take 3 <+: file ∧ hiRaw.take 3 ≠ file ∧
      WholeBytes (hiRaw.take 3) (digitsOf (hiBody.take 5)) ∧ HqxBadChar (cfgTest 5) 0x37) ∧
    (hqxExpand 0 [0x02] = some [0x02] ∧ [0x02] <+: file ∧ [0x02] ≠ file ∧
      WholeBytes ([0x02] ++ [0x90]) (digitsOf (bodyOf [0, 41, 0]))) ∧
    hqxExpand 0 hiRaw = some file ∧ digitsOf hiBody = digitsOf hiBody ++ [] ∧ digitsOf (hiBody ++ [0x0D]) = digitsOf hiBody ++ [] ∧
      SixBits hiRaw (digitsOf hiBody) := by
  decide +kernel

/-- BinFileExtracts and BinWrapSelectsAFork: each outcome's conditions at the boundary, over the inputs of vectors MB-7 and
MB-9. -/
theorem witness_BinFileExtracts :
    fieldsFault inputMb7 = none ∧ dataLength inputMb7 + rsrcLength inputMb7 = 9 ∧ rsrcStart inputMb7 + 4 = 260 ∧
      inputMb7.length = 260 ∧ ForkCut (inputMb7.take 259) (rsrcStart inputMb7) 4 ∧
      fieldsFault (inputMb7.take 127) = some .trnEof ∧ fieldsFault (inputMb7.set 0 1) = some .valMacbHeader ∧
      fieldsFault (inputMb7.set 1 64) = some .valMacbNameLen ∧ fieldsFault (inputMb7.set 82 1) = some .valMacbCrc ∧
      fieldsFault (inputMb7.set 83 0x80) = some .valMacbForkLen ∧
      ¬ HasSitSignature (forkBytes inputMb7 (dataStart inputMb7) (dataLength inputMb7)) ∧
      HasSitSignature (forkBytes inputMb9 (dataStart inputMb9) (dataLength inputMb9)) := by
  decide +kernel

/-- BinDetectChecksTheHeader: a header that passes. -/
theorem witness_BinDetectChecksTheHeader :
    let bs := headerH1 0 0x59 0x7B
    128 ≤ bs.length ∧ bs.getD 0 0 = 0 ∧ bs.getD 74 0 = 0 ∧ (bs.getD 1 0).toNat = 2 ∧ HeaderCrcOk bs := by
  decide +kernel

end Sys2Proof.Tests
end

section
/-! PROOFS. The host's turn with a register write pending, and a write of CTRL (10_state.md R52). -/

namespace Sys2Proof.Machine

/-! ### The host's turn with an access pending -/

/-- The engine has no turn while an access other than a wait stands first (log 3). -/
theorem engineTurn_of_pending {s : State} {a : HostAct} {rest : List HostAct} (h : s.host = a :: rest) (ha : a ≠ .wait) :
    engineTurn s = false := by
  simp [engineTurn, h, ha]

theorem step_of_pending {s : State} {a : HostAct} {rest : List HostAct} (h : s.host = a :: rest) (ha : a ≠ .wait) :
    step s = hostAct a { s with host := rest } := by
  simp [step, engineTurn_of_pending h ha, h]

/-- An aligned 32-bit access below 0x100 completes (20_memory.md R150, R165). -/
theorem onReg_aligned {off : Nat} (hm : off % 4 = 0) (hl : off < 0x100) (act : State → State) (s : State) :
    onReg off 4 act s = .next (act s) := by
  rw [onReg, if_neg (by simp [hm]), if_neg (by omega)]

theorem step_regWrite {s : State} {off : Nat} {v : Word} {rest : List HostAct} (h : s.host = .regWrite off 4 v :: rest)
    (hm : off % 4 = 0) (hl : off < 0x100) : step s = .next (writeReg off v { s with host := rest }) := by
  rw [step_of_pending h (by simp)]
  exact onReg_aligned hm hl _ _

/-! ### A write of CTRL -/

@[simp] theorem startJob_busy (s : State) : (startJob s).busy = true := by
  simp [State.busy, statusBusy]

theorem writeCtrl_of_start {v : Word} {s : State} (hv : v.getLsbD 0 = true) (hb : s.busy = false) :
    writeCtrl v s = startJob { s with regs := { s.regs with ctrl := v &&& ctrlMask } } := by
  simp [writeCtrl, hv, hb]

theorem writeCtrl_of_not_start {v : Word} {s : State} (h : ¬ (v.getLsbD 0 = true ∧ s.busy = false)) :
    writeCtrl v s = { s with regs := { s.regs with ctrl := v &&& ctrlMask } } := by
  rw [writeCtrl, if_neg (by simpa using h)]

/-- CTRL keeps IRQ_EN alone, whether or not the write starts a job: START leaves CTRL as it stands (40_job_control.md R300). -/
@[simp] theorem writeCtrl_regs_ctrl (v : Word) (s : State) : (writeCtrl v s).regs.ctrl = v &&& ctrlMask := by
  by_cases h : v.getLsbD 0 = true ∧ s.busy = false
  · obtain ⟨hv, hb⟩ := h
    rw [writeCtrl_of_start hv hb, startJob_regs, Regs.cleared_ctrl]
  · rw [writeCtrl_of_not_start h]

/-- Settles O7: the write is the host's turn, and it starts a job or stores IRQ_EN by START's condition. -/
theorem ctrlWrite : Obligations.CtrlWrite := by
  unfold Obligations.CtrlWrite
  intro s v rest h
  refine ⟨writeCtrl v { s with host := rest }, step_regWrite h (by decide) (by decide), writeCtrl_regs_ctrl _ _, ?_⟩
  split
  · next hstart =>
    obtain ⟨hv, hb⟩ := hstart
    rw [writeCtrl_of_start (s := { s with host := rest }) hv hb]
    exact ⟨startJob_busy _, rfl⟩
  · next hstart => exact writeCtrl_of_not_start hstart

end Sys2Proof.Machine
end

section
/-! PROOFS. The StuffIt methods the block does not implement (40_job_control.md R311), which CheckCommand refuses at its step 4
(R301). -/

namespace Sys2Proof.Machine

/-- A raised error names itself in STATUS, clears every result register, and leaves what the host wrote (60_exceptions.md R852). -/
theorem failedWith_raiseError (r : Raise) (s : State) : FailedWith s (raiseError r s) r.err := by
  simp [FailedWith, State.endedErr, ResultsZero, JobKeeps]

/-! ### CheckCommand's step 4 -/

/-- The OP values of the unsupported methods (30_encoding.md R201). -/
def unsupOps : List (BitVec 8) := [0x03, 0x04, 0x05, 0x06, 0x07, 0x08, 0x09, 0x0A, 0x0B, 0x0C, 0x0E]

theorem isUnsupOp_iff_mem {op : BitVec 8} : isUnsupOp op = true ↔ op ∈ unsupOps := by
  simp only [isUnsupOp, unsupOps, List.mem_cons, List.not_mem_nil, or_false, Bool.or_eq_true, Bool.and_eq_true,
    decide_eq_true_eq, beq_iff_eq, ← BitVec.toNat_inj, BitVec.reduceToNat]
  omega

theorem isReservedOp_of_isUnsupOp {op : BitVec 8} (h : isUnsupOp op = true) : isReservedOp op = false := by
  simp only [isUnsupOp, isReservedOp, Bool.or_eq_true, Bool.and_eq_true, Bool.or_eq_false_iff, Bool.and_eq_false_iff,
    decide_eq_true_eq, decide_eq_false_iff_not, beq_iff_eq] at h ⊢
  omega

theorem checkCommand_of_isUnsupOp {s : State} {op : BitVec 8} (hop : isUnsupOp op = true) (hfit : s.inputFits) :
    checkCommand s 0 op = .error { err := .feaMethod } := by
  have hlen : ¬ s.cfg.inCap < s.latch.inLen.toNat := Nat.not_lt.2 hfit
  simp [checkCommand, isReservedOp_of_isUnsupOp hop, hlen, hop]

/-! ### The commands -/

/-- The meaning of an unsupported method's command word. -/
theorem exec_decodeOp_of_isUnsupOp {op : BitVec 8} (hop : isUnsupOp op = true) (c : Bool) (s : State) :
    exec (decodeOp op c) s = endJob s (sitUnsupJob op s) := by
  have hmem : op ∈ unsupOps := isUnsupOp_iff_mem.1 hop
  simp only [unsupOps, List.mem_cons, List.not_mem_nil, or_false] at hmem
  rcases hmem with rfl | rfl | rfl | rfl | rfl | rfl | rfl | rfl | rfl | rfl | rfl
  · exact exec_sitUnsupM3 c s
  · exact exec_sitUnsupM4 c s
  · exact exec_sitUnsupM5 c s
  · exact exec_sitUnsupM6 c s
  · exact exec_sitUnsupM7 c s
  · exact exec_sitUnsupM8 c s
  · exact exec_sitUnsupM9 c s
  · exact exec_sitUnsupM10 c s
  · exact exec_sitUnsupM11 c s
  · exact exec_sitUnsupM12 c s
  · exact exec_sitUnsupM14 c s

theorem sitUnsupJob_of_isUnsupOp {s : State} {op : BitVec 8} (hop : isUnsupOp op = true) (hfit : s.inputFits) :
    sitUnsupJob op s = .error { err := .feaMethod } := by
  rw [sitUnsupJob, checkCommand_of_isUnsupOp hop hfit, except_error_bind]

/-- Settles O22: each of the eleven commands is the one its OP value decodes to, and its job ends at CheckCommand's step 4. -/
theorem unsupportedMethods : Obligations.UnsupportedMethods := by
  unfold Obligations.UnsupportedMethods
  intro s c hfit i hi
  obtain ⟨op, hmem, rfl⟩ : ∃ op ∈ unsupOps, decodeOp op c = i := List.mem_map.1 hi
  have hop : isUnsupOp op = true := isUnsupOp_iff_mem.2 hmem
  refine ⟨raiseError { err := .feaMethod } s, ?_, failedWith_raiseError _ s, rfl⟩
  rw [exec_decodeOp_of_isUnsupOp hop, sitUnsupJob_of_isUnsupOp hop hfit, endJob_error]

end Sys2Proof.Machine
end

section
/-! PROOFS. The commands CRC_XMODEM and CRC_ARC (41_common.md R355, R356), on what a job without an error of its own leaves
(40_job_control.md R305, R320). -/

namespace Sys2Proof.Machine

/-! ### A job that reads its input and ends with DONE -/

/-- The job's input as one list (10_state.md R54). -/
theorem jobInput_of_inputIs {s : State} {bs : List Byte} (h : s.inputIs bs) : jobInput s = bs := by
  obtain ⟨hlen, hread⟩ := h
  rw [jobInput, hlen]
  exact Space.slice_eq_of_read .inn s.inn bs hread

/-- CheckCommand asks of a command that is no fork op only that its input fits IN_CAP (40_job_control.md R301). -/
theorem checkCommand_of_not_forkOp {s : State} {op : BitVec 8} (hres : isReservedOp op = false) (hunsup : isUnsupOp op = false)
    (hfork : isForkOp op = false) (hfit : s.inputFits) : checkCommand s 0 op = .ok () :=
  checkCommand_eq_ok.2 ⟨rfl, hres, hfit, hunsup, by simp [hfork]⟩

/-- OUT after a successful job (40_job_control.md R308). -/
theorem outputIs_finishJob (s : State) (r : JobResult) : OutputIs s (finishJob s r) r.out := by
  refine ⟨rfl, rfl, fun i hi => ?_, fun i hi => ?_⟩
  · rw [finishJob_out, Space.read_writeList, if_pos (by omega), Nat.sub_zero]
  · rw [finishJob_out, Space.read_writeList, if_neg (by omega)]

/-- A successful job that names nothing leaves its output and its result registers, and MD_NAMELEN 0 (40_job_control.md R320). -/
theorem doneWith_finishJob (s : State) (r : JobResult) (hname : r.name = none) :
    DoneWith s (finishJob s r) r.out
      { crcOut := zext32 r.crcOut, result := r.result, dataLen := r.dataLen, rsrcLen := r.rsrcLen, mdType := r.mdType,
        mdCreator := r.mdCreator, mdFlags := zext32 r.mdFlags } := by
  refine ⟨⟨rfl, rfl⟩, outputIs_finishJob s r, ?_, ?_, ?_⟩
  · simp [Regs.results, hname]
  · simp [NameKept, hname, nameAfter]
  · simp [JobKeeps]

/-- What a job that only computes a CRC answers: nothing for OUT, and the CRC for CRC_OUT and U_CRC's register. -/
def crcOnlyResult (s : State) (c : Half) (p : Nat) : JobResult :=
  { out := [], crcOut := c, units := { s.units with crc := { crc := c } }, bpos := p }

theorem endJob_crcOnlyResult (s : State) (c : Half) (p : Nat) :
    ∃ t, endJob s (.ok (crcOnlyResult s c p)) = .next t ∧ DoneWith s t [] { crcOut := zext32 c } :=
  ⟨_, endJob_ok s _ (Nat.zero_le _), doneWith_finishJob s (crcOnlyResult s c p) rfl⟩

theorem crcXmodemJob_of_input {s : State} {bs : List Byte} (h : s.inputIs bs) (hfit : s.inputFits) :
    crcXmodemJob s = .ok (crcOnlyResult s (crcXmodem bs) bs.length) := by
  rw [crcXmodemJob, checkCommand_of_not_forkOp (by decide) (by decide) (by decide) hfit, except_ok_bind,
    jobInput_of_inputIs h, crcOnlyResult]

theorem crcArcJob_of_input {s : State} {bs : List Byte} (h : s.inputIs bs) (hfit : s.inputFits) :
    crcArcJob s = .ok (crcOnlyResult s (crcArc bs) bs.length) := by
  rw [crcArcJob, checkCommand_of_not_forkOp (by decide) (by decide) (by decide) hfit, except_ok_bind,
    jobInput_of_inputIs h, crcOnlyResult]

/-! ### CRC-16/XMODEM of an input and its own CRC (41_common.md R352) -/

/-- While no bit leaves the register, the shifts of CRC16_XMODEM only shift. -/
theorem crcXmodemShifts_of_small {n : Nat} {c : Half} (h : c.toNat * 2 ^ n < 2 ^ 16) : crcXmodemShifts n c = c <<< n := by
  induction n generalizing c with
  | zero => simp [crcXmodemShifts]
  | succ n ih =>
    have hdouble : c.toNat * 2 * 2 ^ n < 2 ^ 16 := by rwa [mul_assoc, ← pow_succ']
    have htop : c.toNat * 2 < 2 ^ 16 := lt_of_le_of_lt (Nat.le_mul_of_pos_right _ (Nat.two_pow_pos n)) hdouble
    have hbit : c.getLsbD 15 = false := Nat.testBit_lt_two_pow (by omega)
    have hshift : (c <<< 1).toNat = c.toNat * 2 := by
      rw [BitVec.toNat_shiftLeft, Nat.shiftLeft_eq, pow_one, Nat.mod_eq_of_lt htop]
    rw [crcXmodemShifts, crcXmodemShift, if_neg (ne_true_of_eq_false hbit), ih (by rwa [hshift]), ← BitVec.shiftLeft_add,
      Nat.add_comm]

/-- The next byte cancels the register's high byte when it is equal to it, and the low byte moves up. -/
theorem crcXmodemByte_high (c : Half) : crcXmodemByte c (c.extractLsb' 8 8) = (c.extractLsb' 0 8).setWidth 16 <<< 8 := by
  have hxor : c ^^^ ((c.extractLsb' 8 8).setWidth 16 <<< 8) = (c.extractLsb' 0 8).setWidth 16 := by
    ext i hi
    by_cases hlow : i < 8
    · simp [hlow, BitVec.getLsbD_eq_getElem hi]
    · simp [hlow, show i - 8 < 8 by omega, show 8 + (i - 8) = i by omega, BitVec.getLsbD_eq_getElem hi]
  have hsmall : ((c.extractLsb' 0 8).setWidth 16).toNat * 2 ^ 8 < 2 ^ 16 := by
    have hbyte := (c.extractLsb' 0 8).isLt
    rw [BitVec.toNat_setWidth_of_le (by decide)]
    omega
  rw [crcXmodemByte, hxor, crcXmodemShifts_of_small hsmall]

/-- With the low byte 0, the byte that cancels the high byte empties the register. -/
theorem crcXmodemByte_cancel (b : Byte) : crcXmodemByte (b.setWidth 16 <<< 8) b = 0 := by
  rw [crcXmodemByte, BitVec.xor_self, crcXmodemShifts_of_small (by decide)]
  exact BitVec.zero_shiftLeft 8

theorem crcXmodem_append_self (d : List Byte) : crcXmodem (d ++ Reference.bytes16 (crcXmodem d)) = 0 := by
  have hfold : crcXmodem (d ++ Reference.bytes16 (crcXmodem d)) =
      crcXmodemByte (crcXmodemByte (crcXmodem d) ((crcXmodem d).extractLsb' 8 8)) ((crcXmodem d).extractLsb' 0 8) :=
    List.foldl_append
  rw [hfold, crcXmodemByte_high, crcXmodemByte_cancel]

/-! ### The two statements -/

/-- Settles O30: the job's answer is the CRC alone, and an input's own CRC shifts out of the register byte by byte. -/
theorem crcXmodemCommand : Obligations.CrcXmodemCommand := by
  unfold Obligations.CrcXmodemCommand
  refine ⟨fun s c bs h hfit => ?_, rfl, by decide +kernel, crcXmodem_append_self⟩
  rw [exec_crcXmodem, crcXmodemJob_of_input h hfit]
  exact endJob_crcOnlyResult s _ _

/-- Settles O31: the job's answer is the CRC alone. -/
theorem crcArcCommand : Obligations.CrcArcCommand := by
  unfold Obligations.CrcArcCommand
  refine ⟨fun s c bs h hfit => ?_, rfl, by decide +kernel, by decide +kernel⟩
  rw [exec_crcArc, crcArcJob_of_input h hfit]
  exact endJob_crcOnlyResult s _ _

end Sys2Proof.Machine
end

section
/-! PROOFS. HQX_DETECT's scan for the preamble (42_binhex.md R400), and the Finder flag cleanups of BinHex and MacBinary
(42_binhex.md R427, 43_macbinary.md R466). -/

namespace Sys2Proof.Machine

/-! ### The preamble in an input (42_binhex.md R400, 30_encoding.md R208) -/

theorem hqxPreamble_eq_preamble : hqxPreamble = Reference.preamble := by decide

/-- The scan finds the preamble exactly where it is a part of the input, from whatever index it counts. -/
theorem findPreamble_isSome_iff_infix {bs : List Byte} {k : Nat} :
    (findPreamble bs k).isSome = true ↔ hqxPreamble <:+: bs := by
  induction bs generalizing k with
  | nil =>
    have hne : hqxPreamble ≠ [] := by decide
    simp [findPreamble, hne]
  | cons b rest ih =>
    rw [List.infix_cons_iff, ← List.isPrefixOf_iff_prefix, findPreamble]
    by_cases hhere : hqxPreamble.isPrefixOf (b :: rest) = true
    · simp [hhere]
    · simp [hhere, ih]

/-- A part of a list stands whole at some index of it. -/
theorem infix_iff_exists_take_drop {α : Type} {p l : List α} :
    p <:+: l ↔ ∃ i, i + p.length ≤ l.length ∧ (l.drop i).take p.length = p := by
  constructor
  · rintro ⟨before, after, rfl⟩
    exact ⟨before.length, by simp, by simp⟩
  · rintro ⟨i, -, hp⟩
    rw [← hp]
    exact (List.take_prefix _ _).isInfix.trans (List.drop_suffix _ _).isInfix

theorem findPreamble_isSome_iff_take_drop {bs : List Byte} {k : Nat} :
    (findPreamble bs k).isSome = true ↔ ∃ i, i + 40 ≤ bs.length ∧ (bs.drop i).take 40 = Reference.preamble := by
  rw [findPreamble_isSome_iff_infix, hqxPreamble_eq_preamble]
  exact infix_iff_exists_take_drop

/-! ### HQX_DETECT -/

/-- What HQX_DETECT answers: nothing for OUT, MATCH, and U_HQX at its job-start values. -/
def hqxDetectResult (s : State) (found : Bool) : JobResult :=
  { out := [], result := resultWord found false false, units := { s.units with hqx := {} } }

theorem hqxDetectJob_of_input {s : State} {bs : List Byte} (h : s.inputIs bs) (hfit : s.inputFits) :
    hqxDetectJob s = .ok (hqxDetectResult s (findPreamble bs 0).isSome) := by
  rw [hqxDetectJob, checkCommand_of_not_forkOp (by decide) (by decide) (by decide) hfit, except_ok_bind,
    jobInput_of_inputIs h, hqxDetectResult]

/-- HQX_DETECT always ends with DONE, and MATCH says whether the scan finds the preamble. -/
theorem exec_hqxDetect_doneWith {s : State} {bs : List Byte} (c : Bool) (h : s.inputIs bs) (hfit : s.inputFits) :
    ∃ t, exec (.hqxDetect c) s = .next t ∧
      DoneWith s t [] { result := resultWord (findPreamble bs 0).isSome false false } := by
  rw [exec_hqxDetect, hqxDetectJob_of_input h hfit]
  exact ⟨_, endJob_ok s _ (Nat.zero_le _), doneWith_finishJob s (hqxDetectResult s _) rfl⟩

/-- Settles O53: the scan finds the preamble exactly where it stands whole at some index, and MATCH is the scan's answer. -/
theorem hqxDetectFindsThePreamble : Obligations.HqxDetectFindsThePreamble := by
  unfold Obligations.HqxDetectFindsThePreamble
  intro s c bs h hfit
  have hends := exec_hqxDetect_doneWith c h hfit
  constructor
  · intro hstands
    rwa [findPreamble_isSome_iff_take_drop.2 hstands] at hends
  · intro hnone
    rwa [Bool.eq_false_iff.2 (mt findPreamble_isSome_iff_take_drop.1 hnone)] at hends

/-! ### The Finder flag cleanups -/

/-- A mask whose 0 bits are those that `cleared` names clears these bits and no other. -/
theorem getLsbD_and_of_mask {m : Half} {cleared : Nat → Bool} (hm : ∀ i < 16, m.getLsbD i = !cleared i) (f : Half) (i : Nat) :
    (f &&& m).getLsbD i = (f.getLsbD i && !cleared i) := by
  rw [BitVec.getLsbD_and]
  by_cases hi : i < 16
  · rw [hm i hi]
  · rw [BitVec.getLsbD_of_ge f i (by omega), Bool.false_and, Bool.false_and]

/-- 42_binhex.md R427. -/
theorem getLsbD_hqxCleanFlags (f : Half) (i : Nat) :
    (hqxCleanFlags f).getLsbD i = (f.getLsbD i && !(i == 14 || i == 7 || i == 2)) :=
  getLsbD_and_of_mask (cleared := fun i => i == 14 || i == 7 || i == 2) (by decide) f i

/-- 43_macbinary.md R466. -/
theorem getLsbD_macbCleanFlags (f : Half) (i : Nat) :
    (macbCleanFlags f).getLsbD i = (f.getLsbD i && !(i == 0 || i == 1 || i == 8 || i == 9 || i == 10)) :=
  getLsbD_and_of_mask (cleared := fun i => i == 0 || i == 1 || i == 8 || i == 9 || i == 10) (by decide) f i

/-- Settles O57: each cleanup is a mask, whose 0 bits are the bits that the rule clears. -/
theorem finderFlagCleanup : Obligations.FinderFlagCleanup :=
  ⟨getLsbD_hqxCleanFlags, getLsbD_macbCleanFlags, rfl, rfl, rfl⟩

end Sys2Proof.Machine
end

section
/-! PROOFS. HeaderCheck of MacBinary against the list of its faults (43_macbinary.md R451, R453, R452), and the probe BIN_DETECT
(R450). -/

namespace Sys2Proof.Machine
open Reference (field16 HeaderCrcOk headerFault)

/-! ### HeaderCheck -/

theorem take_two_drop_eq_getD {bs : List Byte} {p : Nat} (h : p + 1 < bs.length) :
    (bs.drop p).take 2 = [bs.getD p 0, bs.getD (p + 1) 0] := by
  rw [List.drop_eq_getElem_cons (by omega), List.drop_eq_getElem_cons h, List.getD_eq_getElem _ _ h,
    List.getD_eq_getElem _ _ (by omega)]
  rfl

/-- The big-endian number of two bytes is the bytes side by side (20_memory.md R155). -/
theorem ofNat_beNat_pair (a b : Byte) : BitVec.ofNat 16 (beNat [a, b]) = (a ++ b : BitVec (8 + 8)) := by
  have hnum : beNat [a, b] = a.toNat <<< 8 ||| b.toNat := by
    rw [← Nat.shiftLeft_add_eq_or_of_lt b.isLt, Nat.shiftLeft_eq]
    simp only [beNat, List.foldl_cons, List.foldl_nil]
    omega
  rw [hnum, ← BitVec.toNat_append, BitVec.ofNat_toNat, BitVec.setWidth_eq]

theorem be16_eq_field16 {bs : List Byte} {p : Nat} (h : p + 1 < bs.length) : be16 bs p = field16 bs p := by
  rw [be16, take_two_drop_eq_getD h, ofNat_beNat_pair, field16]

/-- HeaderCheck raises the header's first fault, and says of a header without one whether its CRC was wrong (R452). -/
theorem macbHeaderCheck_eq (bs : List Byte) :
    macbHeaderCheck bs = (headerFault bs).elim (.ok (!decide (HeaderCrcOk bs))) .error := by
  rw [macbHeaderCheck, headerFault]
  by_cases hlen : bs.length < 128
  · rw [if_pos hlen, if_pos hlen, Option.elim_some]
  rw [if_neg hlen, if_neg hlen, be16_eq_field16 (by omega), u8, u8, u8, u8]
  simp only [Nat.lt_one_iff]
  by_cases hfixed : bs.getD 0 0 ≠ 0 ∨ bs.getD 74 0 ≠ 0
  · rw [if_pos hfixed, if_pos hfixed, Option.elim_some]
  rw [if_neg hfixed, if_neg hfixed]
  by_cases hname : (bs.getD 1 0).toNat = 0 ∨ 63 < (bs.getD 1 0).toNat
  · rw [if_pos hname, if_pos hname, Option.elim_some]
  rw [if_neg hname, if_neg hname]
  by_cases hcrc : HeaderCrcOk bs
  · rw [if_pos hcrc, if_neg (fun hbad => hbad.1 hcrc), Option.elim_none, decide_eq_true hcrc, Bool.not_true]
  rw [if_neg hcrc]
  by_cases hold : bs.getD 82 0 = 0
  · rw [if_pos hold, if_neg (fun hbad => hbad.2 hold), Option.elim_none, decide_eq_false hcrc, Bool.not_false]
  · rw [if_neg hold, if_pos ⟨hcrc, hold⟩, Option.elim_some]

theorem isOk_macbHeaderCheck (bs : List Byte) : (macbHeaderCheck bs).isOk = (headerFault bs).isNone := by
  rw [macbHeaderCheck_eq]
  cases headerFault bs with
  | none => rfl
  | some e => rfl

/-- A chain of checks finds no fault when none of its conditions holds. -/
theorem ite_some_eq_none_iff {α : Type} {p : Prop} [Decidable p] {a : α} {x : Option α} :
    (if p then some a else x) = none ↔ ¬ p ∧ x = none := by
  by_cases hp : p
  · simp [hp]
  · simp [hp]

theorem headerFault_eq_none_iff {bs : List Byte} :
    headerFault bs = none ↔
      128 ≤ bs.length ∧ bs.getD 0 0 = 0 ∧ bs.getD 74 0 = 0 ∧ 1 ≤ (bs.getD 1 0).toNat ∧ (bs.getD 1 0).toNat ≤ 63 ∧
        (HeaderCrcOk bs ∨ bs.getD 82 0 = 0) := by
  simp only [headerFault, ite_some_eq_none_iff, not_lt, not_or, not_and_or, not_not, ne_eq, and_true, ← Nat.one_le_iff_ne_zero,
    and_assoc]

/-! ### BIN_DETECT -/

/-- What BIN_DETECT answers: nothing for OUT, MATCH, and U_MACB with the header alone. -/
def binDetectResult (s : State) (bs : List Byte) : JobResult :=
  { out := [], result := resultWord (headerFault bs).isNone false false, units := { s.units with macb := macbProbed bs } }

theorem binDetectJob_of_input {s : State} {bs : List Byte} (h : s.inputIs bs) (hfit : s.inputFits) :
    binDetectJob s = .ok (binDetectResult s bs) := by
  rw [binDetectJob, checkCommand_of_not_forkOp (by decide) (by decide) (by decide) hfit, except_ok_bind,
    jobInput_of_inputIs h, binDetectResult, ← isOk_macbHeaderCheck]

/-- BIN_DETECT always ends with DONE, and MATCH says whether the header is without a fault. -/
theorem exec_binDetect_doneWith {s : State} {bs : List Byte} (c : Bool) (h : s.inputIs bs) (hfit : s.inputFits) :
    ∃ t, exec (.binDetect c) s = .next t ∧
      DoneWith s t [] { result := resultWord (headerFault bs).isNone false false } := by
  rw [exec_binDetect, binDetectJob_of_input h hfit]
  exact ⟨_, endJob_ok s _ (Nat.zero_le _), doneWith_finishJob s (binDetectResult s bs) rfl⟩

/-- Settles O58: a header without a fault is one that meets every condition of the check, and MATCH is the check's answer. -/
theorem binDetectChecksTheHeader : Obligations.BinDetectChecksTheHeader := by
  unfold Obligations.BinDetectChecksTheHeader
  intro s c bs h hfit
  obtain ⟨t, hexec, hdone⟩ := exec_binDetect_doneWith c h hfit
  refine ⟨t, hexec, ?_⟩
  split
  · next hpasses => rwa [headerFault_eq_none_iff.2 hpasses] at hdone
  · next hfails =>
    rwa [Option.isNone_eq_false_iff.2 (Option.isSome_iff_ne_none.2 (mt headerFault_eq_none_iff.1 hfails))] at hdone

end Sys2Proof.Machine
end

section
/-! PROOFS. The interrupt output (60_exceptions.md R870): the end of every job raises DONE or ERR, so IRQ is then IRQ_EN alone,
and START and CTRL.IRQ_EN = 0 each clear one of its two factors. -/

namespace Sys2Proof.Machine

/-! ### DONE and ERR at a job's start and at its end -/

@[simp] theorem startJob_done (s : State) : (startJob s).done = false := by
  simp [State.done, statusBusy]

@[simp] theorem startJob_err (s : State) : (startJob s).err = false := by
  simp [State.err, statusBusy]

@[simp] theorem finishJob_done (s : State) (r : JobResult) : (finishJob s r).done = true := by
  simp [State.done, statusDone]

/-- The word of an error has ERR set, whatever its code and class: both stand above bit 2 (60_exceptions.md R852). -/
@[simp] theorem getLsbD_errStatus_two (e : Err) : e.status.getLsbD 2 = true := by
  simp [Err.status]

@[simp] theorem raiseError_err (r : Raise) (s : State) : (raiseError r s).err = true := by
  simp [State.err]

/-- A command that has run has ended, with DONE or with ERR, and has left CTRL as it was (40_job_control.md R305, 60_exceptions.md
R852). -/
theorem exec_ends {i : Instr} {s t : State} (h : exec i s = .next t) :
    (t.done = true ∨ t.err = true) ∧ t.irqEn = s.irqEn := by
  obtain ⟨r, hjob⟩ := exec_eq_endJob i s
  rw [hjob] at h
  rcases endJob_next h with ⟨q, -, rfl⟩ | ⟨j, -, -, rfl⟩
  · exact ⟨.inr (raiseError_err q s), rfl⟩
  · exact ⟨.inl (finishJob_done s j), rfl⟩

/-! ### IRQ_EN after a write of CTRL -/

/-- IRQ_EN is bit 1 of what the host wrote, whether or not the write starts a job (10_state.md R52). -/
@[simp] theorem writeCtrl_irqEn (v : Word) (s : State) : (writeCtrl v s).irqEn = v.getLsbD 1 := by
  simp [State.irqEn, ctrlMask]

/-! ### IRQ -/

theorem irq_of_ended {s : State} (h : s.done = true ∨ s.err = true) : s.irq = s.irqEn := by
  rw [State.irq, Bool.or_eq_true_iff.2 h, Bool.true_and]

theorem irq_of_irqEn_eq_false {s : State} (h : s.irqEn = false) : s.irq = false := by
  rw [State.irq, h, Bool.and_false]

@[simp] theorem startJob_irq (s : State) : (startJob s).irq = false := by
  simp [State.irq]

/-- Settles O12: each end of a job sets DONE or ERR and keeps CTRL, START clears both, and a write of CTRL with bit 1 clear leaves
IRQ_EN 0. -/
theorem interruptOutput : Obligations.InterruptOutput := by
  unfold Obligations.InterruptOutput
  refine ⟨fun s => rfl, fun i s t h => ?_, startJob_irq, fun s v rest h hv => ?_⟩
  · obtain ⟨hended, hkept⟩ := exec_ends h
    rw [irq_of_ended hended, hkept, State.irqEn]
  · refine ⟨writeCtrl v { s with host := rest }, step_regWrite h (by decide) (by decide), irq_of_irqEn_eq_false ?_⟩
    rw [writeCtrl_irqEn, hv]

end Sys2Proof.Machine
end

section
/-! PROOFS. Power-on reset and the host's accesses while a job runs (70_reset_and_hazards.md R900, R901, R911, R912): the engine
runs from its latch, which only START and power-on reset write, and neither START nor the end of a job is within reach of an access
while BUSY = 1. -/

namespace Sys2Proof.Machine

/-! ### Power-on reset -/

theorem regValue_powerOn (off : Nat) : regValue off Regs.powerOn = 0 := by
  unfold regValue
  split <;> rfl

theorem irq_of_powerOn {s : State} (h : s.regs = Regs.powerOn) : s.irq = false := by
  refine irq_of_irqEn_eq_false ?_
  rw [State.irqEn, h]
  rfl

theorem step_of_idle_of_nothing_pending {s : State} (hp : s.seq.phase = .idle) (hh : s.host = []) : step s = .next s := by
  have hturn : engineTurn s = false := by simp [engineTurn, hp]
  simp [step, hturn, hh]

/-- Settles O1: the register file is all zero at reset, the flags are bits of it, and the engine has no turn in phase IDLE. -/
theorem resetValues : Obligations.ResetValues :=
  ⟨regValue_powerOn, rfl, rfl, rfl, rfl, rfl, rfl, irq_of_powerOn rfl, step_of_idle_of_nothing_pending rfl rfl⟩

/-! ### Register writes while BUSY = 1 -/

section
variable {s : State} (hb : s.busy = true)
include hb

/-- START is ignored while BUSY = 1, so CTRL stores IRQ_EN and nothing more (10_state.md R52). -/
theorem writeCtrl_of_busy (v : Word) : writeCtrl v s = { s with regs := { s.regs with ctrl := v &&& ctrlMask } } :=
  writeCtrl_of_not_start (by simp [hb])

/-- While BUSY = 1 a register write changes the register file alone. -/
theorem writeReg_of_busy (off : Nat) (v : Word) : writeReg off v s = { s with regs := (writeReg off v s).regs } := by
  unfold writeReg
  split
  case h_1 => rw [writeCtrl_of_busy hb]
  all_goals rfl

/-- While BUSY = 1 a register write changes no register but the one it names. -/
theorem regValue_writeReg_of_ne {o off : Nat} (ho : o ≠ off) (v : Word) :
    regValue o (writeReg off v s).regs = regValue o s.regs := by
  unfold writeReg
  split
  case' h_1 => rw [writeCtrl_of_busy hb]
  all_goals
    unfold regValue
    split <;> trivial

/-- STATUS is read-only (10_state.md R68), and the one write that would set it, START, is ignored. -/
theorem writeReg_status_of_busy (off : Nat) (v : Word) : (writeReg off v s).regs.status = s.regs.status := by
  unfold writeReg
  split
  case h_1 => rw [writeCtrl_of_busy hb]
  all_goals rfl

end

/-- The running job is left as it was: its latch, the sequencing state and STATUS. -/
structure LeavesJob (s t : State) : Prop where
  latch  : t.latch = s.latch
  seq    : t.seq = s.seq
  status : t.regs.status = s.regs.status

theorem leavesJob_writeReg {s : State} (hb : s.busy = true) (off : Nat) (v : Word) : LeavesJob s (writeReg off v s) where
  latch := by rw [writeReg_of_busy hb]
  seq := by rw [writeReg_of_busy hb]
  status := writeReg_status_of_busy hb off v

theorem regValue_writeReg_same {off : Nat} (ho : off ∈ [0x04, 0x08, 0x0C, 0x10]) (v : Word) (s : State) :
    regValue off (writeReg off v s).regs = v := by
  simp only [List.mem_cons, List.not_mem_nil, or_false] at ho
  rcases ho with rfl | rfl | rfl | rfl <;> rfl

/-- The four registers a job is set up with are aligned and in REG (10_state.md R51). -/
theorem setupOffset_inRange {off : Nat} (ho : off ∈ [0x04, 0x08, 0x0C, 0x10]) : off % 4 = 0 ∧ off < 0x100 := by
  revert off
  decide

/-- Settles O8: a register write changes the register file alone while BUSY = 1, in it only the register it names, and never
STATUS. -/
theorem writesDuringAJob : Obligations.WritesDuringAJob := by
  unfold Obligations.WritesDuringAJob
  intro s off v rest hb hhost
  have hframe := writeReg_of_busy (s := { s with host := rest }) hb off v
  have hjob := leavesJob_writeReg (s := { s with host := rest }) hb off v
  refine ⟨fun ho => ?_, fun ho _ => ?_⟩
  · obtain ⟨hm, hl⟩ := setupOffset_inRange ho
    refine ⟨_, step_regWrite hhost hm hl, regValue_writeReg_same ho v _, fun o hne => ?_, ?_⟩
    · exact regValue_writeReg_of_ne (s := { s with host := rest }) hb hne v
    · rw [hframe]
      exact ⟨rfl, rfl, rfl, rfl, rfl, rfl, rfl⟩
  · subst ho
    exact ⟨_, step_regWrite hhost (by decide) (by decide), hjob.latch, hjob.seq, hjob.status, by rw [hframe]⟩

/-! ### Host accesses while BUSY = 1 -/

theorem LeavesJob.busy_eq {s t : State} (h : LeavesJob s t) : t.busy = s.busy := by
  rw [State.busy, h.status, State.busy]

theorem LeavesJob.returns {s t : State} (h : LeavesJob s t) (r : ReadResult) : LeavesJob s (t.returns r) :=
  ⟨h.latch, h.seq, h.status⟩

theorem leavesJob_readReg (off : Nat) (s : State) : LeavesJob s (readReg off s) := by
  unfold readReg
  split <;> exact ⟨rfl, rfl, rfl⟩

theorem leavesJob_readCells (cells : List (ByteSpace × Nat)) (s : State) : LeavesJob s (readCells cells s) :=
  ⟨rfl, rfl, rfl⟩

theorem leavesJob_writeCells (cells : List (ByteSpace × Nat)) (bs : List Byte) (s : State) :
    LeavesJob s (writeCells cells bs s) :=
  ⟨writeCells_latch cells bs s, writeCells_seq cells bs s, congrArg Regs.status (writeCells_regs cells bs s)⟩

/-- An access by address leaves the job when both of its forms do, the access of a register and the access of bytes. -/
theorem leavesJob_of_onBus {a n : Nat} {reg : Nat → State → State} {bytes : List (ByteSpace × Nat) → State → State}
    {s t : State} (hreg : ∀ off, LeavesJob s (reg off s)) (hbytes : ∀ cells, LeavesJob s (bytes cells s))
    (h : onBus a n reg bytes s = .next t) : LeavesJob s t := by
  rcases onBus_next h with ⟨off, -, -, -, rfl⟩ | ⟨cells, -, -, rfl⟩
  · exact hreg off
  · exact hbytes cells

theorem leavesJob_of_busAccess {s t : State} (hb : s.busy = true) {a : Nat} {op : BusOp} (h : busAccess a op s = .next t) :
    LeavesJob s t := by
  unfold busAccess at h
  cases op with
  | readWord =>
    exact leavesJob_of_onBus (leavesJob_readReg · s) (fun cells => (leavesJob_readCells cells s).returns _) h
  | writeWord v => exact leavesJob_of_onBus (leavesJob_writeReg hb · v) (leavesJob_writeCells · _ s) h
  | readBytes n =>
    exact leavesJob_of_onBus (fun off => (leavesJob_readReg off s).returns _) (leavesJob_readCells · s) h
  | writeBytes bs => exact leavesJob_of_onBus (leavesJob_writeReg hb · _) (leavesJob_writeCells · bs s) h

/-- While BUSY = 1 every host action that completes leaves the job, but for power-on reset (70_reset_and_hazards.md R901). -/
theorem leavesJob_of_hostAct {s t : State} {a : HostAct} (hb : s.busy = true) (ha : a ≠ .powerOn)
    (h : hostAct a s = .next t) : LeavesJob s t := by
  cases a with
  | regWrite off size v =>
    obtain ⟨-, -, -, rfl⟩ := onReg_next h
    exact leavesJob_writeReg hb off v
  | regRead off size =>
    obtain ⟨-, -, -, rfl⟩ := onReg_next h
    exact leavesJob_readReg off s
  | memWrite k i bs =>
    obtain ⟨-, rfl⟩ := onCells_next (act := fun cells => writeCells cells bs) h
    exact leavesJob_writeCells _ bs s
  | memRead k i n =>
    obtain ⟨-, rfl⟩ := onCells_next (act := readCells) h
    exact leavesJob_readCells _ s
  | bus address op => exact leavesJob_of_busAccess hb h
  | wait =>
    cases h
    exact ⟨rfl, rfl, rfl⟩
  | powerOn => exact absurd rfl ha

/-- Settles O11: power-on reset clears the registers and `phase` from any state, and every other access of a busy block leaves the
job. -/
theorem powerOnResetDuringAJob : Obligations.PowerOnResetDuringAJob := by
  unfold Obligations.PowerOnResetDuringAJob
  refine ⟨fun s rest hhost => ?_, fun s t a rest hphase hb hhost hreset hwait hstep => ?_⟩
  · exact ⟨powerOnReset { s with host := rest }, step_of_pending hhost (by simp), regValue_powerOn, rfl, irq_of_powerOn rfl, rfl⟩
  · rw [step_of_pending hhost hwait] at hstep
    have hjob := leavesJob_of_hostAct (s := { s with host := rest }) hb hreset hstep
    exact ⟨(congrArg Sequencer.phase hjob.seq).trans hphase, hjob.busy_eq.trans hb, hjob.latch⟩

end Sys2Proof.Machine
end

section
/-! PROOFS. Decoding and encoding the command word (30_encoding.md R200-R202): each undoes the other on the well-formed
instructions, and the words that are written out bit by bit. -/

namespace Sys2Proof

/-! ### From an instruction to its word and back -/

@[simp] theorem decode_cons (w : Word) (rest : List Word) : decode (w :: rest) = .ok (decodeWord w, rest) := rfl

/-- Every row's word decodes to the row: the commands by the OP map, the reserved rows by what makes them well-formed. -/
theorem decodeWord_encodeWord {i : Instr} (h : i.wf = true) : decodeWord (encodeWord i) = i := by
  cases i with
  | reservedOp op c => exact (decodeWord_cmdWord_zero c op).trans (decodeOp_of_reserved op c h)
  | reservedBits rsvd c op => exact decodeWord_cmdWord_of_ne rsvd c op (by simpa [Instr.wf] using h)
  | _ c => exact decodeWord_cmdWord_zero c _

/-- Settles O26: a row's word is the first of the list, and it decodes to the row. -/
theorem decodeEncodeRoundTrip : Obligations.DecodeEncodeRoundTrip := by
  unfold Obligations.DecodeEncodeRoundTrip
  intro i rest h
  rw [encode, List.singleton_append, decode_cons, decodeWord_encodeWord h]

/-! ### From a word to its instruction and back -/

/-- The OP map answers the row of the OP value: a command whose word has that OP, or RESERVED_OP for an OP that is reserved. -/
theorem wf_decodeOp (op : BitVec 8) (c : Bool) :
    (decodeOp op c).wf = true ∧ encodeWord (decodeOp op c) = cmdWord 0 c op := by
  revert op c
  decide +kernel

theorem wf_decodeWord (w : Word) : (decodeWord w).wf = true := by
  unfold decodeWord
  split
  · exact (wf_decodeOp _ _).1
  · next h => simpa [Instr.wf] using h

theorem encodeWord_decodeWord (w : Word) : encodeWord (decodeWord w) = w := by
  unfold decodeWord
  split
  · next h => rw [(wf_decodeOp _ _).2, ← h, cmdWord_fields]
  · exact cmdWord_fields w

/-! ### R200's match and mask -/

/-- The mask keeps the reserved bits and OP, and clears CRC_EN. -/
theorem and_mask_eq_cmdWord (w : Word) : w &&& 0xFFFFFEFF = cmdWord (cmdRsvd w) false (cmdOp w) := by
  apply BitVec.eq_of_getLsbD_eq
  intro i hi
  rw [getLsbD_cmdWord, BitVec.getLsbD_and, ← cmdWord_fields w, getLsbD_cmdWord]
  have hmask : ∀ j < 32, (0xFFFFFEFF : Word).getLsbD j = !(j == 8) := by decide
  rw [hmask i hi]
  by_cases h8 : i = 8
  · simp [h8]
  · simp [h8]

theorem setWidth_op_eq_cmdWord (op : BitVec 8) : (op.setWidth 32 : Word) = cmdWord 0 false op := by
  revert op
  decide +kernel

/-- A word is a command with OP value `op` exactly when the mask leaves `op`. -/
theorem and_mask_eq_iff (w : Word) (op : BitVec 8) : w &&& 0xFFFFFEFF = op.setWidth 32 ↔ cmdRsvd w = 0 ∧ cmdOp w = op := by
  rw [and_mask_eq_cmdWord, setWidth_op_eq_cmdWord]
  constructor
  · intro h
    obtain ⟨hr, -, ho⟩ := cmdWord_injective h
    exact ⟨hr, ho⟩
  · rintro ⟨hr, ho⟩
    rw [hr, ho]

/-- Settles O27: decoding and encoding undo each other, and the mask clears CRC_EN alone. -/
theorem everyWordIsOneInstruction : Obligations.EveryWordIsOneInstruction := by
  unfold Obligations.EveryWordIsOneInstruction
  refine ⟨fun w rest => ⟨decodeWord w, rfl, wf_decodeWord w, ?_, fun j hj he => ?_⟩, fun w op => ?_⟩
  · rw [encode, encodeWord_decodeWord]
  · rw [← decodeWord_encodeWord hj, List.singleton_inj.1 he]
  · rw [and_mask_eq_iff]
    constructor
    · rintro ⟨hr, rfl⟩
      rw [decodeWord, if_pos hr, cmdCrcEn]
    · intro h
      have hword : w = cmdWord 0 (w.getLsbD 8) op := by
        rw [← (wf_decodeOp op _).2, ← h, encodeWord_decodeWord]
      exact ⟨by rw [hword, cmdRsvd_cmdWord], by rw [hword, cmdOp_cmdWord]⟩

/-- Settles O25: each word is evaluated. -/
theorem decodesWrittenWords : Obligations.DecodesWrittenWords := by
  exact ⟨rfl, rfl, rfl, rfl, rfl, rfl, rfl, rfl, rfl, rfl, rfl, rfl⟩

end Sys2Proof
end

section
/-! PROOFS. The STATUS words of the errors (60_exceptions.md R850-R852), and the fields of STATUS in the states of the invariant
(10_state.md R57). -/

namespace Sys2Proof.Machine

/-- Settles O14: each word is evaluated. -/
theorem errorStatusWords : Obligations.ErrorStatusWords := by
  unfold Obligations.ErrorStatusWords
  decide +kernel

/-- Settles O2: nothing is listed, STATUS is 0, no job runs. -/
theorem resetMeetsInvariant : Obligations.ResetMeetsInvariant where
  mem := ⟨Space.forget_wf 0 _, Space.forget_wf 0 _, Space.forget_wf 0 _⟩
  status := .inl rfl
  phase := by decide
  reserved := by decide
  running := by decide

/-- The word of an error that can arise: ERR alone of the three flags, its class and its code (60_exceptions.md R852). -/
theorem errStatus_fields {e : Err} (h : e ∈ Err.raisable) :
    e.status.getLsbD 0 = false ∧ e.status.getLsbD 1 = false ∧ e.status.getLsbD 2 = true ∧
      e.status.extractLsb' 8 4 = e.eclass ∧ e.status.extractLsb' 16 8 = e.ecode ∧
      e.status &&& 0xFF00F0F8 = 0 ∧ 1 ≤ e.eclass.toNat ∧ e.eclass.toNat ≤ 8 ∧ e.ecode ≠ 0 := by
  revert e
  decide +kernel

/-- A legal STATUS sets at most one flag, no reserved bit, and class and code only beside ERR. -/
theorem statusLegal_fields {w : Word} (h : StatusLegal w) :
    (w.getLsbD 0 && w.getLsbD 1) = false ∧ (w.getLsbD 0 && w.getLsbD 2) = false ∧ (w.getLsbD 1 && w.getLsbD 2) = false ∧
      w &&& 0xFF00F0F8 = 0 ∧ (w.getLsbD 2 = false → w.extractLsb' 8 4 = 0 ∧ w.extractLsb' 16 8 = 0) := by
  rcases h with rfl | rfl | rfl | ⟨e, he, rfl⟩
  · decide
  · decide
  · decide
  · obtain ⟨hbusy, hdone, herr, -, -, hres, -⟩ := errStatus_fields he
    rw [hbusy, hdone, herr]
    exact ⟨rfl, rfl, rfl, hres, fun h => nomatch h⟩

/-- Settles O13: the fields are those of a legal STATUS word. -/
theorem statusFields : Obligations.StatusFields := by
  unfold Obligations.StatusFields
  refine ⟨fun s h => statusLegal_fields h.status, fun e he s hs => ?_⟩
  obtain ⟨hbusy, hdone, herr, hclass, hcode, -, hlo, hhi, hne⟩ := errStatus_fields he
  rw [State.busy, State.done, State.err, State.eclass, State.ecode, hs]
  exact ⟨hbusy, hdone, herr, hclass, hcode, hlo, hhi, hne⟩

end Sys2Proof.Machine
end

section
/-! PROOFS. How every command starts and ends: CheckCommand is its first part (40_job_control.md R301), its end is DONE or an
error (R305, 60_exceptions.md R852), and what the host wrote is left as it was. -/

namespace Sys2Proof.Machine

/-! ### The start of a command -/

/-- The commands of the OP map: every row but the two reserved ones (30_encoding.md R201). -/
def isCommand : Instr → Bool
  | .reservedOp _ _ | .reservedBits _ _ _ => false
  | _ => true

/-- OP of an instruction's word. -/
def opOf (i : Instr) : BitVec 8 := cmdOp (encodeWord i)

/-- Every command checks itself before it does anything else (40_job_control.md R301, R302). -/
theorem exec_eq_checkCommand_bind {i : Instr} (hi : isCommand i = true) (s : State) :
    ∃ f, exec i s = endJob s (checkCommand s 0 (opOf i) >>= f) := by
  cases i with
  | reservedOp op c => nomatch hi
  | reservedBits rsvd c op => nomatch hi
  | _ c =>
    rw [opOf, encodeWord, cmdOp_cmdWord]
    exact ⟨_, rfl⟩

theorem exec_of_checkCommand_error {i : Instr} (hi : isCommand i = true) {s : State} {r : Raise}
    (h : checkCommand s 0 (opOf i) = .error r) : exec i s = .next (raiseError r s) := by
  obtain ⟨f, hf⟩ := exec_eq_checkCommand_bind hi s
  rw [hf, h, except_error_bind, endJob_error]

theorem isCommand_decodeOp {op : BitVec 8} (h : isReservedOp op = false) (c : Bool) : isCommand (decodeOp op c) = true := by
  revert op c
  decide +kernel

theorem opOf_decodeOp (op : BitVec 8) (c : Bool) : opOf (decodeOp op c) = op := by
  rw [opOf, (wf_decodeOp op c).2, cmdOp_cmdWord]

/-! ### The end of a command -/

/-- A command that has run ended with an error or with a result that fits OUT. -/
theorem exec_next {i : Instr} {s t : State} (h : exec i s = .next t) :
    (∃ q, t = raiseError q s) ∨ ∃ j, j.out.length ≤ s.cfg.outCap ∧ t = finishJob s j := by
  obtain ⟨r, hr⟩ := exec_eq_endJob i s
  rcases endJob_next (hr ▸ h) with ⟨q, -, rfl⟩ | ⟨j, -, hj, rfl⟩
  · exact .inl ⟨q, rfl⟩
  · exact .inr ⟨j, hj, rfl⟩

theorem exec_total (i : Instr) (s : State) : ∃ t, exec i s = .next t := by
  obtain ⟨r, hr⟩ := exec_eq_endJob i s
  rw [hr]
  exact endJob_total s r

theorem jobKeeps_raiseError (r : Raise) (s : State) : JobKeeps s (raiseError r s) := (failedWith_raiseError r s).2

theorem jobKeeps_finishJob (s : State) (r : JobResult) : JobKeeps s (finishJob s r) := by
  simp [JobKeeps]

/-- No command changes what the host wrote, and each leaves phase IDLE. -/
theorem exec_keeps {i : Instr} {s t : State} (h : exec i s = .next t) : JobKeeps s t ∧ t.seq.phase = .idle := by
  rcases exec_next h with ⟨q, rfl⟩ | ⟨j, -, rfl⟩
  · exact ⟨jobKeeps_raiseError q s, rfl⟩
  · exact ⟨jobKeeps_finishJob s j, rfl⟩

/-! ### CheckCommand's errors -/

/-- A command that fails before it has read anything. -/
theorem failsAtOnce_of_exec {i : Instr} {s : State} {e : Err} (h : exec i s = .next (raiseError { err := e } s)) :
    FailsAtOnce i s e :=
  ⟨_, h, failedWith_raiseError _ s, rfl⟩

/-- The latched word's command, by CMD[31:9] and OP. -/
theorem decodeWord_latchWord (l : Latch) :
    decodeWord (latchWord l) = if l.rsvd = 0 then decodeOp l.op l.crcEn else .reservedBits l.rsvd l.crcEn l.op := by
  simp [latchWord, decodeWord]

/-- Settles O21: the reserved rows are errors of their own, and every other command begins with the five checks. -/
theorem checkCommandOrder : Obligations.CheckCommandOrder := by
  unfold Obligations.CheckCommandOrder
  intro s i hdecode
  have hi : i = decodeWord (latchWord s.latch) := by
    rw [decode_singleton] at hdecode
    cases hdecode
    rfl
  rw [decodeWord_latchWord] at hi
  dsimp only
  split
  · next hrsvd =>
    rw [hi, if_neg hrsvd]
    exact failsAtOnce_of_exec (exec_reservedBits _ _ _ s)
  next hrsvd =>
  rw [if_pos (not_not.1 hrsvd)] at hi
  subst hi
  split
  · next hres =>
    rw [decodeOp_of_reserved _ _ hres]
    exact failsAtOnce_of_exec (exec_reservedOp _ _ s)
  next hres =>
  have hres : isReservedOp s.latch.op = false := Bool.eq_false_iff.2 hres
  have hcheck : ∀ e, checkCommand s 0 s.latch.op = .error { err := e } →
      FailsAtOnce (decodeOp s.latch.op s.latch.crcEn) s e := fun e he =>
    failsAtOnce_of_exec (exec_of_checkCommand_error (isCommand_decodeOp hres _) (by rwa [opOf_decodeOp]))
  have hunsup : isUnsupOp s.latch.op = true ↔ (0x03 ≤ s.latch.op.toNat ∧ s.latch.op.toNat ≤ 0x0C) ∨ s.latch.op.toNat = 0x0E := by
    simp [isUnsupOp]
  split
  · next hin => exact hcheck _ (by simp [checkCommand, hres, hin])
  next hin =>
  split
  · next hu => exact hcheck _ (by simp [checkCommand, hres, hin, hunsup.2 hu])
  next hu =>
  intro hfork hout
  exact hcheck _ (by simp [checkCommand, hres, hin, mt hunsup.1 hu, isForkOp, hfork, hout])

/-- An OP is reserved exactly when the OP map has no row for it (30_encoding.md R202). -/
theorem isReservedOp_iff_not_mem (op : BitVec 8) :
    isReservedOp op = true ↔
      op.toNat ∉ [0x00, 0x01, 0x02, 0x03, 0x04, 0x05, 0x06, 0x07, 0x08, 0x09, 0x0A, 0x0B, 0x0C, 0x0D, 0x0E, 0x0F, 0x10,
        0x11, 0x20, 0x21, 0x22, 0x30, 0x31, 0x32, 0x40, 0x41] := by
  revert op
  decide +kernel

/-- Settles O23: both rows end at once with their error. -/
theorem reservedCommands : Obligations.ReservedCommands :=
  ⟨fun s op c => ⟨_, exec_reservedOp op c s, failedWith_raiseError _ s, rfl⟩, isReservedOp_iff_not_mem,
    fun s rsvd c op => ⟨_, exec_reservedBits rsvd c op s, failedWith_raiseError _ s, rfl⟩⟩

end Sys2Proof.Machine
end

section
/-! PROOFS. The engine's turn, START, and the host program that runs one command (40_job_control.md R300, 30_encoding.md R204). -/

namespace Sys2Proof.Machine

/-! ### The engine's turn -/

theorem engineTurn_of_run {s : State} (hp : s.seq.phase = .run) (hh : s.host = [] ∨ s.host.head? = some .wait) :
    engineTurn s = true := by
  rcases hh with hh | hh <;> simp [engineTurn, hp, hh]

theorem step_of_engineTurn {s : State} (h : engineTurn s = true) (ht : s.inTouched = false) :
    step s = exec (decodeWord (latchWord s.latch)) s := by
  simp [step, h, engineStep, ht]

/-- Settles O4: the turn is the engine's, and the latched word is decoded. -/
theorem stepRunsDecodedCommand : Obligations.StepRunsDecodedCommand := by
  unfold Obligations.StepRunsDecodedCommand
  intro s i hp hh ht hdecode
  rw [decode_singleton] at hdecode
  cases hdecode
  exact ⟨wf_decodeWord _, step_of_engineTurn (engineTurn_of_run hp hh) ht⟩

/-! ### START -/

theorem step_start {s : State} {v : Word} {rest : List HostAct} (h : s.host = .regWrite 0x00 4 v :: rest)
    (hb : s.busy = false) (hv : v.getLsbD 0 = true) :
    step s = .next (startJob { s with regs := { s.regs with ctrl := v &&& ctrlMask }, host := rest }) := by
  rw [step_regWrite h (by decide) (by decide)]
  exact congrArg _ (writeCtrl_of_start (s := { s with host := rest }) hv hb)

/-- Settles O5: the write is START's, and each field is the one START gives. -/
theorem startLatchesAndClears : Obligations.StartLatchesAndClears := by
  unfold Obligations.StartLatchesAndClears
  intro s v rest h hb hv
  refine ⟨_, step_start h hb hv, rfl, rfl, rfl, rfl, rfl, ?_, rfl, ?_, rfl, rfl, rfl, rfl, rfl, rfl, startJob_irq _, rfl, rfl, rfl,
    rfl, rfl⟩
  · exact BitVec.setWidth_eq_extractLsb' (show 16 ≤ 32 by decide)
  · simp [ResultsZero]

/-! ### CMD, GO, POLL -/

theorem run_of_step {n : Nat} {s t : State} (h : step s = .next t) :
    Sys2Proof.core.run (n + 1) s = Sys2Proof.core.run n t := by
  have hstep : Sys2Proof.core.step s = .next t := h
  simp [Host.Core.run, hstep]

/-- A `wait` is over once no job runs. -/
theorem step_wait_of_idle {s : State} {rest : List HostAct} (hp : s.seq.phase = .idle) (h : s.host = .wait :: rest) :
    step s = .next { s with host := rest } := by
  have hturn : engineTurn s = false := by simp [engineTurn, hp]
  simp [step, hturn, h, hostAct]

theorem step_readStatus {s : State} {rest : List HostAct} (h : s.host = .regRead 0x14 4 :: rest) :
    step s = .next (({ s with host := rest } : State).returns (.word s.regs.status)) := by
  rw [step_of_pending h (by simp)]
  exact onReg_aligned (by decide) (by decide) _ _

/-- Settles O6: CMD is a register write, GO is START, the wait gives the engine its turn, and POLL reads what that left. -/
theorem hostProgramRunsCommand : Obligations.HostProgramRunsCommand := by
  unfold Obligations.HostProgramRunsCommand
  intro s i hwf hb _ hhost
  have hcmd : step s = .next { s with
      regs := { s.regs with cmd := encodeWord i }, host := [.regWrite 0x00 4 0x1, .wait, .regRead 0x14 4] } :=
    step_regWrite hhost (by decide) (by decide)
  have hgo := step_start (s := { s with
      regs := { s.regs with cmd := encodeWord i }, host := [.regWrite 0x00 4 0x1, .wait, .regRead 0x14 4] }) rfl hb (by decide)
  generalize hs' : startJob _ = s' at hgo
  have hword : latchWord s'.latch = encodeWord i := by
    rw [← hs']
    exact latchWord_latchOf _
  have hs'host : s'.host = [.wait, .regRead 0x14 4] := by rw [← hs']; rfl
  have hjob : step s' = exec i s' := by
    rw [step_of_engineTurn (engineTurn_of_run (by rw [← hs']; rfl) (.inr (by rw [hs'host]; rfl))) (by rw [← hs']; rfl), hword,
      decodeWord_encodeWord hwf]
  obtain ⟨t, ht⟩ := exec_total i s'
  obtain ⟨hkeeps, hidle⟩ := exec_keeps ht
  have hthost : t.host = [.wait, .regRead 0x14 4] := by
    obtain ⟨-, -, -, -, -, -, -, -, hk, -⟩ := hkeeps
    rw [hk, hs'host]
  have hwait := step_wait_of_idle hidle hthost
  have hread := step_readStatus (s := { t with host := [.regRead 0x14 4] }) rfl
  refine ⟨s', t, ({ t with host := [] } : State).returns (.word t.regs.status), hword, by rw [← hs']; rfl, by rw [← hs']; rfl, by rw [← hs']; rfl, by rw [← hs']; rfl, by rw [← hs']; rfl,
    ht, ?_, ?_, rfl, rfl, rfl, rfl, rfl⟩
  · rw [run_of_step hcmd, run_of_step hgo, run_of_step (hjob.trans ht)]
    rfl
  · rw [run_of_step hcmd, run_of_step hgo, run_of_step (hjob.trans ht), run_of_step hwait, run_of_step hread]
    rfl

end Sys2Proof.Machine
end

section
/-! PROOFS. The host's accesses: registers at read-only and reserved offsets (10_state.md R51, R67, R68), accesses outside the
interface (20_memory.md R150, R152, R165), and bytes read and written (R166, R176), by index and by address. -/

namespace Sys2Proof.Machine

/-! ### Register accesses -/

/-- The offsets from 0x14 up take no write (10_state.md R67, R68). -/
theorem writeReg_of_readOnly {off : Nat} (h : 0x14 ≤ off) (v : Word) (s : State) : writeReg off v s = s := by
  unfold writeReg
  split
  case h_6 => rfl
  all_goals omega

theorem regValue_of_reserved {off : Nat} (hm : off % 4 = 0) (h : 0x3C ≤ off) (r : Regs) : regValue off r = 0 := by
  unfold regValue
  split
  case h_16 => rfl
  all_goals omega

theorem step_regRead {s : State} {off : Nat} {rest : List HostAct} (h : s.host = .regRead off 4 :: rest)
    (hm : off % 4 = 0) (hl : off < 0x100) : step s = .next (readReg off { s with host := rest }) := by
  rw [step_of_pending h (by simp)]
  exact onReg_aligned hm hl _ _

/-- A register read completes with the register's value, or while BUSY = 1 with any value for a result register (10_state.md R68). -/
theorem readReg_eq (off : Nat) (s : State) :
    readReg off s = if s.busy = true ∧ 0x18 ≤ off ∧ off ≤ 0x38 then s.returnsAny else s.returns (.word (regValue off s.regs)) := by
  have hfree : (isResultReg off && s.busy) = true ↔ s.busy = true ∧ 0x18 ≤ off ∧ off ≤ 0x38 := by
    simp [isResultReg, and_comm]
  rw [readReg]
  simp only [hfree]

/-- An access of an address that names a register is an access of that register (20_memory.md R152). -/
theorem onBus_of_reg {a n off : Nat} {reg : Nat → State → State} {bytes : List (ByteSpace × Nat) → State → State} {s : State}
    (h : locate s.cfg a = .reg off) : onBus a n reg bytes s = onReg off n (reg off) s := by
  rw [onBus, h]

theorem hostAct_readWord_of_reg {a off : Nat} {s : State} (h : locate s.cfg a = .reg off) :
    hostAct (.bus a .readWord) s = hostAct (.regRead off 4) s := by
  exact onBus_of_reg (n := 4) (reg := readReg)
    (bytes := fun cells t => (readCells cells t).returns ((readCells cells t).readData.asWord s.cfg.busOrder)) h

theorem hostAct_writeWord_of_reg {a off : Nat} {v : Word} {s : State} (h : locate s.cfg a = .reg off) :
    hostAct (.bus a (.writeWord v)) s = hostAct (.regWrite off 4 v) s := by
  exact onBus_of_reg (n := 4) (reg := fun off => writeReg off v) h

/-- Settles O9: the register access by offset, and the one by address as the same access. -/
theorem reservedAndReadOnlyOffsets : Obligations.ReservedAndReadOnlyOffsets := by
  unfold Obligations.ReservedAndReadOnlyOffsets
  refine ⟨fun s off v rest hm hl => ⟨fun hro h => ?_, fun h => ?_, fun hr => regValue_of_reserved hm hr _, fun a ha => ?_⟩,
    fun r => rfl⟩
  · rw [step_regWrite h hm (by omega), writeReg_of_readOnly hro]
  · rw [step_regRead h hm (by omega)]
    have hread : readReg off { s with host := rest } =
        if s.busy = true ∧ 0x18 ≤ off ∧ off ≤ 0x38 then ({ s with host := rest } : State).returnsAny
        else ({ s with host := rest } : State).returns (.word (regValue off s.regs)) := readReg_eq off _
    rw [hread]
    split
    · exact ⟨_, rfl⟩
    · rfl
  · refine ⟨fun h => ?_, fun h => ?_⟩
    · rw [step_of_pending h (by simp), step_of_pending (s := { s with host := .regRead off 4 :: rest }) rfl (by simp)]
      exact hostAct_readWord_of_reg (s := { s with host := rest }) ha
    · rw [step_of_pending h (by simp), step_of_pending (s := { s with host := .regWrite off 4 v :: rest }) rfl (by simp)]
      exact hostAct_writeWord_of_reg (s := { s with host := rest }) ha

/-! ### Accesses outside the interface -/

theorem onReg_of_badShape {off size : Nat} (h : size ≠ 4 ∨ off % 4 ≠ 0) (act : State → State) (s : State) :
    onReg off size act s = .refused (.regAccessShape off size) := by
  rw [onReg, if_pos h]

theorem onReg_of_beyond {off : Nat} (hm : off % 4 = 0) (hl : 0x100 ≤ off) (act : State → State) (s : State) :
    onReg off 4 act s = .fault (.noSuchRegister off) := by
  rw [onReg, if_neg (by simp [hm]), if_pos hl]

theorem onCells_of_beyond {k : ByteSpace} {i n : Nat} {s : State} (h : spaceSize s.cfg k < i + n)
    (act : List (ByteSpace × Nat) → State → State) :
    onCells k i n act s = .fault (.noSuchIndex k (max i (spaceSize s.cfg k))) := by
  rw [onCells, if_pos h]

/-- Every access by address is one `onBus` of as many bytes as it takes in. -/
theorem busAccess_eq_onBus (a : Nat) (op : BusOp) (s : State) :
    ∃ reg bytes, busAccess a op s = onBus a op.size reg bytes s := by
  cases op with
  | readWord => exact ⟨readReg, _, by rw [busAccess]; rfl⟩
  | writeWord v => exact ⟨fun off => writeReg off v, _, by rw [busAccess]; rfl⟩
  | readBytes n => exact ⟨_, readCells, by rw [busAccess]; rfl⟩
  | writeBytes bs => exact ⟨_, fun cells => writeCells cells bs, by rw [busAccess]; rfl⟩

/-- The walk over the addresses of an access stops at the first that holds no byte of a memory. -/
theorem busCells_of_first_not_byte {cfg : Config} {a n j : Nat} (hj : j < n) (hbytes : ∀ l < j, ∃ m b, locate cfg (a + l) = .byte m b)
    (hstop : ∀ m b, locate cfg (a + j) ≠ .byte m b) : busCells cfg a n = .error (a + j) := by
  induction j generalizing a n with
  | zero =>
    obtain ⟨n, rfl⟩ : ∃ n', n = n' + 1 := ⟨n - 1, by omega⟩
    unfold busCells
    split
    · next hl => exact absurd hl (hstop _ _)
    · rfl
  | succ j ih =>
    obtain ⟨n, rfl⟩ : ∃ n', n = n' + 1 := ⟨n - 1, by omega⟩
    obtain ⟨m, b, hmb⟩ := hbytes 0 (by omega)
    have hrest : busCells cfg (a + 1) n = .error (a + (j + 1)) := by
      rw [ih (by omega) (fun l hl => ?_) (fun m b => ?_), Nat.add_right_comm, Nat.add_assoc]
      · rw [Nat.add_assoc, Nat.add_comm 1 l]
        exact hbytes (l + 1) (by omega)
      · rw [Nat.add_assoc, Nat.add_comm 1 j]
        exact hstop m b
    rw [busCells, show locate cfg a = .byte m b from hmb]
    simp only [hrest]
    rfl

section
variable {a n j : Nat} {reg : Nat → State → State} {bytes : List (ByteSpace × Nat) → State → State} {s : State}

/-- An access by address that begins in memory and runs into a register's window is refused (20_memory.md R165). -/
theorem onBus_of_first_reg {off : Nat} (hstart : ∀ o, locate s.cfg a ≠ .reg o) (hcells : busCells s.cfg a n = .error (a + j))
    (hreg : locate s.cfg (a + j) = .reg off) : onBus a n reg bytes s = .refused (.regAccessShape off n) := by
  unfold onBus
  split
  · next o ho => exact absurd ho (hstart o)
  · simp only [hcells, hreg]

/-- An access by address that reaches no space faults there (20_memory.md R152). -/
theorem onBus_of_first_nothing (hstart : ∀ o, locate s.cfg a ≠ .reg o) (hcells : busCells s.cfg a n = .error (a + j))
    (hnone : locate s.cfg (a + j) = .nothing) : onBus a n reg bytes s = .fault (.noSuchAddress (a + j)) := by
  unfold onBus
  split
  · next o ho => exact absurd ho (hstart o)
  · simp only [hcells, hnone]

end

/-- An access begins in no register's window when its first byte is one of a memory, or is in no space. -/
theorem start_not_reg {cfg : Config} {a j : Nat} (hbytes : ∀ l < j, ∃ m b, locate cfg (a + l) = .byte m b)
    (hstop : 0 < j ∨ locate cfg (a + j) = .nothing) (o : Nat) : locate cfg a ≠ .reg o := by
  intro ho
  by_cases hj : 0 < j
  · obtain ⟨m, b, hmb⟩ := hbytes 0 hj
    rw [Nat.add_zero, ho] at hmb
    exact Place.noConfusion hmb
  · obtain rfl : j = 0 := by omega
    have hnone := hstop.resolve_left hj
    rw [Nat.add_zero, ho] at hnone
    exact Place.noConfusion hnone

/-- Settles O10: the shape checks by offset and index, and by address the first location that is no byte of a memory. -/
theorem accessesOutsideTheInterface : Obligations.AccessesOutsideTheInterface := by
  unfold Obligations.AccessesOutsideTheInterface
  intro s rest off size v k i n a bs op
  refine ⟨fun hshape => ⟨fun h => ?_, fun h => ?_⟩, fun hm hl => ⟨fun h => ?_, fun h => ?_⟩,
    fun hsize => ⟨fun h => ?_, fun h hlen => ?_⟩, fun h => ?_⟩
  · exact (step_of_pending h (by simp)).trans (onReg_of_badShape hshape _ _)
  · exact (step_of_pending h (by simp)).trans (onReg_of_badShape hshape _ _)
  · exact (step_of_pending h (by simp)).trans (onReg_of_beyond hm hl _ _)
  · exact (step_of_pending h (by simp)).trans (onReg_of_beyond hm hl _ _)
  · exact (step_of_pending h (by simp)).trans (onCells_of_beyond (s := { s with host := rest }) hsize readCells)
  · subst hlen
    exact (step_of_pending h (by simp)).trans
      (onCells_of_beyond (s := { s with host := rest }) hsize fun cells => writeCells cells bs)
  · obtain ⟨reg, bytes, hbus⟩ := busAccess_eq_onBus a op { s with host := rest }
    have hstep : step s = onBus a op.size reg bytes { s with host := rest } := (step_of_pending h (by simp)).trans hbus
    rw [hstep]
    refine ⟨fun hreg hshape => (onBus_of_reg (s := { s with host := rest }) hreg).trans (onReg_of_badShape hshape _ _), fun j hj hbytes => ⟨fun hpos hreg => ?_,
      fun hnone => ?_⟩⟩
    · exact onBus_of_first_reg (s := { s with host := rest }) (start_not_reg hbytes (.inl hpos))
        (busCells_of_first_not_byte hj hbytes fun m b => by rw [hreg]; exact Place.noConfusion) hreg
    · exact onBus_of_first_nothing (s := { s with host := rest }) (start_not_reg hbytes (.inr hnone))
        (busCells_of_first_not_byte hj hbytes fun m b => by rw [hnone]; exact Place.noConfusion) hnone

/-! ### Bytes written -/

theorem step_memWrite {s : State} {k : ByteSpace} {i : Nat} {bs : List Byte} {rest : List HostAct}
    (h : s.host = .memWrite k i bs :: rest) (hsize : i + bs.length ≤ spaceSize s.cfg k) :
    step s = .next (writeCells (cellsFrom k i bs.length) bs { s with host := rest }) := by
  rw [step_of_pending h (by simp), hostAct, onCells, if_neg (by simpa using hsize)]

theorem step_memRead {s : State} {k : ByteSpace} {i n : Nat} {rest : List HostAct} (h : s.host = .memRead k i n :: rest)
    (hsize : i + n ≤ spaceSize s.cfg k) : step s = .next (readCells (cellsFrom k i n) { s with host := rest }) := by
  rw [step_of_pending h (by simp), hostAct, onCells, if_neg (by simpa using hsize)]

/-- IN after bytes were written there: those bytes, and the others as they were. -/
theorem read_writeCells_inn (i c : Nat) (bs : List Byte) (s : State) :
    (writeCells (cellsFrom .inn i bs.length) bs s).inn.read .inn c =
      if i ≤ c ∧ c < i + bs.length then bs.getD (c - i) 0 else s.inn.read .inn c := by
  rw [writeCells_inn, Space.read_writeList]

theorem cellsFrom_succ (k : ByteSpace) (i n : Nat) : cellsFrom k i (n + 1) = (k, i) :: cellsFrom k (i + 1) n := by
  simp [cellsFrom, List.range'_succ]

/-- Once IN has been touched it stays so until the next START. -/
theorem writeCells_inTouched_of_touched {cells : List (ByteSpace × Nat)} {bs : List Byte} {s : State} (h : s.inTouched = true) :
    (writeCells cells bs s).inTouched = true := by
  induction cells generalizing bs s with
  | nil => exact h
  | cons c rest ih =>
    cases bs with
    | nil => exact h
    | cons b bs =>
      obtain ⟨k, i⟩ := c
      rw [writeCells_cons]
      refine ih ?_
      cases k <;> simp [writeByte, h]

/-- A write to IN while BUSY = 1 is remembered (20_memory.md R176). -/
theorem writeCells_inTouched_of_busy {i : Nat} {bs : List Byte} {s : State} (hb : s.busy = true) (hbs : bs ≠ []) :
    (writeCells (cellsFrom .inn i bs.length) bs s).inTouched = true := by
  obtain ⟨b, rest, rfl⟩ := List.exists_cons_of_ne_nil hbs
  rw [List.length_cons, cellsFrom_succ, writeCells_cons]
  exact writeCells_inTouched_of_touched (by simp [writeByte, hb])

/-- A write of IN while no job runs leaves no trace but its bytes. -/
theorem writeCells_inn_of_idle (i : Nat) (bs : List Byte) {s : State} (hb : s.busy = false) :
    writeCells (cellsFrom .inn i bs.length) bs s = { s with inn := s.inn.writeList i bs } := by
  induction bs generalizing i s with
  | nil => rfl
  | cons b rest ih =>
    rw [List.length_cons, cellsFrom_succ, writeCells_cons, ih]
    · simp [writeByte, hb, Space.writeList]
    · simpa [State.busy] using hb

theorem freeErr_mem_raisable (n : Nat) : freeErr n ∈ Err.raisable := by
  rw [freeErr, List.getD_eq_getElem _ _ (Nat.mod_lt _ (by decide))]
  exact List.getElem_mem _

theorem endUnconstrained_status (s : State) :
    (endUnconstrained s).regs.status = statusDone ∨ ∃ e ∈ Err.raisable, (endUnconstrained s).regs.status = e.status := by
  rw [endUnconstrained_regs_status]
  split
  · exact .inl rfl
  · exact .inr ⟨_, freeErr_mem_raisable _, rfl⟩

theorem step_of_engineTurn_of_touched {s : State} (h : engineTurn s = true) (ht : s.inTouched = true) :
    step s = .next (endUnconstrained s) := by
  simp [step, h, engineStep, ht]

/-- Settles O19: the write is stored and remembered, and the turn after it ends the job with free results. -/
theorem inputWrittenDuringAJob : Obligations.InputWrittenDuringAJob := by
  unfold Obligations.InputWrittenDuringAJob
  refine ⟨fun s a bs rest hb hbs hsize hhost => ?_, fun s hp ht hh => ?_⟩
  · exact ⟨_, step_memWrite hhost hsize, writeCells_inTouched_of_busy hb hbs, fun c => read_writeCells_inn a c bs _,
      writeCells_regs .., writeCells_latch .., writeCells_seq ..⟩
  · exact ⟨_, step_of_engineTurn_of_touched (engineTurn_of_run hp hh) ht, rfl, rfl, rfl, endUnconstrained_status s⟩

/-! ### LOAD -/

/-- The writes of LOAD, one step each, while no job runs. -/
theorem run_loadActs {s : State} {k : Nat} {bs : List Byte} (hb : s.busy = false) (hhost : s.host = loadActs k bs)
    (hsize : k + bs.length ≤ s.cfg.inCap) :
    Sys2Proof.core.run bs.length s = .next { s with host := [], inn := s.inn.writeList k bs } := by
  induction bs generalizing s k with
  | nil =>
    have hnil : s.host = [] := hhost
    show Host.Outcome.next s = _
    rw [← hnil]
    rfl
  | cons b rest ih =>
    rw [List.length_cons] at hsize
    have hstep : step s = .next { s with host := loadActs (k + 1) rest, inn := s.inn.write k b } := by
      rw [step_memWrite hhost (by simp only [spaceSize, List.length_singleton]; omega), writeCells_inn_of_idle _ _ (by exact hb)]
      rfl
    rw [List.length_cons, run_of_step hstep, ih (by exact hb) rfl (by show k + 1 + rest.length ≤ s.cfg.inCap; omega)]
    rfl

/-! ### What a write leaves in the memories -/

theorem space_writeByte_of_ne {k l : ByteSpace} (h : l ≠ k) (i : Nat) (b : Byte) (s : State) :
    (writeByte k i b s).space l = s.space l := by
  cases k <;> cases l <;> first | rfl | exact absurd rfl h

theorem read_writeByte_of_ne {k : ByteSpace} {i a : Nat} (h : i ≠ a) (b : Byte) (s : State) :
    ((writeByte k i b s).space k).read k a = (s.space k).read k a := by
  cases k <;> exact (Space.read_write _ _ _ _ _).trans (if_neg h)

theorem space_writeCells_of_ne {k l : ByteSpace} (h : l ≠ k) (i n : Nat) (bs : List Byte) (s : State) :
    (writeCells (cellsFrom k i n) bs s).space l = s.space l := by
  induction n generalizing i bs s with
  | zero => rfl
  | succ n ih =>
    cases bs with
    | nil => rfl
    | cons b bs => rw [cellsFrom_succ, writeCells_cons, ih, space_writeByte_of_ne h]

theorem read_writeCells_outside {k : ByteSpace} {i n a : Nat} (h : a < i ∨ i + n ≤ a) (bs : List Byte) (s : State) :
    ((writeCells (cellsFrom k i n) bs s).space k).read k a = (s.space k).read k a := by
  induction n generalizing i bs s with
  | zero => rfl
  | succ n ih =>
    cases bs with
    | nil => rfl
    | cons b bs => rw [cellsFrom_succ, writeCells_cons, ih (by omega), read_writeByte_of_ne (by omega)]

/-! ### Bytes read -/

theorem slice_eq_map_range' (k : ByteSpace) (m : Space) (i n : Nat) : m.slice k i n = (List.range' i n).map (m.read k) := by
  induction n generalizing i with
  | zero => rfl
  | succ n ih => rw [Space.slice, List.range'_succ, List.map_cons, ih]

/-- A read of bytes that do not read as any value gives the bytes that stand there, and takes no free value. -/
theorem readCells_of_stable {k : ByteSpace} {s : State} (h : readsFree s k = false) (i n : Nat) :
    readCells (cellsFrom k i n) s = { s with readData := .bytes ((s.space k).slice k i n) } := by
  have hany : ((cellsFrom k i n).any fun c => readsFree s c.1) = false := by
    simp [cellsFrom, h]
  have hmap : (cellsFrom k i n).map (byteValue s) = (s.space k).slice k i n := by
    rw [slice_eq_map_range', cellsFrom, List.map_map]
    exact List.map_congr_left fun a _ => by simp [byteValue, h]
  rw [readCells, hany, hmap]
  rfl

theorem readsFree_eq_false {s : State} {k : ByteSpace} (h : k = .inn ∨ s.busy = false) : readsFree s k = false := by
  rcases h with rfl | h <;> simp [readsFree, *]

/-! ### Accesses by address -/

theorem busCells_of_bytes {cfg : Config} {a i n : Nat} {k : ByteSpace} (h : ∀ j < n, locate cfg (a + j) = .byte k (i + j)) :
    busCells cfg a n = .ok (cellsFrom k i n) := by
  induction n generalizing a i with
  | zero => rfl
  | succ n ih =>
    have hhere : locate cfg a = .byte k i := h 0 (by omega)
    have hrest : busCells cfg (a + 1) n = .ok (cellsFrom k (i + 1) n) := ih fun j hj => by
      rw [Nat.add_assoc, Nat.add_assoc, Nat.add_comm 1 j]
      exact h (j + 1) (by omega)
    rw [busCells, hhere, cellsFrom_succ]
    simp only [hrest]
    rfl

/-- An access whose addresses the map places one after another in a memory is an access of those bytes (20_memory.md R152). -/
theorem onBus_of_bytes {a i n : Nat} {k : ByteSpace} {reg : Nat → State → State}
    {bytes : List (ByteSpace × Nat) → State → State} {s : State} (hn : 1 ≤ n)
    (h : ∀ j < n, locate s.cfg (a + j) = .byte k (i + j)) : onBus a n reg bytes s = .next (bytes (cellsFrom k i n) s) := by
  have hhere : locate s.cfg a = .byte k i := h 0 (by omega)
  rw [onBus, hhere]
  simp only [busCells_of_bytes h]

theorem wordBytes_length (o : ByteOrder) (v : Word) : (wordBytes o v).length = 4 := by
  cases o <;> rfl

/-- Four bytes in big-endian order as a word: the first is the most significant (20_memory.md R155). -/
theorem ofNat_beNat_quad (a b c d : Byte) :
    (BitVec.ofNat 32 (beNat [a, b, c, d])).extractLsb' 24 8 = a ∧ (BitVec.ofNat 32 (beNat [a, b, c, d])).extractLsb' 16 8 = b ∧
      (BitVec.ofNat 32 (beNat [a, b, c, d])).extractLsb' 8 8 = c ∧ (BitVec.ofNat 32 (beNat [a, b, c, d])).extractLsb' 0 8 = d := by
  have ha := a.isLt
  have hb := b.isLt
  have hc := c.isLt
  have hd := d.isLt
  simp only [← BitVec.toNat_inj, BitVec.extractLsb'_toNat, BitVec.toNat_ofNat, Nat.shiftRight_eq_div_pow, beNat, List.foldl_cons,
    List.foldl_nil]
  omega

/-- Four bytes read as a word in the bus's order are that word's bytes in the same order (20_memory.md R156). -/
theorem wordBytes_bytesWord (o : ByteOrder) {bs : List Byte} (h : bs.length = 4) : wordBytes o (bytesWord o bs) = bs := by
  obtain ⟨a, b, c, d, rfl⟩ : ∃ a b c d, bs = [a, b, c, d] := by
    match bs, h with
    | [a, b, c, d], _ => exact ⟨a, b, c, d, rfl⟩
  cases o with
  | little =>
    obtain ⟨h24, h16, h8, h0⟩ := ofNat_beNat_quad d c b a
    simp [wordBytes, bytesWord, h24, h16, h8, h0]
  | big =>
    obtain ⟨h24, h16, h8, h0⟩ := ofNat_beNat_quad a b c d
    simp [wordBytes, bytesWord, h24, h16, h8, h0]

/-- The step of an access by address whose addresses the map places in one memory. -/
theorem step_bus_of_bytes {s : State} {a i : Nat} {k : ByteSpace} {op : BusOp} {rest : List HostAct}
    {reg : Nat → State → State} {bytes : List (ByteSpace × Nat) → State → State} (h : s.host = .bus a op :: rest)
    (hop : ∀ t, t.cfg = s.cfg → busAccess a op t = onBus a op.size reg bytes t) (hn : 1 ≤ op.size)
    (hloc : ∀ j < op.size, locate s.cfg (a + j) = .byte k (i + j)) :
    step s = .next (bytes (cellsFrom k i op.size) { s with host := rest }) := by
  rw [step_of_pending h (by simp), hostAct, hop { s with host := rest } rfl]
  exact onBus_of_bytes (s := { s with host := rest }) hn hloc

/-- Settles O20: accesses of bytes by index, and the accesses by address that the map makes the same. -/
theorem loadFillsInput : Obligations.LoadFillsInput := by
  unfold Obligations.LoadFillsInput
  refine ⟨fun s k bs hb hhost hsize => ?_, fun s k i n bs rest hsize => ⟨fun hlen hhost => ?_, fun hhost => ?_,
    fun a v hn hloc => ⟨fun hhost => ?_, fun hlen hhost => ?_, fun h4 hhost => ?_, fun h4 hhost => ?_⟩⟩⟩
  · exact ⟨_, run_loadActs hb hhost hsize, rfl, fun a => Space.read_writeList .inn s.inn k a bs, rfl, rfl, rfl, rfl⟩
  · subst hlen
    refine ⟨_, step_memWrite hhost hsize, writeCells_host .., writeCells_regs .., writeCells_latch .., writeCells_seq ..,
      writeCells_units .., writeCells_cfg .., writeCells_readData .., fun l hl => space_writeCells_of_ne hl i _ bs _,
      fun a ha => read_writeCells_outside ha bs _, ?_⟩
    rintro rfl j hj
    rw [read_writeCells_inn, if_pos (by omega), Nat.add_sub_cancel_left]
  · rw [step_memRead hhost hsize]
    split
    · next hst => rw [readCells_of_stable (s := { s with host := rest }) (readsFree_eq_false hst)]; rfl
    · exact ⟨_, _, by simp, rfl⟩
  · rw [step_bus_of_bytes (op := .readBytes n) hhost (fun t _ => rfl) hn hloc, step_memRead (s := { s with host := .memRead k i n :: rest }) rfl hsize]
    rfl
  · subst hlen
    rw [step_bus_of_bytes (op := .writeBytes bs) hhost (fun t _ => rfl) hn hloc,
      step_memWrite (s := { s with host := .memWrite k i bs :: rest }) rfl hsize]
    rfl
  · subst h4
    have hlen := wordBytes_length s.cfg.busOrder v
    rw [step_bus_of_bytes (op := .writeWord v) (bytes := fun cells => writeCells cells (wordBytes s.cfg.busOrder v)) hhost
        (fun t ht => by rw [← ht]; rfl) hn hloc,
      step_memWrite (s := { s with host := .memWrite k i (wordBytes s.cfg.busOrder v) :: rest }) rfl (by rw [hlen]; exact hsize), hlen]
    rfl
  · subst h4
    rw [step_bus_of_bytes (op := .readWord)
      (bytes := fun cells t => (readCells cells t).returns ((readCells cells t).readData.asWord s.cfg.busOrder)) hhost
      (fun t ht => by rw [← ht]; rfl) hn hloc]
    split
    · next hst =>
      refine ⟨bytesWord s.cfg.busOrder ((s.space k).slice k i 4), wordBytes_bytesWord _ (Space.slice_length ..), ?_⟩
      simp only [BusOp.size]
      rw [readCells_of_stable (s := { s with host := rest }) (readsFree_eq_false hst)]
      rfl
    · exact ⟨_, _, rfl⟩

end Sys2Proof.Machine
end

section
/-! PROOFS. The two CRC algorithms (41_common.md R350-R352): CRC-16/XMODEM loses nothing of its register, so only a sequence's own
CRC empties it, and CRC-16/ARC is a CRC of polynomial 0x8005 read from the other end. -/

namespace Sys2Proof.Machine

/-! ### CRC-16/XMODEM loses nothing -/

/-- A shift's lowest bit is the bit that it moves out at the top: the polynomial is odd. -/
theorem getLsbD_crcXmodemShift_zero (c : Half) : (crcXmodemShift c).getLsbD 0 = c.getLsbD 15 := by
  unfold crcXmodemShift
  split
  · next h =>
    rw [h]
    simp
  · next h =>
    rw [Bool.eq_false_iff.2 h]
    simp

theorem shiftLeft_one_injective_of_msb {c d : Half} (htop : c.getLsbD 15 = d.getLsbD 15) (h : c <<< 1 = d <<< 1) : c = d := by
  apply BitVec.eq_of_getLsbD_eq
  intro i hi
  by_cases h15 : i = 15
  · rw [h15, htop]
  · have hbit := congrArg (·.getLsbD (i + 1)) h
    simpa [show i + 1 < 16 by omega, BitVec.getLsbD_eq_getElem hi] using hbit

theorem crcXmodemShift_injective {c d : Half} (h : crcXmodemShift c = crcXmodemShift d) : c = d := by
  have htop : c.getLsbD 15 = d.getLsbD 15 := by
    rw [← getLsbD_crcXmodemShift_zero, h, getLsbD_crcXmodemShift_zero]
  refine shiftLeft_one_injective_of_msb htop ?_
  rw [crcXmodemShift, crcXmodemShift, htop] at h
  split at h
  · exact (BitVec.xor_left_inj _).1 h
  · exact h

theorem crcXmodemShifts_injective {n : Nat} {c d : Half} (h : crcXmodemShifts n c = crcXmodemShifts n d) : c = d := by
  induction n generalizing c d with
  | zero => exact h
  | succ n ih => exact crcXmodemShift_injective (ih h)

theorem crcXmodemByte_injective {c d : Half} {b : Byte} (h : crcXmodemByte c b = crcXmodemByte d b) : c = d :=
  (BitVec.xor_left_inj _).1 (crcXmodemShifts_injective h)

theorem crcXmodem_append_pair (d : List Byte) (a b : Byte) :
    crcXmodem (d ++ [a, b]) = crcXmodemByte (crcXmodemByte (crcXmodem d) a) b :=
  List.foldl_append

theorem extractLsb'_append_pair (a b : Byte) :
    (a ++ b : BitVec (8 + 8)).extractLsb' 8 8 = a ∧ (a ++ b : BitVec (8 + 8)).extractLsb' 0 8 = b := by
  constructor
  · apply BitVec.eq_of_getLsbD_eq
    intro i hi
    rw [BitVec.getLsbD_extractLsb', BitVec.getLsbD_append]
    simp [hi]
  · apply BitVec.eq_of_getLsbD_eq
    intro i hi
    rw [BitVec.getLsbD_extractLsb', BitVec.getLsbD_append]
    simp [hi]

/-- The register holding the two bytes is emptied by them, one after the other. -/
theorem crcXmodemByte_append_pair (a b : Byte) : crcXmodemByte (a ++ b : BitVec (8 + 8)) a = b.setWidth 16 <<< 8 := by
  obtain ⟨hhigh, hlow⟩ := extractLsb'_append_pair a b
  have h := crcXmodemByte_high (a ++ b : BitVec (8 + 8))
  rwa [hhigh, hlow] at h

/-- Settles O28: the last two bytes empty the register that holds them, and no other, since each byte's step loses nothing. -/
theorem crcSelfCheck : Obligations.CrcSelfCheck := by
  unfold Obligations.CrcSelfCheck
  intro d a b
  have hempty : crcXmodemByte (crcXmodemByte (a ++ b : BitVec (8 + 8)) a) b = 0 := by
    rw [crcXmodemByte_append_pair, crcXmodemByte_cancel]
  rw [crcXmodem_append_pair, ← hempty]
  exact ⟨fun h => crcXmodemByte_injective (crcXmodemByte_injective h), fun h => by rw [h]⟩

/-! ### CRC-16/ARC from the other end -/

/-- One shift of the unreflected CRC of polynomial 0x8005. -/
def crc8005Shift (c : Half) : Half := if c.getLsbD 15 then (c <<< 1) ^^^ 0x8005 else c <<< 1

theorem reverse_shiftRight_one (c : Half) : (c >>> 1).reverse = c.reverse <<< 1 := by
  apply BitVec.eq_of_getLsbD_eq
  intro i hi
  rw [BitVec.getLsbD_reverse, BitVec.getMsbD_eq_getLsbD, BitVec.getLsbD_ushiftRight, BitVec.getLsbD_shiftLeft,
    BitVec.getLsbD_reverse, BitVec.getMsbD_eq_getLsbD]
  by_cases h0 : i = 0
  · simp [h0]
  · simp [hi, show i - 1 < 16 by omega, show 1 + (15 - i) = 15 - (i - 1) by omega, show ¬ i < 1 by omega]

theorem reverse_xor_half (c d : Half) : (c ^^^ d).reverse = c.reverse ^^^ d.reverse := by
  apply BitVec.eq_of_getLsbD_eq
  intro i hi
  rw [BitVec.getLsbD_xor, BitVec.getLsbD_reverse, BitVec.getLsbD_reverse, BitVec.getLsbD_reverse, BitVec.getMsbD_xor]

theorem reverse_crcArcShift (c : Half) : (crcArcShift c).reverse = crc8005Shift c.reverse := by
  have hbit : c.reverse.getLsbD 15 = c.getLsbD 0 := by
    rw [BitVec.getLsbD_reverse]
    rfl
  rw [crcArcShift, crc8005Shift, hbit]
  split
  · rw [reverse_xor_half, reverse_shiftRight_one]
    rfl
  · exact reverse_shiftRight_one c

theorem reverse_crcArcShifts (n : Nat) (c : Half) : (crcArcShifts n c).reverse = crc8005Shift^[n] c.reverse := by
  induction n generalizing c with
  | zero => rfl
  | succ n ih => rw [crcArcShifts, ih, reverse_crcArcShift, Function.iterate_succ_apply]

theorem reverse_setWidth_byte (b : Byte) : (b.setWidth 16).reverse = (b.reverse.setWidth 16 : Half) <<< 8 := by
  revert b
  decide +kernel

theorem reverse_crcArcByte (c : Half) (b : Byte) : (crcArcByte c b).reverse = Reference.crc8005Byte c.reverse b.reverse := by
  rw [crcArcByte, reverse_crcArcShifts, reverse_xor_half, reverse_setWidth_byte]
  rfl

theorem reverse_foldl_crcArcByte (d : List Byte) (c : Half) :
    (d.foldl crcArcByte c).reverse = (d.map BitVec.reverse).foldl Reference.crc8005Byte c.reverse := by
  induction d generalizing c with
  | nil => rfl
  | cons b rest ih => rw [List.foldl_cons, ih, reverse_crcArcByte, List.map_cons, List.foldl_cons]

/-- Settles O29: each shift, and so each byte, of the one is the other's, bit-reversed. -/
theorem crcArcIsTheReflectedCrc : Obligations.CrcArcIsTheReflectedCrc := by
  unfold Obligations.CrcArcIsTheReflectedCrc
  intro d
  have hzero : (0 : Half).reverse = 0 := by decide
  rw [crcArc, Reference.crcReflected, ← hzero, ← reverse_foldl_crcArcByte, BitVec.reverse_reverse_eq, hzero]

end Sys2Proof.Machine
end

section
/-! PROOFS. What every fork op shares (40_job_control.md R307, R316): a byte step that hands out a known sequence, and the end of the
job that it leads to. -/

namespace Sys2Proof.Machine

/-! ### A step that hands out a known sequence -/

/-- From every state that stands for a sequence, the step gives the sequence's first byte and stands for the rest of it. -/
def Streams {σ : Type} (p : σ → Except Raise (Byte × σ)) (R : σ → List Byte → Prop) : Prop :=
  ∀ u b rest, R u (b :: rest) → ∃ v, p u = .ok (b, v) ∧ R v rest

section
variable {σ : Type} {p : σ → Except Raise (Byte × σ)} {R : σ → List Byte → Prop} (hp : Streams p R)
include hp

/-- As many bytes as the sequence has. -/
theorem Streams.forkLoop_take {n : Nat} {u : σ} {out : List Byte} (h : R u out) (hn : n ≤ out.length) :
    ∃ v, forkLoop p n u = .ok (out.take n, v) ∧ R v (out.drop n) := by
  induction n generalizing u out with
  | zero => exact ⟨u, rfl, h⟩
  | succ n ih =>
    obtain ⟨b, rest, rfl⟩ := List.exists_cons_of_length_pos (l := out) (by omega)
    obtain ⟨v, hv, hrest⟩ := hp u b rest h
    obtain ⟨w, hw, hdrop⟩ := ih hrest (by simpa using hn)
    refine ⟨w, ?_, hdrop⟩
    rw [forkLoop_succ, hv, except_ok_bind, hw]
    rfl

theorem Streams.forkLoop_all {u : σ} {out : List Byte} (h : R u out) :
    ∃ v, forkLoop p out.length u = .ok (out, v) ∧ R v [] := by
  obtain ⟨v, hv, hnil⟩ := hp.forkLoop_take h le_rfl
  rw [List.take_length] at hv
  rw [List.drop_length] at hnil
  exact ⟨v, hv, hnil⟩

/-- More bytes than the sequence has: the error that the step meets behind them. -/
theorem Streams.forkLoop_beyond {n : Nat} {u : σ} {out : List Byte} {q : Raise} (h : R u out)
    (hend : ∀ v, R v [] → p v = .error q) (hn : out.length < n) : forkLoop p n u = .error (q.after out.length) := by
  obtain ⟨v, hv, hnil⟩ := hp.forkLoop_all h
  exact forkLoop_of_error hv (hend v hnil) hn

end

/-! ### The end of a fork op -/

/-- CheckCommand passes a fork op of the block whose lengths fit (40_job_control.md R301). -/
theorem checkCommand_of_forkFits {s : State} {op : BitVec 8} (hres : isReservedOp op = false) (hunsup : isUnsupOp op = false)
    (hfit : s.forkFits) : checkCommand s 0 op = .ok () :=
  checkCommand_eq_ok.2 ⟨rfl, hres, hfit.1, hunsup, fun _ => hfit.2⟩

/-- A job that ends with a result that names nothing and fits OUT. -/
theorem endJob_doneWith {s : State} {r : JobResult} (hname : r.name = none) (hlen : r.out.length ≤ s.cfg.outCap) :
    ∃ t, endJob s (.ok r) = .next t ∧ DoneWith s t r.out
      { crcOut := zext32 r.crcOut, result := r.result, dataLen := r.dataLen, rsrcLen := r.rsrcLen, mdType := r.mdType,
        mdCreator := r.mdCreator, mdFlags := zext32 r.mdFlags } :=
  ⟨_, endJob_ok s r hlen, doneWith_finishJob s r hname⟩

theorem forkResult_of_crc_mismatch {c : Bool} {s : State} {fork : List Byte} {u : Units} {p k : Nat}
    (h : c = true ∧ crcArc fork ≠ s.latch.expCrc) :
    forkResult c s fork u p k = .error { err := .intForkCrc, outCount := fork.length, bpos := p, bitpos := k } := by
  obtain ⟨rfl, hcrc⟩ := h
  have hcheck : forkCrcCheck true s fork = .error .intForkCrc := by
    simp [forkCrcCheck, hcrc]
  rw [forkResult, hcheck]
  rfl

/-- The end of a StuffIt fork op that has produced its fork (40_job_control.md R316). -/
theorem stuffItForkEnds_forkResult {c : Bool} {s : State} {fork : List Byte} (u : Units) (p k : Nat)
    (hlen : fork.length ≤ s.cfg.outCap) : StuffItForkEnds s c (endJob s (forkResult c s fork u p k)) fork := by
  unfold StuffItForkEnds
  split
  · next h =>
    rw [forkResult_of_crc_mismatch h]
    exact ⟨_, rfl, failedWith_raiseError _ s⟩
  · next h =>
    rw [forkResult_of_crc fun hc => not_not.1 fun hne => h ⟨hc, hne⟩]
    exact endJob_doneWith rfl hlen

theorem length_take_le_outCap {s : State} (hfit : s.forkFits) (out : List Byte) :
    (out.take s.latch.outLen.toNat).length ≤ s.cfg.outCap :=
  (List.length_take_le _ _).trans hfit.2

end Sys2Proof.Machine
end

section
/-! PROOFS. SIT_RAW (40_job_control.md R310) and SIT_RLE90 (45_stuffit_rle90_lzw.md R580-R586): the byte steps hand out the bytes the
whole input stands for. -/

namespace Sys2Proof.Machine
open Reference (rle90)

/-! ### ReadByte -/

/-- The byte cursor stands before these bytes, the last of the input. -/
def CursorAt (bs : List Byte) (p : Nat) (rest : List Byte) : Prop := p ≤ bs.length ∧ bs.drop p = rest

theorem cursorAt_zero (bs : List Byte) : CursorAt bs 0 bs := ⟨Nat.zero_le _, rfl⟩

theorem CursorAt.succ {bs rest : List Byte} {p : Nat} {b : Byte} (h : CursorAt bs p (b :: rest)) : CursorAt bs (p + 1) rest := by
  obtain ⟨-, hdrop⟩ := h
  have hlen := congrArg List.length hdrop
  rw [List.length_drop, List.length_cons] at hlen
  exact ⟨by omega, by rw [← List.drop_drop, hdrop]; rfl⟩

theorem CursorAt.eq_length {bs : List Byte} {p : Nat} (h : CursorAt bs p []) : p = bs.length := by
  obtain ⟨hle, hdrop⟩ := h
  have hge := List.drop_eq_nil_iff.1 hdrop
  omega

theorem streams_readByte (bs : List Byte) : Streams (readByte bs) (CursorAt bs) := by
  intro p b rest h
  have hget : bs[p]? = some b := by
    rw [← List.head?_drop, h.2]
    rfl
  exact ⟨p + 1, by simp [readByte, hget], h.succ⟩

theorem readByte_at_end {bs : List Byte} {p : Nat} (h : CursorAt bs p []) :
    readByte bs p = .error (.atByte bs.length .trnEof) := by
  rw [h.eq_length]
  simp [readByte]

/-! ### SIT_RAW -/

theorem sitRawJob_of_input {s : State} {bs : List Byte} (c : Bool) (h : s.inputIs bs) (hfit : s.forkFits) :
    sitRawJob c s = forkLoop (readByte bs) s.latch.outLen.toNat 0 >>= fun r => forkResult c s r.1 s.units r.2 0 := by
  rw [sitRawJob, checkCommand_of_forkFits (by decide) (by decide) hfit, except_ok_bind, jobInput_of_inputIs h, jobOutLen]
  rfl

/-- Settles O32: ReadByte hands out the input's bytes. -/
theorem sitRawCopies : Obligations.SitRawCopies := by
  unfold Obligations.SitRawCopies
  intro s c bs h hfit
  rw [exec_sitRaw, sitRawJob_of_input c h hfit]
  refine ⟨fun hn => ?_, fun hn => ?_⟩
  · obtain ⟨v, hv, -⟩ := (streams_readByte bs).forkLoop_take (cursorAt_zero bs) hn
    rw [hv, except_ok_bind]
    exact stuffItForkEnds_forkResult _ _ _ (length_take_le_outCap hfit bs)
  · rw [(streams_readByte bs).forkLoop_beyond (cursorAt_zero bs) (fun v => readByte_at_end) hn, except_error_bind, endJob_error]
    exact ⟨_, rfl, failedWith_raiseError _ s, rfl⟩

/-! ### SIT_RLE90 -/

/-- What the unit still stands for: its pending copies, and the expansion of the input behind its cursor. -/
def Rle90At (bs : List Byte) (w : Rle90Unit × Nat) (out : List Byte) : Prop :=
  ∃ rest, CursorAt bs w.2 rest ∧ out = List.replicate w.1.rep w.1.last ++ rle90 w.1.last rest

theorem rle90_literal {last b : Byte} (hb : b ≠ 0x90) (rest : List Byte) : rle90 last (b :: rest) = b :: rle90 b rest := by
  cases rest <;> simp only [rle90, if_pos hb]

theorem rle90_escape (last n : Byte) (rest : List Byte) :
    rle90 last (0x90 :: n :: rest) =
      if n = 0x00 then 0x90 :: rle90 last rest else List.replicate (n.toNat - 1) last ++ rle90 last rest := by
  simp [rle90]

/-- A repeat count that is neither 0 nor 1. -/
theorem two_le_toNat {n : Byte} (h0 : n ≠ 0x00) (h1 : n ≠ 0x01) : 2 ≤ n.toNat := by
  have h0' : n.toNat ≠ 0 := fun h => h0 (BitVec.eq_of_toNat_eq h)
  have h1' : n.toNat ≠ 1 := fun h => h1 (BitVec.eq_of_toNat_eq h)
  omega

theorem replicate_pred {n : Nat} (h : 2 ≤ n) (b : Byte) : List.replicate (n - 1) b = b :: List.replicate (n - 2) b := by
  obtain ⟨m, rfl⟩ : ∃ m, n = m + 2 := ⟨n - 2, by omega⟩
  rfl

/-- With no copy pending, the scan gives the first byte of the expansion, or TRN_EOF at the end of input where there is none. -/
theorem rle90Scan_spec {bs : List Byte} (last : Byte) (rest : List Byte) (p : Nat) (h : CursorAt bs p rest) :
    (∀ b out, rle90 last rest = b :: out → ∃ w, rle90Scan last rest p = .ok (b, w) ∧ Rle90At bs w out) ∧
      (rle90 last rest = [] → rle90Scan last rest p = .error (.atByte bs.length .trnEof)) := by
  induction rest, p using rle90Scan.induct with
  | case1 p =>
    refine ⟨fun b out hout => by simp [rle90] at hout, fun _ => ?_⟩
    rw [rle90Scan, h.eq_length]
  | case2 b p hb =>
    rw [rle90_literal hb, rle90Scan, if_pos hb]
    refine ⟨fun b' out hout => ?_, fun hnil => by simp at hnil⟩
    obtain ⟨rfl, rfl⟩ := List.cons.inj hout
    exact ⟨_, rfl, [], h.succ, rfl⟩
  | case3 b p hb =>
    obtain rfl : b = 0x90 := not_not.1 hb
    refine ⟨fun b' out hout => by simp [rle90] at hout, fun _ => ?_⟩
    rw [rle90Scan, if_neg hb, h.succ.eq_length]
  | case4 b n rest p hb =>
    rw [rle90_literal hb, rle90Scan, if_pos hb]
    refine ⟨fun b' out hout => ?_, fun hnil => by simp at hnil⟩
    obtain ⟨rfl, rfl⟩ := List.cons.inj hout
    exact ⟨_, rfl, n :: rest, h.succ, rfl⟩
  | case5 b rest p hb =>
    obtain rfl : b = 0x90 := not_not.1 hb
    rw [rle90_escape, if_pos rfl, rle90Scan, if_neg hb, if_pos rfl]
    refine ⟨fun b' out hout => ?_, fun hnil => by simp at hnil⟩
    obtain ⟨rfl, rfl⟩ := List.cons.inj hout
    exact ⟨_, rfl, rest, h.succ.succ, rfl⟩
  | case6 b rest p hb hn ih =>
    obtain rfl : b = 0x90 := not_not.1 hb
    rw [rle90_escape, if_neg hn, rle90Scan, if_neg hb, if_neg hn, if_pos rfl]
    exact ih h.succ.succ
  | case7 b n rest p hb h0 h1 =>
    obtain rfl : b = 0x90 := not_not.1 hb
    rw [rle90_escape, if_neg h0, rle90Scan, if_neg hb, if_neg h0, if_neg h1, replicate_pred (two_le_toNat h0 h1)]
    refine ⟨fun b' out hout => ?_, fun hnil => by simp at hnil⟩
    obtain ⟨rfl, rfl⟩ := List.cons.inj hout
    exact ⟨_, rfl, rest, h.succ.succ, rfl⟩

theorem rle90Step_of_pending {bs : List Byte} {u : Rle90Unit} {p : Nat} (h : 0 < u.rep) :
    rle90Step bs (u, p) = .ok (u.last, { u with rep := u.rep - 1 }, p) := by
  rw [rle90Step, if_pos h]

theorem rle90Step_of_idle {bs rest : List Byte} {u : Rle90Unit} {p : Nat} (h : u.rep = 0) (hc : CursorAt bs p rest) :
    rle90Step bs (u, p) = rle90Scan u.last rest p := by
  rw [rle90Step, if_neg (by omega), hc.2]

theorem streams_rle90Step (bs : List Byte) : Streams (rle90Step bs) (Rle90At bs) := by
  rintro ⟨u, p⟩ b out ⟨rest, hc, hout⟩
  rcases Nat.eq_zero_or_eq_succ_pred u.rep with hrep | hrep
  · dsimp only at hout hc
    rw [hrep, List.replicate_zero, List.nil_append] at hout
    rw [rle90Step_of_idle hrep hc]
    exact (rle90Scan_spec u.last rest p hc).1 b out hout.symm
  · dsimp only at hout hc
    rw [hrep, List.replicate_succ, List.cons_append] at hout
    obtain ⟨rfl, rfl⟩ := List.cons.inj hout
    exact ⟨_, rle90Step_of_pending (by omega), rest, hc, rfl⟩

theorem rle90Step_at_end {bs : List Byte} {w : Rle90Unit × Nat} (h : Rle90At bs w []) :
    rle90Step bs w = .error (.atByte bs.length .trnEof) := by
  obtain ⟨u, p⟩ := w
  obtain ⟨rest, hc, hout⟩ := h
  obtain ⟨hrep, hrest⟩ := List.append_eq_nil_iff.1 hout.symm
  rw [rle90Step_of_idle (List.replicate_eq_nil_iff _ |>.1 hrep) hc]
  exact (rle90Scan_spec u.last rest p hc).2 hrest

theorem sitRle90Job_of_input {s : State} {bs : List Byte} (c : Bool) (h : s.inputIs bs) (hfit : s.forkFits) :
    sitRle90Job c s = forkLoop (rle90Step bs) s.latch.outLen.toNat ({}, 0) >>= fun r =>
      forkResult c s r.1 { s.units with rle90 := r.2.1 } r.2.2 0 := by
  rw [sitRle90Job, checkCommand_of_forkFits (by decide) (by decide) hfit, except_ok_bind, jobInput_of_inputIs h, jobOutLen]

/-- Settles O33: the unit's pending copies and the scan hand out the expansion. -/
theorem sitRle90Decodes : Obligations.SitRle90Decodes := by
  unfold Obligations.SitRle90Decodes
  intro s c bs h hfit
  have hstart : Rle90At bs ({}, 0) (rle90 0 bs) := ⟨bs, cursorAt_zero bs, rfl⟩
  rw [exec_sitRle90, sitRle90Job_of_input c h hfit]
  refine ⟨fun hn => ?_, fun hn => ?_⟩
  · obtain ⟨v, hv, -⟩ := (streams_rle90Step bs).forkLoop_take hstart hn
    rw [hv, except_ok_bind]
    exact stuffItForkEnds_forkResult _ _ _ (length_take_le_outCap hfit _)
  · rw [(streams_rle90Step bs).forkLoop_beyond hstart (fun v => rle90Step_at_end) hn, except_error_bind, endJob_error]
    exact ⟨_, rfl, failedWith_raiseError _ s, rfl⟩

end Sys2Proof.Machine
end

section
/-! PROOFS. Compact Pro's RLE stage over any source of bytes (44_compactpro.md R502-R508), and CPT_RLE (R500). -/

namespace Sys2Proof.Machine
open Reference (rle81)

/-! ### The stage over a source that hands out a known sequence -/

theorem rle81_literal {saved b : Byte} (hb : b ≠ 0x81) (rest : List Byte) :
    rle81 false saved (b :: rest) = b :: rle81 false b rest := by
  rw [rle81, if_pos hb]

theorem rle81_marker (saved : Byte) (rest : List Byte) : rle81 false saved (0x81 :: rest) = rle81 true saved rest := by
  simp [rle81]

theorem rle81_run (saved n : Byte) (rest : List Byte) :
    rle81 true saved (0x82 :: n :: rest) =
      if n = 0x00 then 0x81 :: 0x82 :: rle81 false 0x82 rest
      else List.replicate (max 1 (n.toNat - 1)) saved ++ rle81 false saved rest := by
  simp [rle81]

theorem rle81_again (saved : Byte) (rest : List Byte) : rle81 true saved (0x81 :: rest) = 0x81 :: rle81 true 0x81 rest := by
  cases rest <;> simp [rle81]

theorem rle81_other {saved x : Byte} (h82 : x ≠ 0x82) (h81 : x ≠ 0x81) (rest : List Byte) :
    rle81 true saved (x :: rest) = 0x81 :: x :: rle81 false x rest := by
  cases rest <;> simp only [rle81, if_neg h82, if_neg h81]

section
variable {σ : Type} {pull : σ → Except Raise (Byte × σ)} {R : σ → List Byte → Prop}

/-- What the stage still stands for: its pending copies, and the expansion of what its source stands for. -/
def Rle81At (R : σ → List Byte → Prop) (w : Rle81Unit × σ) (out : List Byte) : Prop :=
  ∃ rest, R w.2 rest ∧ out = List.replicate w.1.runLeft w.1.saved ++ rle81 w.1.halfEscape w.1.saved rest

/-- A step that, with no copy pending, gives the first byte of this expansion; where there is none, it ends as the source does behind
its last byte. -/
def Rle81Gives (pull : σ → Except Raise (Byte × σ)) (R : σ → List Byte → Prop) (expansion : List Byte)
    (r : Except Raise (Byte × Rle81Unit × σ)) : Prop :=
  (∀ b out, expansion = b :: out → ∃ w, r = .ok (b, w) ∧ Rle81At R w out) ∧
    (expansion = [] → ∃ c, R c [] ∧ ∀ q, pull c = .error q → r = .error q)

theorem rle81Gives_of_ok {b : Byte} {out : List Byte} {w : Rle81Unit × σ} (h : Rle81At R w out) :
    Rle81Gives pull R (b :: out) (.ok (b, w)) := by
  refine ⟨fun b' out' hout => ?_, fun hnil => by simp at hnil⟩
  obtain ⟨rfl, rfl⟩ := List.cons.inj hout
  exact ⟨w, rfl, h⟩

theorem rle81Gives_of_end {c : σ} (hc : R c []) (f : Byte × σ → Except Raise (Byte × Rle81Unit × σ)) :
    Rle81Gives pull R [] (pull c >>= f) :=
  ⟨fun b out hout => by simp at hout, fun _ => ⟨c, hc, fun q hq => by rw [hq, except_error_bind]⟩⟩

theorem replicate_max_one {n : Byte} (h : n ≠ 0x00) (b : Byte) :
    List.replicate (max 1 (n.toNat - 1)) b = b :: List.replicate (n.toNat - 2) b := by
  have h0 : n.toNat ≠ 0 := fun hn => h (BitVec.eq_of_toNat_eq hn)
  rw [show max 1 (n.toNat - 1) = (n.toNat - 2) + 1 by omega, List.replicate_succ]

variable (hpull : Streams pull R)
include hpull

/-- What follows a byte 0x81. -/
theorem rle81Escape_gives {u : Rle81Unit} (hu : u.halfEscape = false)
    (hrun : u.runLeft = 0) {c : σ} {rest : List Byte} (hc : R c rest) :
    Rle81Gives pull R (rle81 true u.saved rest) (rle81Escape pull u c) := by
  cases rest with
  | nil =>
    rw [rle81Escape, rle81]
    exact rle81Gives_of_end hc _
  | cons x rest =>
    obtain ⟨c', hx, hc'⟩ := hpull c x rest hc
    rw [rle81Escape, hx, except_ok_bind]
    dsimp only
    by_cases h82 : x = 0x82
    · subst h82
      rw [if_pos rfl]
      cases rest with
      | nil =>
        rw [rle81, if_pos rfl]
        exact rle81Gives_of_end hc' _
      | cons n rest =>
        obtain ⟨c'', hn, hc''⟩ := hpull c' n rest hc'
        rw [hn, except_ok_bind, rle81_run]
        dsimp only
        by_cases h0 : n = 0
        · rw [if_pos h0, if_pos h0]
          exact rle81Gives_of_ok ⟨rest, hc'', by simp [hu]⟩
        · rw [if_neg h0, if_neg h0, replicate_max_one h0]
          exact rle81Gives_of_ok ⟨rest, hc'', by simp [hu]⟩
    · rw [if_neg h82]
      by_cases h81 : x = 0x81
      · subst h81
        rw [if_pos rfl, rle81_again]
        exact rle81Gives_of_ok ⟨rest, hc', by simp [hrun]⟩
      · rw [if_neg h81, rle81_other h82 h81]
        exact rle81Gives_of_ok ⟨rest, hc', by simp [hu]⟩

/-- The step with no copy pending. -/
theorem rle81Step_gives {u : Rle81Unit} (hrun : u.runLeft = 0) {c : σ}
    {rest : List Byte} (hc : R c rest) : Rle81Gives pull R (rle81 u.halfEscape u.saved rest) (rle81Step pull (u, c)) := by
  rw [rle81Step, if_neg (by omega)]
  cases hhalf : u.halfEscape with
  | true =>
    rw [if_pos rfl]
    exact rle81Escape_gives hpull (u := { u with halfEscape := false }) rfl hrun hc
  | false =>
    rw [if_neg (by simp)]
    cases rest with
    | nil =>
      rw [rle81]
      exact rle81Gives_of_end hc _
    | cons b rest =>
      obtain ⟨c', hb, hc'⟩ := hpull c b rest hc
      rw [hb, except_ok_bind]
      dsimp only
      by_cases h81 : b = 0x81
      · subst h81
        rw [if_neg (by simp), rle81_marker]
        exact rle81Escape_gives hpull hhalf hrun hc'
      · rw [if_pos h81, rle81_literal h81]
        exact rle81Gives_of_ok ⟨rest, hc', by simp [hrun]⟩

theorem streams_rle81Step : Streams (rle81Step pull) (Rle81At R) := by
  rintro ⟨u, c⟩ b out ⟨rest, hc, hout⟩
  dsimp only at hout hc
  rcases Nat.eq_zero_or_eq_succ_pred u.runLeft with hrun | hrun
  · rw [hrun, List.replicate_zero, List.nil_append] at hout
    exact (rle81Step_gives hpull hrun hc).1 b out hout.symm
  · rw [hrun, List.replicate_succ, List.cons_append] at hout
    obtain ⟨rfl, rfl⟩ := List.cons.inj hout
    exact ⟨({ u with runLeft := u.runLeft - 1 }, c), by rw [rle81Step, if_pos (by omega)], rest, hc, rfl⟩

/-- Behind the last byte of the expansion the stage ends as its source does. -/
theorem rle81Step_at_end {q : Raise} (hend : ∀ c, R c [] → pull c = .error q) {w : Rle81Unit × σ} (h : Rle81At R w []) :
    rle81Step pull w = .error q := by
  obtain ⟨u, c⟩ := w
  obtain ⟨rest, hc, hout⟩ := h
  obtain ⟨hrun, hrest⟩ := List.append_eq_nil_iff.1 hout.symm
  obtain ⟨c', hc', hstep⟩ := (rle81Step_gives hpull ((List.replicate_eq_nil_iff _).1 hrun) hc).2 hrest
  exact hstep q (hend c' hc')

end

/-! ### CPT_RLE -/

theorem cptRleJob_of_input {s : State} {bs : List Byte} (h : s.inputIs bs) (hfit : s.forkFits) :
    cptRleJob s = forkLoop (rle81Step (readByte bs)) s.latch.outLen.toNat ({}, 0) >>= fun r =>
      .ok { out := r.1, units := { s.units with rle81 := r.2.1 }, bpos := r.2.2 } := by
  rw [cptRleJob, checkCommand_of_forkFits (by decide) (by decide) hfit, except_ok_bind, jobInput_of_inputIs h, jobOutLen]

/-- Settles O50: the stage over ReadByte hands out the expansion of the input. -/
theorem cptRleDecodes : Obligations.CptRleDecodes := by
  unfold Obligations.CptRleDecodes
  intro s c bs h hfit
  dsimp only
  have hstart : Rle81At (CursorAt bs) (({}, 0) : Rle81Unit × Nat) (rle81 false 0 bs) := ⟨bs, cursorAt_zero bs, rfl⟩
  have hstep := streams_rle81Step (streams_readByte bs)
  rw [exec_cptRle, cptRleJob_of_input h hfit]
  refine ⟨fun hn => ?_, fun hn => ?_⟩
  · obtain ⟨v, hv, -⟩ := hstep.forkLoop_take hstart hn
    rw [hv, except_ok_bind]
    exact endJob_doneWith rfl (length_take_le_outCap hfit _)
  · rw [hstep.forkLoop_beyond hstart (fun v => rle81Step_at_end (streams_readByte bs) fun c => readByte_at_end) hn,
      except_error_bind, endJob_error]
    exact ⟨_, rfl, failedWith_raiseError _ s, rfl⟩

end Sys2Proof.Machine
end

section
/-! PROOFS. BIN_FILE and BIN_WRAP (43_macbinary.md R463, R464): the header's fields in the terms of their offsets, the fork positions,
and the forks. -/

namespace Sys2Proof.Machine
open Reference (field16 field32 dataStart dataLength rsrcStart rsrcLength HeaderCrcOk headerFault fieldsFault forkBytes ForkCut
  StandsAt HasSitSignature upTo128 ascii)

/-! ### The header's fields -/

theorem take_four_drop_eq_getD {bs : List Byte} {p : Nat} (h : p + 3 < bs.length) :
    (bs.drop p).take 4 = [bs.getD p 0, bs.getD (p + 1) 0, bs.getD (p + 2) 0, bs.getD (p + 2 + 1) 0] := by
  have hsplit : (bs.drop p).take 4 = (bs.drop p).take 2 ++ (bs.drop (p + 2)).take 2 := by
    rw [← List.drop_drop, ← List.take_add]
  rw [hsplit, take_two_drop_eq_getD (by omega), take_two_drop_eq_getD (by omega)]
  rfl

/-- The big-endian number of four bytes is the bytes side by side (20_memory.md R155). -/
theorem ofNat_beNat_quad_eq_append (a b c d : Byte) :
    BitVec.ofNat 32 (beNat [a, b, c, d]) = ((a ++ b : BitVec (8 + 8)) ++ (c ++ d : BitVec (8 + 8)) : BitVec (16 + 16)) := by
  have ha := a.isLt
  have hb := b.isLt
  have hc := c.isLt
  have hd := d.isLt
  have hpair : ∀ x y : Byte, (x ++ y : BitVec (8 + 8)).toNat = x.toNat * 256 + y.toNat := by
    intro x y
    rw [BitVec.toNat_append, ← Nat.shiftLeft_add_eq_or_of_lt y.isLt, Nat.shiftLeft_eq]
  apply BitVec.eq_of_toNat_eq
  rw [BitVec.toNat_append, ← Nat.shiftLeft_add_eq_or_of_lt (BitVec.isLt _), Nat.shiftLeft_eq, hpair, hpair, BitVec.toNat_ofNat]
  simp only [beNat, List.foldl_cons, List.foldl_nil]
  omega

theorem be32_eq_field32 {bs : List Byte} {p : Nat} (h : p + 3 < bs.length) : be32 bs p = field32 bs p := by
  rw [be32, take_four_drop_eq_getD h, ofNat_beNat_quad_eq_append]
  rfl

theorem add_macbPad (x : Nat) : x + macbPad x = upTo128 x := by
  unfold macbPad upTo128
  omega

theorem macbDf0_eq (sh : Nat) : macbDf0 sh = 128 + upTo128 sh := by
  unfold macbDf0
  split
  · rw [add_macbPad]
  · next h =>
    rw [not_not.1 h]
    rfl

section
variable {bs : List Byte} (hlen : 128 ≤ bs.length) (macbin1 : Bool)
include hlen

theorem macbFields_dl : (macbFields bs macbin1).dl = field32 bs 83 := be32_eq_field32 (by omega)
theorem macbFields_rl : (macbFields bs macbin1).rl = field32 bs 87 := be32_eq_field32 (by omega)
theorem macbFields_type : (macbFields bs macbin1).type = field32 bs 65 := be32_eq_field32 (by omega)
theorem macbFields_creator : (macbFields bs macbin1).creator = field32 bs 69 := be32_eq_field32 (by omega)

theorem macbFields_df0 : (macbFields bs macbin1).df0 = dataStart bs := by
  show macbDf0 (be16 bs 120).toNat = _
  rw [macbDf0_eq, be16_eq_field16 (by omega), dataStart]

theorem macbFields_rf0 : (macbFields bs macbin1).rf0 = rsrcStart bs := by
  show (macbFields bs macbin1).df0 + (macbFields bs macbin1).dl.toNat + macbPad (macbFields bs macbin1).dl.toNat = _
  rw [Nat.add_assoc, add_macbPad, macbFields_df0 hlen, macbFields_dl hlen, rsrcStart, dataLength]

end

/-- The header's first fault, or the fields of a header that has none. -/
theorem macbHeader_eq (bs : List Byte) :
    macbHeader bs =
      match fieldsFault bs with
      | some e => .error (.atByte (macbHeaderEnd bs) e)
      | none => .ok (macbFields bs (!decide (HeaderCrcOk bs))) := by
  rw [macbHeader, macbHeaderCheck_eq, fieldsFault]
  cases hf : headerFault bs with
  | some e => rfl
  | none =>
    obtain ⟨hlen, -⟩ := headerFault_eq_none_iff.1 hf
    have hdl : (macbFields bs (!decide (HeaderCrcOk bs))).dl.toNat = dataLength bs := by rw [macbFields_dl hlen, dataLength]
    have hrl : (macbFields bs (!decide (HeaderCrcOk bs))).rl.toNat = rsrcLength bs := by rw [macbFields_rl hlen, rsrcLength]
    show (if 0x7FFFFFFF < (macbFields bs (!decide (HeaderCrcOk bs))).dl.toNat then _
      else if 0x7FFFFFFF < (macbFields bs (!decide (HeaderCrcOk bs))).rl.toNat then _ else _) = _
    rw [hdl, hrl]
    by_cases hd : 0x7FFFFFFF < dataLength bs
    · simp [hd]
    · by_cases hr : 0x7FFFFFFF < rsrcLength bs <;> simp [hd, hr]

theorem headerFault_of_fieldsFault {bs : List Byte} (h : fieldsFault bs = none) : headerFault bs = none := by
  unfold fieldsFault at h
  split at h
  · nomatch h
  · assumption

/-! ### The forks -/

theorem macbFork_of_cut {bs : List Byte} {p emitted start n : Nat} (h : ForkCut bs start n) :
    ∃ r, macbFork bs p emitted start n = .error r ∧ r.err = .trnEof := by
  rw [macbFork, if_pos h]
  exact ⟨_, rfl, rfl⟩

theorem macbFork_of_whole {bs : List Byte} {p emitted start n : Nat} (h : ¬ ForkCut bs start n) :
    macbFork bs p emitted start n = .ok (forkBytes bs start n, macbCursor p start n) := by
  rw [macbFork, if_neg h, forkBytes]

theorem forkBytes_length_le (bs : List Byte) (start n : Nat) : (forkBytes bs start n).length ≤ n :=
  List.length_take_le _ _

/-- RESULT's MACBIN1 and RSRC_SEL (10_state.md R60). -/
theorem resultWord_of_header (bs : List Byte) (sel : Bool) :
    resultWord false (!decide (HeaderCrcOk bs)) sel =
      if HeaderCrcOk bs then (if sel = true then 4 else 0) else (if sel = true then 6 else 2) := by
  by_cases h : HeaderCrcOk bs
  · rw [decide_eq_true h, if_pos h]
    cases sel <;> rfl
  · rw [decide_eq_false h, if_neg h]
    cases sel <;> rfl

/-! ### BIN_FILE -/

theorem nameIs_finishJob (s : State) {r : JobResult} {nm : List Byte} (hname : r.name = some nm) : NameIs s (finishJob s r) nm := by
  have hread : ∀ i, (finishJob s r).name.read .name i = if i < nm.length + 1 then (nm ++ [0]).getD i 0 else s.name.read .name i := by
    intro i
    rw [finishJob_name, hname, nameAfter, Space.read_writeList]
    simp
  refine ⟨fun i hi => ?_, ?_, fun i hi => ?_⟩
  · rw [hread, if_pos (by omega), List.getD_append _ _ _ _ hi]
  · rw [hread, if_pos (by omega), List.getD_append_right _ _ _ _ le_rfl, Nat.sub_self]
    rfl
  · rw [hread, if_neg (by omega)]

/-- A job that ends with a result that names a file and fits OUT. -/
theorem endJob_doneNamed {s : State} {r : JobResult} {nm : List Byte} (hname : r.name = some nm)
    (hlen : r.out.length ≤ s.cfg.outCap) :
    ∃ t, endJob s (.ok r) = .next t ∧ DoneNamed s t r.out nm
      { crcOut := zext32 r.crcOut, result := r.result, dataLen := r.dataLen, rsrcLen := r.rsrcLen, mdType := r.mdType,
        mdCreator := r.mdCreator, mdFlags := zext32 r.mdFlags, mdNameLen := BitVec.ofNat 32 nm.length } := by
  refine ⟨_, endJob_ok s r hlen, ⟨rfl, rfl⟩, outputIs_finishJob s r, ?_, nameIs_finishJob s hname, jobKeeps_finishJob s r⟩
  simp [Regs.results, hname]

/-- The job of a command ends with this error. -/
theorem endJob_failedWith {s : State} {x : Except Raise JobResult} {e : Err} (h : ∃ r, x = .error r ∧ r.err = e) :
    ∃ t, endJob s x = .next t ∧ FailedWith s t e := by
  obtain ⟨r, rfl, rfl⟩ := h
  exact ⟨_, rfl, failedWith_raiseError r s⟩

theorem binFileJob_of_input {s : State} {bs : List Byte} (h : s.inputIs bs) (hfit : s.inputFits) :
    binFileJob s = macbHeader bs >>= fun u =>
      if s.cfg.outCap < u.dl.toNat + u.rl.toNat then .error (.atByte (macbHeaderEnd bs) .resOutCap)
      else macbFork bs (macbHeaderEnd bs) 0 u.df0 u.dl.toNat >>= fun data =>
        macbFork bs data.2 u.dl.toNat u.rf0 u.rl.toNat >>= fun rsrc =>
          .ok
            { out := data.1 ++ rsrc.1, result := resultWord false u.macbin1 false, dataLen := u.dl, rsrcLen := u.rl,
              mdType := u.type, mdCreator := u.creator, mdFlags := macbCleanFlags u.flags, name := some u.nm,
              units := { s.units with macb := u }, bpos := rsrc.2 } := by
  rw [binFileJob, checkCommand_of_not_forkOp (by decide) (by decide) (by decide) hfit, except_ok_bind, jobInput_of_inputIs h]

/-- The name of a header without a fault is whole. -/
theorem macbName_length {bs : List Byte} (h : headerFault bs = none) :
    BitVec.ofNat 32 (forkBytes bs 2 (bs.getD 1 0).toNat).length = (bs.getD 1 0).setWidth 32 := by
  obtain ⟨hlen, -, -, -, hname, -⟩ := headerFault_eq_none_iff.1 h
  have hlength : (forkBytes bs 2 (bs.getD 1 0).toNat).length = (bs.getD 1 0).toNat := by
    rw [forkBytes, List.length_take, List.length_drop]
    omega
  rw [hlength, BitVec.ofNat_toNat]

/-- Settles O59: the header's and the fork lengths' fault first, then OUT_CAP, then the forks as far as they are there. -/
theorem binFileExtracts : Obligations.BinFileExtracts := by
  unfold Obligations.BinFileExtracts
  intro s c bs h hfit
  rw [exec_binFile, binFileJob_of_input h hfit, macbHeader_eq]
  cases hfault : fieldsFault bs with
  | some e => exact endJob_failedWith ⟨_, rfl, rfl⟩
  | none =>
    have hheader := headerFault_of_fieldsFault hfault
    obtain ⟨hlen, -⟩ := headerFault_eq_none_iff.1 hheader
    have hdl := macbFields_dl hlen (!decide (HeaderCrcOk bs))
    have hrl := macbFields_rl hlen (!decide (HeaderCrcOk bs))
    have hdata : (field32 bs 83).toNat = dataLength bs := rfl
    have hrsrc : (field32 bs 87).toNat = rsrcLength bs := rfl
    simp only [except_ok_bind, hdata, hrsrc, macbFields_df0 hlen, macbFields_rf0 hlen, macbFields_type hlen, macbFields_creator hlen,
      hdl, hrl]
    by_cases hcap : s.cfg.outCap < dataLength bs + rsrcLength bs
    · simp only [if_pos hcap]
      exact endJob_failedWith ⟨_, rfl, rfl⟩
    simp only [if_neg hcap]
    by_cases hcutd : ForkCut bs (dataStart bs) (dataLength bs)
    · simp only [if_pos (Or.inl hcutd : _ ∨ ForkCut bs (rsrcStart bs) (rsrcLength bs))]
      obtain ⟨r, hr, he⟩ := macbFork_of_cut (p := macbHeaderEnd bs) (emitted := 0) hcutd
      exact endJob_failedWith ⟨r, by rw [hr, except_error_bind], he⟩
    rw [macbFork_of_whole hcutd, except_ok_bind]
    by_cases hcutr : ForkCut bs (rsrcStart bs) (rsrcLength bs)
    · simp only [if_pos (Or.inr hcutr : ForkCut bs (dataStart bs) (dataLength bs) ∨ _)]
      obtain ⟨r, hr, he⟩ := macbFork_of_cut
        (p := macbCursor (macbHeaderEnd bs) (dataStart bs) (dataLength bs)) (emitted := dataLength bs) hcutr
      exact endJob_failedWith ⟨r, by rw [hr, except_error_bind], he⟩
    rw [macbFork_of_whole hcutr, except_ok_bind, ← macbName_length hheader]
    simp only [if_neg (not_or.2 ⟨hcutd, hcutr⟩)]
    have hresult := resultWord_of_header bs false
    simp only [Bool.false_eq_true, if_false] at hresult
    rw [← hresult]
    refine endJob_doneNamed rfl ?_
    have hd := forkBytes_length_le bs (dataStart bs) (dataLength bs)
    have hr := forkBytes_length_le bs (rsrcStart bs) (rsrcLength bs)
    rw [List.length_append]
    omega

/-! ### BIN_WRAP -/

/-- A part of a fork that stands at an index, read there. -/
theorem take_drop_beq_iff_standsAt (fork : List Byte) (k : Nat) (part : List Byte) :
    ((fork.drop k).take part.length == part) = true ↔ StandsAt fork k part := by
  rw [beq_iff_eq, StandsAt, List.prefix_iff_eq_take, eq_comm]

theorem sitSignatures_eq_ascii :
    sitSignatures = ["SIT!", "ST46", "ST50", "ST60", "ST65", "STin", "STi2", "STi3", "STi4"].map ascii := by
  decide

theorem sitSignature_iff (fork : List Byte) : sitSignature fork = true ↔ HasSitSignature fork := by
  have hmark := take_drop_beq_iff_standsAt fork 10 sitMark
  have hstart := take_drop_beq_iff_standsAt fork 0 sit5Start
  have hrest := take_drop_beq_iff_standsAt fork 20 sit5Rest
  have hany : (sitSignatures.any fun m => fork.take 4 == m) = true ↔ ∃ m ∈ sitSignatures, StandsAt fork 0 m := by
    rw [List.any_eq_true]
    refine exists_congr fun m => and_congr_right fun hm => ?_
    have hlen : ∀ m ∈ sitSignatures, m.length = 4 := by decide
    have hm4 := take_drop_beq_iff_standsAt fork 0 m
    rwa [hlen m hm] at hm4
  rw [sitSignature, Bool.or_eq_true, Bool.and_eq_true, Bool.and_eq_true]
  refine or_congr (and_congr ?_ hmark) (and_congr hstart hrest)
  rw [hany, sitSignatures_eq_ascii]
  simp only [List.mem_map, exists_exists_and_eq_and]

theorem binWrapJob_of_input {s : State} {bs : List Byte} (h : s.inputIs bs) (hfit : s.inputFits) :
    binWrapJob s = macbHeader bs >>= fun u =>
      if 0 < u.dl.toNat ∧ bs.length < u.df0 + u.dl.toNat then .error (.atByte (macbHeaderEnd bs) .trnEof)
      else
        let rsrcSel := !sitSignature ((bs.drop u.df0).take u.dl.toNat) && decide (0 < u.rl.toNat)
        let start := if rsrcSel then u.rf0 else u.df0
        let len := if rsrcSel then u.rl.toNat else u.dl.toNat
        if s.cfg.outCap < len then .error (.atByte (macbHeaderEnd bs) .resOutCap)
        else macbFork bs (macbHeaderEnd bs) 0 start len >>= fun fork =>
          .ok
            { out := fork.1, result := resultWord false u.macbin1 rsrcSel, units := { s.units with macb := u },
              bpos := fork.2 } := by
  rw [binWrapJob, checkCommand_of_not_forkOp (by decide) (by decide) (by decide) hfit, except_ok_bind, jobInput_of_inputIs h]

/-- BIN_WRAP's end once it has chosen a fork: OUT_CAP, the fork's presence, the fork. -/
theorem binWrap_fork_ends (s : State) (bs : List Byte) (u : Units) (start len : Nat) (sel : Bool) {result : Word}
    (hresult : resultWord false (!decide (HeaderCrcOk bs)) sel = result) :
    ∃ t, endJob s
        (if s.cfg.outCap < len then .error (.atByte (macbHeaderEnd bs) .resOutCap)
        else macbFork bs (macbHeaderEnd bs) 0 start len >>= fun fork =>
          .ok { out := fork.1, result := resultWord false (!decide (HeaderCrcOk bs)) sel, units := u, bpos := fork.2 }) = .next t ∧
      if s.cfg.outCap < len then FailedWith s t .resOutCap
      else if ForkCut bs start len then FailedWith s t .trnEof
      else DoneWith s t (forkBytes bs start len) { result := result } := by
  subst hresult
  by_cases hcap : s.cfg.outCap < len
  · rw [if_pos hcap]
    simp only [if_pos hcap]
    exact endJob_failedWith ⟨_, rfl, rfl⟩
  rw [if_neg hcap]
  simp only [if_neg hcap]
  by_cases hcut : ForkCut bs start len
  · simp only [if_pos hcut]
    obtain ⟨r, hr, he⟩ := macbFork_of_cut (p := macbHeaderEnd bs) (emitted := 0) hcut
    exact endJob_failedWith ⟨r, by rw [hr, except_error_bind], he⟩
  · simp only [if_neg hcut]
    rw [macbFork_of_whole hcut, except_ok_bind]
    exact endJob_doneWith rfl ((forkBytes_length_le bs start len).trans (by omega))

/-- Settles O60: the header's and the fork lengths' fault first, then the data fork's presence, then the chosen fork. -/
theorem binWrapSelectsAFork : Obligations.BinWrapSelectsAFork := by
  unfold Obligations.BinWrapSelectsAFork
  intro s c bs h hfit
  rw [exec_binWrap, binWrapJob_of_input h hfit, macbHeader_eq]
  cases hfault : fieldsFault bs with
  | some e => exact endJob_failedWith ⟨_, rfl, rfl⟩
  | none =>
    obtain ⟨hlen, -⟩ := headerFault_eq_none_iff.1 (headerFault_of_fieldsFault hfault)
    have hdata : (macbFields bs (!decide (HeaderCrcOk bs))).dl.toNat = dataLength bs := by rw [macbFields_dl hlen, dataLength]
    have hrsrc : (macbFields bs (!decide (HeaderCrcOk bs))).rl.toNat = rsrcLength bs := by rw [macbFields_rl hlen, rsrcLength]
    simp only [except_ok_bind, hdata, hrsrc, macbFields_df0 hlen, macbFields_rf0 hlen]
    by_cases hcut : ForkCut bs (dataStart bs) (dataLength bs)
    · simp only [if_pos hcut]
      exact endJob_failedWith ⟨_, rfl, rfl⟩
    simp only [if_neg hcut]
    have hsel : (!sitSignature ((bs.drop (dataStart bs)).take (dataLength bs)) && decide (0 < rsrcLength bs)) = true ↔
        ¬ HasSitSignature (forkBytes bs (dataStart bs) (dataLength bs)) ∧ 0 < rsrcLength bs := by
      rw [Bool.and_eq_true, Bool.not_eq_true', Bool.eq_false_iff, Ne, sitSignature_iff, decide_eq_true_eq, forkBytes]
    by_cases hchosen : ¬ HasSitSignature (forkBytes bs (dataStart bs) (dataLength bs)) ∧ 0 < rsrcLength bs
    · simp only [hsel.2 hchosen, if_pos hchosen, if_true]
      exact binWrap_fork_ends s bs _ (rsrcStart bs) (rsrcLength bs) true (resultWord_of_header bs true)
    · simp only [Bool.eq_false_iff.2 (mt hsel.1 hchosen), if_neg hchosen, Bool.false_eq_true, if_false]
      have hend := binWrap_fork_ends s bs { s.units with macb := macbFields bs (!decide (HeaderCrcOk bs)) } (dataStart bs)
        (dataLength bs) false (resultWord_of_header bs false)
      simp only [if_neg hcut] at hend
      exact hend

end Sys2Proof.Machine
end

section
/-! PROOFS. What each command leaves when it ends with DONE (40_job_control.md R305, R316, R320): the parts of its result, its frame,
and what CRC_EN reaches. -/

namespace Sys2Proof.Machine
open Reference (field32 dataStart dataLength rsrcStart rsrcLength HeaderCrcOk headerFault fieldsFault forkBytes ForkCut)

/-! ### DONE -/

/-- STATUS after an error is not DONE: its bit 2 is set. -/
theorem errStatus_ne_done (e : Err) : e.status ≠ statusDone := by
  intro h
  have hbit := getLsbD_errStatus_two e
  rw [h] at hbit
  exact absurd hbit (by decide)

theorem not_endedDone_raiseError (r : Raise) (s : State) : ¬ (raiseError r s).endedDone :=
  fun h => errStatus_ne_done r.err h.1

/-- A job that ended with DONE had a result, which fits OUT. -/
theorem endJob_done {s t : State} {x : Except Raise JobResult} (h : endJob s x = .next t) (hd : t.endedDone) :
    ∃ j, x = .ok j ∧ j.out.length ≤ s.cfg.outCap ∧ t = finishJob s j := by
  rcases endJob_next h with ⟨q, -, rfl⟩ | hj
  · exact absurd hd (not_endedDone_raiseError q s)
  · exact hj

/-! ### The StuffIt fork ops that R316 checks -/

/-- What the decoder of a fork op has produced: the fork, the units and the cursors. -/
abbrev Produced := List Byte × Units × Nat × Nat

/-- A fork op's job: its decoder's work, and then the check of R316. -/
def checkedFork (c : Bool) (s : State) (x : Except Raise Produced) : Except Raise JobResult :=
  x >>= fun r => forkResult c s r.1 r.2.1 r.2.2.1 r.2.2.2

/-- The decoder's work gives as many bytes as OUT_LEN asks for, and OUT has room for them. -/
def FillsOutLen (s : State) (x : Except Raise Produced) : Prop :=
  ∀ r, x = .ok r → r.1.length = s.latch.outLen.toNat ∧ s.latch.outLen.toNat ≤ s.cfg.outCap

theorem outLen_le_outCap_of_checkCommand {s : State} {op : BitVec 8} {u : Unit} (h : checkCommand s 0 op = .ok u)
    (hfork : isForkOp op = true) : s.latch.outLen.toNat ≤ s.cfg.outCap := by
  obtain ⟨-, -, -, -, hout⟩ := checkCommand_eq_ok.1 h
  exact hout hfork

/-- SIT_RAW's bytes. -/
def sitRawFork (s : State) : Except Raise Produced :=
  checkCommand s 0 0x00 >>= fun _ => forkLoop (sitRawStep (jobInput s)) (jobOutLen s) 0 >>= fun r =>
    .ok (r.1, s.units, r.2, 0)

/-- SIT_RLE90's bytes. -/
def sitRle90Fork (s : State) : Except Raise Produced :=
  checkCommand s 0 0x01 >>= fun _ => forkLoop (rle90Step (jobInput s)) (jobOutLen s) ({}, 0) >>= fun r =>
    .ok (r.1, { s.units with rle90 := r.2.1 }, r.2.2, 0)

/-- SIT_LZW's bytes. -/
def sitLzwFork (s : State) : Except Raise Produced :=
  checkCommand s 0 0x02 >>= fun _ => forkLoop (lzwStep (jobInput s)) (jobOutLen s) ({}, 0) >>= fun r =>
    .ok (r.1, { s.units with lzw := r.2.1 }, 0, r.2.2)

/-- SIT_M13's bytes. -/
def sitM13Fork (s : State) : Except Raise Produced :=
  checkCommand s 0 0x0D >>= fun _ => m13Start s.cfg (jobInput s) >>= fun start =>
    (forkLoop (m13Step (jobInput s)) (jobOutLen s) start).mapError .afterM13Header >>= fun r =>
      .ok (r.1, { s.units with m13 := r.2.1 }, 1, r.2.2)

theorem sitRawJob_eq (c : Bool) (s : State) : sitRawJob c s = checkedFork c s (sitRawFork s) := by
  simp only [sitRawJob, checkedFork, sitRawFork, bind_assoc, except_ok_bind]

theorem sitRle90Job_eq (c : Bool) (s : State) : sitRle90Job c s = checkedFork c s (sitRle90Fork s) := by
  simp only [sitRle90Job, checkedFork, sitRle90Fork, bind_assoc, except_ok_bind]

theorem sitLzwJob_eq (c : Bool) (s : State) : sitLzwJob c s = checkedFork c s (sitLzwFork s) := by
  simp only [sitLzwJob, checkedFork, sitLzwFork, bind_assoc, except_ok_bind]

theorem sitM13Job_eq (c : Bool) (s : State) : sitM13Job c s = checkedFork c s (sitM13Fork s) := by
  simp only [sitM13Job, checkedFork, sitM13Fork, bind_assoc, except_ok_bind]

theorem fillsOutLen_sitRawFork (s : State) : FillsOutLen s (sitRawFork s) := by
  intro r h
  obtain ⟨_, hcheck, h⟩ := except_bind_eq_ok.1 h
  obtain ⟨w, hloop, h⟩ := except_bind_eq_ok.1 h
  cases h
  exact ⟨forkLoop_length hloop, outLen_le_outCap_of_checkCommand hcheck (by decide)⟩

theorem fillsOutLen_sitRle90Fork (s : State) : FillsOutLen s (sitRle90Fork s) := by
  intro r h
  obtain ⟨_, hcheck, h⟩ := except_bind_eq_ok.1 h
  obtain ⟨w, hloop, h⟩ := except_bind_eq_ok.1 h
  cases h
  exact ⟨forkLoop_length hloop, outLen_le_outCap_of_checkCommand hcheck (by decide)⟩

theorem fillsOutLen_sitLzwFork (s : State) : FillsOutLen s (sitLzwFork s) := by
  intro r h
  obtain ⟨_, hcheck, h⟩ := except_bind_eq_ok.1 h
  obtain ⟨w, hloop, h⟩ := except_bind_eq_ok.1 h
  cases h
  exact ⟨forkLoop_length hloop, outLen_le_outCap_of_checkCommand hcheck (by decide)⟩

theorem fillsOutLen_sitM13Fork (s : State) : FillsOutLen s (sitM13Fork s) := by
  intro r h
  obtain ⟨_, hcheck, h⟩ := except_bind_eq_ok.1 h
  obtain ⟨start, -, h⟩ := except_bind_eq_ok.1 h
  obtain ⟨w, hloop, h⟩ := except_bind_eq_ok.1 h
  cases h
  exact ⟨forkLoop_length (except_mapError_eq_ok.1 hloop), outLen_le_outCap_of_checkCommand hcheck (by decide)⟩

/-- Each of the four commands that R316 checks is a checked fork, whatever CRC_EN is. -/
theorem exec_checkedFork {mk : Bool → Instr} (h : mk ∈ [Instr.sitRaw, .sitRle90, .sitLzw, .sitM13]) (s : State) :
    ∃ x, FillsOutLen s x ∧ ∀ c, exec (mk c) s = endJob s (checkedFork c s x) := by
  simp only [List.mem_cons, List.not_mem_nil, or_false] at h
  rcases h with rfl | rfl | rfl | rfl
  · exact ⟨_, fillsOutLen_sitRawFork s, fun c => by rw [exec_sitRaw, sitRawJob_eq]⟩
  · exact ⟨_, fillsOutLen_sitRle90Fork s, fun c => by rw [exec_sitRle90, sitRle90Job_eq]⟩
  · exact ⟨_, fillsOutLen_sitLzwFork s, fun c => by rw [exec_sitLzw, sitLzwJob_eq]⟩
  · exact ⟨_, fillsOutLen_sitM13Fork s, fun c => by rw [exec_sitM13, sitM13Job_eq]⟩

theorem checkedFork_ok (c : Bool) (s : State) (r : Produced) :
    checkedFork c s (.ok r) = forkResult c s r.1 r.2.1 r.2.2.1 r.2.2.2 := rfl

/-- A checked fork that answers: the decoder's bytes and their CRC. -/
theorem checkedFork_eq_ok {c : Bool} {s : State} {x : Except Raise Produced} {j : JobResult} (hx : FillsOutLen s x)
    (h : checkedFork c s x = .ok j) :
    j.out.length = s.latch.outLen.toNat ∧ ∃ u p k,
      j = { out := j.out, crcOut := crcArc j.out, units := u, bpos := p, bitpos := k } := by
  obtain ⟨r, hr, h⟩ := except_bind_eq_ok.1 h
  obtain ⟨-, rfl⟩ := forkResult_eq_ok h
  exact ⟨(hx r hr).1, _, _, _, rfl⟩

/-! ### CRC_EN -/

theorem zext32_injective {a b : Half} (h : zext32 a = zext32 b) : a = b := by
  have hnat := congrArg BitVec.toNat h
  rw [zext32, zext32, BitVec.toNat_setWidth_of_le (by decide), BitVec.toNat_setWidth_of_le (by decide)] at hnat
  exact BitVec.eq_of_toNat_eq hnat

/-- CRC_EN decides nothing but whether a fork with another CRC than EXP_CRC is an error (40_job_control.md R316). -/
theorem checkedFork_crcEn {s t : State} {x : Except Raise Produced} (hx : FillsOutLen s x)
    (h : endJob s (checkedFork false s x) = .next t) :
    if t.endedDone ∧ t.regs.crcOut ≠ zext32 s.latch.expCrc then
      ∃ u, endJob s (checkedFork true s x) = .next u ∧ FailedWith s u .intForkCrc
    else endJob s (checkedFork true s x) = .next t := by
  cases hxr : x with
  | error q =>
    rw [hxr] at h
    obtain rfl : raiseError q s = t := by cases h; rfl
    rw [if_neg fun hd => not_endedDone_raiseError q s hd.1]
    rfl
  | ok r =>
    obtain ⟨hlen, hcap⟩ := hx r hxr
    rw [hxr, checkedFork_ok, forkResult_of_crc (by simp), endJob_ok _ _ (hlen.trans_le hcap)] at h
    cases h
    have hcrc : zext32 (crcArc r.1) ≠ zext32 s.latch.expCrc ↔ crcArc r.1 ≠ s.latch.expCrc :=
      not_congr ⟨zext32_injective, fun he => congrArg zext32 he⟩
    split
    · next hd =>
      rw [checkedFork_ok, forkResult_of_crc_mismatch ⟨rfl, hcrc.1 hd.2⟩]
      exact ⟨_, rfl, failedWith_raiseError _ s⟩
    · next hd =>
      have hgood : crcArc r.1 = s.latch.expCrc := by
        by_contra hne
        exact hd ⟨⟨rfl, rfl⟩, hcrc.2 hne⟩
      rw [checkedFork_ok, forkResult_of_crc fun _ => hgood, endJob_ok _ _ (hlen.trans_le hcap)]

/-- Settles O24: no other command's meaning has CRC_EN in it, and in the four only R316's check has. -/
theorem crcEnableReaches : Obligations.CrcEnableReaches := by
  unfold Obligations.CrcEnableReaches
  refine ⟨fun s mk hmk => ?_, fun s t mk hmk h => ?_⟩
  · simp only [List.mem_cons, List.not_mem_nil, or_false] at hmk
    rcases hmk with rfl | rfl | rfl | rfl | rfl | rfl | rfl | rfl | rfl | rfl | rfl | rfl | rfl | rfl | rfl | rfl | rfl | rfl |
      rfl | rfl | rfl | rfl <;> rfl
  · obtain ⟨x, hx, hexec⟩ := exec_checkedFork hmk s
    rw [hexec] at h ⊢
    exact checkedFork_crcEn hx h

/-! ### BinHex: the container's fields and the forks' lengths -/

/-- The container's fields as U_HQX holds them (42_binhex.md R414). -/
def HqxUnit.fields (u : HqxUnit) : Nat × List Byte × Word × Word × Half × Word × Word :=
  (u.nameLen, u.nm, u.type, u.creator, u.flags, u.dl, u.rl)

/-- A field that no step changes, the loop does not change. -/
theorem forkLoop_keeps {σ α : Type} {p : σ → Except Raise (Byte × σ)} (f : σ → α)
    (hp : ∀ u b v, p u = .ok (b, v) → f v = f u) {n : Nat} {u v : σ} {bs : List Byte} (h : forkLoop p n u = .ok (bs, v)) :
    f v = f u := by
  induction n generalizing u bs with
  | zero =>
    cases h
    rfl
  | succ n ih =>
    rw [forkLoop_succ, except_bind_eq_ok] at h
    obtain ⟨r, hr, h⟩ := h
    obtain ⟨q, hq, h⟩ := except_bind_eq_ok.1 h
    cases h
    rw [ih (bs := q.1) (except_mapError_eq_ok.1 hq), hp u r.1 r.2 hr]

theorem hqxNextRaw_fields {cfg : Config} {inp : List Byte} {u v : HqxUnit} {p q : Nat} {b : Byte}
    (h : hqxNextRaw cfg inp u p = .ok (b, v, q)) : v.fields = u.fields := by
  obtain ⟨r, -, h⟩ := except_bind_eq_ok.1 h
  cases h
  rfl

theorem hqxNextByte_fields {cfg : Config} {inp : List Byte} {u v : HqxUnit} {p q : Nat} {b : Byte}
    (h : hqxNextByte cfg inp u p = .ok (b, v, q)) : v.fields = u.fields := by
  unfold hqxNextByte at h
  split at h
  · cases h
    rfl
  obtain ⟨⟨r, u', p'⟩, hr, h⟩ := except_bind_eq_ok.1 h
  have hfields := hqxNextRaw_fields hr
  dsimp only at h
  split at h
  · cases h
    exact hfields
  obtain ⟨⟨n, u'', p''⟩, hn, h⟩ := except_bind_eq_ok.1 h
  have hfields' := (hqxNextRaw_fields hn).trans hfields
  dsimp only at h
  split at h
  · cases h
    exact hfields'
  split at h
  · cases h
  · cases h
    exact hfields'

theorem hqxH_fields {cfg : Config} {inp : List Byte} {w w' : HqxUnit × Nat} {b : Byte} (h : hqxH cfg inp w = .ok (b, w')) :
    w'.1.fields = w.1.fields := by
  obtain ⟨u, p⟩ := w
  obtain ⟨⟨b', u', p'⟩, hb, h⟩ := except_bind_eq_ok.1 h
  cases h
  show u'.fields = u.fields
  exact hqxNextByte_fields hb

theorem hqxTake_eq_ok {cfg : Config} {inp bs : List Byte} {emitted n : Nat} {u v : HqxUnit} {p q : Nat}
    (h : hqxTake cfg inp emitted n u p = .ok (bs, v, q)) : bs.length = n ∧ v.fields = u.fields := by
  have hloop := except_mapError_eq_ok.1 h
  exact ⟨forkLoop_length hloop, forkLoop_keeps (fun w => w.1.fields) (fun _ _ _ hw => hqxH_fields hw) hloop⟩

theorem hqxEmit_eq_ok {cfg : Config} {inp bs : List Byte} {emitted n : Nat} {u v : HqxUnit} {p q : Nat}
    (h : hqxEmit cfg inp emitted n u p = .ok (bs, v, q)) : bs.length = n ∧ v.fields = u.fields := by
  have hloop := except_mapError_eq_ok.1 h
  exact ⟨forkLoop_length hloop, forkLoop_keeps (fun w => w.1.fields) (fun _ _ _ hw => hqxH_fields hw) hloop⟩

theorem HqxUnit.nm_of_fields {u v : HqxUnit} (h : v.fields = u.fields) : v.nm = u.nm := by
  simp only [HqxUnit.fields, Prod.mk.injEq] at h
  exact h.2.1

theorem HqxUnit.dl_of_fields {u v : HqxUnit} (h : v.fields = u.fields) : v.dl = u.dl := by
  simp only [HqxUnit.fields, Prod.mk.injEq] at h
  exact h.2.2.2.2.2.1

theorem HqxUnit.rl_of_fields {u v : HqxUnit} (h : v.fields = u.fields) : v.rl = u.rl := by
  simp only [HqxUnit.fields, Prod.mk.injEq] at h
  exact h.2.2.2.2.2.2

/-- A header that is accepted holds a name of 1 to 63 bytes (42_binhex.md R415). -/
theorem hqxHeader_eq_ok {cfg : Config} {inp : List Byte} {u v : HqxUnit} {p q : Nat} (h : hqxHeader cfg inp u p = .ok (v, q)) :
    1 ≤ v.nm.length ∧ v.nm.length ≤ 63 := by
  obtain ⟨⟨l, u1, p1⟩, -, h⟩ := except_bind_eq_ok.1 h
  dsimp only at h
  split at h
  · cases h
  next hl =>
  obtain ⟨⟨nm, u2, p2⟩, hnm, h⟩ := except_bind_eq_ok.1 h
  obtain ⟨⟨_, u3, p3⟩, h3, h⟩ := except_bind_eq_ok.1 h
  obtain ⟨⟨type, u4, p4⟩, h4, h⟩ := except_bind_eq_ok.1 h
  obtain ⟨⟨creator, u5, p5⟩, h5, h⟩ := except_bind_eq_ok.1 h
  obtain ⟨⟨flags, u6, p6⟩, h6, h⟩ := except_bind_eq_ok.1 h
  obtain ⟨⟨dl, u7, p7⟩, h7, h⟩ := except_bind_eq_ok.1 h
  obtain ⟨⟨rl, u8, p8⟩, h8, h⟩ := except_bind_eq_ok.1 h
  obtain ⟨⟨_, u9, p9⟩, h9, h⟩ := except_bind_eq_ok.1 h
  dsimp only at h
  split at h
  · cases h
  cases h
  have hname : v.nm = nm := by
    rw [HqxUnit.nm_of_fields (hqxTake_eq_ok h9).2]
    show u8.nm = nm
    rw [HqxUnit.nm_of_fields (hqxTake_eq_ok h8).2, HqxUnit.nm_of_fields (hqxTake_eq_ok h7).2,
      HqxUnit.nm_of_fields (hqxTake_eq_ok h6).2, HqxUnit.nm_of_fields (hqxTake_eq_ok h5).2,
      HqxUnit.nm_of_fields (hqxTake_eq_ok h4).2, HqxUnit.nm_of_fields (hqxTake_eq_ok h3).2]
  rw [hname, (hqxTake_eq_ok hnm).1]
  omega

theorem hqxForkCrc_eq_ok {cfg : Config} {inp : List Byte} {emitted : Nat} {e : Err} {u v : HqxUnit} {p q : Nat}
    (h : hqxForkCrc cfg inp emitted e u p = .ok (v, q)) : v.fields = u.fields := by
  obtain ⟨⟨_, u1, p1⟩, h1, h⟩ := except_bind_eq_ok.1 h
  dsimp only at h
  split at h
  · cases h
  · cases h
    exact (hqxTake_eq_ok h1).2

theorem hqxRsrc_eq_ok {cfg : Config} {mode : HqxMode} {inp bs : List Byte} {u v : HqxUnit} {p q : Nat}
    (h : hqxRsrc cfg mode inp u p = .ok (bs, v, q)) : bs.length = u.rl.toNat ∧ v.fields = u.fields := by
  cases mode with
  | file => exact hqxEmit_eq_ok (u := { u with crc := 0 }) h
  | wrap => exact hqxTake_eq_ok (u := { u with crc := 0 }) h

/-- A container that is accepted: the forks have the lengths that U_HQX holds, and the name is one of 1 to 63 bytes. -/
theorem hqxParse_eq_ok {cfg : Config} {mode : HqxMode} {inp data rsrc : List Byte} {v : HqxUnit} {q : Nat}
    (h : hqxParse cfg mode inp = .ok (data, rsrc, v, q)) :
    data.length = v.dl.toNat ∧ rsrc.length = v.rl.toNat ∧ 1 ≤ v.nm.length ∧ v.nm.length ≤ 63 := by
  obtain ⟨p, -, h⟩ := except_bind_eq_ok.1 h
  obtain ⟨⟨u1, p1⟩, h1, h⟩ := except_bind_eq_ok.1 h
  dsimp only at h
  split at h
  · cases h
  obtain ⟨⟨bs, u2, p2⟩, h2, h⟩ := except_bind_eq_ok.1 h
  obtain ⟨⟨u3, p3⟩, h3, h⟩ := except_bind_eq_ok.1 h
  obtain ⟨⟨rs, u4, p4⟩, h4, h⟩ := except_bind_eq_ok.1 h
  obtain ⟨⟨u5, p5⟩, h5, h⟩ := except_bind_eq_ok.1 h
  obtain ⟨p6, -, h⟩ := except_bind_eq_ok.1 h
  cases h
  have hdata := hqxEmit_eq_ok h2
  have hrsrc := hqxRsrc_eq_ok h4
  have hfields3 : u3.fields = u1.fields := (hqxForkCrc_eq_ok h3).trans hdata.2
  have hfields : u5.fields = u1.fields := ((hqxForkCrc_eq_ok h5).trans hrsrc.2).trans hfields3
  refine ⟨?_, ?_, ?_⟩
  · show bs.length = u5.dl.toNat
    rw [hdata.1, HqxUnit.dl_of_fields hfields]
  · show rs.length = u5.rl.toNat
    rw [hrsrc.1, HqxUnit.rl_of_fields hfields, HqxUnit.rl_of_fields hfields3]
  · show 1 ≤ u5.nm.length ∧ u5.nm.length ≤ 63
    rw [HqxUnit.nm_of_fields hfields]
    exact hqxHeader_eq_ok h1

/-! ### MacBinary: an accepted header and its forks -/

theorem macbHeader_eq_ok {bs : List Byte} {u : MacbUnit} (h : macbHeader bs = .ok u) :
    headerFault bs = none ∧ u = macbFields bs (!decide (HeaderCrcOk bs)) := by
  rw [macbHeader_eq] at h
  split at h
  · cases h
  · next hf =>
    cases h
    exact ⟨headerFault_of_fieldsFault hf, rfl⟩

theorem macbFork_eq_ok {bs fork : List Byte} {p q emitted start n : Nat} (h : macbFork bs p emitted start n = .ok (fork, q)) :
    fork.length = n := by
  unfold macbFork at h
  dsimp only at h
  split at h
  · cases h
  · next hcut =>
    cases h
    rw [List.length_take, List.length_drop]
    omega

theorem macbName_length_eq {bs : List Byte} (h : headerFault bs = none) (m : Bool) :
    (macbFields bs m).nm.length = (bs.getD 1 0).toNat ∧ 1 ≤ (bs.getD 1 0).toNat ∧ (bs.getD 1 0).toNat ≤ 63 := by
  obtain ⟨hlen, -, -, hlo, hhi, -⟩ := headerFault_eq_none_iff.1 h
  refine ⟨?_, hlo, hhi⟩
  show ((bs.drop 2).take (bs.getD 1 0).toNat).length = _
  rw [List.length_take, List.length_drop]
  omega

/-! ### The job of a command, and what it answers -/

/-- The job that each arm of Dispatch ends (40_job_control.md R302). -/
def jobOf (i : Instr) (s : State) : Except Raise JobResult :=
  match i with
  | .sitRaw c => sitRawJob c s
  | .sitRle90 c => sitRle90Job c s
  | .sitLzw c => sitLzwJob c s
  | .sitUnsupM3 _ => sitUnsupJob 0x03 s
  | .sitUnsupM4 _ => sitUnsupJob 0x04 s
  | .sitUnsupM5 _ => sitUnsupJob 0x05 s
  | .sitUnsupM6 _ => sitUnsupJob 0x06 s
  | .sitUnsupM7 _ => sitUnsupJob 0x07 s
  | .sitUnsupM8 _ => sitUnsupJob 0x08 s
  | .sitUnsupM9 _ => sitUnsupJob 0x09 s
  | .sitUnsupM10 _ => sitUnsupJob 0x0A s
  | .sitUnsupM11 _ => sitUnsupJob 0x0B s
  | .sitUnsupM12 _ => sitUnsupJob 0x0C s
  | .sitUnsupM14 _ => sitUnsupJob 0x0E s
  | .sitM13 c => sitM13Job c s
  | .sitArs _ => sitArsJob s
  | .cptRle _ => cptRleJob s
  | .cptLzh _ => cptLzhJob s
  | .hqxDetect _ => hqxDetectJob s
  | .hqxFile _ => hqxFileJob s
  | .hqxWrap _ => hqxWrapJob s
  | .binDetect _ => binDetectJob s
  | .binFile _ => binFileJob s
  | .binWrap _ => binWrapJob s
  | .crcXmodem _ => crcXmodemJob s
  | .crcArc _ => crcArcJob s
  | .reservedOp _ _ => .error { err := .cmdReservedOp }
  | .reservedBits _ _ _ => .error { err := .cmdReservedBits }

theorem exec_eq_endJob_jobOf (i : Instr) (s : State) : exec i s = endJob s (jobOf i s) := by
  cases i with
  | _ => rfl

section
variable {s : State} {j : JobResult}

theorem sitUnsupJob_ne_ok {op : BitVec 8} (h : sitUnsupJob op s = .ok j) : False := by
  obtain ⟨_, -, h⟩ := except_bind_eq_ok.1 h
  cases h

theorem sitArsJob_eq_ok (h : sitArsJob s = .ok j) :
    j.out.length = s.latch.outLen.toNat ∧ ∃ u k, j = { out := j.out, units := u, bitpos := k } := by
  obtain ⟨_, -, h⟩ := except_bind_eq_ok.1 h
  obtain ⟨start, -, h⟩ := except_bind_eq_ok.1 h
  obtain ⟨w, hloop, h⟩ := except_bind_eq_ok.1 h
  cases h
  exact ⟨forkLoop_length hloop, _, _, rfl⟩

theorem cptRleJob_eq_ok (h : cptRleJob s = .ok j) :
    j.out.length = s.latch.outLen.toNat ∧ ∃ u p, j = { out := j.out, units := u, bpos := p } := by
  obtain ⟨_, -, h⟩ := except_bind_eq_ok.1 h
  obtain ⟨w, hloop, h⟩ := except_bind_eq_ok.1 h
  cases h
  exact ⟨forkLoop_length hloop, _, _, rfl⟩

theorem cptLzhJob_eq_ok (h : cptLzhJob s = .ok j) :
    j.out.length = s.latch.outLen.toNat ∧ ∃ u k, j = { out := j.out, units := u, bitpos := k } := by
  obtain ⟨_, -, h⟩ := except_bind_eq_ok.1 h
  obtain ⟨w, hloop, h⟩ := except_bind_eq_ok.1 h
  cases h
  exact ⟨forkLoop_length hloop, _, _, rfl⟩

theorem hqxDetectJob_eq_ok (h : hqxDetectJob s = .ok j) : ∃ found, j = hqxDetectResult s found := by
  obtain ⟨_, -, h⟩ := except_bind_eq_ok.1 h
  cases h
  exact ⟨_, rfl⟩

theorem binDetectJob_eq_ok (h : binDetectJob s = .ok j) : j = binDetectResult s (jobInput s) := by
  obtain ⟨_, -, h⟩ := except_bind_eq_ok.1 h
  cases h
  rw [binDetectResult, ← isOk_macbHeaderCheck]

theorem hqxFileJob_eq_ok (h : hqxFileJob s = .ok j) :
    ∃ data rsrc u p, hqxParse s.cfg .file (jobInput s) = .ok (data, rsrc, u, p) ∧
      j = { out := data ++ rsrc, dataLen := u.dl, rsrcLen := u.rl, mdType := u.type, mdCreator := u.creator,
            mdFlags := hqxCleanFlags u.flags, name := some u.nm, units := { s.units with hqx := u }, bpos := p } := by
  obtain ⟨_, -, h⟩ := except_bind_eq_ok.1 h
  obtain ⟨⟨data, rsrc, u, p⟩, hparse, h⟩ := except_bind_eq_ok.1 h
  cases h
  exact ⟨_, _, _, _, hparse, rfl⟩

theorem hqxWrapJob_eq_ok (h : hqxWrapJob s = .ok j) :
    ∃ data rsrc u p, hqxParse s.cfg .wrap (jobInput s) = .ok (data, rsrc, u, p) ∧
      j = { out := data, units := { s.units with hqx := u }, bpos := p } := by
  obtain ⟨_, -, h⟩ := except_bind_eq_ok.1 h
  obtain ⟨⟨data, rsrc, u, p⟩, hparse, h⟩ := except_bind_eq_ok.1 h
  cases h
  exact ⟨_, _, _, _, hparse, rfl⟩

theorem binFileJob_eq_ok (h : binFileJob s = .ok j) :
    ∃ u data rsrc p, headerFault (jobInput s) = none ∧ u = macbFields (jobInput s) (!decide (HeaderCrcOk (jobInput s))) ∧
      data.length = u.dl.toNat ∧ rsrc.length = u.rl.toNat ∧
      j = { out := data ++ rsrc, result := resultWord false u.macbin1 false, dataLen := u.dl, rsrcLen := u.rl,
            mdType := u.type, mdCreator := u.creator, mdFlags := macbCleanFlags u.flags, name := some u.nm,
            units := { s.units with macb := u }, bpos := p } := by
  obtain ⟨_, -, h⟩ := except_bind_eq_ok.1 h
  obtain ⟨u, hu, h⟩ := except_bind_eq_ok.1 h
  obtain ⟨hfault, hfields⟩ := macbHeader_eq_ok hu
  dsimp only at h
  split at h
  · cases h
  obtain ⟨⟨data, p⟩, hdata, h⟩ := except_bind_eq_ok.1 h
  obtain ⟨⟨rsrc, q⟩, hrsrc, h⟩ := except_bind_eq_ok.1 h
  cases h
  exact ⟨u, data, rsrc, q, hfault, hfields, macbFork_eq_ok hdata, macbFork_eq_ok hrsrc, rfl⟩

theorem binWrapJob_eq_ok (h : binWrapJob s = .ok j) :
    ∃ u sel p, headerFault (jobInput s) = none ∧ u = macbFields (jobInput s) (!decide (HeaderCrcOk (jobInput s))) ∧
      j.out.length = (if sel = true then u.rl.toNat else u.dl.toNat) ∧
      j = { out := j.out, result := resultWord false u.macbin1 sel, units := { s.units with macb := u }, bpos := p } := by
  obtain ⟨_, -, h⟩ := except_bind_eq_ok.1 h
  obtain ⟨u, hu, h⟩ := except_bind_eq_ok.1 h
  obtain ⟨hfault, hfields⟩ := macbHeader_eq_ok hu
  dsimp only at h
  split at h
  · cases h
  generalize (!sitSignature _ && decide (0 < u.rl.toNat)) = sel at h
  by_cases hcap : s.cfg.outCap < (if sel = true then u.rl.toNat else u.dl.toNat)
  · rw [if_pos hcap] at h
    cases h
  rw [if_neg hcap] at h
  obtain ⟨⟨fork, p⟩, hfork, h⟩ := except_bind_eq_ok.1 h
  cases h
  exact ⟨u, sel, p, hfault, hfields, macbFork_eq_ok hfork, rfl⟩

theorem crcXmodemJob_eq_ok (h : crcXmodemJob s = .ok j) :
    j = crcOnlyResult s (crcXmodem (jobInput s)) (jobInput s).length := by
  obtain ⟨_, -, h⟩ := except_bind_eq_ok.1 h
  cases h
  rfl

theorem crcArcJob_eq_ok (h : crcArcJob s = .ok j) : j = crcOnlyResult s (crcArc (jobInput s)) (jobInput s).length := by
  obtain ⟨_, -, h⟩ := except_bind_eq_ok.1 h
  cases h
  rfl

end

/-! ### The rows of R320 -/

theorem ofNat_length_of_eq_toNat {l : List Byte} {w : Word} (h : l.length = w.toNat) : BitVec.ofNat 32 l.length = w := by
  rw [h, BitVec.ofNat_toNat, BitVec.setWidth_eq]

theorem ofNat_length_append {l m : List Byte} {v w : Word} (hl : l.length = v.toNat) (hm : m.length = w.toNat) :
    BitVec.ofNat 32 (l ++ m).length = v + w := by
  rw [List.length_append, BitVec.ofNat_add, ofNat_length_of_eq_toNat hl, ofNat_length_of_eq_toNat hm]

/-- OUT's counted bytes after a job are the job's. -/
theorem slice_finishJob_out (s : State) (j : JobResult) : (finishJob s j).out.slice .out 0 j.out.length = j.out :=
  Space.slice_eq_of_read _ _ _ (outputIs_finishJob s j).2.2.1

theorem toNat_ofNat_of_le_63 {n : Nat} (h : n ≤ 63) : (BitVec.ofNat 32 n).toNat = n := by
  rw [BitVec.toNat_ofNat, Nat.mod_eq_of_lt (by omega)]

/-- A checked fork that ended with DONE: OUT_COUNT and CRC_OUT. -/
theorem results_of_checkedFork {s : State} {j : JobResult} (hlen : j.out.length = s.latch.outLen.toNat)
    (hj : ∃ u p k, j = { out := j.out, crcOut := crcArc j.out, units := u, bpos := p, bitpos := k }) :
    (finishJob s j).regs.outCount = s.latch.outLen ∧ (finishJob s j).regs.results =
      { crcOut := zext32 (crcArc ((finishJob s j).out.slice .out 0 s.latch.outLen.toNat)) } := by
  rw [← hlen, slice_finishJob_out]
  obtain ⟨u, p, k, hj⟩ := hj
  refine ⟨ofNat_length_of_eq_toNat hlen, ?_⟩
  rw [hj]
  rfl

theorem resultWord_mask (m sel : Bool) :
    resultWord false m sel &&& 0x6 = resultWord false m sel ∧ (resultWord false m sel).getLsbD 2 = sel ∧
      resultWord false m false &&& 0x2 = resultWord false m false := by
  revert m sel
  decide

theorem resultWord_toNat_le_one (found : Bool) : (resultWord found false false).toNat ≤ 1 := by
  revert found
  decide

/-- Settles O17: each command's successful result, by the parts it is made of. -/
theorem resultRegistersByCommand : Obligations.ResultRegistersByCommand := by
  unfold Obligations.ResultRegistersByCommand
  intro i s t hexec hd
  rw [exec_eq_endJob_jobOf] at hexec
  obtain ⟨j, hj, -, rfl⟩ := endJob_done hexec hd
  have hinp : jobInput s = s.inn.slice .inn 0 s.latch.inLen.toNat := rfl
  cases i with
  | sitRaw c =>
    obtain ⟨hlen, hshape⟩ := checkedFork_eq_ok (fillsOutLen_sitRawFork s) ((sitRawJob_eq c s).symm.trans hj)
    exact results_of_checkedFork hlen hshape
  | sitRle90 c =>
    obtain ⟨hlen, hshape⟩ := checkedFork_eq_ok (fillsOutLen_sitRle90Fork s) ((sitRle90Job_eq c s).symm.trans hj)
    exact results_of_checkedFork hlen hshape
  | sitLzw c =>
    obtain ⟨hlen, hshape⟩ := checkedFork_eq_ok (fillsOutLen_sitLzwFork s) ((sitLzwJob_eq c s).symm.trans hj)
    exact results_of_checkedFork hlen hshape
  | sitM13 c =>
    obtain ⟨hlen, hshape⟩ := checkedFork_eq_ok (fillsOutLen_sitM13Fork s) ((sitM13Job_eq c s).symm.trans hj)
    exact results_of_checkedFork hlen hshape
  | sitArs c =>
    obtain ⟨hlen, u, k, hshape⟩ := sitArsJob_eq_ok hj
    exact ⟨ofNat_length_of_eq_toNat hlen, by rw [hshape]; rfl⟩
  | cptRle c =>
    obtain ⟨hlen, u, k, hshape⟩ := cptRleJob_eq_ok hj
    exact ⟨ofNat_length_of_eq_toNat hlen, by rw [hshape]; rfl⟩
  | cptLzh c =>
    obtain ⟨hlen, u, k, hshape⟩ := cptLzhJob_eq_ok hj
    exact ⟨ofNat_length_of_eq_toNat hlen, by rw [hshape]; rfl⟩
  | hqxDetect c =>
    obtain ⟨found, rfl⟩ := hqxDetectJob_eq_ok hj
    exact ⟨rfl, rfl, resultWord_toNat_le_one found⟩
  | binDetect c =>
    obtain rfl := binDetectJob_eq_ok hj
    exact ⟨rfl, rfl, resultWord_toNat_le_one _⟩
  | hqxFile c =>
    obtain ⟨data, rsrc, u, p, hparse, rfl⟩ := hqxFileJob_eq_ok hj
    obtain ⟨hdata, hrsrc, hlo, hhi⟩ := hqxParse_eq_ok hparse
    have hname : (BitVec.ofNat 32 u.nm.length).toNat = u.nm.length := toNat_ofNat_of_le_63 hhi
    refine ⟨rfl, rfl, ofNat_length_append hdata hrsrc, rfl, rfl, hname ▸ hlo, hname ▸ hhi, ?_⟩
    show Space.read .name _ (BitVec.ofNat 32 u.nm.length).toNat = 0
    rw [hname]
    exact (nameIs_finishJob s rfl).2.1
  | hqxWrap c =>
    obtain ⟨data, rsrc, u, p, hparse, rfl⟩ := hqxWrapJob_eq_ok hj
    exact ⟨ofNat_length_of_eq_toNat (hqxParse_eq_ok hparse).1, rfl⟩
  | binFile c =>
    obtain ⟨u, data, rsrc, p, hfault, hu, hdata, hrsrc, rfl⟩ := binFileJob_eq_ok hj
    obtain ⟨hlen, -⟩ := headerFault_eq_none_iff.1 hfault
    obtain ⟨hnm, hlo, hhi⟩ := macbName_length_eq hfault (!decide (HeaderCrcOk (jobInput s)))
    rw [← hu] at hnm
    rw [← hnm] at hlo hhi
    have hname : (BitVec.ofNat 32 u.nm.length).toNat = u.nm.length := toNat_ofNat_of_le_63 hhi
    refine ⟨?_, ?_, ofNat_length_append hdata hrsrc, rfl, (resultWord_mask _ false).2.2, hname ▸ hlo, hname ▸ hhi, ?_⟩
    · rw [← hinp, ← macbFields_dl hlen (!decide (HeaderCrcOk (jobInput s))), ← hu]
      rfl
    · rw [← hinp, ← macbFields_rl hlen (!decide (HeaderCrcOk (jobInput s))), ← hu]
      rfl
    · show Space.read .name _ (BitVec.ofNat 32 u.nm.length).toNat = 0
      rw [hname]
      exact (nameIs_finishJob s rfl).2.1
  | binWrap c =>
    obtain ⟨u, sel, p, hfault, hu, hout, hshape⟩ := binWrapJob_eq_ok hj
    obtain ⟨hlen, -⟩ := headerFault_eq_none_iff.1 hfault
    have hdl : u.dl = field32 (jobInput s) 83 := by rw [hu, macbFields_dl hlen]
    have hrl : u.rl = field32 (jobInput s) 87 := by rw [hu, macbFields_rl hlen]
    have hresult : j.result = resultWord false u.macbin1 sel := by rw [hshape]
    obtain ⟨hmask, hsel, -⟩ := resultWord_mask u.macbin1 sel
    dsimp only
    rw [finishJob_regs_result, finishJob_regs_outCount, hresult, hsel, ← hinp, ← hdl, ← hrl]
    refine ⟨?_, by rw [hshape]; rfl, hmask⟩
    cases sel with
    | true => exact ofNat_length_of_eq_toNat hout
    | false => exact ofNat_length_of_eq_toNat hout
  | crcXmodem c =>
    obtain rfl := crcXmodemJob_eq_ok hj
    exact ⟨rfl, rfl⟩
  | crcArc c =>
    obtain rfl := crcArcJob_eq_ok hj
    exact ⟨rfl, rfl⟩
  | reservedOp op c => cases hj
  | reservedBits rsvd c op => cases hj
  | _ c => exact sitUnsupJob_ne_ok hj

/-! ### The frame -/

/-- What every successful result keeps to: RESULT's reserved bits are 0, and only HQX_FILE and BIN_FILE name a file, with a name that
NAME has room for. -/
structure JobResult.Keeps (i : Instr) (j : JobResult) : Prop where
  result : j.result &&& resultMask = j.result
  name   : j.name = none ∨ ∃ nm, j.name = some nm ∧ nm.length ≤ 63 ∧ ∃ c, i = .hqxFile c ∨ i = .binFile c

theorem JobResult.keeps_of_results {i : Instr} {j : JobResult} (hresult : j.result = 0) (hname : j.name = none) :
    JobResult.Keeps i j :=
  ⟨by rw [hresult]; rfl, .inl hname⟩

theorem resultWord_and_resultMask (a b c : Bool) : resultWord a b c &&& resultMask = resultWord a b c := by
  revert a b c
  decide

theorem checkedFork_keeps {i : Instr} {c : Bool} {s : State} {x : Except Raise Produced} {j : JobResult} (hx : FillsOutLen s x)
    (h : checkedFork c s x = .ok j) : JobResult.Keeps i j := by
  obtain ⟨-, u, p, k, hshape⟩ := checkedFork_eq_ok hx h
  rw [hshape]
  exact JobResult.keeps_of_results rfl rfl

theorem jobOf_keeps {i : Instr} {s : State} {j : JobResult} (h : jobOf i s = .ok j) : JobResult.Keeps i j := by
  cases i with
  | sitRaw c => exact checkedFork_keeps (fillsOutLen_sitRawFork s) ((sitRawJob_eq c s).symm.trans h)
  | sitRle90 c => exact checkedFork_keeps (fillsOutLen_sitRle90Fork s) ((sitRle90Job_eq c s).symm.trans h)
  | sitLzw c => exact checkedFork_keeps (fillsOutLen_sitLzwFork s) ((sitLzwJob_eq c s).symm.trans h)
  | sitM13 c => exact checkedFork_keeps (fillsOutLen_sitM13Fork s) ((sitM13Job_eq c s).symm.trans h)
  | sitArs c =>
    obtain ⟨-, u, k, hshape⟩ := sitArsJob_eq_ok h
    rw [hshape]
    exact JobResult.keeps_of_results rfl rfl
  | cptRle c =>
    obtain ⟨-, u, k, hshape⟩ := cptRleJob_eq_ok h
    rw [hshape]
    exact JobResult.keeps_of_results rfl rfl
  | cptLzh c =>
    obtain ⟨-, u, k, hshape⟩ := cptLzhJob_eq_ok h
    rw [hshape]
    exact JobResult.keeps_of_results rfl rfl
  | hqxDetect c =>
    obtain ⟨found, rfl⟩ := hqxDetectJob_eq_ok h
    exact ⟨resultWord_and_resultMask _ _ _, .inl rfl⟩
  | binDetect c =>
    obtain rfl := binDetectJob_eq_ok h
    exact ⟨resultWord_and_resultMask _ _ _, .inl rfl⟩
  | hqxFile c =>
    obtain ⟨data, rsrc, u, p, hparse, rfl⟩ := hqxFileJob_eq_ok h
    exact ⟨BitVec.zero_and, .inr ⟨_, rfl, (hqxParse_eq_ok hparse).2.2.2, c, .inl rfl⟩⟩
  | hqxWrap c =>
    obtain ⟨data, rsrc, u, p, -, rfl⟩ := hqxWrapJob_eq_ok h
    exact JobResult.keeps_of_results rfl rfl
  | binFile c =>
    obtain ⟨u, data, rsrc, p, hfault, rfl, -, -, rfl⟩ := binFileJob_eq_ok h
    obtain ⟨hnm, -, hhi⟩ := macbName_length_eq hfault (!decide (HeaderCrcOk (jobInput s)))
    exact ⟨resultWord_and_resultMask _ _ _, .inr ⟨_, rfl, hnm.trans_le hhi, c, .inr rfl⟩⟩
  | binWrap c =>
    obtain ⟨u, sel, p, -, -, -, hshape⟩ := binWrapJob_eq_ok h
    rw [hshape]
    exact ⟨resultWord_and_resultMask _ _ _, .inl rfl⟩
  | crcXmodem c =>
    obtain rfl := crcXmodemJob_eq_ok h
    exact JobResult.keeps_of_results rfl rfl
  | crcArc c =>
    obtain rfl := crcArcJob_eq_ok h
    exact JobResult.keeps_of_results rfl rfl
  | reservedOp op c => cases h
  | reservedBits rsvd c op => cases h
  | _ c => exact (sitUnsupJob_ne_ok h).elim

/-- Settles O16: the end of a job writes OUT from index 0 on, NAME where the result names a file, and nothing the host writes. -/
theorem jobChangesOnlyItsOutput : Obligations.JobChangesOnlyItsOutput := by
  unfold Obligations.JobChangesOnlyItsOutput
  intro i s t hexec
  refine ⟨(exec_keeps hexec).1, fun hd => ?_⟩
  rw [exec_eq_endJob_jobOf] at hexec
  obtain ⟨j, hj, hcap, rfl⟩ := endJob_done hexec hd
  refine ⟨(outputIs_finishJob s j).2.2.2, rfl, hcap, fun a ha => ?_⟩
  rcases (jobOf_keeps hj).name with hnone | ⟨nm, hnm, hlen, c, hi⟩
  · rw [finishJob_name, hnone, nameAfter]
  · have hlt : (finishJob s j).regs.mdNameLen.toNat < a :=
      ha.resolve_left fun hne => hi.elim (hne.1 c) (hne.2 c)
    rw [finishJob_regs_mdNameLen, hnm, Option.getD_some, toNat_ofNat_of_le_63 hlen] at hlt
    exact (nameIs_finishJob s hnm).2.2 a hlt

end Sys2Proof.Machine
end

section
/-! PROOFS. A job's outcome depends on its latch, its input and the parameters alone (70_reset_and_hazards.md R902): two states that
agree on these have jobs that agree on everything but the units' state, which no job reads. -/

namespace Sys2Proof.Machine

/-- Two jobs' answers are the same error, or results that differ in the units' state at most. -/
inductive Agree : Except Raise JobResult → Except Raise JobResult → Prop
  | error (r : Raise) : Agree (.error r) (.error r)
  | ok (j : JobResult) (u : Units) : Agree (.ok j) (.ok { j with units := u })

theorem Agree.bind {α : Type} (x : Except Raise α) {f f' : α → Except Raise JobResult} (h : ∀ a, Agree (f a) (f' a)) :
    Agree (x >>= f) (x >>= f') := by
  cases x with
  | error r => exact .error r
  | ok a => exact h a

theorem Agree.ite {p : Prop} [Decidable p] {x x' y y' : Except Raise JobResult} (h : Agree x x') (h' : Agree y y') :
    Agree (if p then x else y) (if p then x' else y') := by
  split
  · exact h
  · exact h'

/-- What a job may depend on. -/
structure SameJob (s s' : State) : Prop where
  cfg   : s.cfg = s'.cfg
  latch : s.latch = s'.latch
  input : jobInput s = jobInput s'

theorem sameJob_of_reads {s s' : State} (hcfg : s.cfg = s'.cfg) (hlatch : s.latch = s'.latch)
    (hin : ∀ a < s.latch.inLen.toNat, s.inn.read .inn a = s'.inn.read .inn a) : SameJob s s' := by
  refine ⟨hcfg, hlatch, ?_⟩
  rw [jobInput, jobInput, ← hlatch, slice_eq_map_range', slice_eq_map_range']
  exact List.map_congr_left fun a ha => hin a (by simpa using ha)

section
variable {s s' : State} (h : SameJob s s')
include h

theorem SameJob.checkCommand (rsvd : BitVec 23) (op : BitVec 8) : checkCommand s rsvd op = checkCommand s' rsvd op := by
  rw [Machine.checkCommand, Machine.checkCommand, h.cfg, h.latch]

theorem SameJob.outLen : jobOutLen s = jobOutLen s' := by
  rw [jobOutLen, jobOutLen, h.latch]

theorem SameJob.forkResult (c : Bool) (fork : List Byte) (u u' : Units) (p k : Nat) :
    Agree (forkResult c s fork u p k) (forkResult c s' fork u' p k) := by
  have hcheck : forkCrcCheck c s fork = forkCrcCheck c s' fork := by
    rw [forkCrcCheck, forkCrcCheck, h.latch]
  rw [Machine.forkResult, Machine.forkResult, hcheck]
  exact .bind _ fun c => .ok _ _

theorem SameJob.checkCommand_bind {op : BitVec 8} {f f' : Unit → Except Raise JobResult} (hf : ∀ u, Agree (f u) (f' u)) :
    Agree (Machine.checkCommand s 0 op >>= f) (Machine.checkCommand s' 0 op >>= f') := by
  rw [h.checkCommand]
  exact .bind _ hf

/-- Each command's job, part by part. -/
theorem SameJob.jobOf (i : Instr) : Agree (jobOf i s) (jobOf i s') := by
  cases i with
  | sitRaw c =>
    refine h.checkCommand_bind fun _ => ?_
    rw [h.input, h.outLen]
    exact .bind _ fun r => h.forkResult ..
  | sitRle90 c =>
    refine h.checkCommand_bind fun _ => ?_
    rw [h.input, h.outLen]
    exact .bind _ fun r => h.forkResult ..
  | sitLzw c =>
    refine h.checkCommand_bind fun _ => ?_
    rw [h.input, h.outLen]
    exact .bind _ fun r => h.forkResult ..
  | sitM13 c =>
    refine h.checkCommand_bind fun _ => ?_
    rw [h.input, h.outLen, h.cfg]
    exact .bind _ fun start => .bind _ fun r => h.forkResult ..
  | sitArs c =>
    refine h.checkCommand_bind fun _ => ?_
    rw [h.input, h.outLen, h.cfg]
    exact .bind _ fun start => .bind _ fun r => .ok _ _
  | cptRle c =>
    refine h.checkCommand_bind fun _ => ?_
    rw [h.input, h.outLen]
    exact .bind _ fun r => .ok _ _
  | cptLzh c =>
    refine h.checkCommand_bind fun _ => ?_
    rw [h.input, h.outLen]
    exact .bind _ fun r => .ok _ _
  | hqxDetect c =>
    refine h.checkCommand_bind fun _ => ?_
    rw [h.input]
    exact .ok _ _
  | hqxFile c =>
    refine h.checkCommand_bind fun _ => ?_
    rw [h.input, h.cfg]
    exact .bind _ fun r => .ok _ _
  | hqxWrap c =>
    refine h.checkCommand_bind fun _ => ?_
    rw [h.input, h.cfg]
    exact .bind _ fun r => .ok _ _
  | binDetect c =>
    refine h.checkCommand_bind fun _ => ?_
    rw [h.input]
    exact .ok _ _
  | binFile c =>
    refine h.checkCommand_bind fun _ => ?_
    rw [h.input, h.cfg]
    exact .bind _ fun u => .ite (.error _) (.bind _ fun data => .bind _ fun rsrc => .ok _ _)
  | binWrap c =>
    refine h.checkCommand_bind fun _ => ?_
    rw [h.input, h.cfg]
    exact .bind _ fun u => .ite (.error _) (.ite (.error _) (.bind _ fun fork => .ok _ _))
  | crcXmodem c =>
    refine h.checkCommand_bind fun _ => ?_
    rw [h.input]
    exact .ok _ _
  | crcArc c =>
    refine h.checkCommand_bind fun _ => ?_
    rw [h.input]
    exact .ok _ _
  | reservedOp op c => exact .error _
  | reservedBits rsvd c op => exact .error _
  | _ c => exact h.checkCommand_bind fun _ => .error _

end

/-- What two jobs' ends have in common. -/
structure SameEnd (t t' : State) : Prop where
  status   : t.regs.status = t'.regs.status
  outCount : t.regs.outCount = t'.regs.outCount
  results  : t.regs.results = t'.regs.results
  seq      : t.seq = t'.seq

theorem sameEnd_raiseError (r : Raise) (s s' : State) : SameEnd (raiseError r s) (raiseError r s') := ⟨rfl, rfl, rfl, rfl⟩

theorem sameEnd_finishJob (s s' : State) (j : JobResult) (u : Units) :
    SameEnd (finishJob s j) (finishJob s' { j with units := u }) := ⟨rfl, rfl, rfl, rfl⟩

/-- NAME up to its final 0x00 is the result's, whatever stood there. -/
theorem read_nameAfter_of_le {nm : List Byte} {a : Nat} (ha : a ≤ nm.length) (m m' : Space) :
    (nameAfter m (some nm)).read .name a = (nameAfter m' (some nm)).read .name a := by
  have hlt : 0 ≤ a ∧ a < 0 + (nm ++ [0]).length := by
    rw [List.length_append, List.length_singleton]
    omega
  rw [nameAfter, nameAfter, Space.read_writeList, Space.read_writeList, if_pos hlt, if_pos hlt]

theorem jobOf_names {i : Instr} {c : Bool} (hi : i = .hqxFile c ∨ i = .binFile c) {s : State} {j : JobResult}
    (h : jobOf i s = .ok j) : ∃ nm, j.name = some nm := by
  rcases hi with rfl | rfl
  · obtain ⟨_, _, _, _, -, rfl⟩ := hqxFileJob_eq_ok h
    exact ⟨_, rfl⟩
  · obtain ⟨_, _, _, _, -, -, -, -, rfl⟩ := binFileJob_eq_ok h
    exact ⟨_, rfl⟩

/-- Settles O18: jobs that agree end alike. -/
theorem nothingCarriesOver : Obligations.NothingCarriesOver := by
  unfold Obligations.NothingCarriesOver
  intro i s s' t t' hcfg hlatch hin hexec hexec'
  have hagree := (sameJob_of_reads hcfg hlatch hin).jobOf i
  rw [exec_eq_endJob_jobOf] at hexec hexec'
  generalize hx : jobOf i s = x at hagree hexec
  generalize jobOf i s' = x' at hagree hexec'
  cases hagree with
  | error r =>
    cases hexec
    cases hexec'
    obtain ⟨h1, h2, h3, h4⟩ := sameEnd_raiseError r s s'
    exact ⟨h1, h2, h3, h4, fun hd => absurd hd (not_endedDone_raiseError r s)⟩
  | ok j u =>
    by_cases hcap : j.out.length ≤ s.cfg.outCap
    · rw [endJob_ok s j hcap] at hexec
      rw [endJob_ok s' { j with units := u } (hcfg ▸ hcap)] at hexec'
      cases hexec
      cases hexec'
      obtain ⟨h1, h2, h3, h4⟩ := sameEnd_finishJob s s' j u
      refine ⟨h1, h2, h3, h4, fun _ => ⟨fun a ha => ?_, fun c hi a ha => ?_⟩⟩
      · rw [(outputIs_finishJob s j).2.2.1 a ha]
        exact ((outputIs_finishJob s' { j with units := u }).2.2.1 a ha).symm
      · obtain ⟨nm, hnm⟩ := jobOf_names hi hx
        rw [finishJob_regs_mdNameLen, hnm, Option.getD_some] at ha
        rw [finishJob_name, finishJob_name, hnm]
        rw [BitVec.toNat_ofNat] at ha
        exact read_nameAfter_of_le (ha.trans (Nat.mod_le _ _)) _ _
    · have hend : endJob s (.ok j) = .next (raiseError { err := .resOutCap, outCount := s.cfg.outCap, bpos := j.bpos, bitpos := j.bitpos } s) := by
        rw [endJob, if_pos (Nat.lt_of_not_le hcap)]
      have hend' : endJob s' (.ok { j with units := u }) =
          .next (raiseError { err := .resOutCap, outCount := s.cfg.outCap, bpos := j.bpos, bitpos := j.bitpos } s') := by
        rw [endJob, if_pos (hcfg ▸ Nat.lt_of_not_le hcap), hcfg]
      rw [hend] at hexec
      rw [hend'] at hexec'
      cases hexec
      cases hexec'
      obtain ⟨h1, h2, h3, h4⟩ := sameEnd_raiseError { err := .resOutCap, outCount := s.cfg.outCap, bpos := j.bpos, bitpos := j.bitpos } s s'
      exact ⟨h1, h2, h3, h4, fun hd => absurd hd (not_endedDone_raiseError _ s)⟩

end Sys2Proof.Machine
end

section
/-! PROOFS. Bits that stand in a stream (20_memory.md R161-R163), and what it means that a read at the bit cursor decodes a
sequence of bits: it answers behind them, and an input that ends inside them is the unit's end-of-input error. -/

namespace Sys2Proof.Machine
open Reference (bitsLsb bitsMsb streamBitLsb streamBitMsb HoldsLsb HoldsMsb)

/-! ### Numbers as bits -/

@[simp] theorem bitsLsb_length (n v : Nat) : (bitsLsb n v).length = n := by simp [bitsLsb]

@[simp] theorem bitsMsb_length (n v : Nat) : (bitsMsb n v).length = n := by simp [bitsMsb]

theorem bitsLsb_succ (n v : Nat) : bitsLsb (n + 1) v = v.testBit 0 :: bitsLsb n (v / 2) := by
  rw [bitsLsb, List.range_succ_eq_map, List.map_cons, List.map_map, bitsLsb]
  exact congrArg _ (List.map_congr_left fun i _ => by simp [Nat.testBit_succ])

theorem bitsMsb_succ (n v : Nat) : bitsMsb (n + 1) v = bitsMsb n (v / 2) ++ [v.testBit 0] := by
  rw [bitsMsb, bitsLsb_succ, List.reverse_cons, bitsMsb]

theorem two_mul_div_add_testBit_zero (v : Nat) : 2 * (v / 2) + (v.testBit 0).toNat = v := by
  rw [Nat.toNat_testBit]
  omega

/-- The number whose bits these are, the first the most significant. -/
def valueMsb (w : List Bool) : Nat := w.foldl (fun v b => 2 * v + b.toNat) 0

theorem valueMsb_append_singleton (w : List Bool) (b : Bool) : valueMsb (w ++ [b]) = 2 * valueMsb w + b.toNat := by
  rw [valueMsb, List.foldl_append]
  rfl

theorem bitsMsb_valueMsb (w : List Bool) : bitsMsb w.length (valueMsb w) = w := by
  induction w using List.reverseRecOn with
  | nil => rfl
  | append_singleton w b ih =>
    have hhalf : (2 * valueMsb w + b.toNat) / 2 = valueMsb w := by
      have := b.toNat_le
      omega
    have hlow : (2 * valueMsb w + b.toNat).testBit 0 = b := by
      cases b <;> simp [Nat.testBit_zero]
    rw [List.length_append, List.length_singleton, bitsMsb_succ, valueMsb_append_singleton, hhalf, hlow, ih]

theorem valueMsb_bitsMsb {n v : Nat} (h : v < 2 ^ n) : valueMsb (bitsMsb n v) = v := by
  induction n generalizing v with
  | zero =>
    obtain rfl : v = 0 := by simpa using h
    rfl
  | succ n ih =>
    rw [bitsMsb_succ, valueMsb_append_singleton, ih (by rw [pow_succ] at h; omega), two_mul_div_add_testBit_zero]

theorem bitsMsb_injective {n v w : Nat} (hv : v < 2 ^ n) (hw : w < 2 ^ n) (h : bitsMsb n v = bitsMsb n w) : v = w := by
  rw [← valueMsb_bitsMsb hv, h, valueMsb_bitsMsb hw]

/-- The first bits of a number are those of the number without its low bits. -/
theorem bitsMsb_add (m n v : Nat) : bitsMsb (m + n) v = bitsMsb m (v / 2 ^ n) ++ bitsMsb n v := by
  induction n generalizing v with
  | zero => simp [bitsMsb, bitsLsb]
  | succ n ih =>
    rw [show m + (n + 1) = (m + n) + 1 by omega, bitsMsb_succ, ih, bitsMsb_succ n, List.append_assoc, Nat.div_div_eq_div_mul,
      ← pow_succ']

/-! ### Bits in a stream -/

/-- The bits stand in the stream from bit `k` on, in the order that the unit reads in. -/
def Holds (msb : Bool) (bs : List Byte) (k : Nat) (w : List Bool) : Prop :=
  if msb then HoldsMsb bs k w else HoldsLsb bs k w

/-- The bit at one place of the stream. -/
def streamBit (msb : Bool) (bs : List Byte) (k : Nat) : Bool := if msb then streamBitMsb bs k else streamBitLsb bs k

theorem holds_iff {msb : Bool} {bs : List Byte} {k : Nat} {w : List Bool} :
    Holds msb bs k w ↔ k + w.length ≤ 8 * bs.length ∧ ∀ j < w.length, streamBit msb bs (k + j) = w.getD j false := by
  cases msb <;> rfl

theorem holds_nil_iff {msb : Bool} {bs : List Byte} {k : Nat} : Holds msb bs k [] ↔ k ≤ 8 * bs.length := by
  simp [holds_iff]

theorem holds_append_iff {msb : Bool} {bs : List Byte} {k : Nat} {v w : List Bool} :
    Holds msb bs k (v ++ w) ↔ Holds msb bs k v ∧ Holds msb bs (k + v.length) w := by
  rw [holds_iff, holds_iff, holds_iff, List.length_append]
  constructor
  · rintro ⟨hlen, hbits⟩
    refine ⟨⟨by omega, fun j hj => ?_⟩, by omega, fun j hj => ?_⟩
    · rw [hbits j (by omega), List.getD_append _ _ _ _ hj]
    · rw [Nat.add_assoc, hbits (v.length + j) (by omega), List.getD_append_right _ _ _ _ (by omega), Nat.add_sub_cancel_left]
  · rintro ⟨⟨-, hv⟩, hlen, hw⟩
    refine ⟨by omega, fun j hj => ?_⟩
    by_cases hjv : j < v.length
    · rw [hv j hjv, List.getD_append _ _ _ _ hjv]
    · rw [List.getD_append_right _ _ _ _ (by omega), ← hw (j - v.length) (by omega)]
      congr 1
      omega

theorem holds_cons_iff {msb : Bool} {bs : List Byte} {k : Nat} {b : Bool} {w : List Bool} :
    Holds msb bs k (b :: w) ↔ k < 8 * bs.length ∧ streamBit msb bs k = b ∧ Holds msb bs (k + 1) w := by
  rw [← List.singleton_append, holds_append_iff, holds_iff (w := [b])]
  simp only [List.length_singleton, Nat.lt_one_iff, forall_eq, Nat.add_zero, List.getD_cons_zero, Nat.succ_le_iff]
  tauto

theorem Holds.le {msb : Bool} {bs : List Byte} {k : Nat} {w : List Bool} (h : Holds msb bs k w) :
    k + w.length ≤ 8 * bs.length := (holds_iff.1 h).1

/-! ### One bit and several -/

/-- The unit's read of `n` bits, in its order. -/
def readBits (msb : Bool) (bs : List Byte) (k n : Nat) : Option (Nat × Nat) :=
  if msb then readBitsBE bs k n else readBitsLE bs k n

theorem bitLE_eq (bs : List Byte) (k : Nat) : bitLE bs k = (streamBitLsb bs k).toNat := by
  rw [bitLE, streamBitLsb, BitVec.getLsbD, Nat.toNat_testBit, Nat.shiftRight_eq_div_pow]

theorem bitBE_eq (bs : List Byte) (k : Nat) : bitBE bs k = (streamBitMsb bs k).toNat := by
  rw [bitBE, streamBitMsb, BitVec.getLsbD, Nat.toNat_testBit, Nat.shiftRight_eq_div_pow]

theorem readBits_one {msb : Bool} {bs : List Byte} {k : Nat} (h : k < 8 * bs.length) :
    readBits msb bs k 1 = some ((streamBit msb bs k).toNat, k + 1) := by
  cases msb with
  | true => simp [readBits, readBitsBE, show ¬ 8 * bs.length < k + 1 by omega, bitsBE, bitBE_eq, streamBit]
  | false => simp [readBits, readBitsLE, show ¬ 8 * bs.length < k + 1 by omega, bitsLE, bitLE_eq, streamBit]

theorem readBits_beyond {msb : Bool} {bs : List Byte} {k n : Nat} (hn : n ≠ 0) (h : 8 * bs.length < k + n) :
    readBits msb bs k n = none := by
  cases msb with
  | true => simp [readBits, readBitsBE, hn, h]
  | false => simp [readBits, readBitsLE, hn, h]

theorem bitsLE_of_holds {bs : List Byte} {k n v : Nat} (hv : v < 2 ^ n) (h : Holds false bs k (bitsLsb n v)) :
    bitsLE bs k n = v := by
  induction n generalizing k v with
  | zero =>
    obtain rfl : v = 0 := by simpa using hv
    rfl
  | succ n ih =>
    rw [bitsLsb_succ, holds_cons_iff] at h
    obtain ⟨-, hbit, hrest⟩ := h
    have hbit : streamBitLsb bs k = v.testBit 0 := hbit
    rw [bitsLE, ih (by rw [pow_succ] at hv; omega) hrest, bitLE_eq, hbit, Nat.add_comm, two_mul_div_add_testBit_zero]

theorem bitsBE_of_holds {bs : List Byte} {k n v : Nat} (hv : v < 2 ^ n) (h : Holds true bs k (bitsMsb n v)) :
    bitsBE bs k n = v := by
  induction n generalizing v with
  | zero =>
    obtain rfl : v = 0 := by simpa using hv
    rfl
  | succ n ih =>
    rw [bitsMsb_succ, holds_append_iff, bitsMsb_length, holds_cons_iff] at h
    obtain ⟨hfirst, -, hbit, -⟩ := h
    have hbit : streamBitMsb bs (k + n) = v.testBit 0 := hbit
    rw [bitsBE, ih (by rw [pow_succ] at hv; omega) hfirst, bitBE_eq, hbit, two_mul_div_add_testBit_zero]

/-- The bits of a number in the order the unit reads them in. -/
def numberBits (msb : Bool) (n v : Nat) : List Bool := if msb then bitsMsb n v else bitsLsb n v

@[simp] theorem numberBits_length (msb : Bool) (n v : Nat) : (numberBits msb n v).length = n := by
  cases msb
  · exact bitsLsb_length n v
  · exact bitsMsb_length n v

theorem readBits_of_holds {msb : Bool} {bs : List Byte} {k n v : Nat} (hv : v < 2 ^ n) (h : Holds msb bs k (numberBits msb n v)) :
    readBits msb bs k n = some (v, k + n) := by
  by_cases hn : n = 0
  · subst hn
    obtain rfl : v = 0 := by simpa using hv
    cases msb <;> rfl
  · have hle := h.le
    rw [numberBits_length] at hle
    cases msb with
    | true => simp [readBits, readBitsBE, hn, show ¬ 8 * bs.length < k + n by omega, bitsBE_of_holds hv h]
    | false => simp [readBits, readBitsLE, hn, show ¬ 8 * bs.length < k + n by omega, bitsLE_of_holds hv h]

/-! ### Decoding a sequence of bits -/

/-- The input ends behind these bits, which stand from bit `k` on. -/
def EndsAfter (msb : Bool) (bs : List Byte) (k : Nat) (w : List Bool) : Prop :=
  Holds msb bs k w ∧ k + w.length = 8 * bs.length

/-- The read's outcome is `out` behind the bits `w` where they stand, and an input that ends inside them is the error `eof`. -/
def Reads {α : Type} (msb : Bool) (bs : List Byte) (eof : Err) (read : Nat → Except Raise α) (w : List Bool)
    (out : Nat → Except Raise α) : Prop :=
  (∀ k, Holds msb bs k w → read k = out (k + w.length)) ∧
    ∀ k part, part <+: w → part ≠ w → EndsAfter msb bs k part → ∃ r, read k = .error r ∧ r.err = eof

/-- The read answers `a` and the cursor behind the bits. -/
abbrev Decodes {α : Type} (msb : Bool) (bs : List Byte) (eof : Err) (read : Nat → Except Raise (α × Nat)) (w : List Bool) (a : α) :
    Prop :=
  Reads msb bs eof read w fun k => .ok (a, k)

section
variable {α β : Type} {msb : Bool} {bs : List Byte} {eof : Err}

theorem Reads.of_holds {read out : Nat → Except Raise α} {w : List Bool} {k : Nat} (h : Reads msb bs eof read w out)
    (hk : Holds msb bs k w) : read k = out (k + w.length) := h.1 k hk

theorem reads_nil (read : Nat → Except Raise α) : Reads msb bs eof read [] read :=
  ⟨fun _ _ => rfl, fun _ _ hp hne => absurd (List.prefix_nil.1 hp) hne⟩

theorem prefix_append_cases {v w part : List Bool} (h : part <+: v ++ w) :
    part <+: v ∨ ∃ part', part = v ++ part' ∧ part' <+: w := by
  rcases List.prefix_or_prefix_of_prefix h (List.prefix_append v w) with hpv | ⟨part', rfl⟩
  · exact .inl hpv
  · exact .inr ⟨part', rfl, (List.prefix_append_right_inj v).1 h⟩

/-- One read after another reads the one's bits and then the other's. -/
theorem Reads.bind {read mid : Nat → Except Raise α} {next : α → Except Raise β} {v w : List Bool}
    {out : Nat → Except Raise β} (h : Reads msb bs eof read v mid)
    (h' : Reads msb bs eof (fun k => mid k >>= next) w out) : Reads msb bs eof (fun k => read k >>= next) (v ++ w) out := by
  refine ⟨fun k hk => ?_, fun k part hp hne hk => ?_⟩
  · obtain ⟨hv, hw⟩ := holds_append_iff.1 hk
    simp only [h.1 k hv, h'.1 _ hw, List.length_append, Nat.add_assoc]
  · rcases prefix_append_cases hp with hpv | ⟨part', rfl, hpw⟩
    · by_cases heq : part = v
      · subst heq
        have hw : w ≠ [] := fun hnil => hne (by rw [hnil, List.append_nil])
        have hend : EndsAfter msb bs (k + part.length) [] := ⟨holds_nil_iff.2 hk.2.le, hk.2⟩
        obtain ⟨r, hr, he⟩ := h'.2 (k + part.length) [] List.nil_prefix hw.symm hend
        exact ⟨r, by simp only [h.1 k hk.1, hr], he⟩
      · obtain ⟨r, hr, he⟩ := h.2 k part hpv heq hk
        exact ⟨r, by simp only [hr, except_error_bind], he⟩
    · obtain ⟨hv, hw⟩ := holds_append_iff.1 hk.1
      have hend : EndsAfter msb bs (k + v.length) part' := ⟨hw, by rw [← hk.2, List.length_append, Nat.add_assoc]⟩
      obtain ⟨r, hr, he⟩ := h'.2 _ part' hpw (fun heq => hne (by rw [heq])) hend
      exact ⟨r, by simp only [h.1 k hv, hr], he⟩

/-- A read and then something that reads no further bits. -/
theorem Reads.then {read mid : Nat → Except Raise α} {v : List Bool} (h : Reads msb bs eof read v mid)
    (next : α → Except Raise β) : Reads msb bs eof (fun k => read k >>= next) v fun k => mid k >>= next := by
  have hb := h.bind (reads_nil fun k => mid k >>= next)
  rwa [List.append_nil] at hb

theorem Decodes.bind {read : Nat → Except Raise (α × Nat)} {next : α × Nat → Except Raise β} {v w : List Bool} {a : α}
    {out : Nat → Except Raise β} (h : Decodes msb bs eof read v a)
    (h' : Reads msb bs eof (fun k => next (a, k)) w out) : Reads msb bs eof (fun k => read k >>= next) (v ++ w) out :=
  Reads.bind h h'

theorem Decodes.then {read : Nat → Except Raise (α × Nat)} {v : List Bool} {a : α} (h : Decodes msb bs eof read v a)
    (next : α × Nat → Except Raise β) : Reads msb bs eof (fun k => read k >>= next) v fun k => next (a, k) :=
  Reads.then h next

theorem Reads.congr {read read' : Nat → Except Raise α} {w : List Bool} {out : Nat → Except Raise α}
    (h : Reads msb bs eof read w out) (heq : ∀ k, read' k = read k) : Reads msb bs eof read' w out := by
  rwa [show read' = read from funext heq]

theorem Reads.congr_out {read out out' : Nat → Except Raise α} {w : List Bool} (h : Reads msb bs eof read w out)
    (heq : ∀ k, out' k = out k) : Reads msb bs eof read w out' := by
  rwa [show out' = out from funext heq]

/-- A field of `n` bits. -/
theorem decodes_readBits {n v : Nat} (hv : v < 2 ^ n) :
    Decodes msb bs eof (fun k => orEnd eof k (readBits msb bs k n)) (numberBits msb n v) v := by
  refine ⟨fun k hk => ?_, fun k part hp hne hk => ?_⟩
  · simp only [readBits_of_holds hv hk, numberBits_length, orEnd]
  · have hlt : part.length < n := by
      have hle := hp.length_le
      rw [numberBits_length] at hle
      refine lt_of_le_of_ne hle fun heq => hne (hp.eq_of_length ?_)
      rw [heq, numberBits_length]
    have hend := hk.2
    simp only [readBits_beyond (msb := msb) (k := k) (n := n) (by omega) (by omega : 8 * bs.length < k + n), orEnd]
    exact ⟨_, rfl, rfl⟩

end

end Sys2Proof.Machine
end
section
/-! PROOFS. Canonical Huffman trees (41_common.md R360-R365): the closed form of a codeword, the prefix property of an accepted
length list, and the bit-by-bit walk over any prefix code. -/

namespace Sys2Proof.Machine
open Reference (bitsMsb codewordValue codewordBits KraftOk PrefixCode canonicalTree symbolBits HoldsLsb HoldsMsb)

/-! ### Prefixes of numbers written most significant bit first -/

theorem bitsMsb_prefix_iff {l m v w : Nat} (hv : v < 2 ^ l) (hw : w < 2 ^ m) :
    bitsMsb l v <+: bitsMsb m w ↔ l ≤ m ∧ w / 2 ^ (m - l) = v := by
  constructor
  · intro h
    have hle := h.length_le
    rw [bitsMsb_length, bitsMsb_length] at hle
    obtain ⟨n, rfl⟩ := Nat.exists_eq_add_of_le hle
    rw [bitsMsb_add] at h
    have heq := List.prefix_of_prefix_length_le h (List.prefix_append (bitsMsb l (w / 2 ^ n)) (bitsMsb n w)) (by simp)
    refine ⟨hle, ?_⟩
    rw [Nat.add_sub_cancel_left]
    refine (bitsMsb_injective hv ?_ (heq.eq_of_length (by simp))).symm
    rw [Nat.div_lt_iff_lt_mul (by positivity), ← pow_add]
    exact hw
  · rintro ⟨hle, rfl⟩
    obtain ⟨n, rfl⟩ := Nat.exists_eq_add_of_le hle
    rw [Nat.add_sub_cancel_left, bitsMsb_add]
    exact List.prefix_append _ _

/-! ### The codewords of a length list -/

theorem kraftSum_cons (x : Nat) (lens : List Nat) (m n : Nat) :
    kraftSum (x :: lens) m n = (if x ≠ 0 ∧ x ≤ n then 2 ^ (m - x) else 0) + kraftSum lens m n := by
  induction n with
  | zero => rw [if_neg (by omega)]; rfl
  | succ n ih =>
    simp only [kraftSum, ih, List.count_cons, Nat.add_mul]
    by_cases hx : x = n + 1
    · subst hx
      simp
      omega
    · have hiff : (x ≠ 0 ∧ x ≤ n + 1) ↔ (x ≠ 0 ∧ x ≤ n) := by omega
      simp only [hiff, beq_iff_eq, if_neg hx]
      omega

@[simp] theorem kraftSum_nil (m n : Nat) : kraftSum [] m n = 0 := by
  induction n with
  | zero => rfl
  | succ n ih => simp [kraftSum, ih]

theorem kraftSum_mono {lens : List Nat} {m n n' : Nat} (h : n ≤ n') : kraftSum lens m n ≤ kraftSum lens m n' := by
  induction h with
  | refl => exact le_rfl
  | step _ ih => exact ih.trans (Nat.le_add_right _ _)

theorem kraftSum_scale {lens : List Nat} {m n : Nat} (d : Nat) (h : n ≤ m) :
    kraftSum lens (m + d) n = 2 ^ d * kraftSum lens m n := by
  induction n with
  | zero => rfl
  | succ n ih =>
    rw [kraftSum, kraftSum, ih (by omega), show m + d - (n + 1) = (m - (n + 1)) + d by omega, pow_add]
    ring

theorem kraftSum_of_le {lens : List Nat} {m n n' : Nat} (hmax : ∀ l ∈ lens, l ≤ n) (h : n ≤ n') :
    kraftSum lens m n' = kraftSum lens m n := by
  induction h with
  | refl => rfl
  | @step k hk ih =>
    have hcount : lens.count (k + 1) = 0 := List.count_eq_zero.2 fun hmem => by
      have := hmax _ hmem
      have : n ≤ k := hk
      omega
    rw [kraftSum, ih, hcount, Nat.zero_mul, Nat.add_zero]

/-- The codes of length `l` begin behind what the shorter ones take up. -/
theorem firstCode_succ (lens : List Nat) (l : Nat) : firstCode lens (l + 1) = kraftSum lens (l + 1) l := by
  induction l with
  | zero => rfl
  | succ l ih =>
    have hlower := kraftSum_scale (lens := lens) 1 (Nat.le_succ l)
    rw [firstCode, if_neg (Nat.succ_ne_zero l), ih, kraftSum, hlower, show l + 1 + 1 - (l + 1) = 1 by omega]
    ring

theorem kraftSum_self_succ (lens : List Nat) (l : Nat) :
    kraftSum lens (l + 1) (l + 1) = firstCode lens (l + 1) + lens.count (l + 1) := by
  rw [kraftSum, Nat.sub_self, pow_zero, Nat.mul_one, firstCode_succ]

theorem zipIdx_codeword_sum (lens : List Nat) (l s k : Nat) :
    (((lens.zipIdx k).filter fun p => p.1 != 0 && (decide (p.1 < l + 1) || (p.1 == l + 1 && decide (p.2 < s)))).map
      fun p => 2 ^ (l + 1 - p.1)).sum = kraftSum lens (l + 1) l + (lens.take (s - k)).count (l + 1) := by
  induction lens generalizing k with
  | nil => simp
  | cons x lens ih =>
    rw [List.zipIdx_cons, List.filter_cons, kraftSum_cons]
    have ih := ih (k + 1)
    by_cases hshort : x ≠ 0 ∧ x ≤ l
    · have hkeep : (x != 0 && (decide (x < l + 1) || (x == l + 1 && decide (k < s)))) = true := by simp; omega
      have htake : ((x :: lens).take (s - k)).count (l + 1) = (lens.take (s - (k + 1))).count (l + 1) := by
        rcases Nat.lt_or_ge k s with hks | hks
        · rw [show s - k = (s - (k + 1)) + 1 by omega, List.take_succ_cons, List.count_cons_of_ne (by omega)]
        · rw [Nat.sub_eq_zero_of_le hks, Nat.sub_eq_zero_of_le (by omega)]
          rfl
      rw [hkeep, if_pos rfl, if_pos hshort, List.map_cons, List.sum_cons, ih, htake, Nat.add_assoc]
    · rw [if_neg hshort]
      by_cases hlast : x = l + 1 ∧ k < s
      · have hkeep : (x != 0 && (decide (x < l + 1) || (x == l + 1 && decide (k < s)))) = true := by simp; omega
        obtain ⟨rfl, hks⟩ := hlast
        rw [hkeep, if_pos rfl, List.map_cons, List.sum_cons, ih, show s - k = (s - (k + 1)) + 1 by omega, List.take_succ_cons,
          List.count_cons_self, Nat.sub_self, pow_zero]
        omega
      · have hdrop : (x != 0 && (decide (x < l + 1) || (x == l + 1 && decide (k < s)))) = false := by simp; omega
        have htake : ((x :: lens).take (s - k)).count (l + 1) = (lens.take (s - (k + 1))).count (l + 1) := by
          rcases Nat.lt_or_ge k s with hks | hks
          · rw [show s - k = (s - (k + 1)) + 1 by omega, List.take_succ_cons, List.count_cons_of_ne (by omega)]
          · rw [Nat.sub_eq_zero_of_le hks, Nat.sub_eq_zero_of_le (by omega)]
            rfl
        rw [hdrop, if_neg Bool.false_ne_true, ih, htake]
        omega

/-- R360's running code is the closed form of the codeword. -/
theorem codewordValue_eq {lens : List Nat} {s : Nat} (h : lens.getD s 0 ≠ 0) :
    codewordValue lens s = firstCode lens (lens.getD s 0) + (lens.take s).count (lens.getD s 0) := by
  obtain ⟨l, hl⟩ := Nat.exists_eq_succ_of_ne_zero h
  have hsum := zipIdx_codeword_sum lens l s 0
  rw [Nat.sub_zero, ← firstCode_succ] at hsum
  simp only [codewordValue, hl]
  exact hsum

/-! ### The walk over a prefix code -/

/-- The codeword of a code, first bit first. -/
def codeBits (c : Code) : List Bool := bitsMsb c.len c.bits

@[simp] theorem codeBits_length (c : Code) : (codeBits c).length = c.len := bitsMsb_length _ _

theorem valueMsb_lt (w : List Bool) : valueMsb w < 2 ^ w.length := by
  induction w using List.reverseRecOn with
  | nil => decide
  | append_singleton w b ih =>
    have := b.toNat_le
    rw [valueMsb_append_singleton, List.length_append, List.length_singleton, pow_succ]
    omega

section
variable {t : Tree} {c : Code} {w : List Bool}

theorem prefixCode_bits_lt (ht : PrefixCode t) (hc : c ∈ t) : c.bits < 2 ^ c.len := (ht.1 c hc).2

theorem prefixCode_len_pos (ht : PrefixCode t) (hc : c ∈ t) : 1 ≤ c.len := (ht.1 c hc).1

/-- No code's bits begin with another's. -/
theorem prefixCode_eq_of_prefix (ht : PrefixCode t) {d : Code} (hc : c ∈ t) (hd : d ∈ t) (h : codeBits c <+: codeBits d) : c = d := by
  have hdistinct := ht.2.imp (S := fun c d => codeBits c <+: codeBits d → c = d) fun hcd hp => absurd hp hcd.1
  have hflip := ht.2.imp (S := flip fun c d => codeBits c <+: codeBits d → c = d) fun hcd hp => absurd hp hcd.2
  exact hdistinct.forall_of_forall_of_flip (fun _ _ _ => rfl) hflip hc hd h

theorem prefixCode_nodup (ht : PrefixCode t) : t.Nodup :=
  ht.2.imp fun h heq => h.1 (by rw [heq])

/-- A code is found where the bits read are its codeword. -/
theorem prefixCode_found_iff (ht : PrefixCode t) (hc : c ∈ t) :
    (c.len == w.length && c.bits == valueMsb w) = true ↔ codeBits c = w := by
  rw [Bool.and_eq_true, beq_iff_eq, beq_iff_eq]
  constructor
  · rintro ⟨hlen, hbits⟩
    rw [codeBits, hlen, hbits, bitsMsb_valueMsb]
  · rintro rfl
    exact ⟨(codeBits_length c).symm, (valueMsb_bitsMsb (prefixCode_bits_lt ht hc)).symm⟩

/-- The walk goes on where the bits read are the beginning of a longer codeword. -/
theorem prefixCode_continues_iff (ht : PrefixCode t) (hc : c ∈ t) :
    (decide (w.length < c.len) && c.bits >>> (c.len - w.length) == valueMsb w) = true ↔ w <+: codeBits c ∧ w ≠ codeBits c := by
  have hprefix := bitsMsb_prefix_iff (valueMsb_lt w) (prefixCode_bits_lt ht hc)
  rw [bitsMsb_valueMsb] at hprefix
  rw [Bool.and_eq_true, beq_iff_eq, decide_eq_true_iff, Nat.shiftRight_eq_div_pow, codeBits, hprefix]
  constructor
  · rintro ⟨hlt, hbits⟩
    refine ⟨⟨hlt.le, hbits⟩, fun heq => ?_⟩
    rw [heq, bitsMsb_length] at hlt
    exact lt_irrefl _ hlt
  · rintro ⟨⟨hle, hbits⟩, hne⟩
    refine ⟨lt_of_le_of_ne hle fun hlen => hne ?_, hbits⟩
    rw [hlen, Nat.sub_self, pow_zero, Nat.div_one] at hbits
    rw [hbits, ← hlen, bitsMsb_valueMsb]

/-- The walk of the unit with the bits `w` read and the cursor at `k`. -/
def walkFrom (msb : Bool) (bs : List Byte) (eof : Err) (t : Tree) (n : Nat) (w : List Bool) (k : Nat) :
    Except Raise (Nat × Nat) :=
  huffWalk (fun k => readBits msb bs k 1) eof t n (valueMsb w) w.length k

variable {msb : Bool} {bs : List Byte} {eof : Err} {n k : Nat} {b : Bool}

/-- One more bit: it ends a codeword, it goes on in one, or it is dead. -/
theorem walkFrom_succ (h : Holds msb bs k [b]) :
    walkFrom msb bs eof t (n + 1) w k =
      match t.find? fun c => c.len == (w ++ [b]).length && c.bits == valueMsb (w ++ [b]) with
      | some c => .ok (c.sym, k + 1)
      | none =>
        if t.any fun c => decide ((w ++ [b]).length < c.len) && c.bits >>> (c.len - (w ++ [b]).length) == valueMsb (w ++ [b])
        then walkFrom msb bs eof t n (w ++ [b]) (k + 1) else .error (.atBit (k + 1) .decHuffNocode) := by
  obtain ⟨hlt, hbit, -⟩ := holds_cons_iff.1 h
  simp only [walkFrom, huffWalk, readBits_one hlt, hbit, valueMsb_append_singleton, List.length_append, List.length_singleton]
    <;> rfl

theorem walkFrom_at_end (h : 8 * bs.length ≤ k) : walkFrom msb bs eof t (n + 1) w k = .error (.atBit k eof) := by
  simp only [walkFrom, huffWalk, readBits_beyond (msb := msb) (n := 1) one_ne_zero (show 8 * bs.length < k + 1 by omega)]

theorem prefixCode_find?_eq_none (ht : PrefixCode t) (h : ∀ d ∈ t, codeBits d ≠ w) :
    (t.find? fun c => c.len == w.length && c.bits == valueMsb w) = none :=
  List.find?_eq_none.2 fun d hd hfound => h d hd ((prefixCode_found_iff ht hd).1 hfound)

/-- A bit inside a codeword moves the walk on. -/
theorem prefixCode_walkFrom_inside (ht : PrefixCode t) (hc : c ∈ t) (hp : w ++ [b] <+: codeBits c) (hne : w ++ [b] ≠ codeBits c)
    (h : Holds msb bs k [b]) : walkFrom msb bs eof t (n + 1) w k = walkFrom msb bs eof t n (w ++ [b]) (k + 1) := by
  have hnone := prefixCode_find?_eq_none ht (w := w ++ [b]) fun d hd heq => by
    rw [← heq] at hp hne
    exact hne (by rw [prefixCode_eq_of_prefix ht hd hc hp])
  have hany : (t.any fun c => decide ((w ++ [b]).length < c.len) && c.bits >>> (c.len - (w ++ [b]).length) ==
      valueMsb (w ++ [b])) = true := List.any_eq_true.2 ⟨c, hc, (prefixCode_continues_iff ht hc).2 ⟨hp, hne⟩⟩
  rw [walkFrom_succ h, hnone, hany]
  rfl

/-- The last bit of a codeword ends the walk with its symbol. -/
theorem prefixCode_walkFrom_last (ht : PrefixCode t) (hc : c ∈ t) (hw : codeBits c = w ++ [b]) (h : Holds msb bs k [b]) :
    walkFrom msb bs eof t (n + 1) w k = .ok (c.sym, k + 1) := by
  have hsome : (t.find? fun c => c.len == (w ++ [b]).length && c.bits == valueMsb (w ++ [b])) = some c := by
    cases hfind : t.find? fun c => c.len == (w ++ [b]).length && c.bits == valueMsb (w ++ [b]) with
    | none => exact absurd ((prefixCode_found_iff ht hc).2 hw) (List.find?_eq_none.1 hfind c hc)
    | some d =>
      have hd := List.mem_of_find?_eq_some hfind
      have hfound := List.find?_some hfind
      have heq := (prefixCode_found_iff ht hd).1 hfound
      rw [prefixCode_eq_of_prefix ht hd hc (by rw [heq, hw])]
  rw [walkFrom_succ h, hsome]

/-- A bit that leaves every codeword ends the walk with DEC_HUFF_NOCODE. -/
theorem prefixCode_walkFrom_dead (ht : PrefixCode t) (hdead : ∀ d ∈ t, ¬ w ++ [b] <+: codeBits d) (h : Holds msb bs k [b]) :
    walkFrom msb bs eof t (n + 1) w k = .error (.atBit (k + 1) .decHuffNocode) := by
  have hnone := prefixCode_find?_eq_none ht (w := w ++ [b]) fun d hd heq => hdead d hd (by rw [heq])
  have hany : (t.any fun c => decide ((w ++ [b]).length < c.len) && c.bits >>> (c.len - (w ++ [b]).length) ==
      valueMsb (w ++ [b])) = false := by
    rw [List.any_eq_false]
    exact fun d hd hcont => hdead d hd ((prefixCode_continues_iff ht hd).1 hcont).1
  rw [walkFrom_succ h, hnone, hany]
  rfl

/-- Bits inside a codeword move the walk on. -/
theorem prefixCode_walkFrom_append (ht : PrefixCode t) (hc : c ∈ t) {v : List Bool} (hp : w ++ v <+: codeBits c)
    (hne : w ++ v ≠ codeBits c) (h : Holds msb bs k v) :
    walkFrom msb bs eof t (n + v.length) w k = walkFrom msb bs eof t n (w ++ v) (k + v.length) := by
  induction v generalizing w k with
  | nil => simp
  | cons b v ih =>
    rw [← List.singleton_append, ← List.append_assoc] at hp hne
    rw [← List.singleton_append, holds_append_iff] at h
    have hinside : w ++ [b] <+: codeBits c := (List.prefix_append _ _).trans hp
    have hstrict : w ++ [b] ≠ codeBits c := by
      intro heq
      have hlen := hp.length_le
      rw [← heq, List.length_append (as := w ++ [b])] at hlen
      exact hne (hp.eq_of_length (by rw [← heq, List.length_append (as := w ++ [b])]; omega))
    have hrest := ih hp hne h.2
    rw [List.length_singleton, List.append_assoc, List.singleton_append] at hrest
    rw [List.length_cons, ← Nat.add_assoc, prefixCode_walkFrom_inside ht hc hinside hstrict h.1, hrest, Nat.add_assoc,
      Nat.add_comm 1]

end

/-! ### Decode (R362-R364) -/

theorem le_foldl_max (lens : List Nat) (a : Nat) : a ≤ lens.foldl max a ∧ ∀ l ∈ lens, l ≤ lens.foldl max a := by
  induction lens generalizing a with
  | nil => exact ⟨le_rfl, by simp⟩
  | cons x lens ih =>
    obtain ⟨hstart, hrest⟩ := ih (max a x)
    refine ⟨(le_max_left a x).trans hstart, fun l hl => ?_⟩
    rcases List.mem_cons.1 hl with rfl | hl
    · exact (le_max_right a l).trans hstart
    · exact hrest l hl

theorem le_maxLength {lens : List Nat} {l : Nat} (h : l ∈ lens) : l ≤ maxLength lens := (le_foldl_max lens 0).2 l h

section
variable {t : Tree} {c : Code} {msb : Bool} {bs : List Byte} {eof : Err} {single : Bool} {k : Nat}

/-- The unit's read of one symbol. -/
def decodeSymbol (msb : Bool) (bs : List Byte) (eof : Err) (single : Bool) (t : Tree) (k : Nat) : Except Raise (Nat × Nat) :=
  huffDecode (fun k => readBits msb bs k 1) eof single t k

theorem decodeSymbol_eq_walkFrom (hc : c ∈ t) (hs : single = true → t.length ≠ 1) :
    decodeSymbol msb bs eof single t k = walkFrom msb bs eof t (maxLength (t.map (·.len)) + 1) [] k := by
  rcases t with _ | ⟨d, _ | ⟨d', t⟩⟩
  · simp at hc
  · have hfalse : single = false := Bool.eq_false_iff.2 fun htrue => hs htrue rfl
    subst hfalse
    rfl
  · rfl

/-- The bits read of a codeword, but for its last, leave the walk enough bits. -/
theorem walkFrom_start (ht : PrefixCode t) (hc : c ∈ t) {w : List Bool} (hp : w <+: codeBits c) (hne : w ≠ codeBits c)
    (h : Holds msb bs k w) :
    ∃ n, walkFrom msb bs eof t (maxLength (t.map (·.len)) + 1) [] k = walkFrom msb bs eof t (n + 1) w (k + w.length) := by
  have hlen := hp.length_le
  have hmax := le_maxLength (List.mem_map_of_mem (f := (·.len)) hc)
  rw [codeBits_length] at hlen
  obtain ⟨n, hn⟩ := Nat.exists_eq_add_of_le (hlen.trans hmax)
  refine ⟨n, ?_⟩
  rw [hn, show w.length + n + 1 = (n + 1) + w.length by omega]
  exact prefixCode_walkFrom_append (w := []) ht hc hp hne h

/-- A symbol of a prefix code decodes from its codeword. -/
theorem decodes_decodeSymbol (ht : PrefixCode t) (hc : c ∈ t) (hs : single = true → t.length ≠ 1) :
    Decodes msb bs eof (decodeSymbol msb bs eof single t) (codeBits c) c.sym := by
  refine ⟨fun k hk => ?_, fun k part hp hne hk => ?_⟩
  · have hpos := prefixCode_len_pos ht hc
    have hsplit : codeBits c = (codeBits c).dropLast ++ [(codeBits c).getLast (List.ne_nil_of_length_pos (by rwa [codeBits_length]))] :=
      (List.dropLast_append_getLast _).symm
    rw [hsplit, holds_append_iff] at hk
    obtain ⟨n, hn⟩ := walkFrom_start (eof := eof) ht hc (List.dropLast_prefix _) (fun heq => by
      have := congrArg List.length heq
      simp at this
      omega) hk.1
    rw [decodeSymbol_eq_walkFrom hc hs, hn, prefixCode_walkFrom_last ht hc hsplit hk.2, List.length_dropLast, codeBits_length,
      Nat.add_assoc, Nat.sub_add_cancel hpos]
  · obtain ⟨n, hn⟩ := walkFrom_start (eof := eof) ht hc hp hne hk.1
    rw [decodeSymbol_eq_walkFrom hc hs, hn, walkFrom_at_end hk.2.ge]
    exact ⟨_, rfl, rfl⟩

/-- Bits that leave every codeword with their last are the dead prefix of R363. -/
theorem decodeSymbol_dead (ht : PrefixCode t) (hc : c ∈ t) (hs : single = true → t.length ≠ 1) {bits : List Bool} (hne : bits ≠ [])
    (hp : bits.dropLast <+: codeBits c) (hdead : ∀ d ∈ t, ¬ bits <+: codeBits d ∧ ¬ codeBits d <+: bits)
    (h : Holds msb bs k bits) :
    decodeSymbol msb bs eof single t k = .error (.atBit (k + bits.length) .decHuffNocode) := by
  have hsplit : bits = bits.dropLast ++ [bits.getLast hne] := (List.dropLast_append_getLast hne).symm
  have hstrict : bits.dropLast ≠ codeBits c := fun heq => (hdead c hc).2 (heq ▸ List.dropLast_prefix bits)
  have hlen : bits.dropLast.length + 1 = bits.length := by
    rw [List.length_dropLast]
    exact Nat.sub_add_cancel (List.length_pos_of_ne_nil hne)
  have hsteps := h
  rw [hsplit, holds_append_iff] at hsteps
  obtain ⟨n, hn⟩ := walkFrom_start (eof := eof) ht hc hp hstrict hsteps.1
  rw [decodeSymbol_eq_walkFrom hc hs, hn,
    prefixCode_walkFrom_dead ht (fun d hd => by rw [← hsplit]; exact (hdead d hd).1) hsteps.2, Nat.add_assoc, hlen]

/-- A symbol of method 13's trees decodes from its bits, which are none in a tree of one symbol (R364). -/
theorem decodes_of_symbolBits (ht : PrefixCode t) {s : Nat} {w : List Bool} (h : symbolBits t s = some w) :
    Decodes msb bs eof (decodeSymbol msb bs eof true t) w s := by
  rcases t with _ | ⟨d, _ | ⟨d', t⟩⟩
  · simp [symbolBits] at h
  · simp only [symbolBits] at h
    split at h
    next hsym =>
      cases h
      exact hsym ▸ reads_nil fun k => .ok (d.sym, k)
    next => exact absurd h (by simp)
  · simp only [symbolBits, Option.map_eq_some_iff] at h
    obtain ⟨c, hfind, rfl⟩ := h
    have hsym : c.sym = s := by simpa using List.find?_some hfind
    exact hsym ▸ decodes_decodeSymbol ht (List.mem_of_find?_eq_some hfind) (by simp)

end

/-! ### The tree of an accepted length list (R360, R361) -/

section
variable {lens : List Nat} {m s : Nat}

theorem kraftSum_eq_sum (hmax : ∀ l ∈ lens, l ≤ m) :
    kraftSum lens m m = (lens.map fun l => if l = 0 then 0 else 2 ^ (m - l)).sum := by
  induction lens with
  | nil => simp
  | cons x lens ih =>
    have hx : x ≤ m := hmax x List.mem_cons_self
    rw [kraftSum_cons, ih fun l hl => hmax l (List.mem_cons_of_mem x hl), List.map_cons, List.sum_cons]
    congr 1
    by_cases hzero : x = 0
    · simp [hzero]
    · rw [if_pos ⟨hzero, hx⟩, if_neg hzero]

theorem kraftOk_iff (hmax : ∀ l ∈ lens, l ≤ m) : KraftOk m lens ↔ kraftSum lens m m ≤ 2 ^ m := by
  rw [kraftSum_eq_sum hmax]
  exact and_iff_right hmax

/-- R361's test, at the longest length, is the Kraft sum at any bound on the lengths. -/
theorem kraftOk_iff_maxLength (hmax : ∀ l ∈ lens, l ≤ m) :
    KraftOk m lens ↔ kraftSum lens (maxLength lens) (maxLength lens) ≤ 2 ^ maxLength lens := by
  have hle : maxLength lens ≤ m := by
    rw [maxLength]
    refine List.foldlRecOn (motive := (· ≤ m)) lens max (Nat.zero_le m) fun a ha l hl => ?_
    exact max_le ha (hmax l hl)
  obtain ⟨d, hd⟩ := Nat.exists_eq_add_of_le hle
  rw [kraftOk_iff hmax, hd, kraftSum_of_le (fun l => le_maxLength) (Nat.le_add_right _ d), kraftSum_scale d le_rfl, pow_add,
    Nat.mul_comm (2 ^ maxLength lens)]
  exact Nat.mul_le_mul_left_iff (by positivity)

theorem codewordOf_eq (h : lens.getD s 0 ≠ 0) :
    codewordOf lens s (lens.getD s 0) = { sym := s, len := lens.getD s 0, bits := codewordValue lens s } := by
  rw [codewordOf, codewordValue_eq h]

theorem getD_of_mem_zipIdx {p : Nat × Nat} (h : p ∈ lens.zipIdx) : lens.getD p.2 0 = p.1 := by
  have hget := List.mem_zipIdx_iff_getElem?.1 h
  rw [List.getD_eq_getElem?_getD, hget]
  rfl

theorem canonicalCodes_eq (lens : List Nat) : canonicalCodes lens = canonicalTree lens := by
  refine List.filterMap_congr fun p hp => ?_
  have hget := getD_of_mem_zipIdx hp
  by_cases hzero : p.1 = 0
  · rw [if_pos hzero, if_pos hzero]
  · rw [if_neg hzero, if_neg hzero, ← hget, codewordOf_eq (by rwa [hget])]

theorem buildCanonical_eq (hmax : ∀ l ∈ lens, l ≤ m) :
    (KraftOk m lens → buildCanonical lens = .ok (canonicalTree lens)) ∧
      (¬ KraftOk m lens → buildCanonical lens = .error .decHuffOversub) := by
  rw [kraftOk_iff_maxLength hmax, Nat.not_le, ← canonicalCodes_eq]
  constructor
  · intro h
    simp only [buildCanonical, if_neg (Nat.not_lt.2 h)]
  · intro h
    simp only [buildCanonical, if_pos h]

/-- The code of a symbol. -/
def codeOf (lens : List Nat) (s : Nat) : Code := { sym := s, len := lens.getD s 0, bits := codewordValue lens s }

theorem codeBits_codeOf (lens : List Nat) (s : Nat) : codeBits (codeOf lens s) = codewordBits lens s := rfl

theorem mem_canonicalTree_iff {c : Code} : c ∈ canonicalTree lens ↔ ∃ s, lens.getD s 0 ≠ 0 ∧ c = codeOf lens s := by
  simp only [canonicalTree, List.mem_filterMap]
  constructor
  · rintro ⟨p, hp, hc⟩
    have hget := getD_of_mem_zipIdx hp
    split at hc
    next => exact absurd hc (by simp)
    next hne =>
      refine ⟨p.2, by rwa [hget], ?_⟩
      rw [codeOf, hget]
      exact (Option.some.inj hc).symm
  · rintro ⟨s, hs, rfl⟩
    refine ⟨(lens.getD s 0, s), ?_, if_neg hs⟩
    have hlt : s < lens.length := by
      by_contra hge
      exact hs (List.getD_eq_default _ _ (by omega))
    rw [List.mem_zipIdx_iff_getElem?, List.getD_eq_getElem _ _ hlt, List.getElem?_eq_getElem hlt]

theorem count_take_succ (h : lens.getD s 0 ≠ 0) :
    (lens.take (s + 1)).count (lens.getD s 0) = (lens.take s).count (lens.getD s 0) + 1 := by
  have hlt : s < lens.length := by
    by_contra hge
    exact h (List.getD_eq_default _ _ (by omega))
  rw [List.take_succ_eq_append_getElem hlt, List.count_append, List.getD_eq_getElem _ _ hlt, List.count_singleton_self]

/-- Behind a codeword's place in the code space there is what the codewords up to its length take up. -/
theorem codewordValue_lt_kraftSum (h : lens.getD s 0 ≠ 0) :
    codewordValue lens s + 1 ≤ kraftSum lens (lens.getD s 0) (lens.getD s 0) := by
  have hcount : (lens.take (s + 1)).count (lens.getD s 0) ≤ lens.count (lens.getD s 0) := (List.take_sublist _ _).count_le _
  rw [count_take_succ h] at hcount
  rw [codewordValue_eq h]
  obtain ⟨l, hl⟩ := Nat.exists_eq_succ_of_ne_zero h
  rw [hl, Nat.succ_eq_add_one] at hcount ⊢
  rw [kraftSum_self_succ]
  omega

theorem codewordValue_lt (hk : KraftOk m lens) (h : lens.getD s 0 ≠ 0) : codewordValue lens s < 2 ^ lens.getD s 0 := by
  have hle : lens.getD s 0 ≤ m := by
    by_cases hlt : s < lens.length
    · rw [List.getD_eq_getElem _ _ hlt]
      exact hk.1 _ (List.getElem_mem hlt)
    · exact absurd (List.getD_eq_default _ _ (by omega)) h
  obtain ⟨d, hd⟩ := Nat.exists_eq_add_of_le hle
  have hsum := (kraftSum_mono (lens := lens) (m := m) hle).trans ((kraftOk_iff hk.1).1 hk)
  rw [hd, kraftSum_scale d le_rfl, pow_add, Nat.mul_comm (2 ^ lens.getD s 0)] at hsum
  exact (codewordValue_lt_kraftSum h).trans (Nat.le_of_mul_le_mul_left hsum (by positivity))

/-- A codeword that comes later, by length and then by symbol, lies behind all that begins with the earlier one. -/
theorem codewordValue_step {i j : Nat} (hi : lens.getD i 0 ≠ 0) (hj : lens.getD j 0 ≠ 0)
    (hlt : lens.getD i 0 < lens.getD j 0 ∨ lens.getD i 0 = lens.getD j 0 ∧ i < j) :
    2 ^ (lens.getD j 0 - lens.getD i 0) * (codewordValue lens i + 1) ≤ codewordValue lens j := by
  rcases hlt with hlen | ⟨hlen, hij⟩
  · obtain ⟨d, hd⟩ := Nat.exists_eq_add_of_lt hlen
    have hmono := kraftSum_mono (lens := lens) (m := lens.getD i 0 + (d + 1)) (Nat.le_add_right (lens.getD i 0) d)
    rw [kraftSum_scale (d + 1) le_rfl] at hmono
    rw [codewordValue_eq hj, hd, firstCode_succ, show lens.getD i 0 + d + 1 - lens.getD i 0 = d + 1 by omega]
    exact ((Nat.mul_le_mul_left _ (codewordValue_lt_kraftSum hi)).trans hmono).trans (Nat.le_add_right _ _)
  · have hcount : (lens.take (i + 1)).count (lens.getD i 0) ≤ (lens.take j).count (lens.getD i 0) :=
      ((List.take_prefix_take_left (by omega)).sublist).count_le _
    rw [count_take_succ hi] at hcount
    rw [codewordValue_eq hj, codewordValue_eq hi, ← hlen, Nat.sub_self, pow_zero, Nat.one_mul]
    omega

/-- Neither of two symbols' codewords begins with the other's. -/
theorem codewordBits_not_prefix (hk : KraftOk m lens) {i j : Nat} (hi : lens.getD i 0 ≠ 0) (hj : lens.getD j 0 ≠ 0) (hne : i ≠ j) :
    ¬ codewordBits lens i <+: codewordBits lens j := by
  intro hp
  obtain ⟨hle, hdiv⟩ := (bitsMsb_prefix_iff (codewordValue_lt hk hi) (codewordValue_lt hk hj)).1 hp
  rcases Nat.lt_or_ge i j with hij | hij
  · have hstep := codewordValue_step hi hj (by omega)
    have hge := (Nat.le_div_iff_mul_le (by positivity)).2 ((Nat.mul_comm _ _).trans_le hstep)
    omega
  · rcases Nat.lt_or_ge (lens.getD i 0) (lens.getD j 0) with hlen | hlen
    · have hstep := codewordValue_step hi hj (by omega)
      have hge := (Nat.le_div_iff_mul_le (by positivity)).2 ((Nat.mul_comm _ _).trans_le hstep)
      omega
    · have hstep := codewordValue_step hj hi (by omega)
      have heq : lens.getD i 0 = lens.getD j 0 := by omega
      rw [heq, Nat.sub_self, pow_zero] at hdiv hstep
      omega

theorem prefixCode_canonicalTree (hk : KraftOk m lens) : PrefixCode (canonicalTree lens) := by
  refine ⟨fun c hc => ?_, ?_⟩
  · obtain ⟨s, hs, rfl⟩ := mem_canonicalTree_iff.1 hc
    exact ⟨Nat.one_le_iff_ne_zero.2 hs, codewordValue_lt hk hs⟩
  · refine List.pairwise_filterMap.2 (List.pairwise_iff_getElem.2 fun i j hi hj hij c hc d hd => ?_)
    rw [List.getElem_zipIdx] at hc hd
    split at hc
    next => exact absurd hc (by simp)
    next hci =>
      split at hd
      next => exact absurd hd (by simp)
      next hdj =>
        obtain rfl := Option.some.inj hc
        obtain rfl := Option.some.inj hd
        rw [List.length_zipIdx] at hi hj
        simp only [Nat.zero_add, ← List.getD_eq_getElem lens 0 hi, ← List.getD_eq_getElem lens 0 hj] at hci hdj ⊢
        exact ⟨codewordBits_not_prefix hk hci hdj hij.ne, codewordBits_not_prefix hk hdj hci hij.ne'⟩

/-- A tree with one symbol alone is that symbol's code. -/
theorem canonicalTree_eq_singleton (hk : KraftOk m lens) (hs : lens.getD s 0 ≠ 0) (halone : ∀ l, l ≠ s → lens.getD l 0 = 0) :
    canonicalTree lens = [codeOf lens s] := by
  have hnodup := prefixCode_nodup (prefixCode_canonicalTree hk)
  have hmem : codeOf lens s ∈ canonicalTree lens := mem_canonicalTree_iff.2 ⟨s, hs, rfl⟩
  have hall : ∀ c ∈ canonicalTree lens, c = codeOf lens s := fun c hc => by
    obtain ⟨l, hl, rfl⟩ := mem_canonicalTree_iff.1 hc
    rw [show l = s from by_contra fun hne => hl (halone l hne)]
  have hrep := List.eq_replicate_of_mem hall
  rw [hrep, List.nodup_replicate] at hnodup
  have hpos := List.length_pos_of_mem hmem
  rw [hrep, show (canonicalTree lens).length = 1 by omega]
  rfl

theorem canonicalTree_length_ne_one {l : Nat} (hs : lens.getD s 0 ≠ 0) (hl : lens.getD l 0 ≠ 0) (hne : l ≠ s) :
    (canonicalTree lens).length ≠ 1 := by
  intro hlen
  obtain ⟨c, hc⟩ := List.length_eq_one_iff.1 hlen
  have hmem := fun {j} hj => (mem_canonicalTree_iff (lens := lens) (c := codeOf lens j)).2 ⟨j, hj, rfl⟩
  have hsc := hmem hs
  have hlc := hmem hl
  rw [hc, List.mem_singleton] at hsc hlc
  exact hne (congrArg Code.sym (hlc.trans hsc.symm))

/-- A symbol of an accepted length list decodes from its codeword in its tree. -/
theorem decodes_codewordBits {msb : Bool} {bs : List Byte} {eof : Err} {single : Bool} (hk : KraftOk m lens)
    (hs : lens.getD s 0 ≠ 0) (hsingle : single = true → ∃ l, l ≠ s ∧ lens.getD l 0 ≠ 0) :
    Decodes msb bs eof (decodeSymbol msb bs eof single (canonicalTree lens)) (codewordBits lens s) s := by
  have hmany : single = true → (canonicalTree lens).length ≠ 1 := fun htrue => by
    obtain ⟨l, hne, hl⟩ := hsingle htrue
    exact canonicalTree_length_ne_one hs hl hne
  rw [← codeBits_codeOf]
  exact decodes_decodeSymbol (c := codeOf lens s) (prefixCode_canonicalTree hk) (mem_canonicalTree_iff.2 ⟨s, hs, rfl⟩) hmany

end

/-! ### The two statements -/

/-- Settles O37: an accepted list's codewords are a prefix code, and the walk over a prefix code reads a codeword to its end,
a dead prefix to the bit that leaves every codeword. -/
theorem huffmanDecodesCanonicalCodewords : Obligations.HuffmanDecodesCanonicalCodewords := by
  unfold Obligations.HuffmanDecodesCanonicalCodewords
  intro lens m sym k bs eof single hk hsym
  have ht := prefixCode_canonicalTree hk
  refine ⟨canonicalTree lens, (buildCanonical_eq hk.1).1 hk, fun hsingle => ?_, fun halone => ?_⟩
  · have hdecodes := fun msb => decodes_codewordBits (msb := msb) (bs := bs) (eof := eof) (single := single) hk hsym hsingle
    have hlen : (codewordBits lens sym).length = lens.getD sym 0 := bitsMsb_length _ _
    refine ⟨fun h => ?_, fun h => ?_, fun bits hne hp hdead => ?_⟩
    · exact hlen ▸ (hdecodes false).1 k h
    · exact hlen ▸ (hdecodes true).1 k h
    · have hmem := mem_canonicalTree_iff.2 ⟨sym, hsym, rfl⟩
      have hmany : single = true → (canonicalTree lens).length ≠ 1 := fun htrue => by
        obtain ⟨l, hne, hl⟩ := hsingle htrue
        exact canonicalTree_length_ne_one hsym hl hne
      have hnone : ∀ d ∈ canonicalTree lens, ¬ bits <+: codeBits d ∧ ¬ codeBits d <+: bits := fun d hd => by
        obtain ⟨l, hl, rfl⟩ := mem_canonicalTree_iff.1 hd
        exact hdead l hl
      exact ⟨decodeSymbol_dead (msb := false) ht hmem hmany hne hp hnone,
        decodeSymbol_dead (msb := true) ht hmem hmany hne hp hnone⟩
  · rw [canonicalTree_eq_singleton hk hsym halone]
    rfl

/-- Settles O38: the build's test at the longest length is the Kraft sum. -/
theorem oversubscribedListsAreRefused : Obligations.OversubscribedListsAreRefused := by
  unfold Obligations.OversubscribedListsAreRefused
  refine ⟨fun lens m hmax => ?_, fun lens hzero => ?_, fun bit eof single k => rfl⟩
  · by_cases hk : KraftOk m lens
    · rw [if_pos hk]
      exact ⟨_, (buildCanonical_eq hmax).1 hk⟩
    · rw [if_neg hk]
      exact (buildCanonical_eq hmax).2 hk
  · have hmax : ∀ l ∈ lens, l ≤ 0 := fun l hl => (hzero l hl).le
    rw [(buildCanonical_eq hmax).1 ((kraftOk_iff hmax).2 (Nat.zero_le _))]
    refine congrArg Except.ok (List.eq_nil_iff_forall_not_mem.2 fun c hc => ?_)
    obtain ⟨s, hs, -⟩ := mem_canonicalTree_iff.1 hc
    by_cases hlt : s < lens.length
    · exact hs (by rw [List.getD_eq_getElem _ _ hlt]; exact hzero _ (List.getElem_mem hlt))
    · exact hs (List.getD_eq_default _ _ (by omega))

end Sys2Proof.Machine
end
section
/-! PROOFS. A sliding window against the output it holds the end of (20_memory.md R170, R171): one byte put, and one step of a
match copy. -/

namespace Sys2Proof.Machine
open Reference (copyBack)

/-- The byte of the output from `d` back, 0 before its start. -/
def byteBack (out : List Byte) (d : Nat) : Byte := if d ≤ out.length then out.getD (out.length - d) 0 else 0

theorem copyBack_succ (dist len : Nat) (out : List Byte) :
    copyBack dist (len + 1) out = copyBack dist len (out ++ [byteBack out dist]) := rfl

theorem byteBack_append_one (out : List Byte) (b : Byte) : byteBack (out ++ [b]) 1 = b := by
  simp [byteBack]

theorem byteBack_append_succ (out : List Byte) (b : Byte) {d : Nat} (hd : d ≠ 0) :
    byteBack (out ++ [b]) (d + 1) = byteBack out d := by
  rw [byteBack, byteBack, List.length_append, List.length_singleton]
  by_cases hle : d ≤ out.length
  · rw [if_pos hle, if_pos (by omega), List.getD_append _ _ _ _ (by omega), show out.length + 1 - (d + 1) = out.length - d by omega]
  · rw [if_neg hle, if_neg (by omega)]

theorem winGet_eq {size pos d : Nat} (w : List Host.Cell) (hpos : pos < size) (hd : 1 ≤ d) (hle : d ≤ size) :
    winGet w size pos d = winRead w (if d ≤ pos then pos - d else pos + size - d) := by
  rw [winGet]
  congr 1
  rcases Nat.lt_or_eq_of_le hle with hlt | rfl
  · rw [Nat.mod_eq_of_lt hlt]
    split
    · rw [show pos + (size - d) = pos - d + size by omega, Nat.add_mod_right, Nat.mod_eq_of_lt (by omega)]
    · rw [Nat.mod_eq_of_lt (by omega)]
      omega
  · rw [Nat.mod_self, Nat.sub_zero, Nat.add_mod_right, Nat.mod_eq_of_lt hpos, if_neg (by omega)]
    omega

theorem succ_mod_eq {size pos : Nat} (hpos : pos < size) : (pos + 1) % size = if pos + 1 = size then 0 else pos + 1 := by
  split
  next heq => rw [heq, Nat.mod_self]
  next hne => exact Nat.mod_eq_of_lt (by omega)

theorem winGet_winPut_one {size pos : Nat} (w : List Host.Cell) (b : Byte) (hpos : pos < size) :
    winGet (winPut w size pos b).1 size (winPut w size pos b).2 1 = b := by
  rw [winPut, winGet_eq _ (Nat.mod_lt _ (by omega)) le_rfl (by omega), succ_mod_eq hpos, winRead_winWrite, if_pos]
  split
  next heq => simp; omega
  next => simp

theorem winGet_winPut_succ {size pos d : Nat} (w : List Host.Cell) (b : Byte) (hpos : pos < size) (hd : 1 ≤ d) (hle : d + 1 ≤ size) :
    winGet (winPut w size pos b).1 size (winPut w size pos b).2 (d + 1) = winGet w size pos d := by
  rw [winPut, winGet_eq _ (Nat.mod_lt _ (by omega)) (by omega) hle, winGet_eq _ hpos hd (by omega), succ_mod_eq hpos,
    winRead_winWrite]
  by_cases heq : pos + 1 = size
  · rw [if_pos heq, if_neg (show ¬ d + 1 ≤ 0 by omega), if_pos (show d ≤ pos by omega), if_neg (by omega)]
    congr 1
    omega
  · rw [if_neg heq]
    by_cases hdp : d ≤ pos
    · rw [if_pos (show d + 1 ≤ pos + 1 by omega), if_pos hdp, if_neg (by omega), Nat.add_sub_add_right]
    · rw [if_neg (show ¬ d + 1 ≤ pos + 1 by omega), if_neg hdp, if_neg (by omega)]
      congr 1
      omega

theorem windowHolds_iff {w : List Host.Cell} {size pos : Nat} {out : List Byte} :
    WindowHolds w size pos out ↔ pos < size ∧ ∀ d, 1 ≤ d → d ≤ size → winGet w size pos d = byteBack out d := Iff.rfl

/-- The window of a job's start. -/
theorem windowHolds_empty {size : Nat} (h : 0 < size) : WindowHolds [] size 0 [] :=
  ⟨h, fun d hd _ => by rw [if_neg (by simp; omega)]; rfl⟩

theorem WindowHolds.put {w : List Host.Cell} {size pos : Nat} {out : List Byte} (h : WindowHolds w size pos out) (b : Byte) :
    WindowHolds (winPut w size pos b).1 size (winPut w size pos b).2 (out ++ [b]) := by
  obtain ⟨hpos, hget⟩ := h
  refine windowHolds_iff.2 ⟨Nat.mod_lt _ (by omega), fun d hd hle => ?_⟩
  obtain ⟨d, rfl⟩ : ∃ e, d = e + 1 := ⟨d - 1, by omega⟩
  by_cases hzero : d = 0
  · subst hzero
    rw [Nat.zero_add, winGet_winPut_one w b hpos, byteBack_append_one]
  · rw [winGet_winPut_succ w b hpos (by omega) hle, byteBack_append_succ out b hzero]
    exact hget d (by omega) (by omega)

theorem WindowHolds.winCopy_fst {w : List Host.Cell} {size pos dist : Nat} {out : List Byte} (h : WindowHolds w size pos out)
    (hd : 1 ≤ dist) (hle : dist ≤ size) : (winCopy w size pos dist).1 = byteBack out dist := h.2 dist hd hle

theorem WindowHolds.copy {w : List Host.Cell} {size pos : Nat} {out : List Byte} (h : WindowHolds w size pos out) (dist : Nat) :
    WindowHolds (winCopy w size pos dist).2.1 size (winCopy w size pos dist).2.2 (out ++ [(winCopy w size pos dist).1]) := h.put _

/-- Settles O39: the byte written is the one from 1 back, and every other moves one further back. -/
theorem windowHoldsTheOutput : Obligations.WindowHoldsTheOutput := by
  unfold Obligations.WindowHoldsTheOutput
  intro w size pos out h
  refine ⟨h.put, fun dist hd hle => ⟨?_, h.copy dist⟩⟩
  rw [h.winCopy_fst hd hle]
  rfl

end Sys2Proof.Machine
end
section
/-! PROOFS. The serialised length lists of StuffIt method 13 (46_method13.md R660-R666): each command gives its lengths, and the
list its tree. -/

namespace Sys2Proof.Machine
open Reference (bitsLsb bitsMsb PrefixCode MetaPrefixCode KraftOk canonicalTree m13CommandOf m13CommandBits m13LengthList
  m13CommandListBits HoldsLsb)

section
variable {cfg : Config} {bs : List Byte} {n : Nat}

/-! ### The meta code (R660) -/

theorem metaTree_prefixCode (h : MetaPrefixCode cfg) : PrefixCode (metaTree cfg) := by
  obtain ⟨hlen, hpair⟩ := h
  have hmap : (cfg.m13Meta.toList.map fun p => ({ sym := 0, len := p.2, bits := p.1 } : Code)) =
      (metaTree cfg).map fun c => { c with sym := 0 } := by
    rw [metaTree, List.map_map]
    conv_lhs => rw [← List.zipIdx_map_fst 0 cfg.m13Meta.toList, List.map_map]
    rfl
  rw [hmap] at hlen hpair
  exact ⟨fun c hc => hlen { c with sym := 0 } (List.mem_map_of_mem (f := fun c => { c with sym := 0 }) hc), List.pairwise_map.1 hpair⟩

/-- The code of a command. -/
def metaCode (cfg : Config) (c : Nat) : Code :=
  { sym := c, len := (cfg.m13Meta.toList.getD c (0, 0)).2, bits := (cfg.m13Meta.toList.getD c (0, 0)).1 }

theorem metaCode_mem {c : Nat} (hc : c ≤ 36) : metaCode cfg c ∈ metaTree cfg := by
  have hlt : c < cfg.m13Meta.toList.length := by
    rw [Vector.length_toList]
    omega
  rw [metaTree, List.mem_map]
  refine ⟨(cfg.m13Meta.toList.getD c (0, 0), c), ?_, rfl⟩
  rw [List.mem_zipIdx_iff_getElem?, List.getD_eq_getElem _ _ hlt, List.getElem?_eq_getElem hlt]

theorem decodes_metaCode (h : MetaPrefixCode cfg) {c : Nat} (hc : c ≤ 36) :
    Decodes false bs .decUnderflow (m13Decode bs false (metaTree cfg)) (codeBits (metaCode cfg c)) c :=
  decodes_decodeSymbol (metaTree_prefixCode h) (metaCode_mem hc) (by simp)

/-! ### One command (R662-R664) -/

theorem decodes_m13Bits {n x : Nat} (hx : x < 2 ^ n) :
    Decodes false bs .decUnderflow (fun k => m13Bits bs k n) (bitsLsb n x) x := decodes_readBits hx

/-- Extra bits, and as many copies of the running length as they say. -/
theorem reads_m13Repeat {bits base x cur : Nat} (lens : List Nat) (hx : x < 2 ^ bits) :
    Reads false bs .decUnderflow
      (fun k => m13Bits bs k bits >>= fun r => m13Put n lens cur (r.1 + base) r.2 >>= fun lens' => .ok (cur, lens', r.2))
      (bitsLsb bits x) fun k => m13Put n lens cur (x + base) k >>= fun lens' => .ok (cur, lens', k) :=
  (decodes_m13Bits hx).then fun r => m13Put n lens cur (r.1 + base) r.2 >>= fun lens' => .ok (cur, lens', r.2)

/-- A command whose running length stays in 0..32 puts its lengths. -/
theorem reads_m13Command {c x cur cur' cnt : Nat} (lens : List Nat) (hc : c ≤ 36) (hx : x < 2 ^ m13CommandBits c)
    (hcmd : m13CommandOf cur c x = some (cur', cnt)) :
    Reads false bs .decUnderflow (fun k => m13Command bs n c cur lens k) (bitsLsb (m13CommandBits c) x)
      fun k => m13Put n lens cur' cnt k >>= fun lens' => .ok (cur', lens', k) := by
  unfold m13CommandOf at hcmd
  unfold m13CommandBits at hx ⊢
  split_ifs at hcmd with h30 h31 h32 hcur h33 hcur h34 h35
  all_goals
    obtain ⟨rfl, rfl⟩ : _ = cur' ∧ _ = cnt := by simpa using hcmd
  · rw [if_neg (by omega), if_neg (by omega), if_neg (by omega)]
    exact (reads_nil _).congr fun k => by rw [m13Command, if_pos h30]
  · rw [if_neg (by omega), if_neg (by omega), if_neg (by omega)]
    exact (reads_nil _).congr fun k => by rw [m13Command, if_neg h30, if_pos h31]
  · rw [if_neg (by omega), if_neg (by omega), if_neg (by omega)]
    exact (reads_nil _).congr fun k => by rw [m13Command, if_neg h30, if_neg h31, if_pos h32, if_neg (by omega)]
  · rw [if_neg (by omega), if_neg (by omega), if_neg (by omega)]
    exact (reads_nil _).congr fun k => by rw [m13Command, if_neg h30, if_neg h31, if_neg h32, if_pos h33, if_neg (by omega)]
  · rw [if_pos h34] at hx ⊢
    refine (reads_m13Repeat lens hx).congr fun k => ?_
    simp only [m13Command, if_neg h30, if_neg h31, if_neg h32, if_neg h33, if_pos h34]
  · rw [if_neg h34, if_pos h35] at hx ⊢
    refine (reads_m13Repeat lens hx).congr fun k => ?_
    simp only [m13Command, if_neg h30, if_neg h31, if_neg h32, if_neg h33, if_neg h34, if_pos h35]
  · rw [if_neg h34, if_neg h35, if_pos (by omega)] at hx ⊢
    refine (reads_m13Repeat lens hx).congr fun k => ?_
    simp only [m13Command, if_neg h30, if_neg h31, if_neg h32, if_neg h33, if_neg h34, if_neg h35]

theorem m13CommandOf_pos {c x cur cur' cnt : Nat} (h : m13CommandOf cur c x = some (cur', cnt)) : 1 ≤ cnt := by
  unfold m13CommandOf at h
  split_ifs at h <;> cases h <;> omega

theorem two_le_of_m13CommandOf {q : Nat × Nat} {cur cur' cnt : Nat} (h : m13CommandOf cur q.1 q.2 = some (cur', cnt))
    (hlast : q.1 = 34 ∧ q.2 = 1 ∨ q.1 = 35 ∨ q.1 = 36) : 2 ≤ cnt := by
  unfold m13CommandOf at h
  split_ifs at h <;> cases h <;> omega

theorem m13Put_of_le {lens : List Nat} {v cnt k : Nat} (h : lens.length + cnt ≤ n) :
    m13Put n lens v cnt k = .ok (List.replicate cnt v ++ lens) := by rw [m13Put, if_neg (by omega)]

theorem m13Put_of_lt {lens : List Nat} {v cnt k : Nat} (h : n < lens.length + cnt) :
    m13Put n lens v cnt k = .error (.atBit k .decM13Lengths) := by rw [m13Put, if_pos h]

/-! ### The loop of ReadLengths (R661) -/

theorem m13Lengths_succ {turns cur k : Nat} {lens : List Nat} (h : lens.length < n) :
    m13Lengths cfg bs n (turns + 1) cur lens k =
      m13Decode bs false (metaTree cfg) k >>= fun r =>
        m13Command bs n r.1 cur lens r.2 >>= fun q => m13Lengths cfg bs n turns q.1 q.2.1 q.2.2 := by
  rw [m13Lengths, if_neg (by omega)]

theorem m13Lengths_done {turns cur k : Nat} {lens : List Nat} (h : lens.length = n) :
    m13Lengths cfg bs n turns cur lens k = .ok (lens.reverse, k) := by
  cases turns with
  | zero => rfl
  | succ turns => rw [m13Lengths, if_pos h.ge]

/-- One command, and what the loop reads behind it. -/
theorem reads_m13Lengths_cons (h : MetaPrefixCode cfg) {c x cur cur' cnt turns : Nat} {lens : List Nat} {w : List Bool}
    {out : Nat → Except Raise (List Nat × Nat)} (hc : c ≤ 36) (hx : x < 2 ^ m13CommandBits c)
    (hcmd : m13CommandOf cur c x = some (cur', cnt)) (hlt : lens.length < n)
    (hrest : Reads false bs .decUnderflow (fun k => m13Put n lens cur' cnt k >>= fun lens' => m13Lengths cfg bs n turns cur' lens' k)
      w out) :
    Reads false bs .decUnderflow (fun k => m13Lengths cfg bs n (turns + 1) cur lens k)
      (codeBits (metaCode cfg c) ++ (bitsLsb (m13CommandBits c) x ++ w)) out := by
  have hcommand := (reads_m13Command (n := n) (bs := bs) lens hc hx hcmd).bind
    (next := fun q => m13Lengths cfg bs n turns q.1 q.2.1 q.2.2) (w := w) (out := out) (hrest.congr fun k => by
      cases m13Put n lens cur' cnt k <;> rfl)
  exact ((decodes_metaCode h hc).bind (next := fun r => m13Command bs n r.1 cur lens r.2 >>= fun q =>
    m13Lengths cfg bs n turns q.1 q.2.1 q.2.2) hcommand).congr fun k => m13Lengths_succ hlt

theorem m13LengthList_cons {c x cur : Nat} {cmds : List (Nat × Nat)} {tail : List Nat}
    (h : m13LengthList cur ((c, x) :: cmds) = some tail) :
    ∃ cur' cnt rest, m13CommandOf cur c x = some (cur', cnt) ∧ m13LengthList cur' cmds = some rest ∧
      tail = List.replicate cnt cur' ++ rest := by
  rw [m13LengthList] at h
  split at h
  next => exact absurd h (by simp)
  next cur' cnt hcmd =>
    obtain ⟨rest, hrest, rfl⟩ := Option.map_eq_some_iff.1 h
    exact ⟨cur', cnt, rest, hcmd, hrest, rfl⟩

/-- The commands are ones that M13_META has, with extra bits that fit. -/
abbrev M13CommandsOk (cmds : List (Nat × Nat)) : Prop := ∀ q ∈ cmds, q.1 ≤ 36 ∧ q.2 < 2 ^ m13CommandBits q.1

theorem m13CommandListBits_cons (c x : Nat) (cmds : List (Nat × Nat)) :
    m13CommandListBits cfg ((c, x) :: cmds) =
      codeBits (metaCode cfg c) ++ (bitsLsb (m13CommandBits c) x ++ m13CommandListBits cfg cmds) := by
  rw [← List.append_assoc]
  rfl

/-- Commands that give just the lengths asked for. -/
theorem decodes_m13Lengths (h : MetaPrefixCode cfg) {cmds : List (Nat × Nat)} {cur turns : Nat} {lens tail : List Nat}
    (hcmds : M13CommandsOk cmds) (hlist : m13LengthList cur cmds = some tail) (hn : lens.length + tail.length = n)
    (hturns : tail.length ≤ turns) :
    Decodes false bs .decUnderflow (fun k => m13Lengths cfg bs n turns cur lens k) (m13CommandListBits cfg cmds)
      (lens.reverse ++ tail) := by
  induction cmds generalizing cur turns lens tail with
  | nil =>
    obtain rfl : tail = [] := by simpa [m13LengthList] using hlist.symm
    rw [List.append_nil]
    exact (reads_nil _).congr fun k => m13Lengths_done hn
  | cons q cmds ih =>
    obtain ⟨cur', cnt, rest, hcmd, hlist', rfl⟩ := m13LengthList_cons hlist
    obtain ⟨hq, hcmds⟩ := List.forall_mem_cons.1 hcmds
    have hpos := m13CommandOf_pos hcmd
    rw [List.length_append, List.length_replicate] at hn hturns
    obtain ⟨turns, rfl⟩ : ∃ m, turns = m + 1 := ⟨turns - 1, by omega⟩
    have hrest := ih (lens := List.replicate cnt cur' ++ lens) (turns := turns) hcmds hlist'
      (by rw [List.length_append, List.length_replicate]; omega) (by omega)
    rw [List.reverse_append, List.reverse_replicate, List.append_assoc] at hrest
    rw [m13CommandListBits_cons]
    exact reads_m13Lengths_cons h hq.1 hq.2 hcmd (by omega) (hrest.congr fun k => by rw [m13Put_of_le (by omega)]; rfl)

theorem two_le_length_of_last {cmds : List (Nat × Nat)} {q : Nat × Nat} {cur : Nat} {tail : List Nat}
    (hlist : m13LengthList cur (cmds ++ [q]) = some tail) (hlast : q.1 = 34 ∧ q.2 = 1 ∨ q.1 = 35 ∨ q.1 = 36) :
    2 ≤ tail.length := by
  induction cmds generalizing cur tail with
  | nil =>
    obtain ⟨cur', cnt, rest, hcmd, -, rfl⟩ := m13LengthList_cons hlist
    have := two_le_of_m13CommandOf hcmd hlast
    rw [List.length_append, List.length_replicate]
    omega
  | cons p cmds ih =>
    obtain ⟨cur', cnt, rest, -, hlist', rfl⟩ := m13LengthList_cons hlist
    have := ih hlist'
    rw [List.length_append]
    omega

/-- Commands of which the last gives more lengths than are asked for (R665). -/
theorem reads_m13Lengths_error (h : MetaPrefixCode cfg) {cmds : List (Nat × Nat)} {q : Nat × Nat} {cur turns : Nat}
    {lens tail : List Nat} (hcmds : M13CommandsOk (cmds ++ [q])) (hlist : m13LengthList cur (cmds ++ [q]) = some tail)
    (hn : lens.length + tail.length = n + 1) (hturns : tail.length ≤ turns + 1)
    (hlast : q.1 = 34 ∧ q.2 = 1 ∨ q.1 = 35 ∨ q.1 = 36) :
    Reads false bs .decUnderflow (fun k => m13Lengths cfg bs n turns cur lens k) (m13CommandListBits cfg (cmds ++ [q]))
      fun k => .error (.atBit k .decM13Lengths) := by
  induction cmds generalizing cur turns lens tail with
  | nil =>
    obtain ⟨cur', cnt, rest, hcmd, hlist', rfl⟩ := m13LengthList_cons hlist
    obtain rfl : rest = [] := by simpa [m13LengthList] using hlist'.symm
    obtain ⟨hq, -⟩ := List.forall_mem_cons.1 hcmds
    have htwo := two_le_of_m13CommandOf hcmd hlast
    rw [List.append_nil, List.length_replicate] at hn hturns
    obtain ⟨turns, rfl⟩ : ∃ m, turns = m + 1 := ⟨turns - 1, by omega⟩
    rw [List.nil_append, m13CommandListBits_cons]
    refine reads_m13Lengths_cons h hq.1 hq.2 hcmd (by omega) ((reads_nil _).congr fun k => ?_)
    rw [m13Put_of_lt (by omega)]
    rfl
  | cons p cmds ih =>
    obtain ⟨cur', cnt, rest, hcmd, hlist', rfl⟩ := m13LengthList_cons hlist
    obtain ⟨hp, hcmds⟩ := List.forall_mem_cons.1 hcmds
    have hpos := m13CommandOf_pos hcmd
    have htwo := two_le_length_of_last hlist' hlast
    rw [List.length_append, List.length_replicate] at hn hturns
    obtain ⟨turns, rfl⟩ : ∃ m, turns = m + 1 := ⟨turns - 1, by omega⟩
    have hrest := ih (lens := List.replicate cnt cur' ++ lens) (turns := turns) hcmds hlist'
      (by rw [List.length_append, List.length_replicate]; omega) (by omega)
    rw [List.cons_append, m13CommandListBits_cons]
    exact reads_m13Lengths_cons h hp.1 hp.2 hcmd (by omega) (hrest.congr fun k => by rw [m13Put_of_le (by omega)]; rfl)

/-! ### The tree of a list (R651, R666) -/

/-- ReadLengths and the build, on commands that give just the lengths asked for. -/
theorem reads_m13ReadTree (h : MetaPrefixCode cfg) {cmds : List (Nat × Nat)} {lens : List Nat} (hcmds : M13CommandsOk cmds)
    (hlist : m13LengthList 0 cmds = some lens) :
    Reads false bs .decUnderflow (fun k => m13ReadTree cfg bs lens.length k) (m13CommandListBits cfg cmds)
      fun k => (buildCanonical lens).mapError (.atBit k) >>= fun t => .ok (t, k) :=
  (decodes_m13Lengths (n := lens.length) h hcmds hlist (by simp) le_rfl).then fun r =>
    (buildCanonical r.1).mapError (.atBit r.2) >>= fun t => .ok (t, r.2)

theorem decodes_m13ReadTree (h : MetaPrefixCode cfg) {cmds : List (Nat × Nat)} {lens : List Nat} (hcmds : M13CommandsOk cmds)
    (hlist : m13LengthList 0 cmds = some lens) (hk : KraftOk 32 lens) :
    Decodes false bs .decUnderflow (fun k => m13ReadTree cfg bs lens.length k) (m13CommandListBits cfg cmds)
      (canonicalTree lens) := by
  have hread := reads_m13ReadTree (bs := bs) h hcmds hlist
  rw [(buildCanonical_eq hk.1).1 hk] at hread
  exact hread

theorem m13CommandOf_le {c x cur cur' cnt : Nat} (hc : c ≤ 36) (hcur : cur ≤ 32)
    (h : m13CommandOf cur c x = some (cur', cnt)) : cur' ≤ 32 := by
  unfold m13CommandOf at h
  split_ifs at h <;> cases h <;> omega

/-- A running length stays in 0..32. -/
theorem m13LengthList_le {cmds : List (Nat × Nat)} {cur : Nat} {lens : List Nat} (hcur : cur ≤ 32) (hcmds : M13CommandsOk cmds)
    (hlist : m13LengthList cur cmds = some lens) : ∀ l ∈ lens, l ≤ 32 := by
  induction cmds generalizing cur lens with
  | nil =>
    obtain rfl : lens = [] := by simpa [m13LengthList] using hlist.symm
    simp
  | cons q cmds ih =>
    obtain ⟨cur', cnt, rest, hcmd, hlist', rfl⟩ := m13LengthList_cons hlist
    obtain ⟨hq, hcmds⟩ := List.forall_mem_cons.1 hcmds
    have hcur' := m13CommandOf_le hq.1 hcur hcmd
    intro l hl
    rcases List.mem_append.1 hl with hl | hl
    · exact (List.eq_of_mem_replicate hl).trans_le hcur'
    · exact ih hcur' hcmds hlist' l hl

end

/-- Settles O41: the loop of ReadLengths reads one command after another, and its lengths go to the build. -/
theorem m13ReadsLengthLists : Obligations.M13ReadsLengthLists := by
  unfold Obligations.M13ReadsLengthLists
  intro cfg bs k cmds lens hmeta hcmds hlist hk k'
  refine ⟨?_, fun q hq hlast => ?_⟩
  · have hread := (reads_m13ReadTree (bs := bs) hmeta hcmds hlist).of_holds hk
    have hbuild := buildCanonical_eq (m13LengthList_le (by omega) hcmds hlist)
    by_cases hkraft : KraftOk 32 lens
    · rw [if_pos hkraft]
      exact ⟨_, hbuild.1 hkraft, (decodes_m13ReadTree hmeta hcmds hlist hkraft).of_holds hk⟩
    · rw [if_neg hkraft, hread, hbuild.2 hkraft]
      rfl
  · obtain ⟨init, rfl⟩ := List.getLast?_eq_some_iff.1 hq
    have htwo := two_le_length_of_last hlist hlast
    have hlengths := (reads_m13Lengths_error (n := lens.length - 1) (turns := lens.length - 1) (lens := []) (bs := bs) hmeta hcmds
      hlist (by simp; omega) (by omega) hlast).of_holds hk
    rw [m13ReadTree, hlengths]
    rfl

end Sys2Proof.Machine
end
section
/-! PROOFS. A sliding-window decoder between two symbols or inside a match (20_memory.md R171): what its window and its pending copy
say of the output. And a byte loop whose step ends with an error behind a known sequence. -/

namespace Sys2Proof.Machine
open Reference (copyBack)

/-! ### A pending copy -/

/-- The window holds `out`, and the pending copy of `len` bytes from `dist` back makes it `full`. -/
structure LzHolds (w : List Host.Cell) (size pos len dist : Nat) (out full : List Byte) : Prop where
  window : WindowHolds w size pos out
  reach  : len ≠ 0 → 1 ≤ dist ∧ dist ≤ size
  copy   : copyBack dist len out = full

section
variable {w : List Host.Cell} {size pos len dist : Nat} {out full : List Byte}

theorem prefix_copyBack (dist len : Nat) (out : List Byte) : out <+: copyBack dist len out := by
  induction len generalizing out with
  | zero => exact List.prefix_rfl
  | succ len ih => exact (List.prefix_append _ _).trans (ih _)

theorem LzHolds.isPrefix (h : LzHolds w size pos len dist out full) : out <+: full := h.copy ▸ prefix_copyBack dist len out

theorem lzHolds_idle (h : WindowHolds w size pos out) : LzHolds w size pos 0 dist out out :=
  ⟨h, fun hne => absurd rfl hne, rfl⟩

theorem LzHolds.eq_of_idle (h : LzHolds w size pos 0 dist out full) : out = full := h.copy

/-- One byte of the copy. -/
theorem LzHolds.step (h : LzHolds w size pos len dist out full) (hlen : len ≠ 0) :
    LzHolds (winCopy w size pos dist).2.1 size (winCopy w size pos dist).2.2 (len - 1) dist
      (out ++ [(winCopy w size pos dist).1]) full := by
  obtain ⟨len, rfl⟩ := Nat.exists_eq_succ_of_ne_zero hlen
  obtain ⟨hd, hle⟩ := h.reach hlen
  refine ⟨h.window.copy dist, fun _ => ⟨hd, hle⟩, ?_⟩
  rw [h.window.winCopy_fst hd hle, Nat.succ_sub_one, ← copyBack_succ]
  exact h.copy

end

/-- A byte that the output goes on with is the next one. -/
theorem eq_of_append_prefix {out rest full : List Byte} {b b' : Byte} (h : out ++ [b'] <+: full) (hfull : full = out ++ b :: rest) :
    b' = b := by
  rw [hfull, List.prefix_append_right_inj, List.cons_prefix_cons] at h
  exact h.1

theorem not_append_prefix_self {out : List Byte} {b : Byte} : ¬ out ++ [b] <+: out := fun h => by
  have := h.length_le
  rw [List.length_append, List.length_singleton] at this
  omega

theorem prefix_foldl {τ : Type} {append : List Byte → τ → List Byte} (happend : ∀ out tok, out <+: append out tok)
    (toks : List τ) (out : List Byte) : out <+: toks.foldl append out := by
  induction toks generalizing out with
  | nil => exact List.prefix_rfl
  | cons tok toks ih => exact (happend out tok).trans (ih _)

/-! ### A loop that ends with an error -/

/-- More bytes than the sequence has, where the step then meets some error of this kind. -/
theorem Streams.forkLoop_beyond_err {σ : Type} {p : σ → Except Raise (Byte × σ)} {R : σ → List Byte → Prop} (hp : Streams p R)
    {n : Nat} {u : σ} {out : List Byte} {e : Err} (h : R u out) (hend : ∀ v, R v [] → ∃ q, p v = .error q ∧ q.err = e)
    (hn : out.length < n) : ∃ q, forkLoop p n u = .error q ∧ q.err = e := by
  obtain ⟨v, hv, hnil⟩ := hp.forkLoop_all h
  obtain ⟨q, hq, he⟩ := hend v hnil
  exact ⟨_, forkLoop_of_error hv hq hn, he⟩

/-- Behind the last byte of the expansion the RLE stage ends with its source's error. -/
theorem rle81Step_at_end_err {σ : Type} {pull : σ → Except Raise (Byte × σ)} {R : σ → List Byte → Prop} {e : Err}
    (hpull : Streams pull R) (hend : ∀ c, R c [] → ∃ q, pull c = .error q ∧ q.err = e) {w : Rle81Unit × σ} (h : Rle81At R w []) :
    ∃ q, rle81Step pull w = .error q ∧ q.err = e := by
  obtain ⟨u, c⟩ := w
  obtain ⟨rest, hc, hout⟩ := h
  obtain ⟨hrun, hrest⟩ := List.append_eq_nil_iff.1 hout.symm
  obtain ⟨c', hc', hstep⟩ := (rle81Step_gives hpull ((List.replicate_eq_nil_iff _).1 hrun) hc).2 hrest
  obtain ⟨q, hq, he⟩ := hend c' hc'
  exact ⟨q, hstep q hq, he⟩

end Sys2Proof.Machine
end
section
/-! PROOFS. SIT_M13's main loop over a sequence of tokens (46_method13.md R670-R674), with predefined and with dynamic trees. -/

namespace Sys2Proof.Machine
open Reference (bitsLsb copyBack PrefixCode MetaPrefixCode KraftOk canonicalTree symbolBits M13Token m13LengthBits m13LengthOf
  m13DistanceOf m13TokenOk m13TokenBits m13Active m13Append m13LengthList m13CommandListBits HoldsLsb)

section
variable {bs : List Byte} {t1 t2 td : Tree}

/-! ### Tokens -/

/-- The tree that decodes the symbol after a token (R674). -/
def treeAfter (t1 t2 : Tree) : M13Token → Tree
  | .lit _ => t1
  | .copy _ _ _ _ => t2

/-- The tree that decodes the symbol after these tokens. -/
def treeBehind (t1 t2 : Tree) (act : Tree) (toks : List M13Token) : Tree := toks.foldl (fun _ => treeAfter t1 t2) act

theorem m13Active_eq (t1 t2 : Tree) (toks : List M13Token) : m13Active t1 t2 toks = treeBehind t1 t2 t1 toks := by
  induction toks using List.reverseRecOn with
  | nil => rfl
  | append_singleton toks tok _ =>
    rw [m13Active, List.getLast?_concat, treeBehind, List.foldl_append]
    cases tok <;> rfl

theorem m13TokenBits_cons {act : Tree} {tok : M13Token} {toks : List M13Token} {bits : List Bool}
    (h : m13TokenBits t1 t2 td act (tok :: toks) = some bits) :
    ∃ w rest, m13TokenBits t1 t2 td act [tok] = some w ∧ m13TokenBits t1 t2 td (treeAfter t1 t2 tok) toks = some rest ∧
      bits = w ++ rest := by
  cases tok with
  | lit b =>
    simp only [m13TokenBits, Option.bind_eq_bind, Option.bind_eq_some_iff] at h
    obtain ⟨w, hw, rest, hrest, hbits⟩ := h
    refine ⟨w ++ [], rest, by simp [m13TokenBits, hw], hrest, ?_⟩
    rw [List.append_nil]
    exact (Option.some.inj hbits).symm
  | copy sym x d y =>
    simp only [m13TokenBits, Option.bind_eq_bind, Option.bind_eq_some_iff] at h
    obtain ⟨w, hw, v, hv, rest, hrest, hbits⟩ := h
    refine ⟨w ++ bitsLsb (m13LengthBits sym) x ++ v ++ bitsLsb (d - 1) y ++ [], rest, by simp [m13TokenBits, hw, hv], hrest, ?_⟩
    rw [List.append_nil]
    exact (Option.some.inj hbits).symm

theorem prefix_m13Append (out : List Byte) (tok : M13Token) : out <+: m13Append out tok := by
  cases tok with
  | lit b => exact List.prefix_append _ _
  | copy sym x d y => exact prefix_copyBack _ _ _

/-! ### Reading one token (R670, R671) -/

theorem decodes_m13Length {sym x : Nat} (hx : x < 2 ^ m13LengthBits sym) :
    Decodes false bs .decUnderflow (fun k => m13Length bs sym k) (bitsLsb (m13LengthBits sym) x) (m13LengthOf sym x) := by
  unfold m13LengthBits at hx ⊢
  unfold m13LengthOf
  split_ifs at hx ⊢ with h317 h318
  · exact (reads_nil _).congr fun k => by rw [m13Length, if_pos h317]
  · refine ((decodes_m13Bits hx).then fun r => .ok (r.1 + 65, r.2)).congr fun k => ?_
    rw [m13Length, if_neg h317, if_pos h318]
  · refine ((decodes_m13Bits hx).then fun r => .ok (r.1 + 65, r.2)).congr fun k => ?_
    rw [m13Length, if_neg h317, if_neg h318]

theorem decodes_m13Distance {d y : Nat} (hy : y < 2 ^ (d - 1)) :
    Decodes false bs .decUnderflow (fun k => m13Distance bs d k) (bitsLsb (d - 1) y) (m13DistanceOf d y) := by
  unfold m13DistanceOf
  split
  next hd =>
    subst hd
    exact (reads_nil _).congr fun k => rfl
  next hd =>
    refine ((decodes_m13Bits hy).then fun r => .ok (2 ^ (d - 1) + r.1 + 1, r.2)).congr fun k => ?_
    rw [m13Distance, if_neg hd]

/-- The unit with the match of a token to copy. -/
def m13Matched (u : M13Unit) (sym x d y : Nat) : M13Unit :=
  { u with mlen := m13LengthOf sym x, mdist := m13DistanceOf d y, active := .t2 }

/-- What is left of Match(sym) once the length and the distance symbol are read. -/
def m13MatchRest (bs : List Byte) (u : M13Unit) (len : Nat) (p : Nat × Nat) : Except Raise (M13Unit × Nat) :=
  m13Distance bs p.1 p.2 >>= fun q => .ok ({ u with mlen := len, mdist := q.1, active := .t2 }, q.2)

theorem decodes_m13Match {u : M13Unit} {sym x d y : Nat} {v : List Bool} (htd : PrefixCode u.td)
    (hx : x < 2 ^ m13LengthBits sym) (hy : y < 2 ^ (d - 1)) (hv : symbolBits u.td d = some v) :
    Decodes false bs .decUnderflow (fun k => m13Match bs u sym k) (bitsLsb (m13LengthBits sym) x ++ (v ++ bitsLsb (d - 1) y))
      (m13Matched u sym x d y) := by
  have hdist : Decodes false bs .decUnderflow (fun k => m13MatchRest bs u (m13LengthOf sym x) (d, k)) (bitsLsb (d - 1) y)
      (m13Matched u sym x d y) :=
    (decodes_m13Distance hy).then fun q => .ok ({ u with mlen := m13LengthOf sym x, mdist := q.1, active := .t2 }, q.2)
  have hsym := (decodes_of_symbolBits (msb := false) (bs := bs) (eof := .decUnderflow) htd hv).bind hdist
  exact (decodes_m13Length hx).bind (next := fun r => m13Decode bs true u.td r.2 >>= m13MatchRest bs u r.1) hsym

/-- The first byte of a token, and the unit that gives the rest of it. -/
def m13Emit (u : M13Unit) : M13Token → Nat → Byte × M13Unit × Nat
  | .lit b, k => m13Literal u b.toNat k
  | .copy sym x d y, k => m13Copy (m13Matched u sym x d y) k

/-- What the step does with a symbol. -/
def m13Symbol (bs : List Byte) (u : M13Unit) (r : Nat × Nat) : Except Raise (Byte × M13Unit × Nat) :=
  if r.1 ≤ 255 then .ok (m13Literal u r.1 r.2)
  else if r.1 ≤ 319 then m13Match bs u r.1 r.2 >>= fun q => .ok (m13Copy q.1 q.2)
  else .error (.atBit r.2 .decM13Sym320)

/-- The step reads a symbol where no copy is pending (R650). -/
theorem m13Step_idle {u : M13Unit} {k : Nat} (h : u.mlen = 0) :
    m13Step bs (u, k) = m13Decode bs true (m13ActiveTree u) k >>= m13Symbol bs u := by
  rw [m13Step, if_neg (by omega)]
  rfl

theorem m13Step_pending {u : M13Unit} {k : Nat} (h : u.mlen ≠ 0) : m13Step bs (u, k) = .ok (m13Copy u k) := by
  rw [m13Step, if_pos (by omega)]

theorem reads_m13Step {u : M13Unit} {tok : M13Token} {w : List Bool} (hidle : u.mlen = 0) (hact : PrefixCode (m13ActiveTree u))
    (htd : PrefixCode u.td) (hok : m13TokenOk tok = true) (hw : m13TokenBits t1 t2 u.td (m13ActiveTree u) [tok] = some w) :
    Reads false bs .decUnderflow (fun k => m13Step bs (u, k)) w fun k => .ok (m13Emit u tok k) := by
  cases tok with
  | lit b =>
    simp only [m13TokenBits, Option.bind_eq_bind, Option.bind_eq_some_iff, Option.some.injEq, exists_eq_left', List.append_nil] at hw
    obtain ⟨w, hsym, rfl⟩ := hw
    have hb : b.toNat ≤ 255 := Nat.le_of_lt_succ b.isLt
    have hstep := (decodes_of_symbolBits (msb := false) (bs := bs) (eof := .decUnderflow) hact hsym).then (m13Symbol bs u)
    exact (hstep.congr fun k => m13Step_idle hidle).congr_out fun k => by rw [m13Symbol, if_pos hb, m13Emit]
  | copy sym x d y =>
    simp only [m13TokenBits, Option.bind_eq_bind, Option.bind_eq_some_iff, Option.some.injEq, exists_eq_left', List.append_nil] at hw
    obtain ⟨w, hsym, v, hv, rfl⟩ := hw
    obtain ⟨hlow, hhigh, hx, -, hy⟩ : 256 ≤ sym ∧ sym ≤ 319 ∧ x < 2 ^ m13LengthBits sym ∧ d ≤ 16 ∧ y < 2 ^ (d - 1) := by
      simpa [m13TokenOk] using hok
    have hmatch : Reads false bs .decUnderflow (fun k => m13Symbol bs u (sym, k))
        (bitsLsb (m13LengthBits sym) x ++ (v ++ bitsLsb (d - 1) y)) fun k => .ok (m13Emit u (.copy sym x d y) k) :=
      ((decodes_m13Match htd hx hy hv).then fun q => .ok (m13Copy q.1 q.2)).congr fun k => by
        rw [m13Symbol, if_neg (by omega), if_pos hhigh]
    have hstep := (decodes_of_symbolBits (msb := false) (bs := bs) (eof := .decUnderflow) hact hsym).bind hmatch
    rw [List.append_assoc, List.append_assoc]
    exact hstep.congr fun k => m13Step_idle hidle

/-! ### The step over a sequence of tokens -/

/-- What the job's trees are, and where its tokens end: the bit behind them and the tree that decodes there. -/
structure M13Stream where
  t1   : Tree
  t2   : Tree
  td   : Tree
  stop : Nat
  act  : Tree

/-- The unit and the bit cursor stand before the bits of tokens that go on with this output. -/
structure M13At (bs : List Byte) (z : M13Stream) (w : M13Unit × Nat) (rest : List Byte) (out full : List Byte)
    (toks : List M13Token) (bits : List Bool) : Prop where
  trees  : w.1.t1 = z.t1 ∧ w.1.t2 = z.t2 ∧ w.1.td = z.td
  lz     : LzHolds w.1.win m13Window w.1.mpos w.1.mlen w.1.mdist out full
  all    : toks.foldl m13Append full = out ++ rest
  ok     : ∀ tok ∈ toks, m13TokenOk tok = true
  coded  : m13TokenBits z.t1 z.t2 z.td (m13ActiveTree w.1) toks = some bits
  holds  : Holds false bs w.2 bits
  stop   : w.2 + bits.length = z.stop
  active : treeBehind z.t1 z.t2 (m13ActiveTree w.1) toks = z.act

/-- The unit and the bit cursor stand before tokens that go on with these bytes. -/
def M13Gives (bs : List Byte) (z : M13Stream) (w : M13Unit × Nat) (rest : List Byte) : Prop :=
  ∃ out full toks bits, M13At bs z w rest out full toks bits

theorem prefixCode_m13ActiveTree {u : M13Unit} (h1 : PrefixCode u.t1) (h2 : PrefixCode u.t2) :
    PrefixCode (m13ActiveTree u) := by
  unfold m13ActiveTree
  cases u.active
  · exact h1
  · exact h2

@[simp] theorem m13Emit_cursor (u : M13Unit) (tok : M13Token) (k : Nat) : (m13Emit u tok k).2.2 = k := by cases tok <;> rfl

theorem m13Emit_trees (u : M13Unit) (tok : M13Token) (k : Nat) :
    (m13Emit u tok k).2.1.t1 = u.t1 ∧ (m13Emit u tok k).2.1.t2 = u.t2 ∧ (m13Emit u tok k).2.1.td = u.td := by
  cases tok <;> exact ⟨rfl, rfl, rfl⟩

theorem m13Emit_active (u : M13Unit) (tok : M13Token) (k : Nat) :
    m13ActiveTree (m13Emit u tok k).2.1 = treeAfter u.t1 u.t2 tok := by
  cases tok <;> rfl

theorem lzHolds_m13Copy {u : M13Unit} {k : Nat} {out full : List Byte}
    (h : LzHolds u.win m13Window u.mpos u.mlen u.mdist out full) (hlen : u.mlen ≠ 0) :
    LzHolds (m13Copy u k).2.1.win m13Window (m13Copy u k).2.1.mpos (m13Copy u k).2.1.mlen (m13Copy u k).2.1.mdist
      (out ++ [(m13Copy u k).1]) full := h.step hlen

theorem lzHolds_m13Emit {u : M13Unit} {tok : M13Token} {k : Nat} {out : List Byte} (hidle : u.mlen = 0)
    (h : WindowHolds u.win m13Window u.mpos out) (hok : m13TokenOk tok = true) :
    LzHolds (m13Emit u tok k).2.1.win m13Window (m13Emit u tok k).2.1.mpos (m13Emit u tok k).2.1.mlen
      (m13Emit u tok k).2.1.mdist (out ++ [(m13Emit u tok k).1]) (m13Append out tok) := by
  cases tok with
  | lit b =>
    have hput := lzHolds_idle (dist := u.mdist) (h.put (BitVec.ofNat 8 b.toNat))
    rw [← hidle, BitVec.ofNat_toNat, BitVec.setWidth_eq] at hput
    simp only [m13Emit, m13Literal, BitVec.ofNat_toNat, BitVec.setWidth_eq]
    exact hput
  | copy sym x d y =>
    obtain ⟨hlow, hhigh, hx, hd, hy⟩ : 256 ≤ sym ∧ sym ≤ 319 ∧ x < 2 ^ m13LengthBits sym ∧ d ≤ 16 ∧ y < 2 ^ (d - 1) := by
      simpa [m13TokenOk] using hok
    have hlen : m13LengthOf sym x ≠ 0 := by
      unfold m13LengthOf
      split <;> omega
    have hdist : 1 ≤ m13DistanceOf d y ∧ m13DistanceOf d y ≤ m13Window := by
      have hpow : 2 ^ (d - 1) ≤ 2 ^ 15 := Nat.pow_le_pow_right (by omega) (by omega)
      unfold m13DistanceOf m13Window
      split <;> omega
    exact lzHolds_m13Copy (u := m13Matched u sym x d y) ⟨h, fun _ => hdist, rfl⟩ hlen

section
variable {z : M13Stream} (h1 : PrefixCode z.t1) (h2 : PrefixCode z.t2) (hd : PrefixCode z.td)
include h1 h2 hd

theorem M13At.prefixCode {w : M13Unit × Nat} {rest out full : List Byte} {toks : List M13Token} {bits : List Bool}
    (h : M13At bs z w rest out full toks bits) : PrefixCode (m13ActiveTree w.1) ∧ PrefixCode w.1.td := by
  obtain ⟨ht1, ht2, htd⟩ := h.trees
  exact ⟨prefixCode_m13ActiveTree (ht1 ▸ h1) (ht2 ▸ h2), htd ▸ hd⟩

/-- The step hands out what the tokens stand for. -/
theorem streams_m13Step : Streams (m13Step bs) (M13Gives bs z) := by
  rintro ⟨u, k⟩ b rest ⟨out, full, toks, bits, h⟩
  by_cases hidle : u.mlen = 0
  · have hlz := h.lz
    rw [hidle] at hlz
    obtain rfl := hlz.eq_of_idle
    cases toks with
    | nil => exact absurd (h.all.symm.trans (by rfl : _ = out)) (by simp)
    | cons tok toks =>
      obtain ⟨hok, htoks⟩ := List.forall_mem_cons.1 h.ok
      obtain ⟨w, more, hw, hmore, rfl⟩ := m13TokenBits_cons h.coded
      obtain ⟨hholds, hrest⟩ := holds_append_iff.1 h.holds
      obtain ⟨ht1, ht2, htd⟩ := h.trees
      obtain ⟨hact, htree⟩ := h.prefixCode h1 h2 hd
      rw [← htd] at hw
      have hstep := (reads_m13Step hidle hact htree hok hw).of_holds hholds
      have hemit := lzHolds_m13Emit (k := k + w.length) hidle hlz.window hok
      have hall : toks.foldl m13Append (m13Append out tok) = out ++ b :: rest := h.all
      have hb := eq_of_append_prefix (hemit.isPrefix.trans (prefix_foldl prefix_m13Append toks _)) hall
      obtain ⟨e1, e2, ed⟩ := m13Emit_trees u tok (k + w.length)
      refine ⟨(m13Emit u tok (k + w.length)).2, by rw [hstep, ← hb],
        out ++ [(m13Emit u tok (k + w.length)).1], m13Append out tok, toks, more, ?_⟩
      exact {
        trees := ⟨e1.trans ht1, e2.trans ht2, ed.trans htd⟩
        lz := hemit
        all := by rw [hall, hb, List.append_assoc]; rfl
        ok := htoks
        coded := by rw [m13Emit_active, ht1, ht2]; exact hmore
        holds := by rw [m13Emit_cursor]; exact hrest
        stop := by rw [m13Emit_cursor, ← h.stop, List.length_append, Nat.add_assoc]
        active := by rw [m13Emit_active, ht1, ht2]; exact h.active }
  · have hcopy := lzHolds_m13Copy (k := k) h.lz hidle
    have hb := eq_of_append_prefix (hcopy.isPrefix.trans (prefix_foldl prefix_m13Append toks _)) h.all
    refine ⟨(m13Copy u k).2, by rw [m13Step_pending hidle, ← hb], out ++ [(m13Copy u k).1], full, toks, bits, ?_⟩
    exact { h with lz := hcopy, all := by rw [h.all, hb, List.append_assoc]; rfl }

omit h1 h2 hd in
/-- Behind the last token no copy is pending and the cursor stands behind the bits. -/
theorem M13Gives.at_end {u : M13Unit} {k : Nat} (h : M13Gives bs z (u, k) []) :
    u.mlen = 0 ∧ k = z.stop ∧ m13ActiveTree u = z.act ∧ u.td = z.td := by
  obtain ⟨out, full, toks, bits, h⟩ := h
  have hall : toks.foldl m13Append full = out := h.all.trans (List.append_nil out)
  have hidle : u.mlen = 0 := by
    by_contra hlen
    have hcopy := lzHolds_m13Copy (k := k) h.lz hlen
    exact not_append_prefix_self (hall ▸ hcopy.isPrefix.trans (prefix_foldl prefix_m13Append toks full))
  have hlz := h.lz
  rw [hidle] at hlz
  obtain rfl := hlz.eq_of_idle
  cases toks with
  | nil =>
    have hbits := Option.some.inj h.coded
    have hstop := h.stop
    rw [← hbits] at hstop
    exact ⟨hidle, hstop, h.active, h.trees.2.2⟩
  | cons tok toks =>
    have hemit := lzHolds_m13Emit (k := k) hidle hlz.window (h.ok tok List.mem_cons_self)
    exact absurd (hemit.isPrefix.trans (prefix_foldl prefix_m13Append toks _)) (by
      rw [← List.foldl_cons, hall]
      exact not_append_prefix_self)

end

/-! ### SIT_M13 -/

theorem sitM13Job_of_input {s : State} (c : Bool) (h : s.inputIs bs) (hfit : s.forkFits) :
    sitM13Job c s = m13Start s.cfg bs >>= fun start =>
      (forkLoop (m13Step bs) s.latch.outLen.toNat start).mapError .afterM13Header >>= fun r =>
        forkResult c s r.1 { s.units with m13 := r.2.1 } 1 r.2.2 := by
  rw [sitM13Job, checkCommand_of_forkFits (by decide) (by decide) hfit, except_ok_bind, jobInput_of_inputIs h, jobOutLen]

/-- A unit before its first symbol (R654). -/
structure M13Unit.Fresh (u : M13Unit) : Prop where
  win    : u.win = []
  mpos   : u.mpos = 0
  mlen   : u.mlen = 0
  active : u.active = .t1

/-- The stream behind the header and the trees. -/
def m13StreamOf (u : M13Unit) (k : Nat) (toks : List M13Token) (bits : List Bool) : M13Stream :=
  { t1 := u.t1, t2 := u.t2, td := u.td, stop := k + bits.length, act := m13Active u.t1 u.t2 toks }

theorem M13Unit.Fresh.gives {u : M13Unit} {k : Nat} {toks : List M13Token} {bits : List Bool} (hu : u.Fresh)
    (hok : ∀ tok ∈ toks, m13TokenOk tok = true) (hbits : m13TokenBits u.t1 u.t2 u.td u.t1 toks = some bits)
    (hk : Holds false bs k bits) : M13Gives bs (m13StreamOf u k toks bits) (u, k) (toks.foldl m13Append []) := by
  have hact : m13ActiveTree u = u.t1 := by rw [m13ActiveTree, hu.active]
  refine ⟨[], [], toks, bits, ?_⟩
  exact {
    trees := ⟨rfl, rfl, rfl⟩
    lz := by
      show LzHolds u.win m13Window u.mpos u.mlen u.mdist [] []
      rw [hu.win, hu.mpos, hu.mlen]
      exact lzHolds_idle (windowHolds_empty (by decide))
    all := rfl
    ok := hok
    coded := by rw [hact]; exact hbits
    holds := hk
    stop := rfl
    active := by rw [hact]; exact (m13Active_eq _ _ _).symm }

/-- A job whose loop ends with an error. -/
theorem failsWith_sitM13_of_loop {s : State} {c : Bool} {u : M13Unit} {k : Nat} {e : Err} (h : s.inputIs bs) (hfit : s.forkFits)
    (hstart : m13Start s.cfg bs = .ok (u, k)) (hloop : ∃ q, forkLoop (m13Step bs) s.latch.outLen.toNat (u, k) = .error q ∧ q.err = e) :
    FailsWith (.sitM13 c) s e := by
  obtain ⟨q, hq, rfl⟩ := hloop
  have hjob : sitM13Job c s = .error q.afterM13Header := by
    rw [sitM13Job_of_input c h hfit, hstart, except_ok_bind, hq]
    rfl
  exact endJob_failedWith ⟨_, hjob, rfl⟩

/-- A start that has its trees: how the job ends is what the tokens say. -/
theorem m13Ends_of_start {s : State} {c : Bool} {u : M13Unit} {k : Nat} {toks : List M13Token} {bits : List Bool}
    (h : s.inputIs bs) (hfit : s.forkFits) (hstart : m13Start s.cfg bs = .ok (u, k)) (hu : u.Fresh)
    (h1 : PrefixCode u.t1) (h2 : PrefixCode u.t2) (hd : PrefixCode u.td) (hok : ∀ tok ∈ toks, m13TokenOk tok = true)
    (hbits : m13TokenBits u.t1 u.t2 u.td u.t1 toks = some bits) : M13Ends s c bs k u.t1 u.t2 u.td toks bits := by
  have hstreams := streams_m13Step (bs := bs) (z := m13StreamOf u k toks bits) h1 h2 hd
  have hact : PrefixCode (m13Active u.t1 u.t2 toks) := by
    unfold m13Active
    split
    · exact h2
    · exact h1
  refine ⟨fun hn hk => ?_, fun hn => ⟨fun w hw hk => ?_, fun tok more part htok hmore hp hne hk hend => ?_⟩⟩
  · obtain ⟨v, hv, -⟩ := hstreams.forkLoop_take (hu.gives hok hbits hk) hn
    rw [exec_sitM13, sitM13Job_of_input c h hfit, hstart, except_ok_bind, hv]
    exact stuffItForkEnds_forkResult _ _ _ (length_take_le_outCap hfit _)
  · obtain ⟨hk, hsym⟩ := (holds_append_iff (msb := false)).1 hk
    refine failsWith_sitM13_of_loop h hfit hstart (hstreams.forkLoop_beyond_err (hu.gives hok hbits hk) ?_ hn)
    rintro ⟨v, k'⟩ hv
    obtain ⟨hidle, rfl, htree, -⟩ := hv.at_end
    have hdecode := (decodes_of_symbolBits (msb := false) (bs := bs) (eof := .decUnderflow) hact hw).of_holds hsym
    refine ⟨.atBit (k + bits.length + w.length) .decM13Sym320, ?_, rfl⟩
    rw [m13Step_idle hidle, htree]
    exact congrArg (· >>= m13Symbol bs v) hdecode
  · obtain ⟨hk, hpart⟩ := (holds_append_iff (msb := false)).1 hk
    refine failsWith_sitM13_of_loop h hfit hstart (hstreams.forkLoop_beyond_err (hu.gives hok hbits hk) ?_ hn)
    rintro ⟨v, k'⟩ hv
    obtain ⟨hidle, rfl, htree, htd⟩ := hv.at_end
    have hreads := reads_m13Step (bs := bs) (t1 := u.t1) (t2 := u.t2) (w := more) hidle (by rw [htree]; exact hact)
      (by rw [htd]; exact hd) htok (by rw [htree, htd]; exact hmore)
    exact hreads.2 _ part hp hne ⟨hpart, by rw [← hend, List.length_append]; simp [m13StreamOf]; omega⟩

end

/-! ### The statements -/

theorem m13Start_of_predefined {cfg : Config} {bs : List Byte} {h : Byte} {p : TreeSet} (hhead : bs.head? = some h)
    (hlow : 1 ≤ h.toNat / 16) (hhigh : h.toNat / 16 ≤ 5) (hp : cfg.m13Predef.toList[h.toNat / 16 - 1]? = some p) :
    m13Start cfg bs =
      .ok ({ set := h.toNat / 16, s := h.getLsbD 3, k := h.toNat % 8, t1 := p.t1, t2 := p.t2, td := p.td }, 8) := by
  have hpredef : m13Predefined cfg (h.toNat / 16) = p := by
    rw [m13Predefined, List.getD_eq_getElem?_getD, hp]
    rfl
  rw [List.head?_eq_getElem?] at hhead
  simp only [m13Start, hhead, if_neg (show ¬ 6 ≤ h.toNat / 16 by omega), if_pos hlow, hpredef]

/-- Settles O40: the step reads token after token in the predefined trees. -/
theorem sitM13PredefinedTrees : Obligations.SitM13PredefinedTrees := by
  unfold Obligations.SitM13PredefinedTrees
  intro s c bs h p toks bits hin hfit hhead hlow hhigh hp h1 h2 hd hok hbits
  exact m13Ends_of_start hin hfit (m13Start_of_predefined hhead hlow hhigh hp) ⟨rfl, rfl, rfl, rfl⟩ h1 h2 hd hok hbits

/-- Settles O43: M13Start looks at the header byte before anything else. -/
theorem sitM13HeaderSet : Obligations.SitM13HeaderSet := by
  unfold Obligations.SitM13HeaderSet
  intro s c bs hin hfit
  have hjob := sitM13Job_of_input c hin hfit
  refine ⟨fun h hhead hset => ?_, fun hnil => ?_⟩
  · rw [List.head?_eq_getElem?] at hhead
    have hstart : m13Start s.cfg bs = .error { err := .valM13Set, bpos := 1, bitpos := 8 } := by
      simp only [m13Start, hhead, if_pos hset]
    rw [hstart, except_error_bind] at hjob
    rw [exec_sitM13, hjob]
    exact ⟨_, rfl, failedWith_raiseError _ s, rfl⟩
  · have hstart : m13Start s.cfg bs = .error { err := .decUnderflow } := by
      rw [hnil]
      rfl
    rw [hstart, except_error_bind] at hjob
    rw [FailsAtOnce, exec_sitM13, hjob]
    exact ⟨_, rfl, failedWith_raiseError _ s, rfl⟩

/-- The trees of dynamic mode, on the bits of their length lists. -/
theorem decodes_m13DynamicTrees {cfg : Config} {bs : List Byte} {u : M13Unit} {cmds1 cmds2 cmdsD : List (Nat × Nat)}
    {lens1 lens2 lensD : List Nat} (hmeta : MetaPrefixCode cfg) (hcmds : M13CommandsOk (cmds1 ++ cmds2 ++ cmdsD))
    (hlist1 : m13LengthList 0 cmds1 = some lens1) (hlen1 : lens1.length = m13LitLenSyms) (hk1 : KraftOk 32 lens1)
    (h2 : if u.s = true then cmds2 = [] ∧ lens2 = lens1
      else m13LengthList 0 cmds2 = some lens2 ∧ lens2.length = m13LitLenSyms ∧ KraftOk 32 lens2)
    (hlistD : m13LengthList 0 cmdsD = some lensD) (hlenD : lensD.length = u.k + 10) (hkD : KraftOk 32 lensD) :
    Decodes false bs .decUnderflow (fun k => m13DynamicTrees cfg bs u k)
      (m13CommandListBits cfg cmds1 ++ (m13CommandListBits cfg cmds2 ++ m13CommandListBits cfg cmdsD))
      { u with t1 := canonicalTree lens1, t2 := canonicalTree lens2, td := canonicalTree lensD } := by
  obtain ⟨hc12, hcD⟩ := List.forall_mem_append.1 hcmds
  obtain ⟨hc1, hc2⟩ := List.forall_mem_append.1 hc12
  have htree1 := decodes_m13ReadTree (bs := bs) hmeta hc1 hlist1 hk1
  have htreeD := (decodes_m13ReadTree (bs := bs) hmeta hcD hlistD hkD).then fun r =>
    .ok ({ u with t1 := canonicalTree lens1, t2 := canonicalTree lens2, td := r.1 }, r.2)
  have htree2 : Decodes false bs .decUnderflow
      (fun k => if u.s then .ok (canonicalTree lens1, k) else m13ReadTree cfg bs m13LitLenSyms k) (m13CommandListBits cfg cmds2)
      (canonicalTree lens2) := by
    by_cases hs : u.s = true
    · rw [if_pos hs] at h2
      obtain ⟨rfl, rfl⟩ := h2
      exact (reads_nil _).congr fun k => if_pos hs
    · rw [if_neg hs] at h2
      obtain ⟨hlist2, hlen2, hk2⟩ := h2
      exact (hlen2 ▸ decodes_m13ReadTree hmeta hc2 hlist2 hk2).congr fun k => if_neg hs
  rw [hlenD] at htreeD
  rw [hlen1] at htree1
  have htrees := htree2.bind (next := fun r => m13ReadTree cfg bs (u.k + 10) r.2 >>= fun q =>
    .ok ({ u with t1 := canonicalTree lens1, t2 := r.1, td := q.1 }, q.2)) htreeD
  refine (htree1.bind (next := fun r => (if u.s then .ok (r.1, r.2) else m13ReadTree cfg bs m13LitLenSyms r.2) >>= fun p =>
    m13ReadTree cfg bs (u.k + 10) p.2 >>= fun q => .ok ({ u with t1 := r.1, t2 := p.1, td := q.1 }, q.2)) htrees).congr fun k => ?_
  unfold m13DynamicTrees
  cases u.s <;> rfl

theorem m13Start_of_dynamic {cfg : Config} {bs : List Byte} {h : Byte} (hhead : bs.head? = some h) (hset : h.toNat / 16 = 0) :
    m13Start cfg bs =
      (m13DynamicTrees cfg bs { set := h.toNat / 16, s := h.getLsbD 3, k := h.toNat % 8 } 8).mapError .afterM13Header := by
  rw [List.head?_eq_getElem?] at hhead
  simp only [m13Start, hhead, if_neg (show ¬ 6 ≤ h.toNat / 16 by omega), if_neg (show ¬ 1 ≤ h.toNat / 16 by omega)]

/-- Settles O42: the trees are read from their length lists, and the step reads token after token in them. -/
theorem sitM13DynamicTrees : Obligations.SitM13DynamicTrees := by
  unfold Obligations.SitM13DynamicTrees
  intro s c bs h cmds1 cmds2 cmdsD lens1 lens2 lensD hin hfit hhead hset hmeta hcmds hlist1 hlen1 hk1 h2 hlistD hlenD hkD trees
  have hread := decodes_m13DynamicTrees (bs := bs) (u := { set := h.toNat / 16, s := h.getLsbD 3, k := h.toNat % 8 }) hmeta hcmds
    hlist1 hlen1 hk1 h2 hlistD hlenD hkD
  rw [← List.append_assoc] at hread
  have hstart := m13Start_of_dynamic (cfg := s.cfg) hhead hset
  refine ⟨fun part hp hne hk hend => ?_, fun toks bits hk hok hbits => ?_⟩
  · obtain ⟨r, hr, he⟩ := hread.2 8 part hp hne ⟨hk, hend⟩
    have hstart := hstart.trans (congrArg (Except.mapError Raise.afterM13Header) hr)
    have hjob : sitM13Job c s = .error r.afterM13Header := by
      rw [sitM13Job_of_input c hin hfit, hstart]
      rfl
    exact endJob_failedWith ⟨_, hjob, he⟩
  · have hstart := hstart.trans (congrArg (Except.mapError Raise.afterM13Header) (hread.of_holds hk))
    have hk2 : KraftOk 32 lens2 := by
      split at h2
      · exact h2.2 ▸ hk1
      · exact h2.2.2
    exact m13Ends_of_start hin hfit hstart ⟨rfl, rfl, rfl, rfl⟩ (prefixCode_canonicalTree hk1) (prefixCode_canonicalTree hk2)
      (prefixCode_canonicalTree hkD) hok hbits

end Sys2Proof.Machine
end
section
/-! PROOFS. The serialised tables of Compact Pro LZH (44_compactpro.md R520, R521), which a unit reads a byte at a time. -/

namespace Sys2Proof.Machine
open Reference (bitsMsb streamBitMsb codewordValue codewordBits KraftOk canonicalTree nibbleBytes lzhTable LzhTableOk)

/-! ### Reads of whole bytes from the bit cursor -/

section
variable {α β : Type} {bs : List Byte}

/-- The read's outcome is `out` behind the bytes `w` where they stand, and an input that ends inside them is TRN_LZH_END at its end. -/
def ReadsBytes (bs : List Byte) (read : Nat → Except Raise α) (w : List Byte) (out : Nat → Except Raise α) : Prop :=
  (∀ p, w <+: bs.drop p → read (8 * p) = out (8 * (p + w.length))) ∧
    ∀ p, bs.drop p <+: w → bs.drop p ≠ w → read (8 * p) = .error (.atBit (8 * max p bs.length) .trnLzhEnd)

theorem ReadsBytes.of_prefix {read out : Nat → Except Raise α} {w : List Byte} {p : Nat} (h : ReadsBytes bs read w out)
    (hw : w <+: bs.drop p) : read (8 * p) = out (8 * (p + w.length)) := h.1 p hw

theorem ReadsBytes.of_short {read out : Nat → Except Raise α} {w : List Byte} {p : Nat} (h : ReadsBytes bs read w out)
    (hp : bs.drop p <+: w) (hne : bs.drop p ≠ w) : read (8 * p) = .error (.atBit (8 * max p bs.length) .trnLzhEnd) := h.2 p hp hne

theorem readsBytes_nil (read : Nat → Except Raise α) : ReadsBytes bs read [] read :=
  ⟨fun _ _ => rfl, fun _ hp hne => absurd (List.prefix_nil.1 hp) hne⟩

theorem ReadsBytes.congr {read read' out : Nat → Except Raise α} {w : List Byte} (h : ReadsBytes bs read w out)
    (heq : ∀ k, read' k = read k) : ReadsBytes bs read' w out := by
  rwa [show read' = read from funext heq]

theorem ReadsBytes.congr_out {read out out' : Nat → Except Raise α} {w : List Byte} (h : ReadsBytes bs read w out)
    (heq : ∀ k, out' k = out k) : ReadsBytes bs read w out' := by
  rwa [show out' = out from funext heq]

theorem ReadsBytes.bind {read mid : Nat → Except Raise α} {next : α → Except Raise β} {v w : List Byte}
    {out : Nat → Except Raise β} (h : ReadsBytes bs read v mid)
    (h' : ReadsBytes bs (fun k => mid k >>= next) w out) : ReadsBytes bs (fun k => read k >>= next) (v ++ w) out := by
  refine ⟨fun p hp => ?_, fun p hp hne => ?_⟩
  · obtain ⟨rest, hrest⟩ := hp
    have hv : v <+: bs.drop p := ⟨w ++ rest, by rw [← hrest, List.append_assoc]⟩
    have hw : w <+: bs.drop (p + v.length) := ⟨rest, by rw [← List.drop_drop, ← hrest, List.append_assoc, List.drop_left]⟩
    simp only [h.of_prefix hv, h'.of_prefix hw, List.length_append, Nat.add_assoc]
  · rcases List.prefix_or_prefix_of_prefix hp (List.prefix_append v w) with hshort | hv
    · by_cases heq : bs.drop p = v
      · have hlen := congrArg List.length heq
        rw [List.length_drop] at hlen
        have hend : bs.drop (p + v.length) = [] := by rw [← List.drop_drop, heq, List.drop_length]
        have hw : w ≠ [] := fun hnil => hne (by rw [heq, hnil, List.append_nil])
        have hnext := h'.of_short (p := p + v.length) (by rw [hend]; exact List.nil_prefix) (by rw [hend]; exact hw.symm)
        simp only [h.of_prefix (heq ▸ List.prefix_rfl : v <+: bs.drop p), hnext]
        congr 3
        omega
      · simp only [h.of_short hshort heq, except_error_bind]
    · obtain ⟨rest, hrest⟩ := hv
      have hlen := congrArg List.length hrest
      rw [List.length_append, List.length_drop] at hlen
      have hdrop : bs.drop (p + v.length) = rest := by rw [← List.drop_drop, ← hrest, List.drop_left]
      rw [← hrest, List.prefix_append_right_inj] at hp
      have hnext := h'.of_short (p := p + v.length) (by rw [hdrop]; exact hp)
        (by rw [hdrop]; exact fun heq => hne (by rw [← hrest, heq]))
      simp only [h.of_prefix ⟨rest, hrest⟩, hnext]
      congr 3
      omega

theorem ReadsBytes.then {read mid : Nat → Except Raise α} {v : List Byte} (h : ReadsBytes bs read v mid)
    (next : α → Except Raise β) : ReadsBytes bs (fun k => read k >>= next) v fun k => mid k >>= next := by
  have hb := h.bind (readsBytes_nil fun k => mid k >>= next)
  rwa [List.append_nil] at hb

theorem getD_bitsMsb {n v j : Nat} (h : j < n) : (bitsMsb n v).getD j false = v.testBit (n - 1 - j) := by
  rw [List.getD_eq_getElem _ _ (by simpa using h)]
  simp [bitsMsb, Reference.bitsLsb]

/-- A byte as 8 bits, most significant first. -/
theorem lzhBits_byte {p : Nat} {b : Byte} (h : bs[p]? = some b) : lzhBits bs (8 * p) 8 = .ok (b.toNat, 8 * (p + 1)) := by
  have hlt : p < bs.length := (List.getElem?_eq_some_iff.1 h).1
  have hholds : Holds true bs (8 * p) (numberBits true 8 b.toNat) := by
    refine holds_iff.2 ⟨by rw [numberBits_length]; omega, fun j hj => ?_⟩
    rw [numberBits_length] at hj
    show streamBitMsb bs (8 * p + j) = (bitsMsb 8 b.toNat).getD j false
    rw [getD_bitsMsb hj, streamBitMsb, show (8 * p + j) / 8 = p by omega, show (8 * p + j) % 8 = j by omega,
      List.getD_eq_getElem?_getD, h]
    rfl
  exact (decodes_readBits b.isLt).of_holds hholds

theorem readsBytes_lzhBits (b : Byte) : ReadsBytes bs (fun k => lzhBits bs k 8) [b] fun k => .ok (b.toNat, k) := by
  refine ⟨fun p hp => ?_, fun p hp hne => ?_⟩
  · obtain ⟨rest, hrest⟩ := hp
    have hget : bs[p]? = some b := by
      rw [← List.head?_drop, ← hrest]
      rfl
    exact lzhBits_byte hget
  · have hnil : bs.drop p = [] := by
      cases hdrop : bs.drop p with
      | nil => rfl
      | cons c rest =>
        rw [hdrop, List.cons_prefix_cons] at hp
        exact absurd (by rw [hdrop, hp.1, List.prefix_nil.1 hp.2]) hne
    have hle := List.drop_eq_nil_iff.1 hnil
    rw [max_eq_left hle]
    show orEnd _ _ (readBits true bs (8 * p) 8) = _
    rw [readBits_beyond (by omega) (by omega)]
    rfl

end

/-! ### The lengths (R521) -/

section
variable {bs : List Byte}

theorem readsBytes_lzhNibbles {m : Nat} {lens : List Nat} (hlen : lens.length = 2 * m) (hmax : ∀ l ∈ lens, l ≤ 15) :
    ReadsBytes bs (fun k => lzhNibbles bs m k) (nibbleBytes lens) fun k => .ok (lens, k) := by
  induction m generalizing lens with
  | zero =>
    obtain rfl := List.length_eq_zero_iff.1 hlen
    exact readsBytes_nil _
  | succ m ih =>
    obtain ⟨a, b, lens, rfl⟩ : ∃ a b rest, lens = a :: b :: rest := by
      match lens, hlen with
      | a :: b :: rest, _ => exact ⟨a, b, rest, rfl⟩
    obtain ⟨ha, hb, hmax⟩ : a ≤ 15 ∧ b ≤ 15 ∧ ∀ l ∈ lens, l ≤ 15 := by simpa using hmax
    have hval : (BitVec.ofNat 8 (16 * a + b)).toNat = 16 * a + b := by
      rw [BitVec.toNat_ofNat, Nat.mod_eq_of_lt (by omega)]
    have hrest := (ih (by simp only [List.length_cons] at hlen; omega) hmax).then
      fun q => .ok ((16 * a + b) / 16 :: (16 * a + b) % 16 :: q.1, q.2)
    have hnibbles : (16 * a + b) / 16 = a ∧ (16 * a + b) % 16 = b := by omega
    have hbyte := (readsBytes_lzhBits (bs := bs) (BitVec.ofNat 8 (16 * a + b))).bind
      (next := fun r => lzhNibbles bs m r.2 >>= fun q => .ok (r.1 / 16 :: r.1 % 16 :: q.1, q.2)) (by rw [hval]; exact hrest)
    rw [hnibbles.1, hnibbles.2] at hbyte
    exact hbyte

/-- The lengths of a table's symbols, those behind the pairs absent. -/
def padded (n : Nat) (lens : List Nat) : List Nat := lens ++ List.replicate (n - lens.length) 0

/-- What ReadTable does with its byte count. -/
def lzhTableBody (bs : List Byte) (n : Nat) (r : Nat × Nat) : Except Raise (Tree × Nat) :=
  if n / 2 < r.1 then .error (.atBit r.2 .decLzhTable)
  else lzhNibbles bs r.1 r.2 >>= fun q =>
    (buildCanonical (q.1 ++ List.replicate (n - 2 * r.1) 0)).mapError (.atBit q.2) >>= fun t => .ok (t, q.2)

theorem lzhReadTable_eq (n k : Nat) : lzhReadTable bs n k = lzhBits bs k 8 >>= lzhTableBody bs n := rfl

/-- A byte count that is too large ends the read behind it. -/
theorem readsBytes_lzhReadTable_count {n : Nat} {count : Byte} (h : n / 2 < count.toNat) :
    ReadsBytes bs (fun k => lzhReadTable bs n k) [count] fun k => .error (.atBit k .decLzhTable) := by
  have hbody : ReadsBytes bs (fun k => lzhTableBody bs n (count.toNat, k)) [] fun k => .error (.atBit k .decLzhTable) :=
    (readsBytes_nil _).congr fun k => if_pos h
  exact (readsBytes_lzhBits count).bind (next := lzhTableBody bs n) hbody

/-- A table that fits goes to the build. -/
theorem readsBytes_lzhReadTable {n : Nat} {lens : List Nat} (heven : lens.length % 2 = 0) (hn : lens.length ≤ n) (hn' : n < 512)
    (hmax : ∀ l ∈ lens, l ≤ 15) :
    ReadsBytes bs (fun k => lzhReadTable bs n k) (lzhTable lens) fun k =>
      (buildCanonical (padded n lens)).mapError (.atBit k) >>= fun t => .ok (t, k) := by
  have hcount : (BitVec.ofNat 8 (lens.length / 2)).toNat = lens.length / 2 := by
    rw [BitVec.toNat_ofNat, Nat.mod_eq_of_lt (by omega)]
  have hnibbles := (readsBytes_lzhNibbles (bs := bs) (m := lens.length / 2) (by omega) hmax).then fun q =>
    (buildCanonical (q.1 ++ List.replicate (n - 2 * (lens.length / 2)) 0)).mapError (.atBit q.2) >>= fun t => .ok (t, q.2)
  have hlen : 2 * (lens.length / 2) = lens.length := by omega
  have hbody : ReadsBytes bs (fun k => lzhTableBody bs n (lens.length / 2, k)) (nibbleBytes lens) fun k =>
      (buildCanonical (padded n lens)).mapError (.atBit k) >>= fun t => .ok (t, k) :=
    (hnibbles.congr fun k => if_neg (by omega)).congr_out fun k => by
      rw [padded, hlen]
      rfl
  rw [← hcount] at hbody
  exact (readsBytes_lzhBits (BitVec.ofNat 8 (lens.length / 2))).bind (next := lzhTableBody bs n) hbody

/-! ### The trees (R520) -/

theorem kraftOk_padded {m n : Nat} {lens : List Nat} : KraftOk m (padded n lens) ↔ KraftOk m lens := by
  rw [KraftOk, KraftOk, padded]
  simp [or_imp, forall_and]

theorem padded_getD (n : Nat) (lens : List Nat) (s : Nat) : (padded n lens).getD s 0 = lens.getD s 0 := by
  rw [padded]
  by_cases h : s < lens.length
  · rw [List.getD_append _ _ _ _ h]
  · rw [List.getD_append_right _ _ _ _ (by omega), List.getD_eq_default _ _ (by omega : lens.length ≤ s)]
    simp

theorem codewordBits_padded (n : Nat) (lens : List Nat) (s : Nat) : codewordBits (padded n lens) s = codewordBits lens s := by
  rw [codewordBits, codewordBits, padded_getD, codewordValue, codewordValue, padded_getD]
  rw [padded, List.zipIdx_append, List.filter_append]
  refine congrArg (fun l => bitsMsb _ (List.map _ l).sum) ((congrArg _ (List.filter_eq_nil_iff.2 fun p hp => ?_)).trans
    (List.append_nil _))
  have hzero : p.1 = 0 := List.eq_of_mem_replicate (List.fst_mem_of_mem_zipIdx hp)
  simp [hzero]

/-- The tree of a table. -/
def lzhTree (n : Nat) (lens : List Nat) : Tree := canonicalTree (padded n lens)

theorem decodes_lzhDecode {n s : Nat} {lens : List Nat} (hk : KraftOk 15 lens) (hs : lens.getD s 0 ≠ 0) :
    Decodes true bs .trnLzhEnd (fun k => lzhDecode bs (lzhTree n lens) k) (codewordBits lens s) s := by
  rw [← codewordBits_padded n]
  exact decodes_codewordBits (single := false) (kraftOk_padded.2 hk) (by rwa [padded_getD]) (by simp)

end

end Sys2Proof.Machine
end
section
/-! PROOFS. CPT_LZH over a list of blocks (44_compactpro.md R501, R520-R527): the unit's symbols, the blocks one after another, and the
RLE stage behind them. -/

namespace Sys2Proof.Machine
open Reference (bitsMsb copyBack codewordBits KraftOk lzhTable LzhTableOk LzhToken lzhTokenOk lzhTokenBits lzhAppend lzhCost LzhBlock
  HoldsLzhBlocks HoldsMsb rle81)

section
variable {bs : List Byte} {b : LzhBlock}

/-! ### One symbol (R520, R522, R523) -/

/-- The unit's trees are those of the block. -/
structure LzhUnit.Has (u : LzhUnit) (b : LzhBlock) : Prop where
  lit : u.treeL = lzhTree 256 b.lit
  len : u.treeN = lzhTree 64 b.len
  off : u.treeO = lzhTree 128 b.off

/-- The unit with the match of a token to copy. -/
def lzhMatched (u : LzhUnit) (n v : Nat) : LzhUnit := { u with mlen := n, mdist := lzhDistance v, cost := u.cost + 3 }

/-- The first byte of a token, and the unit that gives the rest of it. -/
def lzhEmit (u : LzhUnit) : LzhToken → Nat → Byte × LzhUnit × Nat
  | .lit b, k =>
    (b, { u with win := (winPut u.win lzhWindow u.lpos b).1, lpos := (winPut u.win lzhWindow u.lpos b).2, cost := u.cost + 2 }, k)
  | .copy n v, k => lzhCopy (lzhMatched u n v) k

theorem decodes_lzhBits {n v : Nat} (hv : v < 2 ^ n) : Decodes true bs .trnLzhEnd (fun k => lzhBits bs k n) (bitsMsb n v) v :=
  decodes_readBits hv

theorem decodes_lzhFlag (f : Bool) : Decodes true bs .trnLzhEnd (fun k => lzhBits bs k 1) [f] f.toNat := by
  have h := decodes_lzhBits (bs := bs) (n := 1) (v := f.toNat) f.toNat_lt
  cases f <;> exact h

/-- LZH_LIT. -/
theorem reads_lzhLiteral {u : LzhUnit} {c : Byte} (hu : u.Has b) (hk : KraftOk 15 b.lit) (hc : b.lit.getD c.toNat 0 ≠ 0) :
    Reads true bs .trnLzhEnd (fun k => lzhLiteral bs u k) (codewordBits b.lit c.toNat) fun k => .ok (lzhEmit u (.lit c) k) := by
  have hsym := decodes_lzhDecode (bs := bs) (n := 256) hk hc
  rw [← hu.lit] at hsym
  refine (hsym.then fun r => .ok (lzhEmit u (.lit (BitVec.ofNat 8 r.1)) r.2)).congr_out fun k => ?_
  rw [BitVec.ofNat_toNat, BitVec.setWidth_eq]

/-- The offset of LZH_MATCH. -/
def lzhOffset (bs : List Byte) (u : LzhUnit) (l : Nat) (r : Nat × Nat) : Except Raise (LzhUnit × Nat) :=
  lzhBits bs r.2 6 >>= fun q => .ok (lzhMatched u l (64 * r.1 + q.1), q.2)

/-- What LZH_MATCH does with its length symbol. -/
def lzhMatchRest (bs : List Byte) (u : LzhUnit) (r : Nat × Nat) : Except Raise (LzhUnit × Nat) :=
  if r.1 = 0 then .error (.atBit r.2 .decLzhLen0) else lzhDecode bs u.treeO r.2 >>= lzhOffset bs u r.1

theorem lzhMatch_eq (u : LzhUnit) (k : Nat) : lzhMatch bs u k = lzhDecode bs u.treeN k >>= lzhMatchRest bs u := rfl

/-- LZH_MATCH. -/
theorem decodes_lzhMatch {u : LzhUnit} {n v : Nat} (hu : u.Has b) (hlen : KraftOk 15 b.len) (hoff : KraftOk 15 b.off)
    (hn : b.len.getD n 0 ≠ 0) (hpos : n ≠ 0) (hv : b.off.getD (v / 64) 0 ≠ 0) :
    Decodes true bs .trnLzhEnd (fun k => lzhMatch bs u k)
      (codewordBits b.len n ++ (codewordBits b.off (v / 64) ++ bitsMsb 6 (v % 64))) (lzhMatched u n v) := by
  have hsymN := decodes_lzhDecode (bs := bs) (n := 64) hlen hn
  have hsymO := decodes_lzhDecode (bs := bs) (n := 128) hoff hv
  rw [← hu.len] at hsymN
  rw [← hu.off] at hsymO
  have hlow : Decodes true bs .trnLzhEnd (fun k => lzhOffset bs u n (v / 64, k)) (bitsMsb 6 (v % 64)) (lzhMatched u n v) := by
    refine ((decodes_lzhBits (Nat.mod_lt v (by decide : 0 < 64))).then fun q =>
      .ok (lzhMatched u n (64 * (v / 64) + q.1), q.2)).congr_out fun k => ?_
    show _ = Except.ok (lzhMatched u n (64 * (v / 64) + v % 64), k)
    rw [Nat.div_add_mod]
  exact hsymN.bind ((hsymO.bind hlow).congr fun k => if_neg hpos)

/-- What the unit does behind the flag bit (R520). -/
def lzhFlagged (bs : List Byte) (u : LzhUnit) (r : Nat × Nat) : Except Raise (Byte × LzhUnit × Nat) :=
  if r.1 = 1 then lzhLiteral bs u r.2 else lzhMatch bs u r.2 >>= fun q => .ok (lzhCopy q.1 q.2)

theorem lzhSymbol_eq (u : LzhUnit) (k : Nat) : lzhSymbol bs u k = lzhBits bs k 1 >>= lzhFlagged bs u := rfl

theorem lzhTokenOk_copy {n v : Nat} (h : lzhTokenOk b.lit b.len b.off (.copy n v) = true) :
    1 ≤ n ∧ n ≤ 63 ∧ v < 8192 ∧ b.len.getD n 0 ≠ 0 ∧ b.off.getD (v / 64) 0 ≠ 0 := by
  simpa [lzhTokenOk] using h

/-- The symbol of a token. -/
theorem reads_lzhSymbol {u : LzhUnit} {tok : LzhToken} (hu : u.Has b) (hb : b.ok)
    (hok : lzhTokenOk b.lit b.len b.off tok = true) :
    Reads true bs .trnLzhEnd (fun k => lzhSymbol bs u k) (lzhTokenBits b.lit b.len b.off tok) fun k => .ok (lzhEmit u tok k) := by
  obtain ⟨⟨-, -, hlit⟩, ⟨-, -, hlen⟩, ⟨-, -, hoff⟩, -⟩ := hb
  cases tok with
  | lit c =>
    have hc : b.lit.getD c.toNat 0 ≠ 0 := by simpa [lzhTokenOk] using hok
    exact (decodes_lzhFlag true).bind (next := lzhFlagged bs u) (reads_lzhLiteral hu hlit hc)
  | copy n v =>
    obtain ⟨hpos, -, -, hn, hv⟩ := lzhTokenOk_copy hok
    have hmatch := (decodes_lzhMatch (bs := bs) hu hlen hoff hn (by omega) hv).then fun q => .ok (lzhCopy q.1 q.2)
    rw [← List.append_assoc] at hmatch
    exact (decodes_lzhFlag false).bind (next := lzhFlagged bs u) hmatch

/-! ### What a token gives -/

theorem prefix_lzhAppend (out : List Byte) (tok : LzhToken) : out <+: lzhAppend out tok := by
  cases tok with
  | lit c => exact List.prefix_append _ _
  | copy n v => exact prefix_copyBack _ _ _

theorem lzHolds_lzhCopy {u : LzhUnit} {k : Nat} {out full : List Byte}
    (h : LzHolds u.win lzhWindow u.lpos u.mlen u.mdist out full) (hlen : u.mlen ≠ 0) :
    LzHolds (lzhCopy u k).2.1.win lzhWindow (lzhCopy u k).2.1.lpos (lzhCopy u k).2.1.mlen (lzhCopy u k).2.1.mdist
      (out ++ [(lzhCopy u k).1]) full := h.step hlen

theorem lzHolds_lzhEmit {u : LzhUnit} {tok : LzhToken} {k : Nat} {out : List Byte} (hidle : u.mlen = 0)
    (h : WindowHolds u.win lzhWindow u.lpos out) (hok : lzhTokenOk b.lit b.len b.off tok = true) :
    LzHolds (lzhEmit u tok k).2.1.win lzhWindow (lzhEmit u tok k).2.1.lpos (lzhEmit u tok k).2.1.mlen
      (lzhEmit u tok k).2.1.mdist (out ++ [(lzhEmit u tok k).1]) (lzhAppend out tok) := by
  cases tok with
  | lit c =>
    have hput := lzHolds_idle (dist := u.mdist) (h.put c)
    rw [← hidle] at hput
    exact hput
  | copy n v =>
    obtain ⟨hpos, -, hv, -, -⟩ := lzhTokenOk_copy hok
    have hdist : 1 ≤ lzhDistance v ∧ lzhDistance v ≤ lzhWindow := by
      unfold lzhDistance lzhWindow
      split <;> omega
    exact lzHolds_lzhCopy (u := lzhMatched u n v) ⟨h, fun _ => hdist, rfl⟩ (by show n ≠ 0; omega)

/-- A token gives at least one byte. -/
theorem length_lt_lzhAppend {out : List Byte} {tok : LzhToken} (hok : lzhTokenOk b.lit b.len b.off tok = true) :
    out.length < (lzhAppend out tok).length := by
  cases tok with
  | lit c => simp [lzhAppend]
  | copy n v =>
    obtain ⟨hpos, -⟩ := lzhTokenOk_copy hok
    obtain ⟨m, rfl⟩ := Nat.exists_eq_add_of_le' hpos
    have hle := (prefix_copyBack (if v = 0 then 8192 else v) m
      (out ++ [byteBack out (if v = 0 then 8192 else v)])).length_le
    rw [List.length_append, List.length_singleton] at hle
    exact hle

@[simp] theorem lzhEmit_cursor (u : LzhUnit) (tok : LzhToken) (k : Nat) : (lzhEmit u tok k).2.2 = k := by cases tok <;> rfl

theorem lzhEmit_has {u : LzhUnit} (tok : LzhToken) (k : Nat) (hu : u.Has b) : (lzhEmit u tok k).2.1.Has b := by
  obtain ⟨hlit, hlen, hoff⟩ := hu
  cases tok <;> exact ⟨hlit, hlen, hoff⟩

theorem lzhEmit_block (u : LzhUnit) (tok : LzhToken) (k : Nat) :
    (lzhEmit u tok k).2.1.ended = u.ended ∧ (lzhEmit u tok k).2.1.inblk = u.inblk ∧
      (lzhEmit u tok k).2.1.blkDataStart = u.blkDataStart := by
  cases tok <;> exact ⟨rfl, rfl, rfl⟩

theorem lzhCost_append (v w : List LzhToken) : lzhCost (v ++ w) = lzhCost v + lzhCost w := by
  rw [lzhCost, List.map_append, List.sum_append]
  rfl

theorem lzhEmit_cost (u : LzhUnit) (tok : LzhToken) (k : Nat) : (lzhEmit u tok k).2.1.cost = u.cost + lzhCost [tok] := by
  cases tok <;> rfl

/-! ### Blocks (R520, R524) -/

/-- The unit at the start of a block whose bits begin at bit cursor `k`. -/
def lzhStarted (u : LzhUnit) (b : LzhBlock) (k : Nat) : LzhUnit :=
  { u with treeL := lzhTree 256 b.lit, treeN := lzhTree 64 b.len, treeO := lzhTree 128 b.off, blkDataStart := k, cost := 0,
           inblk := true }

theorem readsBytes_lzhTable_ok {n : Nat} {lens : List Nat} (h : LzhTableOk n lens) (hn : n < 512) :
    ReadsBytes bs (fun k => lzhReadTable bs n k) (lzhTable lens) fun k => .ok (lzhTree n lens, k) := by
  obtain ⟨heven, hle, hk⟩ := h
  have hread := readsBytes_lzhReadTable (bs := bs) heven hle hn hk.1
  have hpad : KraftOk 15 (padded n lens) := kraftOk_padded.2 hk
  rw [(buildCanonical_eq hpad.1).1 hpad] at hread
  exact hread

/-- The block that three tables start. -/
def lzhWithTables (u : LzhUnit) (l n : Tree) (o : Tree × Nat) : Except Raise (LzhUnit × Nat) :=
  .ok ({ u with treeL := l, treeN := n, treeO := o.1, blkDataStart := o.2, cost := 0, inblk := true }, o.2)

/-- The third table of a block, behind the other two. -/
def lzhThirdTable (bs : List Byte) (u : LzhUnit) (l n : Tree) (k : Nat) : Except Raise (LzhUnit × Nat) :=
  lzhReadTable bs 128 k >>= lzhWithTables u l n

/-- The second and the third table. -/
def lzhSecondTable (bs : List Byte) (u : LzhUnit) (l : Tree) (k : Nat) : Except Raise (LzhUnit × Nat) :=
  lzhReadTable bs 64 k >>= fun n => lzhThirdTable bs u l n.1 n.2

theorem lzhStartBlock_eq (u : LzhUnit) (k : Nat) :
    lzhStartBlock bs u k = lzhReadTable bs 256 k >>= fun l => lzhSecondTable bs u l.1 l.2 := rfl

/-- The start of a block reads its tables. -/
theorem readsBytes_lzhStartBlock (u : LzhUnit) {b : LzhBlock} (hlit : LzhTableOk 256 b.lit) (hlen : LzhTableOk 64 b.len)
    (hoff : LzhTableOk 128 b.off) :
    ReadsBytes bs (fun k => lzhStartBlock bs u k) b.tables fun k => .ok (lzhStarted u b k, k) := by
  have hthird : ReadsBytes bs (fun k => lzhThirdTable bs u (lzhTree 256 b.lit) (lzhTree 64 b.len) k) (lzhTable b.off)
      fun k => .ok (lzhStarted u b k, k) :=
    (readsBytes_lzhTable_ok hoff (by omega)).then (lzhWithTables u (lzhTree 256 b.lit) (lzhTree 64 b.len))
  have hsecond : ReadsBytes bs (fun k => lzhSecondTable bs u (lzhTree 256 b.lit) k) (lzhTable b.len ++ lzhTable b.off)
      fun k => .ok (lzhStarted u b k, k) :=
    (readsBytes_lzhTable_ok hlen (by omega)).bind (next := fun n => lzhThirdTable bs u (lzhTree 256 b.lit) n.1 n.2) hthird
  rw [LzhBlock.tables, List.append_assoc]
  exact (readsBytes_lzhTable_ok hlit (by omega)).bind (next := fun l => lzhSecondTable bs u l.1 l.2) hsecond

/-! ### The place of a block -/

/-- The bytes that blocks take up, skipped bytes and all. -/
def blocksSize (blocks : List LzhBlock) : Nat := (blocks.map LzhBlock.size).sum

theorem blocksSize_append (v w : List LzhBlock) : blocksSize (v ++ w) = blocksSize v + blocksSize w := by
  rw [blocksSize, List.map_append, List.sum_append]
  rfl

/-- R524's alignment and skip lead to the next block. -/
theorem lzhBlockEnd_eq {u : LzhUnit} {p : Nat} (h : u.blkDataStart = 8 * (p + b.tables.length)) :
    lzhBlockEnd u (u.blkDataStart + b.bits.length) = 8 * (p + b.size) := by
  have halign : alignByte (u.blkDataStart + b.bits.length) = 8 * (p + b.tables.length + (b.bits.length + 7) / 8) := by
    rw [alignByte, h]
    omega
  have hbytes : (8 * (p + b.tables.length + (b.bits.length + 7) / 8) - u.blkDataStart) / 8 = (b.bits.length + 7) / 8 := by
    rw [h]
    omega
  rw [lzhBlockEnd, halign]
  simp only [hbytes, skipBits, LzhBlock.size]
  split <;> omega

/-- The bits of a block's tokens. -/
def tokensBits (b : LzhBlock) (toks : List LzhToken) : List Bool := toks.flatMap (lzhTokenBits b.lit b.len b.off)

/-- The tokens of blocks, one block after another. -/
def blocksTokens (blocks : List LzhBlock) : List LzhToken := blocks.flatMap LzhBlock.toks

/-- The unit and the bit cursor stand inside a block, `done` of its tokens read and `toks` to come, and then the blocks `next`. -/
structure LzhIn (bs : List Byte) (all : List LzhBlock) (w : LzhUnit × Nat) (rest out full : List Byte) (before : List LzhBlock)
    (b : LzhBlock) (next : List LzhBlock) (done toks : List LzhToken) : Prop where
  split  : all = before ++ b :: next
  ended  : w.1.ended = false
  inblk  : w.1.inblk = true
  has    : w.1.Has b
  lz     : LzHolds w.1.win lzhWindow w.1.lpos w.1.mlen w.1.mdist out full
  gives  : (toks ++ blocksTokens next).foldl lzhAppend full = out ++ rest
  tokens : b.toks = done ++ toks
  cost   : w.1.cost = lzhCost done
  start  : w.1.blkDataStart = 8 * (blocksSize before + b.tables.length)
  cursor : w.2 = w.1.blkDataStart + (tokensBits b done).length
  blocks : HoldsLzhBlocks bs (blocksSize before) (b :: next)

/-- The blocks, and the unit and the bit cursor inside them or before the first. -/
def LzhGives (bs : List Byte) (all : List LzhBlock) (w : LzhUnit × Nat) (rest : List Byte) : Prop :=
  (w = ({}, 0) ∧ HoldsLzhBlocks bs 0 all ∧ (blocksTokens all).foldl lzhAppend [] = rest) ∨
    ∃ out full before b next done toks, LzhIn bs all w rest out full before b next done toks

section
variable {all : List LzhBlock} {w : LzhUnit × Nat} {rest out full : List Byte} {before next : List LzhBlock}
  {done toks : List LzhToken}

theorem LzhIn.tokenOk {tok : LzhToken} (h : LzhIn bs all w rest out full before b next done (tok :: toks)) :
    lzhTokenOk b.lit b.len b.off tok = true := by
  obtain ⟨⟨-, -, -, hok, -⟩, -⟩ := h.blocks
  exact hok tok (by rw [h.tokens]; simp)

/-- A token is only reached below the cost limit (R520). -/
theorem LzhIn.cost_lt {tok : LzhToken} (h : LzhIn bs all w rest out full before b next done (tok :: toks)) :
    w.1.cost < lzhCostLimit := by
  obtain ⟨⟨-, -, -, -, hcost⟩, -⟩ := h.blocks
  rw [h.tokens, List.dropLast_append_of_ne_nil (by simp), lzhCost_append] at hcost
  rw [h.cost, lzhCostLimit]
  omega

theorem LzhIn.holds (h : LzhIn bs all w rest out full before b next done toks) : Holds true bs w.2 (tokensBits b toks) := by
  obtain ⟨-, -, hbits, -⟩ := h.blocks
  have hbits : Holds true bs (8 * (blocksSize before + b.tables.length)) (tokensBits b b.toks) := hbits
  rw [h.tokens, tokensBits, List.flatMap_append, holds_append_iff, ← h.start] at hbits
  rw [h.cursor]
  exact hbits.2

/-- The symbol of the next token. -/
theorem LzhIn.symbol {tok : LzhToken} {c : Byte} (h : LzhIn bs all w (c :: rest) out full before b next done (tok :: toks))
    (hidle : w.1.mlen = 0) :
    ∃ v out' full', lzhSymbol bs w.1 w.2 = .ok (c, v) ∧ LzhIn bs all v rest out' full' before b next (done ++ [tok]) toks := by
  have hlz := h.lz
  rw [hidle] at hlz
  obtain rfl := hlz.eq_of_idle
  have hok := h.tokenOk
  have hholds := h.holds
  rw [tokensBits, List.flatMap_cons, holds_append_iff] at hholds
  have hstep := (reads_lzhSymbol h.has h.blocks.1 hok).of_holds hholds.1
  have hemit := lzHolds_lzhEmit (k := w.2 + (lzhTokenBits b.lit b.len b.off tok).length) hidle hlz.window hok
  have hgives : (toks ++ blocksTokens next).foldl lzhAppend (lzhAppend out tok) = out ++ c :: rest := h.gives
  have hc := eq_of_append_prefix (hemit.isPrefix.trans (prefix_foldl prefix_lzhAppend _ _)) hgives
  obtain ⟨hended, hinblk, hstart⟩ := lzhEmit_block w.1 tok (w.2 + (lzhTokenBits b.lit b.len b.off tok).length)
  rw [hc] at hemit
  refine ⟨(lzhEmit w.1 tok (w.2 + (lzhTokenBits b.lit b.len b.off tok).length)).2, out ++ [c], lzhAppend out tok,
    by rw [hstep, ← hc], ?_⟩
  exact {
    split := h.split
    ended := hended.trans h.ended
    inblk := hinblk.trans h.inblk
    has := lzhEmit_has tok _ h.has
    lz := hemit
    gives := by rw [hgives, List.append_assoc]; rfl
    tokens := by rw [h.tokens, List.append_assoc]; rfl
    cost := by rw [lzhEmit_cost, h.cost, lzhCost_append]
    start := hstart.trans h.start
    cursor := by
      rw [lzhEmit_cursor, hstart, h.cursor, tokensBits, tokensBits, List.flatMap_append, List.length_append,
        List.flatMap_singleton, Nat.add_assoc]
    blocks := h.blocks }

/-- A block whose start the unit reads next, with its bits behind its tables. -/
theorem lzhIn_started {u : LzhUnit} (hsplit : all = before ++ b :: next) (hended : u.ended = false) (hidle : u.mlen = 0)
    (hwin : WindowHolds u.win lzhWindow u.lpos out) (hblocks : HoldsLzhBlocks bs (blocksSize before) (b :: next))
    (hgives : (b.toks ++ blocksTokens next).foldl lzhAppend out = out ++ rest) :
    lzhStartBlock bs u (8 * blocksSize before) =
        .ok (lzhStarted u b (8 * (blocksSize before + b.tables.length)), 8 * (blocksSize before + b.tables.length)) ∧
      LzhIn bs all (lzhStarted u b (8 * (blocksSize before + b.tables.length)), 8 * (blocksSize before + b.tables.length)) rest
        out out before b next [] b.toks := by
  obtain ⟨⟨hlit, hlen, hoff, -⟩, htables, -⟩ := id hblocks
  refine ⟨(readsBytes_lzhStartBlock u hlit hlen hoff).of_prefix htables, ?_⟩
  have hlz : LzHolds u.win lzhWindow u.lpos u.mlen u.mdist out out := by
    rw [hidle]
    exact lzHolds_idle hwin
  exact {
    split := hsplit
    ended := hended
    inblk := rfl
    has := ⟨rfl, rfl, rfl⟩
    lz := hlz
    gives := hgives
    tokens := rfl
    cost := rfl
    start := rfl
    cursor := rfl
    blocks := hblocks }

/-- A block behind which another one stands has tokens. -/
theorem toks_ne_nil_of_next (hblocks : HoldsLzhBlocks bs (blocksSize before) (b :: next)) (hnext : next ≠ []) : b.toks ≠ [] := by
  obtain ⟨-, -, -, hcost, -⟩ := hblocks
  intro hnil
  rcases hcost with hnone | hcost
  · exact hnext hnone
  · rw [hnil] at hcost
    exact absurd hcost (by decide)

/-- The next block's start and first symbol. -/
theorem lzhStart_symbol {u : LzhUnit} {c : Byte} (hsplit : all = before ++ b :: next) (hended : u.ended = false)
    (hidle : u.mlen = 0) (hwin : WindowHolds u.win lzhWindow u.lpos out)
    (hblocks : HoldsLzhBlocks bs (blocksSize before) (b :: next))
    (hgives : (b.toks ++ blocksTokens next).foldl lzhAppend out = out ++ c :: rest) :
    ∃ v, (lzhStartBlock bs u (8 * blocksSize before) >>= fun r => lzhSymbol bs r.1 r.2) = .ok (c, v) ∧ LzhGives bs all v rest := by
  obtain ⟨hstart, hin⟩ := lzhIn_started hsplit hended hidle hwin hblocks hgives
  have hne : b.toks ≠ [] := by
    intro hnil
    by_cases hnext : next = []
    · rw [hnil, hnext] at hgives
      exact absurd hgives.symm (by simp [blocksTokens])
    · exact toks_ne_nil_of_next hblocks hnext hnil
  obtain ⟨tok, toks, htoks⟩ := List.exists_cons_of_ne_nil hne
  rw [htoks] at hin
  obtain ⟨v, out', full', hsym, hv⟩ := hin.symbol hidle
  exact ⟨v, by rw [hstart, except_ok_bind]; exact hsym, .inr ⟨_, _, _, _, _, _, _, hv⟩⟩

/-! ### LzhNext (R520) -/

theorem lzhNext_pending {u : LzhUnit} {k : Nat} (hended : u.ended = false) (h : u.mlen ≠ 0) :
    lzhNext bs (u, k) = .ok (lzhCopy u k) := by
  rw [lzhNext, hended, if_neg (by simp), if_pos (by omega)]

/-- The start of a block, and its first symbol. -/
def lzhEnter (bs : List Byte) (u : LzhUnit) (k : Nat) : Except Raise (Byte × LzhUnit × Nat) :=
  lzhStartBlock bs u k >>= fun r => lzhSymbol bs r.1 r.2

theorem lzhNext_first {u : LzhUnit} {k : Nat} (hended : u.ended = false) (h : u.mlen = 0) (hin : u.inblk = false) :
    lzhNext bs (u, k) = lzhEnter bs u k := by
  rw [lzhNext, hended, hin, if_neg (by simp), if_neg (by omega), if_pos (by simp)]
  rfl

theorem lzhNext_inside {u : LzhUnit} {k : Nat} (hended : u.ended = false) (h : u.mlen = 0) (hin : u.inblk = true)
    (hcost : u.cost < lzhCostLimit) : lzhNext bs (u, k) = lzhSymbol bs u k := by
  rw [lzhNext, hended, hin, if_neg (by simp), if_neg (by omega), if_neg (by simp), if_neg (by omega)]

theorem lzhNext_next {u : LzhUnit} {k : Nat} (hended : u.ended = false) (h : u.mlen = 0) (hin : u.inblk = true)
    (hcost : lzhCostLimit ≤ u.cost) : lzhNext bs (u, k) = lzhEnter bs { u with inblk := false } (lzhBlockEnd u k) := by
  rw [lzhNext, hended, hin, if_neg (by simp), if_neg (by omega), if_neg (by simp), if_pos hcost]
  rfl

/-- Behind a block's last token the next one is entered where the block ends. -/
theorem LzhIn.enters (h : LzhIn bs all w rest out full before b next done []) (hidle : w.1.mlen = 0)
    (hcost : lzhCostLimit ≤ lzhCost b.toks) :
    lzhNext bs w = lzhEnter bs { w.1 with inblk := false } (8 * blocksSize (before ++ [b])) := by
  have hdone : b.toks = done := h.tokens.trans (List.append_nil done)
  have hcursor : w.2 = w.1.blkDataStart + b.bits.length := by
    rw [h.cursor, ← hdone]
    rfl
  have hplace : lzhBlockEnd w.1 w.2 = 8 * blocksSize (before ++ [b]) := by
    rw [hcursor, lzhBlockEnd_eq h.start, blocksSize_append]
    simp [blocksSize]
  rw [← hplace]
  exact lzhNext_next h.ended hidle h.inblk (by rw [h.cost, ← hdone]; exact hcost)

/-- LzhNext hands out what the blocks' tokens stand for. -/
theorem streams_lzhNext (all : List LzhBlock) : Streams (lzhNext bs) (LzhGives bs all) := by
  rintro ⟨u, k⟩ c rest (⟨hw, hblocks, hgives⟩ | ⟨out, full, before, b, next, done, toks, h⟩)
  · cases hw
    cases all with
    | nil => exact absurd hgives (by simp [blocksTokens])
    | cons b next =>
      rw [lzhNext_first rfl rfl rfl]
      exact lzhStart_symbol (before := []) (out := []) rfl rfl rfl (windowHolds_empty (by decide)) hblocks hgives
  · by_cases hidle : u.mlen = 0
    · cases toks with
      | cons tok toks =>
        obtain ⟨v, out', full', hsym, hv⟩ := h.symbol hidle
        exact ⟨v, by rw [lzhNext_inside h.ended hidle h.inblk h.cost_lt]; exact hsym, .inr ⟨_, _, _, _, _, _, _, hv⟩⟩
      | nil =>
        have hlz := h.lz
        rw [hidle] at hlz
        obtain rfl := hlz.eq_of_idle
        cases next with
        | nil => exact absurd h.gives (by simp [blocksTokens])
        | cons b' next =>
          obtain ⟨-, -, -, hcost, hrest⟩ := h.blocks
          have hcost := hcost.resolve_left (by simp)
          rw [h.enters hidle hcost]
          have hplace : blocksSize before + b.size = blocksSize (before ++ [b]) := by
            rw [blocksSize_append]
            simp [blocksSize]
          refine lzhStart_symbol (by rw [h.split, List.append_assoc]; rfl) h.ended hidle hlz.window (hplace ▸ hrest) ?_
          rw [← h.gives]
          rfl
    · have hcopy := lzHolds_lzhCopy (k := k) h.lz hidle
      have hc := eq_of_append_prefix (hcopy.isPrefix.trans (prefix_foldl prefix_lzhAppend _ _)) h.gives
      refine ⟨(lzhCopy u k).2, by rw [lzhNext_pending h.ended hidle, ← hc], .inr ⟨out ++ [(lzhCopy u k).1], full, before, b, next,
        done, toks, ?_⟩⟩
      exact { h with has := ⟨h.has.lit, h.has.len, h.has.off⟩, lz := hcopy, gives := by rw [h.gives, hc, List.append_assoc]; rfl }

/-! ### Behind the last byte -/

/-- Tokens that give nothing are none. -/
theorem tokens_eq_nil {toks : List LzhToken} (hok : ∀ tok ∈ toks, ∃ b : LzhBlock, lzhTokenOk b.lit b.len b.off tok = true)
    (h : toks.foldl lzhAppend out = out) : toks = [] := by
  cases toks with
  | nil => rfl
  | cons tok toks =>
    obtain ⟨b, hb⟩ := hok tok List.mem_cons_self
    have hle := (prefix_foldl prefix_lzhAppend toks (lzhAppend out tok)).length_le
    rw [List.foldl_cons] at h
    rw [h] at hle
    exact absurd (length_lt_lzhAppend (out := out) hb) (by omega)

theorem tokensOk_of_blocks {p : Nat} {blocks : List LzhBlock} (h : HoldsLzhBlocks bs p blocks) :
    ∀ tok ∈ blocksTokens blocks, ∃ b : LzhBlock, lzhTokenOk b.lit b.len b.off tok = true := by
  induction blocks generalizing p with
  | nil => simp [blocksTokens]
  | cons b blocks ih =>
    obtain ⟨⟨-, -, -, hok, -⟩, -, -, -, hrest⟩ := h
    intro tok htok
    rw [blocksTokens, List.flatMap_cons, List.mem_append] at htok
    rcases htok with htok | htok
    · exact ⟨b, hok tok htok⟩
    · exact ih hrest tok htok

/-- Behind the last byte no copy is pending and no token is to come. -/
theorem LzhIn.at_end (h : LzhIn bs all w [] out full before b next done toks) :
    w.1.mlen = 0 ∧ toks = [] ∧ blocksTokens next = [] ∧ WindowHolds w.1.win lzhWindow w.1.lpos out := by
  have hgives : (toks ++ blocksTokens next).foldl lzhAppend full = out := h.gives.trans (List.append_nil out)
  have hidle : w.1.mlen = 0 := by
    by_contra hlen
    have hcopy := lzHolds_lzhCopy (k := w.2) h.lz hlen
    exact not_append_prefix_self (hgives ▸ hcopy.isPrefix.trans (prefix_foldl prefix_lzhAppend _ full))
  have hlz := h.lz
  rw [hidle] at hlz
  obtain rfl := hlz.eq_of_idle
  obtain ⟨⟨-, -, -, hok, -⟩, -, -, -, hrest⟩ := h.blocks
  have hnone := tokens_eq_nil (fun tok htok => by
    rcases List.mem_append.1 htok with htok | htok
    · exact ⟨b, hok tok (by rw [h.tokens]; exact List.mem_append_right _ htok)⟩
    · exact tokensOk_of_blocks hrest tok htok) hgives
  obtain ⟨htoks, hnext⟩ := List.append_eq_nil_iff.1 hnone
  exact ⟨hidle, htoks, hnext, hlz.window⟩

/-- Blocks without tokens: at most one, and it has not reached the cost limit. -/
theorem blocks_without_tokens {p : Nat} {blocks : List LzhBlock} (h : HoldsLzhBlocks bs p blocks) (hnone : blocksTokens blocks = []) :
    blocks = [] ∨ ∃ b, blocks = [b] ∧ b.toks = [] := by
  cases blocks with
  | nil => exact .inl rfl
  | cons b next =>
    obtain ⟨-, -, -, hcost, -⟩ := h
    rw [blocksTokens, List.flatMap_cons, List.append_eq_nil_iff] at hnone
    rcases hcost with rfl | hcost
    · exact .inr ⟨b, rfl, hnone.1⟩
    · rw [hnone.1] at hcost
      exact absurd hcost (by decide)

/-- Where the stream goes on behind its last byte: with the tables of a next block, or with a symbol of the last one. -/
def LzhGoesOn (bs : List Byte) (all : List LzhBlock) (w : LzhUnit × Nat) : Prop :=
  ((∀ b ∈ all, lzhCostLimit ≤ lzhCost b.toks) → ∃ u, lzhNext bs w = lzhEnter bs u (8 * blocksSize all)) ∧
    ∀ b, all.getLast? = some b → lzhCost b.toks < lzhCostLimit →
      ∃ u, u.Has b ∧ lzhNext bs w = lzhSymbol bs u (8 * (blocksSize all.dropLast + b.tables.length) + b.bits.length)

/-- A last block without tokens that is still to be entered. -/
theorem lzhGoesOn_of_enter {u : LzhUnit} (hsplit : all = before ++ [b]) (htoks : b.toks = [])
    (hblocks : HoldsLzhBlocks bs (blocksSize before) [b]) (henter : lzhNext bs w = lzhEnter bs u (8 * blocksSize before)) :
    LzhGoesOn bs all w := by
  obtain ⟨⟨hlit, hlen, hoff, -⟩, htables, -⟩ := hblocks
  subst hsplit
  refine ⟨fun hall => ?_, fun b' hlast hcost => ?_⟩
  · have hcost := hall b (by simp)
    rw [htoks] at hcost
    exact absurd hcost (by decide)
  · obtain rfl : b = b' := by simpa using hlast
    refine ⟨lzhStarted u b (8 * (blocksSize before + b.tables.length)), ⟨rfl, rfl, rfl⟩, ?_⟩
    rw [henter, lzhEnter, (readsBytes_lzhStartBlock u hlit hlen hoff).of_prefix htables, except_ok_bind, List.dropLast_concat,
      LzhBlock.bits, htoks]
    rfl

theorem LzhGives.goesOn (h : LzhGives bs all w []) : LzhGoesOn bs all w := by
  rcases h with ⟨rfl, hblocks, hgives⟩ | ⟨out, full, before, b, next, done, toks, h⟩
  · have hnone := tokens_eq_nil (tokensOk_of_blocks hblocks) hgives
    rcases blocks_without_tokens hblocks hnone with rfl | ⟨b, rfl, htoks⟩
    · exact ⟨fun _ => ⟨_, lzhNext_first rfl rfl rfl⟩, fun b hlast => absurd hlast (by simp)⟩
    · exact lzhGoesOn_of_enter (before := []) rfl htoks hblocks (lzhNext_first rfl rfl rfl)
  · obtain ⟨hidle, rfl, hnone, -⟩ := h.at_end
    have hdone : b.toks = done := h.tokens.trans (List.append_nil done)
    obtain ⟨-, -, -, hcost, hrest⟩ := h.blocks
    rcases blocks_without_tokens hrest hnone with rfl | ⟨b', rfl, htoks⟩
    · have hsplit := h.split
      subst hsplit
      refine ⟨fun hall => ⟨_, h.enters hidle (hall b (by simp))⟩, fun b' hlast hlow => ?_⟩
      obtain rfl : b = b' := by simpa using hlast
      refine ⟨w.1, h.has, ?_⟩
      rw [List.dropLast_concat, ← h.start]
      have hcursor : w.2 = w.1.blkDataStart + b.bits.length := by
        rw [h.cursor, ← hdone]
        rfl
      rw [← hcursor]
      exact lzhNext_inside h.ended hidle h.inblk (by rw [h.cost, ← hdone]; exact hlow)
    · have hcost := hcost.resolve_left (by simp)
      have hplace : blocksSize before + b.size = blocksSize (before ++ [b]) := by
        rw [blocksSize_append]
        simp [blocksSize]
      exact lzhGoesOn_of_enter (by rw [h.split, List.append_assoc]; rfl) htoks (hplace ▸ hrest) (h.enters hidle hcost)

end

/-! ### CPT_LZH -/

theorem cptLzhJob_of_input {s : State} (h : s.inputIs bs) (hfit : s.forkFits) :
    cptLzhJob s = forkLoop (rle81Step (lzhNext bs)) s.latch.outLen.toNat ({}, {}, 0) >>= fun r =>
      .ok { out := r.1, units := { s.units with rle81 := r.2.1, lzh := r.2.2.1 }, bitpos := r.2.2.2 } := by
  rw [cptLzhJob, checkCommand_of_forkFits (by decide) (by decide) hfit, except_ok_bind, jobInput_of_inputIs h, jobOutLen]

/-- The job's start: the stage over the blocks. -/
theorem rle81At_blocks {all : List LzhBlock} (h : HoldsLzhBlocks bs 0 all) :
    Rle81At (LzhGives bs all) ({}, {}, 0) (rle81 false 0 ((all.flatMap LzhBlock.toks).foldl lzhAppend [])) :=
  ⟨_, .inl ⟨rfl, h, rfl⟩, rfl⟩

theorem exec_cptLzh_of_loop {s : State} {c : Bool} {fork : List Byte} {v : Rle81Unit × LzhUnit × Nat} (h : s.inputIs bs)
    (hfit : s.forkFits) (hlen : fork.length ≤ s.cfg.outCap)
    (hloop : forkLoop (rle81Step (lzhNext bs)) s.latch.outLen.toNat ({}, {}, 0) = .ok (fork, v)) :
    ∃ t, exec (.cptLzh c) s = .next t ∧ DoneWith s t fork {} := by
  rw [exec_cptLzh, cptLzhJob_of_input h hfit, hloop, except_ok_bind]
  exact endJob_doneWith rfl hlen

end

/-- Settles O51: the stage over LzhNext, which hands out what the blocks' tokens stand for. -/
theorem cptLzhDecodesOneBlock : Obligations.CptLzhDecodesOneBlock := by
  unfold Obligations.CptLzhDecodesOneBlock
  intro s c bs blocks h hfit hblocks out hn
  obtain ⟨v, hv, -⟩ := (streams_rle81Step (streams_lzhNext blocks)).forkLoop_take (rle81At_blocks hblocks) hn
  exact exec_cptLzh_of_loop h hfit (length_take_le_outCap hfit _) hv

/-! ### The errors of CPT_LZH (R521, R523, R527) -/

section
variable {bs : List Byte} {b : LzhBlock}

/-- A table whose read ends with an error, behind tables that are accepted. -/
theorem lzhEnter_table_error {p n : Nat} {before w rest : List Byte} {e : Err} (u : LzhUnit)
    (hbefore : before = [] ∧ n = 256 ∨ (∃ lit, LzhTableOk 256 lit ∧ before = lzhTable lit ∧ n = 64) ∨
      ∃ lit len, LzhTableOk 256 lit ∧ LzhTableOk 64 len ∧ before = lzhTable lit ++ lzhTable len ∧ n = 128)
    (hread : ReadsBytes bs (fun k => lzhReadTable bs n k) w fun k => .error (.atBit k e)) (hdrop : bs.drop p = before ++ w ++ rest) :
    ∃ q, lzhEnter bs u (8 * p) = .error q ∧ q.err = e := by
  have hstart : ReadsBytes bs (fun k => lzhStartBlock bs u k) (before ++ w) fun k => .error (.atBit k e) := by
    rcases hbefore with ⟨rfl, rfl⟩ | ⟨lit, hlit, rfl, rfl⟩ | ⟨lit, len, hlit, hlen, rfl, rfl⟩
    · exact hread.then fun l => lzhSecondTable bs u l.1 l.2
    · have hsecond := hread.then fun n => lzhThirdTable bs u (lzhTree 256 lit) n.1 n.2
      exact (readsBytes_lzhTable_ok hlit (by omega)).bind (next := fun l => lzhSecondTable bs u l.1 l.2) hsecond
    · have hthird : ReadsBytes bs (fun k => lzhThirdTable bs u (lzhTree 256 lit) (lzhTree 64 len) k) w
          fun k => .error (.atBit k e) :=
        hread.then (lzhWithTables u (lzhTree 256 lit) (lzhTree 64 len))
      have hsecond : ReadsBytes bs (fun k => lzhSecondTable bs u (lzhTree 256 lit) k) (lzhTable len ++ w)
          fun k => .error (.atBit k e) :=
        (readsBytes_lzhTable_ok hlen (by omega)).bind (next := fun n => lzhThirdTable bs u (lzhTree 256 lit) n.1 n.2) hthird
      rw [List.append_assoc]
      exact (readsBytes_lzhTable_ok hlit (by omega)).bind (next := fun l => lzhSecondTable bs u l.1 l.2) hsecond
  refine ⟨.atBit (8 * (p + (before ++ w).length)) e, ?_, rfl⟩
  rw [lzhEnter, hstart.of_prefix (hdrop ▸ List.prefix_append _ _), except_error_bind]

/-- An input that is a beginning of three tables, if only the whole of them. -/
theorem lzhEnter_short {p : Nat} {lit len off : List Nat} (u : LzhUnit) (hlit : LzhTableOk 256 lit) (hlen : LzhTableOk 64 len)
    (hoff : LzhTableOk 128 off) (hp : bs.drop p <+: lzhTable lit ++ lzhTable len ++ lzhTable off) :
    lzhEnter bs u (8 * p) = .error (.atBit (8 * max p bs.length) .trnLzhEnd) := by
  have hread := readsBytes_lzhStartBlock (bs := bs) (b := { lit, len, off, toks := [] }) u hlit hlen hoff
  rw [lzhEnter]
  by_cases hwhole : bs.drop p = lzhTable lit ++ lzhTable len ++ lzhTable off
  · have hsize := congrArg List.length hwhole
    rw [List.length_drop] at hsize
    have hpos : 0 < (lzhTable lit ++ lzhTable len ++ lzhTable off).length := by simp [lzhTable]
    rw [hread.of_prefix (by rw [hwhole]; exact List.prefix_rfl), except_ok_bind]
    have hend : p + (lzhTable lit ++ lzhTable len ++ lzhTable off).length = bs.length := by omega
    show lzhSymbol bs _ (8 * (p + (lzhTable lit ++ lzhTable len ++ lzhTable off).length)) = _
    rw [hend, max_eq_right (by omega), lzhSymbol_eq]
    have hbeyond := readBits_beyond (msb := true) (bs := bs) (k := 8 * bs.length) (n := 1) (by omega) (by omega)
    show orEnd _ _ (readBits true bs (8 * bs.length) 1) >>= _ = _
    rw [hbeyond]
    rfl
  · rw [hread.of_short hp hwhole, except_error_bind]

/-- The match of length 0 (R523). -/
theorem reads_lzhSymbol_len0 {u : LzhUnit} (hu : u.Has b) (hb : b.ok) (h0 : b.len.getD 0 0 ≠ 0) :
    Reads true bs .trnLzhEnd (fun k => lzhSymbol bs u k) (false :: codewordBits b.len 0)
      fun k => .error (.atBit k .decLzhLen0) := by
  obtain ⟨-, ⟨-, -, hlen⟩, -⟩ := hb
  have hsym := decodes_lzhDecode (bs := bs) (n := 64) hlen h0
  rw [← hu.len] at hsym
  have hmatch : Reads true bs .trnLzhEnd (fun k => lzhMatch bs u k) (codewordBits b.len 0) fun k => .error (.atBit k .decLzhLen0) :=
    (hsym.then (lzhMatchRest bs u)).congr_out fun k => (if_pos rfl).symm
  exact (decodes_lzhFlag false).bind (next := lzhFlagged bs u) (hmatch.then fun q => .ok (lzhCopy q.1 q.2))

theorem failsWith_cptLzh {s : State} {c : Bool} {all : List LzhBlock} {e : Err} (h : s.inputIs bs) (hfit : s.forkFits)
    (hblocks : HoldsLzhBlocks bs 0 all)
    (hn : (rle81 false 0 ((all.flatMap LzhBlock.toks).foldl lzhAppend [])).length < s.latch.outLen.toNat)
    (hend : ∀ w, LzhGives bs all w [] → ∃ q, lzhNext bs w = .error q ∧ q.err = e) : FailsWith (.cptLzh c) s e := by
  obtain ⟨q, hq, he⟩ := (streams_rle81Step (streams_lzhNext all)).forkLoop_beyond_err (rle81At_blocks hblocks)
    (fun v hv => rle81Step_at_end_err (streams_lzhNext all) hend hv) hn
  refine endJob_failedWith ⟨q, ?_, he⟩
  rw [cptLzhJob_of_input h hfit, hq, except_error_bind]

end

theorem ok_of_mem_blocks {bs : List Byte} {p : Nat} {blocks : List LzhBlock} {b : LzhBlock} (h : HoldsLzhBlocks bs p blocks)
    (hb : b ∈ blocks) : b.ok := by
  induction blocks generalizing p with
  | nil => simp at hb
  | cons b' blocks ih =>
    obtain ⟨hok, -, -, -, hrest⟩ := h
    rcases List.mem_cons.1 hb with rfl | hb
    · exact hok
    · exact ih hrest hb

/-- Settles O52: behind the blocks' last byte the stream goes on with a next block's tables or with a symbol of the last block. -/
theorem cptLzhErrors : Obligations.CptLzhErrors := by
  unfold Obligations.CptLzhErrors
  intro s c bs h hfit
  refine ⟨fun hzero => ?_, ?_⟩
  · have hlen : s.latch.outLen.toNat = 0 := by rw [hzero]; rfl
    exact exec_cptLzh_of_loop h hfit (Nat.zero_le _) (by rw [hlen]; rfl)
  intro blocks hblocks out hn
  refine ⟨?_, ?_⟩
  · intro hall p
    have henters : ∀ w, LzhGives bs blocks w [] → ∃ u, lzhNext bs w = lzhEnter bs u (8 * p) := fun w hw => hw.goesOn.1 hall
    refine ⟨fun lit len off hlit hlen hoff hp => ?_, fun before n hbefore => ⟨fun count rest hdrop hcount => ?_,
      fun lens rest heven hle hmax hk hdrop => ?_⟩⟩
    · have hloop := (streams_rle81Step (streams_lzhNext blocks)).forkLoop_beyond (rle81At_blocks hblocks)
        (fun v hv => rle81Step_at_end (streams_lzhNext blocks) (fun w hw => by
          obtain ⟨u, hu⟩ := henters w hw
          rw [hu, lzhEnter_short u hlit hlen hoff hp]) hv) hn
      rw [exec_cptLzh, cptLzhJob_of_input h hfit, hloop, except_error_bind]
      refine ⟨_, rfl, failedWith_raiseError _ s, ?_⟩
      simp [raiseError, Raise.after, out]
    · refine failsWith_cptLzh h hfit hblocks hn fun w hw => ?_
      obtain ⟨u, hu⟩ := henters w hw
      rw [hu]
      exact lzhEnter_table_error u hbefore (readsBytes_lzhReadTable_count hcount) (w := [count]) (rest := rest)
        (by rw [hdrop]; simp)
    · refine failsWith_cptLzh h hfit hblocks hn fun w hw => ?_
      obtain ⟨u, hu⟩ := henters w hw
      rw [hu]
      have hn512 : n < 512 := by
        rcases hbefore with ⟨-, rfl⟩ | ⟨_, -, -, rfl⟩ | ⟨_, _, -, -, -, rfl⟩ <;> omega
      have hpad : ¬ KraftOk 15 (padded n lens) := fun hpad => hk (kraftOk_padded.1 hpad)
      have hread := readsBytes_lzhReadTable (bs := bs) heven hle hn512 hmax
      rw [(buildCanonical_eq (m := 15) (by simp [padded, or_imp, forall_and]; exact hmax)).2 hpad] at hread
      exact lzhEnter_table_error u hbefore hread hdrop
  · intro b hlast hlow q
    have hok := ok_of_mem_blocks hblocks (List.mem_of_getLast? hlast)
    refine ⟨fun h0 hk => ?_, fun tok part htok hp hne hk hend => ?_⟩
    · refine failsWith_cptLzh h hfit hblocks hn fun w hw => ?_
      obtain ⟨u, hu, hnext⟩ := hw.goesOn.2 b hlast hlow
      exact ⟨_, hnext.trans ((reads_lzhSymbol_len0 hu hok h0).of_holds hk), rfl⟩
    · refine failsWith_cptLzh h hfit hblocks hn fun w hw => ?_
      obtain ⟨u, hu, hnext⟩ := hw.goesOn.2 b hlast hlow
      obtain ⟨r, hr, he⟩ := (reads_lzhSymbol (bs := bs) hu hok htok).2 q part hp hne ⟨hk, hend⟩
      exact ⟨r, hnext.trans hr, he⟩

end Sys2Proof.Machine
end
section
/-! PROOFS. SIT_LZW's dictionary against a list of strings (45_stuffit_rle90_lzw.md R600-R608): the entries written, the widths, and
one code. -/

namespace Sys2Proof.Machine
open Reference (lzwWidth lzwLookup lzwDecode lzwSkip)

/-! ### The dictionary -/

/-- The entries from 257 on hold these strings: each is an earlier one and one more byte, under its first byte. -/
def EntriesHold (u : LzwUnit) (dict : List (List Byte)) : Prop :=
  ∀ i, ∀ hi : i < dict.length, ∃ p str f chainlen, lzwLookup (dict.take i) p = some str ∧ dict[i] = str ++ [f] ∧
    sparseGet u.dict (257 + i) = some { parent := some p, suffix := f, head := str.headD 0, chainlen }

theorem lzwLookup_byte {dict : List (List Byte)} {c : Nat} (h : c < 256) : lzwLookup dict c = some [BitVec.ofNat 8 c] := by
  rw [lzwLookup, if_pos h]

theorem lzwLookup_entry (dict : List (List Byte)) (i : Nat) : lzwLookup dict (257 + i) = dict[i]? := by
  rw [lzwLookup, if_neg (by omega), if_neg (by omega), Nat.add_sub_cancel_left]

/-- A code with a meaning is a byte or an entry. -/
theorem lzwLookup_cases {dict : List (List Byte)} {c : Nat} {str : List Byte} (h : lzwLookup dict c = some str) :
    (c < 256 ∧ str = [BitVec.ofNat 8 c]) ∨ ∃ i, ∃ hi : i < dict.length, c = 257 + i ∧ str = dict[i] := by
  unfold lzwLookup at h
  split_ifs at h with hbyte hclear
  · exact .inl ⟨hbyte, (Option.some.inj h).symm⟩
  · obtain ⟨hi, hstr⟩ := List.getElem?_eq_some_iff.1 h
    exact .inr ⟨c - 257, hi, by omega, hstr.symm⟩

theorem lzwLookup_append {dict more : List (List Byte)} {c : Nat} {str : List Byte} (h : lzwLookup dict c = some str) :
    lzwLookup (dict ++ more) c = some str := by
  rcases lzwLookup_cases h with ⟨hbyte, rfl⟩ | ⟨i, hi, rfl, rfl⟩
  · exact lzwLookup_byte hbyte
  · rw [lzwLookup_entry, List.getElem?_append_left hi, List.getElem?_eq_getElem hi]

theorem lzwEntry_byte {u : LzwUnit} {c : Nat} (h : c < 256) :
    lzwEntry u c = { parent := none, suffix := BitVec.ofNat 8 c, head := BitVec.ofNat 8 c, chainlen := 1 } := by
  rw [lzwEntry, if_pos h]

theorem lzwEntry_of_get {u : LzwUnit} {i : Nat} {e : LzwEntry} (h : sparseGet u.dict (257 + i) = some e) :
    lzwEntry u (257 + i) = e := by
  rw [lzwEntry, if_neg (by omega), h]
  rfl

section
variable {u : LzwUnit} {dict : List (List Byte)} (hdict : EntriesHold u dict)
include hdict

/-- The walk of R605 gives an entry's string, which is no longer than the dictionary up to it. -/
theorem EntriesHold.chain (i : Nat) (hi : i < dict.length) :
    dict[i].length ≤ i + 2 ∧ dict[i] ≠ [] ∧
      ∀ n acc, dict[i].length ≤ n → lzwChain u n (some (257 + i)) acc = dict[i] ++ acc := by
  induction i using Nat.strongRecOn with
  | ind i ih =>
    obtain ⟨p, str, f, chainlen, hstr, hget, hentry⟩ := hdict i hi
    have hentry := lzwEntry_of_get hentry
    have hparent : str.length ≤ i + 1 ∧ str ≠ [] ∧ ∀ n acc, str.length ≤ n → lzwChain u n (some p) acc = str ++ acc := by
      rcases lzwLookup_cases hstr with ⟨hbyte, rfl⟩ | ⟨j, hj, rfl, rfl⟩
      · refine ⟨by simp, by simp, fun n acc hn => ?_⟩
        obtain ⟨n, rfl⟩ := Nat.exists_eq_add_of_le' hn
        rw [List.length_singleton, lzwChain, lzwEntry_byte hbyte]
        cases n <;> rfl
      · rw [List.length_take] at hj
        obtain ⟨hlen, hne, hchain⟩ := ih j (by omega) (by omega)
        simp only [List.getElem_take]
        exact ⟨by omega, hne, hchain⟩
    obtain ⟨hlen, hne, hchain⟩ := hparent
    rw [hget]
    refine ⟨by rw [List.length_append, List.length_singleton]; omega, by simp, fun n acc hn => ?_⟩
    rw [List.length_append, List.length_singleton] at hn
    obtain ⟨n, rfl⟩ : ∃ m, n = m + 1 := ⟨n - 1, by omega⟩
    rw [lzwChain, hentry]
    simp only
    rw [hchain n _ (by omega), List.append_assoc]
    rfl

/-- String(c) (R605) is what the code stands for. -/
theorem EntriesHold.string {c : Nat} {str : List Byte} (hfull : dict.length ≤ 16127) (h : lzwLookup dict c = some str) :
    lzwString u c = str ∧ (lzwEntry u c).head = str.headD 0 ∧ str ≠ [] := by
  rcases lzwLookup_cases h with ⟨hbyte, rfl⟩ | ⟨i, hi, rfl, rfl⟩
  · rw [lzwString, lzwDictCap, lzwChain, lzwEntry_byte hbyte]
    exact ⟨rfl, rfl, by simp⟩
  · obtain ⟨hlen, hne, hchain⟩ := hdict.chain i hi
    obtain ⟨p, str, f, chainlen, hstr, hget, hentry⟩ := hdict i hi
    refine ⟨?_, ?_, hne⟩
    · rw [lzwString, hchain lzwDictCap [] (by rw [lzwDictCap]; omega), List.append_nil]
    · rw [lzwEntry_of_get hentry, hget]
      have hstr : str ≠ [] := by
        rcases lzwLookup_cases hstr with ⟨-, rfl⟩ | ⟨j, hj, -, rfl⟩
        · simp
        · rw [List.length_take] at hj
          rw [List.getElem_take]
          exact (hdict.chain j (by omega)).2.1
      obtain ⟨a, rest, rfl⟩ := List.exists_cons_of_ne_nil hstr
      rfl

/-- AddEntry (R607) while the dictionary has room. -/
theorem EntriesHold.add {p : Nat} {str : List Byte} {f : Byte} (hfree : u.nextFree = 257 + dict.length)
    (hroom : dict.length < 16127) (hp : lzwLookup dict p = some str) :
    EntriesHold (lzwAddEntry u p f) (dict ++ [str ++ [f]]) := by
  have hadd : lzwAddEntry u p f = { u with
      dict := sparseSet u.dict u.nextFree
        { parent := some p, suffix := f, head := (lzwEntry u p).head, chainlen := (lzwEntry u p).chainlen + 1 }
      nextFree := u.nextFree + 1 } := by
    rw [lzwAddEntry, if_pos (by rw [hfree, lzwDictCap]; omega)]
  intro i hi
  rw [List.length_append, List.length_singleton] at hi
  rw [hadd]
  rcases Nat.lt_succ_iff_lt_or_eq.1 hi with hlt | rfl
  · obtain ⟨q, s, g, chainlen, hs, hget, hentry⟩ := hdict i hlt
    refine ⟨q, s, g, chainlen, by rwa [List.take_append_of_le_length hlt.le], by rw [List.getElem_append_left hlt]; exact hget, ?_⟩
    rw [sparseGet_sparseSet, if_neg (by omega)]
    exact hentry
  · refine ⟨p, str, f, (lzwEntry u p).chainlen + 1, by rwa [List.take_left], by simp, ?_⟩
    rw [sparseGet_sparseSet, if_pos hfree, (hdict.string (by omega) hp).2.1]

end

/-! ### The widths (R601) -/

theorem lzwWidth_le (n : Nat) : 9 ≤ lzwWidth n ∧ lzwWidth n ≤ 14 := by
  unfold lzwWidth
  split_ifs <;> omega

/-- Widen's test, by the number of codes read since the reset. -/
theorem lzwWidth_widen (n : Nat) :
    lzwWidth n = if 2 ^ lzwWidth (n - 1) ≤ 257 + min (n - 1) 16127 ∧ lzwWidth (n - 1) < 14 then lzwWidth (n - 1) + 1
      else lzwWidth (n - 1) := by
  unfold lzwWidth
  split_ifs <;> omega

/-! ### One code (R604-R608) -/

/-- The previous code and its string; none where no code has been read since the reset. -/
inductive LzwPrevious (dict : List (List Byte)) : Nat → Option Nat → Option (List Byte) → Prop
  | first : LzwPrevious dict 0 none none
  | later {n p : Nat} {str : List Byte} (h : lzwLookup dict p = some str) : LzwPrevious dict (n + 1) (some p) (some str)

/-- The unit with `n` codes read since the reset, over the strings that they have entered. -/
structure LzwRun (u : LzwUnit) (n : Nat) (dict : List (List Byte)) (prev : Option (List Byte)) : Prop where
  bits  : u.codeBits = lzwWidth (n - 1)
  free  : u.nextFree = 257 + dict.length
  size  : dict.length = min (n - 1) 16127
  count : u.blockCount = n % 8
  holds : EntriesHold u dict
  prev  : LzwPrevious dict n u.prev prev

section
variable {u : LzwUnit} {n : Nat} {dict : List (List Byte)} {prev : Option (List Byte)}

/-- The unit once it has read one more code, widened for it. -/
def lzwRead (u : LzwUnit) : LzwUnit := { lzwWiden u with blockCount := ((lzwWiden u).blockCount + 1) % 8 }

theorem lzwWiden_eq (u : LzwUnit) : lzwWiden u = { u with codeBits := (lzwWiden u).codeBits } := by
  unfold lzwWiden
  split <;> rfl

theorem LzwRun.width (h : LzwRun u n dict prev) : (lzwWiden u).codeBits = lzwWidth n := by
  rw [lzwWidth_widen, ← h.size, ← h.free, ← h.bits, lzwWiden]
  split <;> rfl

theorem LzwRun.read (h : LzwRun u n dict prev) :
    lzwRead u = { u with codeBits := lzwWidth n, blockCount := (n + 1) % 8 } := by
  rw [lzwRead, lzwWiden_eq, h.width, h.count]
  simp

theorem lzwDecode_cons {c : Nat} {rest : List Nat} {out : List Byte} (h : lzwDecode dict prev (c :: rest) = some out) :
    (prev = none ∧ c < 256 ∧ ∃ tail, lzwDecode dict (some [BitVec.ofNat 8 c]) rest = some tail ∧
        out = [BitVec.ofNat 8 c] ++ tail) ∨
      ∃ p str tail, prev = some p ∧
        (if c = 257 + dict.length ∧ dict.length < 16127 then some (p ++ [p.headD 0]) else lzwLookup dict c) = some str ∧
        lzwDecode (if dict.length < 16127 then dict ++ [p ++ [str.headD 0]] else dict) (some str) rest = some tail ∧
        out = str ++ tail := by
  cases prev with
  | none =>
    rw [lzwDecode] at h
    split_ifs at h with hbyte
    obtain ⟨tail, htail, rfl⟩ := Option.map_eq_some_iff.1 h
    exact .inl ⟨rfl, hbyte, tail, htail, rfl⟩
  | some p =>
    rw [lzwDecode] at h
    split at h
    next => exact absurd h (by simp)
    next str hstr =>
      obtain ⟨tail, htail, rfl⟩ := Option.map_eq_some_iff.1 h
      exact .inr ⟨p, str, tail, rfl, hstr, htail, rfl⟩

/-- The unit behind a code that stands for `str`. -/
def lzwNext (u : LzwUnit) (c : Nat) (str : List Byte) : LzwUnit :=
  { lzwLearn (lzwRead u) str with prev := some c, stage := str, stageIdx := 1 }

/-- The entry that a code adds. -/
theorem LzwRun.learn {p : Nat} {pstr : List Byte} (h : LzwRun u n dict prev) (hp : u.prev = some p)
    (hlookup : lzwLookup dict p = some pstr) (hn : n ≠ 0) (str : List Byte) (c : Nat) :
    let dict' := if dict.length < 16127 then dict ++ [pstr ++ [str.headD 0]] else dict
    (lzwNext u c str).codeBits = lzwWidth n ∧ (lzwNext u c str).nextFree = 257 + dict'.length ∧
      (lzwNext u c str).blockCount = (n + 1) % 8 ∧ dict'.length = min n 16127 ∧ EntriesHold (lzwNext u c str) dict' := by
  intro dict'
  have hsize := h.size
  have hlearn : lzwLearn (lzwRead u) str = lzwAddEntry (lzwRead u) p (str.headD 0) := by
    rw [lzwLearn, h.read]
    simp only [hp]
  by_cases hroom : dict.length < 16127
  · have hdict' : dict' = dict ++ [pstr ++ [str.headD 0]] := if_pos hroom
    have hfree : (lzwRead u).nextFree = 257 + dict.length := by
      rw [h.read]
      exact h.free
    have hread : EntriesHold (lzwRead u) dict := by
      rw [h.read]
      exact h.holds
    have hentries := hread.add hfree hroom hlookup (f := str.headD 0)
    rw [hdict', List.length_append, List.length_singleton]
    refine ⟨?_, ?_, ?_, by omega, ?_⟩
    · rw [lzwNext, hlearn, lzwAddEntry, if_pos (by rw [hfree, lzwDictCap]; omega), h.read]
    · rw [lzwNext, hlearn, lzwAddEntry, if_pos (by rw [hfree, lzwDictCap]; omega)]
      show (lzwRead u).nextFree + 1 = _
      rw [hfree]
      rfl
    · rw [lzwNext, hlearn, lzwAddEntry, if_pos (by rw [hfree, lzwDictCap]; omega), h.read]
    · rw [← hlearn] at hentries
      exact hentries
  · have hdict' : dict' = dict := if_neg hroom
    have hfree : (lzwRead u).nextFree = 257 + dict.length := by
      rw [h.read]
      exact h.free
    have hfull : lzwLearn (lzwRead u) str = lzwRead u := by
      rw [hlearn, lzwAddEntry, if_neg (by rw [hfree, lzwDictCap]; omega)]
    rw [hdict', lzwNext, hfull, h.read]
    exact ⟨rfl, h.free, rfl, by omega, h.holds⟩

/-- The string of a code behind another one (R605, R606). -/
theorem LzwRun.expand {c p : Nat} {pstr str : List Byte} (h : LzwRun u n dict prev) (hp : u.prev = some p)
    (hlookup : lzwLookup dict p = some pstr) (hc : c < 2 ^ lzwWidth n) (hclear : c ≠ 256)
    (hstr : (if c = 257 + dict.length ∧ dict.length < 16127 then some (pstr ++ [pstr.headD 0]) else lzwLookup dict c) = some str) :
    lzwExpand (lzwRead u) c = .ok str ∧ str ≠ [] ∧
      lzwLookup (if dict.length < 16127 then dict ++ [pstr ++ [str.headD 0]] else dict) c = some str := by
  have hfull : dict.length ≤ 16127 := h.size ▸ min_le_right _ _
  have hread : EntriesHold (lzwRead u) dict := by
    rw [h.read]
    exact h.holds
  have hexpand : lzwExpand (lzwRead u) c =
      if c < 257 + dict.length then .ok (lzwString (lzwRead u) c)
      else if c = 257 + dict.length then .ok (lzwString (lzwRead u) p ++ [(lzwEntry (lzwRead u) p).head])
      else .error .decLzwCode := by
    rw [← h.free, lzwExpand]
    simp only [h.read, hp]
  obtain ⟨hpstring, hphead, hpne⟩ := hread.string hfull hlookup
  by_cases hnew : c = 257 + dict.length ∧ dict.length < 16127
  · obtain ⟨rfl, hroom⟩ := hnew
    rw [if_pos ⟨rfl, hroom⟩] at hstr
    obtain rfl := Option.some.inj hstr
    rw [hexpand, if_neg (by omega), if_pos rfl, hpstring, hphead, if_pos hroom]
    refine ⟨rfl, by simp, ?_⟩
    obtain ⟨a, tail, rfl⟩ := List.exists_cons_of_ne_nil hpne
    rw [lzwLookup_entry]
    simp
  · rw [if_neg hnew] at hstr
    obtain ⟨hstring, -, hne⟩ := hread.string hfull hstr
    have hlt : c < 257 + dict.length := by
      rcases lzwLookup_cases hstr with ⟨hbyte, -⟩ | ⟨i, hi, rfl, -⟩ <;> omega
    rw [hexpand, if_pos hlt, hstring]
    refine ⟨rfl, hne, ?_⟩
    split
    · exact lzwLookup_append hstr
    · exact hstr

/-- A code with a meaning: the unit gives its string and goes on over the dictionary with the new entry. -/
theorem LzwRun.code {c : Nat} {rest : List Nat} {out : List Byte} (h : LzwRun u n dict prev) (hc : c < 2 ^ lzwWidth n)
    (hclear : c ≠ 256) (hdecode : lzwDecode dict prev (c :: rest) = some out) :
    ∃ str tail dict', lzwExpand (lzwRead u) c = .ok str ∧ str ≠ [] ∧ out = str ++ tail ∧
      lzwDecode dict' (some str) rest = some tail ∧ LzwRun (lzwNext u c str) (n + 1) dict' (some str) := by
  have hprev := h.prev
  rcases lzwDecode_cons hdecode with ⟨rfl, hbyte, tail, htail, rfl⟩ | ⟨pstr, str, tail, rfl, hstr, htail, rfl⟩
  · generalize hup : u.prev = up at hprev
    cases hprev
    have hread := h.read
    have hempty : dict.length = 0 := h.size
    have hlearn : lzwLearn (lzwRead u) [BitVec.ofNat 8 c] = lzwRead u := by
      rw [lzwLearn, hread]
      simp only [hup]
    refine ⟨_, tail, dict, ?_, by simp, rfl, htail, ?_⟩
    · rw [lzwExpand, hread]
      simp only [hup]
      exact if_neg (by omega)
    · rw [lzwNext, hlearn, hread]
      exact {
        bits := rfl
        free := h.free
        size := by rw [hempty]; rfl
        count := rfl
        holds := h.holds
        prev := .later (lzwLookup_byte hbyte) }
  · generalize hup : u.prev = up at hprev
    cases hprev with
    | later hlookup =>
      obtain ⟨hexpand, hne, hmeaning⟩ := h.expand hup hlookup hc hclear hstr
      obtain ⟨hbits, hfree, hcount, hsize, hholds⟩ := h.learn hup hlookup (by omega) str c
      exact ⟨str, tail, _, hexpand, hne, rfl, htail, {
        bits := hbits
        free := hfree
        size := hsize
        count := hcount
        holds := hholds
        prev := .later hmeaning }⟩

/-- A code beyond the next free entry (R608). -/
theorem LzwRun.bad {c : Nat} (h : LzwRun u n dict prev) (hc : c < 2 ^ lzwWidth n) (hbad : 256 + n < c) :
    lzwExpand (lzwRead u) c = .error .decLzwCode := by
  have hwidth : 2 ^ lzwWidth n ≤ 2 ^ 14 := Nat.pow_le_pow_right (by omega) (lzwWidth_le n).2
  have hprev := h.prev
  have hfree := h.free
  have hsize := h.size
  generalize hup : u.prev = up at hprev
  rw [lzwExpand, h.read]
  cases hprev with
  | first =>
    simp only [hup]
    exact if_pos (by omega)
  | later hlookup =>
    simp only [hup]
    rw [if_neg (by omega), if_neg (by omega)]

/-- ClearCode (R603) leaves a unit that has read no code. -/
theorem lzwRun_reset (u : LzwUnit) : LzwRun (lzwReset u) 0 [] none where
  bits := rfl
  free := rfl
  size := rfl
  count := rfl
  holds := fun i hi => absurd hi (by simp)
  prev := .first

theorem lzwRun_start : LzwRun {} 0 [] none := lzwRun_reset {}

theorem LzwRun.clearSkip (h : LzwRun u n dict prev) : lzwClearSkip (lzwRead u) = lzwSkip n := by
  rw [lzwClearSkip, h.read, lzwSkip]

/-- Staging moves nothing else. -/
theorem LzwRun.stage (h : LzwRun u n dict prev) (stage : List Byte) (i : Nat) :
    LzwRun { u with stage, stageIdx := i } n dict prev :=
  { h with }

end

end Sys2Proof.Machine
end
section
/-! PROOFS. SIT_LZW over runs of codes with clears between them (45_stuffit_rle90_lzw.md R600-R610; 90_conflicts.md C2). -/

namespace Sys2Proof.Machine
open Reference (bitsLsb lzwWidth lzwBits lzwDecode lzwSkip HoldsLzwRuns lzwEnd HoldsLsb)

section
variable {bs : List Byte}

/-! ### Codes in the stream -/

/-- The codes, of which the first is the `n`-th since the reset, fit their widths, and none is a clear. -/
def CodesFit (n : Nat) (codes : List Nat) : Prop := ∀ j < codes.length, codes.getD j 0 < 2 ^ lzwWidth (n + j) ∧ codes.getD j 0 ≠ 256

theorem codesFit_cons {n c : Nat} {codes : List Nat} (h : CodesFit n (c :: codes)) :
    (c < 2 ^ lzwWidth n ∧ c ≠ 256) ∧ CodesFit (n + 1) codes := by
  refine ⟨by simpa using h 0 (by simp), fun j hj => ?_⟩
  have hj := h (j + 1) (by simpa using hj)
  rwa [List.getD_cons_succ, ← Nat.add_assoc, Nat.add_right_comm] at hj

theorem lzwBits_append (n : Nat) (v w : List Nat) : lzwBits n (v ++ w) = lzwBits n v ++ lzwBits (n + v.length) w := by
  induction v generalizing n with
  | nil => rfl
  | cons c v ih => rw [List.cons_append, lzwBits, ih, lzwBits, List.append_assoc, List.length_cons, Nat.add_right_comm, Nat.add_assoc]

/-- The rest of a run stands at bit cursor `k`, `n` of its codes read, and then the runs `next`. -/
def RunsHold (bs : List Byte) (n k : Nat) (codes : List Nat) : List (List Nat) → Prop
  | [] => codes = [] ∨ Holds false bs k (lzwBits n codes)
  | next :: rest =>
    Holds false bs k (lzwBits n (codes ++ [256])) ∧
      HoldsLzwRuns bs (k + (lzwBits n (codes ++ [256])).length + lzwSkip (n + codes.length)) (next :: rest)

/-- The bit behind the rest of a run and the runs `next`. -/
def runsEnd (n k : Nat) (codes : List Nat) : List (List Nat) → Nat
  | [] => k + (lzwBits n codes).length
  | next :: rest => lzwEnd (k + (lzwBits n (codes ++ [256])).length + lzwSkip (n + codes.length)) (next :: rest)

theorem runsHold_zero {k : Nat} {codes : List Nat} {next : List (List Nat)} :
    RunsHold bs 0 k codes next ↔ HoldsLzwRuns bs k (codes :: next) := by
  cases next with
  | nil => rfl
  | cons run next => rw [RunsHold, HoldsLzwRuns, Nat.zero_add]; rfl

theorem runsEnd_zero (k : Nat) (codes : List Nat) (next : List (List Nat)) : runsEnd 0 k codes next = lzwEnd k (codes :: next) := by
  cases next with
  | nil => rfl
  | cons run next => rw [runsEnd, lzwEnd, Nat.zero_add]

/-- The first code of the rest of a run. -/
theorem RunsHold.cons {n k c : Nat} {codes : List Nat} {next : List (List Nat)} (h : RunsHold bs n k (c :: codes) next) :
    Holds false bs k (bitsLsb (lzwWidth n) c) ∧ RunsHold bs (n + 1) (k + lzwWidth n) codes next ∧
      runsEnd n k (c :: codes) next = runsEnd (n + 1) (k + lzwWidth n) codes next := by
  cases next with
  | nil =>
    have hbits := h.resolve_left (by simp)
    rw [lzwBits, holds_append_iff, bitsLsb_length] at hbits
    refine ⟨hbits.1, .inr hbits.2, ?_⟩
    rw [runsEnd, runsEnd, lzwBits, List.length_append, bitsLsb_length, Nat.add_assoc]
  | cons run next =>
    have hn : n + (codes.length + 1) = n + 1 + codes.length := by omega
    rw [RunsHold, List.cons_append, lzwBits, holds_append_iff, bitsLsb_length, List.length_append, bitsLsb_length, ← Nat.add_assoc,
      List.length_cons, hn] at h
    obtain ⟨⟨hcode, hcodes⟩, hnext⟩ := h
    refine ⟨hcode, ⟨hcodes, hnext⟩, ?_⟩
    rw [runsEnd, runsEnd, List.cons_append, lzwBits, List.length_append, bitsLsb_length, ← Nat.add_assoc, List.length_cons, hn]

/-- The clear at the end of a run. -/
theorem RunsHold.clear {n k : Nat} {run : List Nat} {next : List (List Nat)} (h : RunsHold bs n k [] (run :: next)) :
    Holds false bs k (bitsLsb (lzwWidth n) 256) ∧ RunsHold bs 0 (k + lzwWidth n + lzwSkip n) run next ∧
      runsEnd n k [] (run :: next) = runsEnd 0 (k + lzwWidth n + lzwSkip n) run next := by
  rw [RunsHold, List.nil_append, lzwBits, lzwBits, List.append_nil, bitsLsb_length, List.length_nil, Nat.add_zero] at h
  refine ⟨h.1, runsHold_zero.2 h.2, ?_⟩
  rw [runsEnd_zero, runsEnd, List.nil_append, lzwBits, lzwBits, List.append_nil, bitsLsb_length, List.length_nil, Nat.add_zero]

/-! ### LzwStep (R600) -/

/-- What a turn of the step does with a code that is read up to bit cursor `k`. -/
def lzwTurn (bs : List Byte) (turns : Nat) (u : LzwUnit) (c k : Nat) : Except Raise (Byte × LzwUnit × Nat) :=
  if c = 256 then lzwNextCode bs turns (lzwReset u) (skipBits k (lzwClearSkip u))
  else (lzwExpand u c).mapError (.atBit k) >>= fun str =>
    .ok (str.headD 0, { lzwLearn u str with prev := some c, stage := str, stageIdx := 1 }, k)

theorem lzwNextCode_of_code {u : LzwUnit} {n k c turns : Nat} {dict : List (List Byte)} {prev : Option (List Byte)}
    (hu : LzwRun u n dict prev) (hc : c < 2 ^ lzwWidth n) (hk : Holds false bs k (bitsLsb (lzwWidth n) c)) :
    lzwNextCode bs (turns + 1) u k = lzwTurn bs turns (lzwRead u) c (k + lzwWidth n) := by
  have hread : readBitsLE bs k (lzwWiden u).codeBits = some (c, k + lzwWidth n) := by
    rw [hu.width]
    exact readBits_of_holds (msb := false) hc hk
  have hexpand : lzwExpand { lzwWiden u with blockCount := ((lzwWiden u).blockCount + 1) % 8 } c = lzwExpand (lzwRead u) c := rfl
  simp only [lzwNextCode, hread, lzwTurn, hexpand]
  cases lzwExpand (lzwRead u) c <;> rfl

/-- An input that ends before the next code does (R610). -/
theorem lzwNextCode_beyond {u : LzwUnit} {n k turns : Nat} {dict : List (List Byte)} {prev : Option (List Byte)}
    (hu : LzwRun u n dict prev) (h : 8 * bs.length < k + lzwWidth n) :
    lzwNextCode bs turns u k = .error (.atBit k .decUnderflow) := by
  cases turns with
  | zero => rfl
  | succ turns =>
    have hread : readBitsLE bs k (lzwWiden u).codeBits = none := by
      rw [hu.width]
      exact readBits_beyond (msb := false) (by have := lzwWidth_le n; omega) h
    simp only [lzwNextCode, hread]

/-- Where the runs end: the bit behind them, and the length of the last. -/
structure LzwStream where
  stop : Nat
  last : Nat

/-- The unit stands inside a run, with runs to come, that give these bytes. -/
structure LzwAt (bs : List Byte) (z : LzwStream) (u : LzwUnit) (k : Nat) (out : List Byte) (n : Nat) (dict : List (List Byte))
    (prev : Option (List Byte)) (codes : List Nat) (next : List (List Nat)) : Prop where
  run   : LzwRun u n dict prev
  fit   : CodesFit n codes ∧ ∀ run ∈ next, CodesFit 0 run
  holds : RunsHold bs n k codes next
  gives : ∃ tail outs, lzwDecode dict prev codes = some tail ∧ next.mapM (lzwDecode [] none) = some outs ∧ out = tail ++ outs.flatten
  stop  : runsEnd n k codes next = z.stop
  last  : (next.getLast?.elim (n + codes.length) List.length) = z.last

/-- The staged string's rest and then what the runs give. -/
def LzwGives (bs : List Byte) (z : LzwStream) (w : LzwUnit × Nat) (rest : List Byte) : Prop :=
  ∃ out n dict prev codes next, rest = w.1.stage.drop w.1.stageIdx ++ out ∧ LzwAt bs z w.1 w.2 out n dict prev codes next

theorem LzwAt.clear {z : LzwStream} {u : LzwUnit} {k n : Nat} {out : List Byte} {dict : List (List Byte)}
    {prev : Option (List Byte)} {run : List Nat} {next : List (List Nat)} (h : LzwAt bs z u k out n dict prev [] (run :: next)) :
    LzwAt bs z (lzwReset (lzwRead u)) (k + lzwWidth n + lzwSkip n) out 0 [] none run next ∧
      k + lzwWidth n ≤ 8 * bs.length ∧
      ∀ turns, lzwNextCode bs (turns + 1) u k = lzwNextCode bs turns (lzwReset (lzwRead u)) (k + lzwWidth n + lzwSkip n) := by
  obtain ⟨hclear, hnext, hend⟩ := h.holds.clear
  obtain ⟨tail, outs, htail, houts, hout⟩ := h.gives
  obtain rfl : [] = tail := by simpa [lzwDecode] using htail
  simp only [List.mapM_cons, Option.bind_eq_bind, Option.bind_eq_some_iff, Option.pure_def, Option.some.injEq] at houts
  obtain ⟨o, ho, os, hos, rfl⟩ := houts
  obtain ⟨hfit, hfits⟩ := List.forall_mem_cons.1 h.fit.2
  have hwidth := (lzwWidth_le n).1
  have h256 : 256 < 2 ^ lzwWidth n :=
    lt_of_lt_of_le (by decide : 256 < 2 ^ 9) (Nat.pow_le_pow_right (by omega) hwidth)
  refine ⟨?_, by simpa using hclear.le, fun turns => ?_⟩
  · exact {
      run := lzwRun_reset _
      fit := ⟨hfit, hfits⟩
      holds := hnext
      gives := ⟨o, os, ho, hos, hout⟩
      stop := hend.symm.trans h.stop
      last := by
        rw [← h.last]
        cases hlast : next.getLast? with
        | none =>
          obtain rfl := List.getLast?_eq_none_iff.1 hlast
          simp
        | some l => simp [List.getLast?_cons, hlast] }
  · rw [lzwNextCode_of_code h.run h256 hclear, lzwTurn, if_pos rfl, h.run.clearSkip, skipBits]

theorem LzwAt.code {z : LzwStream} {u : LzwUnit} {k n c : Nat} {out : List Byte} {dict : List (List Byte)}
    {prev : Option (List Byte)} {codes : List Nat} {next : List (List Nat)} (h : LzwAt bs z u k out n dict prev (c :: codes) next) :
    ∃ b rest v, out = b :: rest ∧ LzwGives bs z v rest ∧ k < 8 * bs.length ∧
      ∀ turns, lzwNextCode bs (turns + 1) u k = .ok (b, v) := by
  obtain ⟨⟨hc, hclear⟩, hfit⟩ := codesFit_cons h.fit.1
  obtain ⟨hcode, hcodes, hend⟩ := h.holds.cons
  obtain ⟨tail, outs, htail, houts, rfl⟩ := h.gives
  obtain ⟨str, more, dict', hexpand, hne, rfl, hmore, hrun⟩ := h.run.code hc hclear htail
  obtain ⟨b, rest, rfl⟩ := List.exists_cons_of_ne_nil hne
  refine ⟨b, _, (lzwNext u c (b :: rest), k + lzwWidth n), by rw [List.cons_append, List.cons_append], ?_, ?_, fun turns => ?_⟩
  · refine ⟨more ++ outs.flatten, n + 1, dict', some (b :: rest), codes, next, List.append_assoc _ _ _, ?_⟩
    exact {
      run := hrun
      fit := ⟨hfit, h.fit.2⟩
      holds := hcodes
      gives := ⟨more, outs, hmore, houts, rfl⟩
      stop := hend.symm.trans h.stop
      last := by rw [← h.last, List.length_cons, Nat.add_right_comm, Nat.add_assoc] }
  · have hle := hcode.le
    have hwidth := (lzwWidth_le n).1
    rw [bitsLsb_length] at hle
    omega
  · rw [lzwNextCode_of_code h.run hc hcode, lzwTurn, if_neg hclear, hexpand]
    rfl

theorem LzwAt.out_eq_nil {z : LzwStream} {u : LzwUnit} {k n : Nat} {out : List Byte} {dict : List (List Byte)}
    {prev : Option (List Byte)} (h : LzwAt bs z u k out n dict prev [] []) : out = [] := by
  obtain ⟨tail, outs, htail, houts, rfl⟩ := h.gives
  obtain rfl : [] = tail := by simpa [lzwDecode] using htail
  obtain rfl : [] = outs := by simpa using houts
  rfl

/-- The next byte, whatever clears stand before its code. -/
theorem LzwAt.nextCode {z : LzwStream} {u : LzwUnit} {k n turns : Nat} {b : Byte} {rest : List Byte} {dict : List (List Byte)}
    {prev : Option (List Byte)} {codes : List Nat} {next : List (List Nat)}
    (h : LzwAt bs z u k (b :: rest) n dict prev codes next) (hturns : 8 * bs.length < k + 9 * turns) :
    ∃ v, lzwNextCode bs turns u k = .ok (b, v) ∧ LzwGives bs z v rest := by
  induction next generalizing u k n turns dict prev codes with
  | nil =>
    cases codes with
    | nil => exact absurd h.out_eq_nil (by simp)
    | cons c codes =>
      obtain ⟨b', rest', v, hout, hv, hk, hstep⟩ := h.code
      obtain ⟨rfl, rfl⟩ := List.cons.inj hout
      obtain ⟨turns, rfl⟩ : ∃ m, turns = m + 1 := ⟨turns - 1, by omega⟩
      exact ⟨v, hstep turns, hv⟩
  | cons run next ih =>
    cases codes with
    | nil =>
      obtain ⟨hnext, hk, hstep⟩ := h.clear
      have hwidth := (lzwWidth_le n).1
      obtain ⟨turns, rfl⟩ : ∃ m, turns = m + 1 := ⟨turns - 1, by omega⟩
      obtain ⟨v, hv, hrest⟩ := ih (turns := turns) hnext (by omega)
      exact ⟨v, (hstep turns).trans hv, hrest⟩
    | cons c codes =>
      obtain ⟨b', rest', v, hout, hv, hk, hstep⟩ := h.code
      obtain ⟨rfl, rfl⟩ := List.cons.inj hout
      obtain ⟨turns, rfl⟩ : ∃ m, turns = m + 1 := ⟨turns - 1, by omega⟩
      exact ⟨v, hstep turns, hv⟩

/-- Behind the last byte the step stands behind the last run's last code, once it has read the clears there. -/
theorem LzwAt.at_end {z : LzwStream} {u : LzwUnit} {k n turns : Nat} {dict : List (List Byte)} {prev : Option (List Byte)}
    {codes : List Nat} {next : List (List Nat)} (h : LzwAt bs z u k [] n dict prev codes next)
    (hturns : 8 * bs.length < k + 9 * turns) :
    ∃ v dict' prev' turns', lzwNextCode bs turns u k = lzwNextCode bs turns' v z.stop ∧ LzwRun v z.last dict' prev' ∧
      8 * bs.length < z.stop + 9 * turns' := by
  cases codes with
  | cons c codes =>
    obtain ⟨b', rest', v, hout, -⟩ := h.code
    exact absurd hout (by simp)
  | nil =>
    induction next generalizing u k n turns dict prev with
    | nil =>
      have hstop := h.stop
      have hlast := h.last
      simp only [runsEnd, Reference.lzwBits, List.length_nil, Nat.add_zero] at hstop
      simp only [List.getLast?_nil, Option.elim_none, List.length_nil, Nat.add_zero] at hlast
      subst hstop hlast
      exact ⟨u, dict, prev, turns, rfl, h.run, hturns⟩
    | cons run next ih =>
      obtain ⟨hnext, hk, hstep⟩ := h.clear
      have hwidth := (lzwWidth_le n).1
      obtain ⟨turns, rfl⟩ : ∃ m, turns = m + 1 := ⟨turns - 1, by omega⟩
      cases run with
      | cons c codes =>
        obtain ⟨b', rest', v, hout, -⟩ := hnext.code
        exact absurd hout (by simp)
      | nil =>
        rw [hstep turns]
        exact ih (by omega) hnext

theorem lzwStep_staged {u : LzwUnit} {k : Nat} {b : Byte} {rest : List Byte} (h : u.stage.drop u.stageIdx = b :: rest) :
    lzwStep bs (u, k) = .ok (b, { u with stageIdx := u.stageIdx + 1 }, k) ∧ u.stage.drop (u.stageIdx + 1) = rest := by
  have hget : u.stage[u.stageIdx]? = some b := by
    rw [← List.head?_drop, h]
    rfl
  refine ⟨by simp only [lzwStep, hget], ?_⟩
  rw [← List.drop_drop, h]
  rfl

theorem lzwStep_idle {u : LzwUnit} {k : Nat} (h : u.stage.drop u.stageIdx = []) :
    lzwStep bs (u, k) = lzwNextCode bs (bs.length + 1) u k := by
  have hget : u.stage[u.stageIdx]? = none := by
    rw [← List.head?_drop, h]
    rfl
  simp only [lzwStep, hget]

theorem streams_lzwStep (z : LzwStream) : Streams (lzwStep bs) (LzwGives bs z) := by
  rintro ⟨u, k⟩ b rest ⟨out, n, dict, prev, codes, next, hrest, h⟩
  cases hstage : u.stage.drop u.stageIdx with
  | nil =>
    dsimp only at hrest
    rw [hstage, List.nil_append] at hrest
    subst hrest
    obtain ⟨v, hv, hgives⟩ := h.nextCode (turns := bs.length + 1) (by dsimp only; omega)
    exact ⟨v, by rw [lzwStep_idle hstage]; exact hv, hgives⟩
  | cons c stage =>
    dsimp only at hrest
    rw [hstage, List.cons_append] at hrest
    obtain ⟨rfl, rfl⟩ := List.cons.inj hrest
    obtain ⟨hstep, hdrop⟩ := lzwStep_staged (bs := bs) (k := k) hstage
    refine ⟨_, hstep, out, n, dict, prev, codes, next, ?_, { h with run := h.run.stage _ _ }⟩
    rw [← hdrop]

/-- Behind the last byte the step reads the code behind the last run. -/
theorem LzwGives.at_end {z : LzwStream} {w : LzwUnit × Nat} (h : LzwGives bs z w []) :
    ∃ v dict prev turns, lzwStep bs w = lzwNextCode bs turns v z.stop ∧ LzwRun v z.last dict prev ∧
      8 * bs.length < z.stop + 9 * turns := by
  obtain ⟨u, k⟩ := w
  obtain ⟨out, n, dict, prev, codes, next, hrest, h⟩ := h
  obtain ⟨hstage, rfl⟩ := List.append_eq_nil_iff.1 hrest.symm
  rw [lzwStep_idle hstage]
  exact h.at_end (by dsimp only; omega)

/-! ### SIT_LZW -/

theorem sitLzwJob_of_input {s : State} (c : Bool) (h : s.inputIs bs) (hfit : s.forkFits) :
    sitLzwJob c s = forkLoop (lzwStep bs) s.latch.outLen.toNat ({}, 0) >>= fun r =>
      forkResult c s r.1 { s.units with lzw := r.2.1 } 0 r.2.2 := by
  rw [sitLzwJob, checkCommand_of_forkFits (by decide) (by decide) hfit, except_ok_bind, jobInput_of_inputIs h, jobOutLen]

/-- The job's start, before the first run. -/
theorem lzwGives_start {runs : List (List Nat)} {outs : List (List Byte)} (hne : runs ≠ [])
    (hfit : ∀ run ∈ runs, CodesFit 0 run) (hholds : HoldsLzwRuns bs 0 runs)
    (houts : runs.mapM (lzwDecode [] none) = some outs) :
    LzwGives bs { stop := lzwEnd 0 runs, last := runs.getLast?.elim 0 List.length } ({}, 0) outs.flatten := by
  obtain ⟨codes, next, rfl⟩ := List.exists_cons_of_ne_nil hne
  simp only [List.mapM_cons, Option.bind_eq_bind, Option.bind_eq_some_iff, Option.pure_def, Option.some.injEq] at houts
  obtain ⟨o, ho, os, hos, rfl⟩ := houts
  refine ⟨o ++ os.flatten, 0, [], none, codes, next, rfl, ?_⟩
  exact {
    run := lzwRun_start
    fit := List.forall_mem_cons.1 hfit
    holds := runsHold_zero.2 hholds
    gives := ⟨o, os, ho, hos, rfl⟩
    stop := runsEnd_zero 0 codes next
    last := by
      cases hlast : next.getLast? with
      | none =>
        obtain rfl := List.getLast?_eq_none_iff.1 hlast
        simp
      | some l => simp [List.getLast?_cons, hlast] }

/-- One code more behind the last run. -/
theorem holdsLzwRuns_concat {init : List (List Nat)} {codes : List Nat} {bad k : Nat}
    (h : HoldsLzwRuns bs k (init ++ [codes ++ [bad]])) :
    HoldsLzwRuns bs k (init ++ [codes]) ∧ Holds false bs (lzwEnd k (init ++ [codes])) (bitsLsb (lzwWidth codes.length) bad) := by
  induction init generalizing k with
  | nil =>
    have hbits : Holds false bs k (lzwBits 0 (codes ++ [bad])) := h.resolve_left (by simp)
    rw [lzwBits_append, holds_append_iff, Nat.zero_add, lzwBits, lzwBits, List.append_nil] at hbits
    exact ⟨.inr hbits.1, hbits.2⟩
  | cons run init ih =>
    cases init with
    | nil =>
      obtain ⟨hrun, hrest⟩ := h
      obtain ⟨hruns, hbad⟩ := ih hrest
      exact ⟨⟨hrun, hruns⟩, hbad⟩
    | cons next init =>
      obtain ⟨hrun, hrest⟩ := h
      obtain ⟨hruns, hbad⟩ := ih hrest
      exact ⟨⟨hrun, hruns⟩, hbad⟩

/-- A job whose runs give too few bytes ends as the step behind them does. -/
theorem failsWith_sitLzw {s : State} {c : Bool} {runs : List (List Nat)} {outs : List (List Byte)} {e : Err} (h : s.inputIs bs)
    (hfit : s.forkFits) (hne : runs ≠ []) (hfits : ∀ run ∈ runs, CodesFit 0 run) (hholds : HoldsLzwRuns bs 0 runs)
    (houts : runs.mapM (lzwDecode [] none) = some outs) (hn : outs.flatten.length < s.latch.outLen.toNat)
    (hend : ∀ v dict prev turns, LzwRun v (runs.getLast?.elim 0 List.length) dict prev →
      8 * bs.length < lzwEnd 0 runs + 9 * turns → ∃ q, lzwNextCode bs turns v (lzwEnd 0 runs) = .error q ∧ q.err = e) :
    FailsWith (.sitLzw c) s e := by
  obtain ⟨q, hq, he⟩ := (streams_lzwStep _).forkLoop_beyond_err (lzwGives_start hne hfits hholds houts) (fun w hw => by
    obtain ⟨v, dict, prev, turns, hstep, hrun, hturns⟩ := hw.at_end
    rw [hstep]
    exact hend v dict prev turns hrun hturns) hn
  refine endJob_failedWith ⟨q, ?_, he⟩
  rw [sitLzwJob_of_input c h hfit, hq, except_error_bind]

end

/-! ### The statements -/

theorem codesFit_zero {codes : List Nat} (h : ∀ j < codes.length, codes.getD j 0 < 2 ^ lzwWidth j ∧ codes.getD j 0 ≠ 256) :
    CodesFit 0 codes := fun j hj => by
  rw [Nat.zero_add]
  exact h j hj

/-- Settles O35: the step reads a run's codes, and a clear and its skip bring it to the next run. -/
theorem sitLzwClearRestarts : Obligations.SitLzwClearRestarts := by
  unfold Obligations.SitLzwClearRestarts
  intro s c bs runs outs h hfit hcodes hholds houts hn
  have hfits : ∀ run ∈ runs, CodesFit 0 run := fun run hrun => codesFit_zero (hcodes run hrun)
  rw [exec_sitLzw, sitLzwJob_of_input c h hfit]
  by_cases hne : runs = []
  · subst hne
    obtain rfl : [] = outs := by simpa using houts
    obtain hzero : s.latch.outLen.toNat = 0 := Nat.le_zero.1 hn
    rw [hzero]
    exact stuffItForkEnds_forkResult _ _ _ (Nat.zero_le _)
  · obtain ⟨v, hv, -⟩ := (streams_lzwStep _).forkLoop_take (lzwGives_start hne hfits hholds houts) hn
    rw [hv, except_ok_bind]
    exact stuffItForkEnds_forkResult _ _ _ (length_take_le_outCap hfit _)

/-- Settles O34: one run, which no clear ends. -/
theorem sitLzwDecodesCodes : Obligations.SitLzwDecodesCodes := by
  unfold Obligations.SitLzwDecodesCodes
  intro s c bs codes out h hfit hcodes hholds hout hn
  have hruns := sitLzwClearRestarts s c bs [codes] [out] h hfit (by simpa using hcodes) (.inr hholds) (by simp [hout])
  rw [List.flatten_singleton] at hruns
  exact hruns hn

/-- Settles O36: behind the last run's last code the step meets the bad code, or the end of the input. -/
theorem sitLzwBadCode : Obligations.SitLzwBadCode := by
  unfold Obligations.SitLzwBadCode
  intro s c bs init codes outs h hfit hcodes houts hn
  have hfits : ∀ run ∈ init ++ [codes], CodesFit 0 run := fun run hrun => codesFit_zero (hcodes run hrun)
  have hlast : (init ++ [codes]).getLast?.elim 0 List.length = codes.length := by rw [List.getLast?_concat, Option.elim_some]
  refine ⟨fun bad hbad hwidth hholds => ?_, fun hholds hend => ?_⟩
  · obtain ⟨hruns, hcode⟩ := holdsLzwRuns_concat hholds
    refine failsWith_sitLzw h hfit (by simp) hfits hruns houts hn fun v dict prev turns hrun hturns => ?_
    rw [hlast] at hrun
    have hle := hcode.le
    obtain ⟨turns, rfl⟩ : ∃ m, turns = m + 1 := ⟨turns - 1, by omega⟩
    rw [lzwNextCode_of_code hrun hwidth hcode, lzwTurn, if_neg (by omega), hrun.bad hwidth hbad]
    exact ⟨_, rfl, rfl⟩
  · refine failsWith_sitLzw h hfit (by simp) hfits hholds houts hn fun v dict prev turns hrun hturns => ?_
    rw [hlast] at hrun
    exact ⟨_, lzwNextCode_beyond hrun hend, rfl⟩

end Sys2Proof.Machine
end
section
/-! PROOFS. Arsenic's arithmetic decoder (47_arsenic.md R722-R725): it keeps its range in bounds and its models sound. -/

namespace Sys2Proof.Machine

/-! ### The search and the update of a model (R723, R724) -/

/-- The search finds a symbol of the model: its index, its frequency, and what the symbols before it take up. -/
theorem arsSearch_spec (target : Nat) (freq : List Nat) (cum k : Nat) (hne : freq ≠ []) :
    ∃ i, ∃ hi : i < freq.length, arsSearch target freq cum k = (cum + (freq.take i).sum, k + i, freq[i]) := by
  induction freq generalizing cum k with
  | nil => exact absurd rfl hne
  | cons f rest ih =>
    cases rest with
    | nil => exact ⟨0, by simp, by simp [arsSearch]⟩
    | cons g rest =>
      rw [arsSearch]
      split
      · obtain ⟨i, hi, heq⟩ := ih (cum + f) (k + 1) (by simp)
        refine ⟨i + 1, by simpa using hi, ?_⟩
        rw [heq, List.take_succ_cons, List.sum_cons, List.getElem_cons_succ, Nat.add_assoc cum, Nat.add_assoc k, Nat.add_comm 1]
      · exact ⟨0, by simp, by simp⟩

theorem sum_modify_add (freq : List Nat) (k c : Nat) (hk : k < freq.length) : (freq.modify k (· + c)).sum = freq.sum + c := by
  induction freq generalizing k with
  | nil => simp at hk
  | cons f rest ih =>
    cases k with
    | zero =>
      rw [List.modify_zero_cons, List.sum_cons, List.sum_cons]
      omega
    | succ k =>
      rw [List.modify_succ_cons, List.sum_cons, List.sum_cons, ih k (by simpa using hk), Nat.add_assoc]

theorem one_le_modify_add {freq : List Nat} (k c : Nat) (h : ∀ f ∈ freq, 1 ≤ f) : ∀ f ∈ freq.modify k (· + c), 1 ≤ f := by
  intro f hf
  obtain ⟨i, hi, rfl⟩ := List.mem_iff_getElem.1 hf
  rw [List.length_modify] at hi
  have hget := h _ (List.getElem_mem hi)
  rw [List.getElem_modify]
  split <;> omega

/-- Halving that rounds up. -/
theorem two_mul_sum_halved_le (freq : List Nat) : 2 * (freq.map fun f => (f + 1) / 2).sum ≤ freq.sum + freq.length := by
  induction freq with
  | nil => simp
  | cons f rest ih =>
    rw [List.map_cons, List.sum_cons, List.sum_cons, List.length_cons]
    omega

@[simp] theorem arsUpdate_first (m : ArsModel) (k : Nat) : (arsUpdate m k).first = m.first := by
  unfold arsUpdate
  dsimp only
  split <;> rfl

@[simp] theorem arsUpdate_length (m : ArsModel) (k : Nat) : (arsUpdate m k).freq.length = m.freq.length := by
  unfold arsUpdate
  dsimp only
  split <;> simp

theorem arsUpdate_ok {m : ArsModel} {k : Nat} (h : ArsModelOk m) (hk : k < m.freq.length) : ArsModelOk (arsUpdate m k) := by
  obtain ⟨hne, hpos, htotal, hle, hlimit, hroom⟩ := h
  have hsum := sum_modify_add m.freq k m.increment hk
  have hmodify : m.freq.modify k (· + m.increment) ≠ [] := by
    rw [ne_eq, ← List.length_eq_zero_iff, List.length_modify]
    omega
  have hone := one_le_modify_add k m.increment hpos
  unfold arsUpdate
  dsimp only
  split
  next hbig =>
    have hhalf := two_mul_sum_halved_le (m.freq.modify k (· + m.increment))
    rw [List.length_modify, hsum] at hhalf
    refine ⟨by simpa using hmodify, fun f hf => ?_, rfl, ?_, hlimit, by simpa using hroom⟩
    · obtain ⟨g, hg, rfl⟩ := List.mem_map.1 hf
      have := hone g hg
      omega
    · show (List.map _ _).sum ≤ m.limit
      omega
  next hsmall =>
    refine ⟨hmodify, hone, by rw [htotal]; exact hsum.symm, by dsimp only; omega, hlimit, by simpa using hroom⟩

/-! ### Renormalisation (R723) -/

theorem arsRenorm_error {bs : List Byte} {n range code k : Nat} {r : Raise} (h : arsRenorm bs n range code k = .error r) :
    r.err = .decUnderflow := by
  induction n generalizing range code k with
  | zero =>
    rw [arsRenorm] at h
    split at h <;> cases h
    rfl
  | succ n ih =>
    rw [arsRenorm] at h
    split at h
    · cases h
    · split at h
      next => cases h; rfl
      next => exact ih h

theorem arsRenorm_ok {bs : List Byte} {n range code k : Nat} {r : Nat × Nat × Nat} (hrange : range ≤ 2 ^ 25)
    (h : arsRenorm bs n range code k = .ok r) : ArsRangeOk r.1 := by
  induction n generalizing range code k with
  | zero =>
    rw [arsRenorm] at h
    split at h
    next hlow =>
      cases h
      exact ⟨hlow, hrange⟩
    next => cases h
  | succ n ih =>
    rw [arsRenorm] at h
    split at h
    next hlow =>
      cases h
      exact ⟨hlow, hrange⟩
    next hlow =>
      split at h
      next => cases h
      next => exact ih (by omega) h

/-! ### Decode (R723) -/

section
variable {bs : List Byte} {c : ArsCoder} {m : ArsModel}

theorem ArsModelOk.total_pos (h : ArsModelOk m) : 0 < m.total := by
  obtain ⟨hne, hpos, htotal, -⟩ := h
  obtain ⟨f, rest, hfreq⟩ := List.exists_cons_of_ne_nil hne
  have := hpos f (by rw [hfreq]; exact List.mem_cons_self)
  rw [htotal, hfreq, List.sum_cons]
  omega

/-- With a sound model the scale is not 0. -/
theorem arsScale_pos (hm : ArsModelOk m) (hc : ArsRangeOk c.range) : 0 < c.range / m.total := by
  have hpos := hm.total_pos
  obtain ⟨-, -, -, hle, hlimit, -⟩ := hm
  exact Nat.div_pos (by have := hc.1; omega) hpos

theorem take_sum_add_le {freq : List Nat} {i : Nat} (hi : i < freq.length) : (freq.take i).sum + freq[i] ≤ freq.sum := by
  have hsplit := congrArg List.sum (List.take_append_drop i freq)
  rw [List.sum_append, List.drop_eq_getElem_cons hi, List.sum_cons] at hsplit
  omega

/-- A decode over a sound model is a renormalisation of a range within bounds. -/
theorem arsDecode_eq (hm : ArsModelOk m) (hc : ArsRangeOk c.range) :
    ∃ k range code, k < m.freq.length ∧ range ≤ 2 ^ 25 ∧
      arsDecode bs c m = (arsRenorm bs (8 * bs.length - c.pos) range code c.pos >>= fun r =>
        .ok (m.first + k, { range := r.1, code := r.2.1, pos := r.2.2 }, arsUpdate m k)) := by
  have hscale := arsScale_pos hm hc
  have hmul : c.range / m.total * m.total ≤ c.range := Nat.div_mul_le_self _ _
  obtain ⟨hne, -, htotal, -⟩ := hm
  obtain ⟨i, hi, hsearch⟩ := arsSearch_spec (c.code / (c.range / m.total)) m.freq 0 0 hne
  have hle := take_sum_add_le hi
  rw [Nat.zero_add, Nat.zero_add] at hsearch
  refine ⟨i, if (m.freq.take i).sum + m.freq[i] = m.total then c.range - c.range / m.total * (m.freq.take i).sum
    else m.freq[i] * (c.range / m.total), c.code - c.range / m.total * (m.freq.take i).sum, hi, ?_, ?_⟩
  · split
    · exact (Nat.sub_le _ _).trans hc.2
    · refine le_trans ?_ hc.2
      rw [Nat.mul_comm]
      exact (Nat.mul_le_mul_left _ (by omega)).trans hmul
  · simp only [arsDecode, if_neg hscale.ne', hsearch]
    cases arsRenorm bs (8 * bs.length - c.pos) _ (c.code - c.range / m.total * (m.freq.take i).sum) c.pos <;> rfl

theorem arsDecode_error {r : Raise} (hm : ArsModelOk m) (hc : ArsRangeOk c.range) (h : arsDecode bs c m = .error r) :
    r.err = .decUnderflow := by
  obtain ⟨k, range, code, -, -, heq⟩ := arsDecode_eq (bs := bs) hm hc
  rw [heq, except_bind_eq_error] at h
  rcases h with h | ⟨_, _, h⟩
  · exact arsRenorm_error h
  · cases h

/-- What a decode leaves: a symbol of the model, a range within bounds, and a model as sound as before. -/
theorem arsDecode_ok {sym : Nat} {d : ArsCoder} {n : ArsModel} (hm : ArsModelOk m) (hc : ArsRangeOk c.range)
    (h : arsDecode bs c m = .ok (sym, d, n)) :
    m.first ≤ sym ∧ sym < m.first + m.freq.length ∧ ArsRangeOk d.range ∧ ArsModelOk n ∧ n.first = m.first ∧
      n.freq.length = m.freq.length := by
  obtain ⟨k, range, code, hk, hrange, heq⟩ := arsDecode_eq (bs := bs) hm hc
  rw [heq, except_bind_eq_ok] at h
  obtain ⟨r, hr, h⟩ := h
  cases h
  exact ⟨by omega, by omega, arsRenorm_ok hrange hr, arsUpdate_ok hm hk, arsUpdate_first m k, arsUpdate_length m k⟩

end

/-- A model just reset is sound if its symbols fit the limit, with one more increment of each. -/
theorem arsModel_ok {first last increment limit : Nat} (hsyms : first ≤ last) (hinc : 1 ≤ increment)
    (hfit : (last + 1 - first) * increment ≤ limit) (hlimit : limit ≤ 1024) (hroom : increment + (last + 1 - first) ≤ limit) :
    ArsModelOk (arsModel first last increment limit) := by
  refine ⟨?_, fun f hf => (List.eq_of_mem_replicate hf).ge.trans' hinc, ?_, hfit, hlimit, by simpa [arsModel] using hroom⟩
  · simp [arsModel]
    omega
  · simp [arsModel]

theorem arsPrimary_ok : ArsModelOk arsPrimary := arsModel_ok (by omega) (by omega) (by omega) (by omega) (by omega)

theorem arsSelector_ok : ArsModelOk arsSelector := arsModel_ok (by omega) (by omega) (by omega) (by omega) (by omega)

theorem arsGroups_ok : ∀ m ∈ arsGroups.toList, ArsModelOk m := by
  have hlist : arsGroups.toList = [arsModel 2 3 8 1024, arsModel 4 7 4 1024, arsModel 8 15 4 1024, arsModel 16 31 4 1024,
    arsModel 32 63 2 1024, arsModel 64 127 2 1024, arsModel 128 255 1 1024] := rfl
  rw [hlist]
  simp only [List.forall_mem_cons]
  refine ⟨?_, ?_, ?_, ?_, ?_, ?_, ?_, by simp⟩ <;> exact arsModel_ok (by omega) (by omega) (by omega) (by omega) (by omega)

/-- Settles O47: the scale of a sound model is positive, and halving keeps a model sound. -/
theorem arsDecoderKeepsItsRange : Obligations.ArsDecoderKeepsItsRange := by
  unfold Obligations.ArsDecoderKeepsItsRange
  exact ⟨fun bs a m hm ha => ⟨fun r => arsDecode_error hm ha, fun sym b n => arsDecode_ok hm ha⟩, arsPrimary_ok, arsSelector_ok,
    arsGroups_ok⟩

end Sys2Proof.Machine
end
section
/-! PROOFS. The inverse of the Burrows-Wheeler transform (47_arsenic.md R741, R742): the LF-map leads from a rotation to the one that
begins a byte later, since both orders of the rotations are the same order. -/

namespace Sys2Proof.Machine
open Reference (IsBwt arsFlip)

/-! ### Lists in the order of a key -/

/-- A list sorted by a key is its parts of each key, one after another. -/
theorem sorted_eq_flatMap_filter {α : Type} (f : α → Nat) (n : Nat) (l : List α) (hsorted : l.Pairwise fun a b => f a ≤ f b)
    (hlt : ∀ a ∈ l, f a < n) : l = (List.range n).flatMap fun c => l.filter fun a => f a == c := by
  induction n generalizing l with
  | zero =>
    cases l with
    | nil => rfl
    | cons a l => exact absurd (hlt a List.mem_cons_self) (by omega)
  | succ n ih =>
    have hsplit : ∀ l : List α, l.Pairwise (fun a b => f a ≤ f b) → (∀ a ∈ l, f a < n + 1) →
        l = l.filter (fun a => decide (f a < n)) ++ l.filter fun a => f a == n := by
      intro l
      induction l with
      | nil => simp
      | cons a l ihl =>
        intro hsorted hlt
        obtain ⟨hle, hsorted⟩ := List.pairwise_cons.1 hsorted
        obtain ⟨ha, hlt⟩ := List.forall_mem_cons.1 hlt
        by_cases han : f a < n
        · rw [List.filter_cons_of_pos (by simpa using han), List.filter_cons_of_neg (by simp; omega), List.cons_append,
            ← ihl hsorted hlt]
        · have hall : ∀ b ∈ l, f b = n := fun b hb => by
            have := hle b hb
            have := hlt b hb
            omega
          rw [List.filter_cons_of_neg (by simpa using han), List.filter_cons_of_pos (by simp; omega),
            List.filter_eq_nil_iff.2 (fun b hb => by simp [hall b hb]), List.filter_eq_self.2 fun b hb => by simp [hall b hb],
            List.nil_append]
    have hlow := ih (l.filter fun a => decide (f a < n)) (hsorted.filter _) fun a ha => by simpa using (List.mem_filter.1 ha).2
    rw [List.range_succ, List.flatMap_append, List.flatMap_singleton]
    conv_lhs => rw [hsplit l hsorted hlt, hlow]
    congr 1
    refine List.flatMap_congr fun c hc => ?_
    rw [List.filter_filter]
    refine List.filter_congr fun a ha => ?_
    have hc := List.mem_range.1 hc
    by_cases hac : f a = c
    · simp [hac, hc]
    · simp [hac]

/-- The places of the elements that a test picks, and the elements there. -/
theorem map_filter_zipIdx {α β : Type} (g : α → β) (q : β → Bool) (l pre : List α) (d : α) :
    (((l.map g).zipIdx pre.length).filter fun p => q p.1).map (fun p => (pre ++ l).getD p.2 d) = l.filter fun a => q (g a) := by
  induction l generalizing pre with
  | nil => rfl
  | cons a l ih =>
    have ih := ih (pre ++ [a])
    rw [List.length_append, List.length_singleton, List.append_assoc, List.singleton_append] at ih
    rw [List.map_cons, List.zipIdx_cons, List.filter_cons, List.filter_cons]
    split
    next h =>
      rw [List.map_cons, ih]
      congr 1
      simp
    next h => exact ih

/-! ### The order of the rotations -/

/-- Rows as the transform compares them. -/
def rowKey (r : List Byte) : List Nat := r.map BitVec.toNat

theorem rowKey_injective {r q : List Byte} (h : rowKey r = rowKey q) : r = q :=
  List.map_injective_iff.2 (fun _ _ hab => BitVec.eq_of_toNat_eq hab) h

/-- The first byte of a row, as a number. -/
def firstByte (r : List Byte) : Nat := (r.headD 0).toNat

/-- The last byte of a row, as a number. -/
def lastByte (r : List Byte) : Nat := (r.getLastD 0).toNat

section
variable {text : List Byte} {rots : List (List Byte)}

/-- The rows of a transform: the rotations of the text, in order. -/
structure SortedRotations (text : List Byte) (rots : List (List Byte)) : Prop where
  perm   : rots.Perm ((List.range text.length).map text.rotate)
  sorted : rots.Pairwise fun r q => rowKey r ≤ rowKey q

theorem SortedRotations.mem_iff (h : SortedRotations text rots) {r : List Byte} :
    r ∈ rots ↔ ∃ m < text.length, text.rotate m = r := by
  rw [h.perm.mem_iff]
  simp

theorem SortedRotations.length_eq (h : SortedRotations text rots) {r : List Byte} (hr : r ∈ rots) : r.length = text.length := by
  obtain ⟨m, -, rfl⟩ := h.mem_iff.1 hr
  exact List.length_rotate _ _

theorem SortedRotations.ne_nil (h : SortedRotations text rots) {r : List Byte} (hr : r ∈ rots) : r ≠ [] := by
  obtain ⟨m, hm, rfl⟩ := h.mem_iff.1 hr
  rw [ne_eq, List.rotate_eq_nil_iff]
  rintro rfl
  simp at hm

theorem rotate_one_eq {r : List Byte} (h : r ≠ []) : ∃ a w, r = a :: w ∧ r.rotate 1 = w ++ [a] := by
  obtain ⟨a, w, rfl⟩ := List.exists_cons_of_ne_nil h
  exact ⟨a, w, rfl, by simp⟩

theorem lastByte_rotate_one {r : List Byte} (h : r ≠ []) : lastByte (r.rotate 1) = firstByte r := by
  obtain ⟨a, w, rfl, hrot⟩ := rotate_one_eq h
  rw [lastByte, hrot, firstByte]
  simp

/-- Rotating every row by one byte gives the same rows. -/
theorem SortedRotations.rotate_perm (h : SortedRotations text rots) : (rots.map fun r => r.rotate 1).Perm rots := by
  refine (h.perm.map _).trans (List.Perm.trans ?_ h.perm.symm)
  rw [List.map_map]
  cases hlen : text.length with
  | zero => rfl
  | succ k =>
    have hwhole : text.rotate (k + 1) = text.rotate 0 := by rw [← hlen, List.rotate_length, List.rotate_zero]
    have hsucc : ((fun r => r.rotate 1) ∘ text.rotate) = fun m => text.rotate (m + 1) := funext fun m => List.rotate_rotate _ _ _
    have hrest : ((List.range (k + 1)).map text.rotate) = text.rotate 0 :: (List.range k).map fun m => text.rotate (m + 1) := by
      rw [List.range_succ_eq_map, List.map_cons, List.map_map]
      rfl
    rw [hsucc, hrest, List.range_succ, List.map_append, List.map_singleton, hwhole]
    exact List.perm_append_singleton _ _

theorem row_cons_le {a b : Nat} {v w : List Nat} : a :: v ≤ b :: w ↔ a < b ∨ a = b ∧ v ≤ w := by
  have hlt : b :: w < a :: v ↔ b < a ∨ b = a ∧ w < v := List.cons_lt_cons_iff
  rw [← not_lt, ← not_lt (a := w), hlt]
  constructor
  · intro h
    rcases Nat.lt_trichotomy a b with hab | hab | hab
    · exact .inl hab
    · exact .inr ⟨hab, fun hwv => h (.inr ⟨hab.symm, hwv⟩)⟩
    · exact absurd (.inl hab) h
  · rintro (hab | ⟨hab, hwv⟩) (hba | ⟨hba, hlt⟩)
    · omega
    · omega
    · omega
    · exact hwv hlt

/-- Appending the same byte keeps the order of rows of one length. -/
theorem append_le_append {v w : List Nat} (hlen : v.length = w.length) (h : v ≤ w) (t : List Nat) : v ++ t ≤ w ++ t := by
  induction v generalizing w with
  | nil =>
    obtain rfl := List.length_eq_zero_iff.1 hlen.symm
    exact le_rfl
  | cons a v ih =>
    obtain ⟨b, w, rfl⟩ := List.exists_cons_of_length_pos (l := w) (by rw [← hlen]; simp)
    rw [List.cons_append, List.cons_append, row_cons_le]
    rcases row_cons_le.1 h with hlt | ⟨rfl, hle⟩
    · exact .inl hlt
    · exact .inr ⟨rfl, ih (by simpa using hlen) hle⟩

/-- Rows that begin with one byte keep their order when it moves to their end. -/
theorem rotate_one_le {r q : List Byte} (hlen : r.length = q.length) (hr : r ≠ []) (hq : q ≠ []) (hfirst : firstByte r = firstByte q)
    (h : rowKey r ≤ rowKey q) : rowKey (r.rotate 1) ≤ rowKey (q.rotate 1) := by
  obtain ⟨a, v, rfl, hv⟩ := rotate_one_eq hr
  obtain ⟨b, w, rfl, hw⟩ := rotate_one_eq hq
  obtain rfl : a = b := BitVec.eq_of_toNat_eq hfirst
  rw [hv, hw, rowKey, rowKey, List.map_append, List.map_append]
  refine append_le_append (by simpa using hlen) ?_ _
  rcases row_cons_le.1 h with hlt | ⟨-, hle⟩
  · exact absurd hlt (lt_irrefl _)
  · exact hle

/-- The rows that end with a byte are those that begin with it, rotated by one, in the same order. -/
theorem SortedRotations.filter_last (h : SortedRotations text rots) (c : Nat) :
    (rots.filter fun r => lastByte r == c) = (rots.filter fun r => firstByte r == c).map fun r => r.rotate 1 := by
  have hmem : ∀ r ∈ rots.filter fun r => firstByte r == c, r ∈ rots ∧ firstByte r = c := fun r hr => by
    simpa using List.mem_filter.1 hr
  have hkeys : ((rots.filter fun r => lastByte r == c).map rowKey) =
      ((rots.filter fun r => firstByte r == c).map fun r => r.rotate 1).map rowKey := by
    refine List.Perm.eq_of_pairwise (le := (· ≤ ·)) (fun _ _ _ _ => le_antisymm) ?_ ?_ (List.Perm.map _ ?_)
    · exact List.pairwise_map.2 (h.sorted.filter _)
    · rw [List.pairwise_map, List.pairwise_map]
      refine List.Pairwise.imp_of_mem (fun {r q} hr hq hle => ?_) (h.sorted.filter _)
      obtain ⟨hr, hrc⟩ := hmem r hr
      obtain ⟨hq, hqc⟩ := hmem q hq
      exact rotate_one_le ((h.length_eq hr).trans (h.length_eq hq).symm) (h.ne_nil hr) (h.ne_nil hq) (hrc.trans hqc.symm) hle
    · refine (h.rotate_perm.symm.filter _).trans (List.Perm.of_eq ?_)
      rw [List.filter_map]
      congr 1
      refine List.filter_congr fun r hr => ?_
      rw [Function.comp_apply, lastByte_rotate_one (h.ne_nil hr)]
  exact List.map_injective_iff.2 (fun _ _ => rowKey_injective) hkeys

/-- A row's order is its first byte's before all else. -/
theorem firstByte_le {r q : List Byte} (hr : r ≠ []) (hq : q ≠ []) (h : rowKey r ≤ rowKey q) : firstByte r ≤ firstByte q := by
  obtain ⟨a, v, rfl⟩ := List.exists_cons_of_ne_nil hr
  obtain ⟨b, w, rfl⟩ := List.exists_cons_of_ne_nil hq
  rcases row_cons_le.1 h with hlt | ⟨heq, -⟩
  · exact le_of_lt hlt
  · exact le_of_eq heq

/-- The rows at the LF-map's places are the rows in order, each rotated by one byte. -/
theorem SortedRotations.lfMap (h : SortedRotations text rots) :
    (arsLfMap (rots.map fun r => r.getLastD 0)).map (fun j => rots.getD j []) = rots.map fun r => r.rotate 1 := by
  have hparts := sorted_eq_flatMap_filter firstByte 256 rots
    (h.sorted.imp_of_mem fun hr hq hle => firstByte_le (h.ne_nil hr) (h.ne_nil hq) hle) fun r _ => (r.headD 0).isLt
  rw [arsLfMap, List.map_flatMap]
  conv_rhs => rw [hparts, List.map_flatMap]
  refine List.flatMap_congr fun c _ => ?_
  rw [← h.filter_last, List.map_map]
  exact map_filter_zipIdx (fun r => r.getLastD 0) (fun b => b.toNat == c) rots [] []

/-- From a row in order the LF-map leads to the row that begins a byte later. -/
theorem SortedRotations.lfMap_get (h : SortedRotations text rots) {i : Nat} {r : List Byte} (hi : rots[i]? = some r) :
    ∃ j, (arsLfMap (rots.map fun r => r.getLastD 0))[i]? = some j ∧ rots[j]? = some (r.rotate 1) := by
  have hget := congrArg (fun l => l[i]?) h.lfMap
  simp only [List.getElem?_map, hi, Option.map_some, Option.map_eq_some_iff] at hget
  obtain ⟨j, hj, hrow⟩ := hget
  have hne : r.rotate 1 ≠ [] := by
    rw [ne_eq, List.rotate_eq_nil_iff]
    exact h.ne_nil (List.mem_of_getElem? hi)
  refine ⟨j, hj, ?_⟩
  by_cases hlt : j < rots.length
  · rw [List.getD_eq_getElem _ _ hlt] at hrow
    rw [List.getElem?_eq_getElem hlt, hrow]
  · rw [List.getD_eq_default _ _ (by omega)] at hrow
    exact absurd hrow.symm hne

/-! ### The walk (R741, R742) -/

/-- The walk stands at the rotation that begins with byte `m` of the text. -/
structure WalkAt (text : List Byte) (rots : List (List Byte)) (u : ArsUnit) (m : Nat) : Prop where
  order : SortedRotations text rots
  buf   : u.buf = rots.map fun r => r.getLastD 0
  lfMap : u.lfMap = arsLfMap u.buf
  row   : rots[u.idx]? = some (text.rotate m)

/-- The unit after a byte, at the row `idx`. -/
def arsStepped (cfg : Config) (u : ArsUnit) (idx : Nat) : ArsUnit :=
  if u.randf && u.opos == u.rnext then
    { u with idx, opos := u.opos + 1, ti := (u.ti + 1) % 256, rnext := u.rnext + arsRandAt cfg ((u.ti + 1) % 256) }
  else { u with idx, opos := u.opos + 1 }

/-- The text with the flips that are due from the unit's position on. -/
def arsHeld (cfg : Config) (u : ArsUnit) (rest : List Byte) : List Byte :=
  if u.randf = true then arsFlip (fun i => cfg.arsRand.toList.getD i 0) u.opos u.ti u.rnext rest else rest

@[simp] theorem arsHeld_nil (cfg : Config) (u : ArsUnit) : arsHeld cfg u [] = [] := by
  unfold arsHeld
  split <;> rfl

theorem arsHeld_cons (cfg : Config) (u : ArsUnit) (idx : Nat) (b : Byte) (rest : List Byte) :
    arsHeld cfg u (b :: rest) =
      (if u.randf && u.opos == u.rnext then b ^^^ 0x01 else b) :: arsHeld cfg (arsStepped cfg u idx) rest := by
  unfold arsHeld arsStepped
  cases hrand : u.randf with
  | false => simp
  | true =>
    rw [if_pos rfl, arsFlip]
    by_cases hflip : u.opos = u.rnext
    · simp [hflip, arsRandAt]
    · simp [hflip]

theorem arsBwtNext_eq {cfg : Config} {u : ArsUnit} {idx : Nat} {b : Byte} (hidx : u.lfMap[u.idx]? = some idx)
    (hb : u.buf[idx]? = some b) :
    arsBwtNext cfg u = .ok (if u.randf && u.opos == u.rnext then b ^^^ 0x01 else b, arsStepped cfg u idx) := by
  simp only [arsBwtNext, hidx, hb, arsStepped]
  split <;> rfl

theorem WalkAt.next {u : ArsUnit} {m : Nat} (h : WalkAt text rots u m) (cfg : Config) (hm : m < text.length) :
    ∃ idx, arsBwtNext cfg u =
        .ok (if u.randf && u.opos == u.rnext then text[m] ^^^ 0x01 else text[m], arsStepped cfg u idx) ∧
      WalkAt text rots (arsStepped cfg u idx) (m + 1) := by
  obtain ⟨idx, hidx, hrow⟩ := h.order.lfMap_get h.row
  rw [← h.buf, ← h.lfMap] at hidx
  rw [List.rotate_rotate] at hrow
  have hbyte : u.buf[idx]? = some text[m] := by
    rw [h.buf, List.getElem?_map, hrow, Option.map_some, ← List.rotate_rotate]
    have hne : text.rotate m ≠ [] := h.order.ne_nil (List.mem_of_getElem? h.row)
    have hlast : ((text.rotate m).rotate 1).getLastD 0 = (text.rotate m).headD 0 := BitVec.eq_of_toNat_eq (lastByte_rotate_one hne)
    rw [hlast, List.rotate_eq_drop_append_take hm.le, List.drop_eq_getElem_cons hm]
    rfl
  refine ⟨idx, arsBwtNext_eq hidx hbyte, ?_⟩
  have hfields : (arsStepped cfg u idx).buf = u.buf ∧ (arsStepped cfg u idx).lfMap = u.lfMap ∧ (arsStepped cfg u idx).idx = idx := by
    unfold arsStepped
    split <;> exact ⟨rfl, rfl, rfl⟩
  obtain ⟨hbuf, hlf, hi⟩ := hfields
  exact ⟨h.order, hbuf.trans h.buf, by rw [hlf, hbuf, h.lfMap], by rw [hi]; exact hrow⟩

/-- A transform's walk, from its primary index. -/
theorem walkAt_of_isBwt {u : ArsUnit} (h : IsBwt text u.buf u.prim) (hlf : u.lfMap = arsLfMap u.buf) (hidx : u.idx = u.prim) :
    ∃ rots, WalkAt text rots u 0 := by
  obtain ⟨rots, hperm, hsorted, hrow, hbuf⟩ := h
  refine ⟨rots, ⟨hperm, ?_⟩, hbuf, hlf, by rw [hidx, List.rotate_zero]; exact hrow⟩
  exact (List.pairwise_map.1 hsorted).imp fun hle => not_lt.1 hle

end

@[simp] theorem arsStepped_opos (cfg : Config) (u : ArsUnit) (idx : Nat) : (arsStepped cfg u idx).opos = u.opos + 1 := by
  unfold arsStepped
  split <;> rfl

@[simp] theorem arsStepped_randf (cfg : Config) (u : ArsUnit) (idx : Nat) : (arsStepped cfg u idx).randf = u.randf := by
  unfold arsStepped
  split <;> rfl

/-- The walk without randomisation stands before the rest of the text. -/
def PlainWalk (text : List Byte) (start : Nat) (u : ArsUnit) (rest : List Byte) : Prop :=
  ∃ rots m, WalkAt text rots u m ∧ u.randf = false ∧ m ≤ text.length ∧ rest = text.drop m ∧ u.opos = start + m

theorem streams_plainWalk (cfg : Config) (text : List Byte) (start : Nat) :
    Streams (fun w => (arsBwtNext cfg w).mapError (.atBit 0)) (PlainWalk text start) := by
  rintro u b rest ⟨rots, m, h, hrand, hm, hrest, hopos⟩
  have hlt : m < text.length := by
    by_contra hge
    rw [List.drop_eq_nil_of_le (by omega)] at hrest
    exact absurd hrest (by simp)
  obtain ⟨idx, hstep, hnext⟩ := h.next cfg hlt
  rw [List.drop_eq_getElem_cons hlt] at hrest
  obtain ⟨rfl, rfl⟩ := List.cons.inj hrest
  refine ⟨arsStepped cfg u idx, ?_, rots, m + 1, hnext, by rw [arsStepped_randf]; exact hrand, hlt, rfl, ?_⟩
  · dsimp only
    rw [hstep, hrand]
    rfl
  · rw [arsStepped_opos, hopos, Nat.add_assoc]

/-- Settles O46: the walk goes from the text to its rotation by one byte, by two, and so on, and hands out each one's last byte. -/
theorem inverseBwtRecoversTheText : Obligations.InverseBwtRecoversTheText := by
  unfold Obligations.InverseBwtRecoversTheText
  intro cfg u text hbwt hlf hidx hrand
  obtain ⟨rots, hwalk⟩ := walkAt_of_isBwt hbwt hlf hidx
  obtain ⟨v, hv, -, m, -, -, hm, hrest, hopos⟩ := (streams_plainWalk cfg text u.opos).forkLoop_all
    ⟨rots, 0, hwalk, hrand, Nat.zero_le _, rfl, rfl⟩
  have hlen := List.drop_eq_nil_iff.1 hrest.symm
  exact ⟨v, hv, by omega⟩

end Sys2Proof.Machine
end
section
/-! PROOFS. The parts of an Arsenic block's data (47_arsenic.md R732-R735): move-to-front decoding and zero runs. -/

namespace Sys2Proof.Machine
open Reference (mtfEncode zeroRunLength)

/-! ### Move-to-front (R732) -/

/-- MtfDecode of a byte's index, while the block has room. -/
theorem arsMtf_idxOf {u : ArsUnit} {b : Byte} (rbuf : List Byte) (hb : b ∈ u.mtf) (hroom : u.len < arsBlockSize u) :
    arsMtf u rbuf (u.mtf.idxOf b) = .ok ({ u with mtf := b :: u.mtf.erase b, len := u.len + 1 }, b :: rbuf) := by
  have hlt := List.idxOf_lt_length_iff.2 hb
  have hget : u.mtf.getD (u.mtf.idxOf b) 0 = b := by rw [List.getD_eq_getElem _ _ hlt, List.getElem_idxOf hlt]
  have hroom' : ¬ arsBlockSize { u with mtf := b :: u.mtf.erase b } ≤ u.len := Nat.not_le.2 hroom
  rw [arsMtf, hget, ← List.erase_eq_eraseIdx_of_idxOf rfl]
  exact if_neg hroom'

theorem arsMtf_full {u : ArsUnit} (rbuf : List Byte) (i : Nat) (hfull : arsBlockSize u ≤ u.len) :
    arsMtf u rbuf i = .error .decArsOverflow := if_pos hfull

/-- Decoding the indices of a text appends it, as long as the block has room. -/
theorem foldlM_arsMtf {text : List Byte} {u : ArsUnit} {rbuf : List Byte} (hnodup : u.mtf.Nodup) (hmem : ∀ b ∈ text, b ∈ u.mtf)
    (hroom : u.len + text.length ≤ arsBlockSize u) :
    ∃ v, (mtfEncode u.mtf text).foldlM (fun p i => arsMtf p.1 p.2 i) (u, rbuf) = .ok (v, text.reverse ++ rbuf) ∧
      v.len = u.len + text.length ∧ v.mtf.Perm u.mtf := by
  induction text generalizing u rbuf with
  | nil => exact ⟨u, rfl, rfl, List.Perm.refl _⟩
  | cons b text ih =>
    obtain ⟨hb, hmem⟩ := List.forall_mem_cons.1 hmem
    rw [List.length_cons] at hroom
    have hperm : (b :: u.mtf.erase b).Perm u.mtf := (List.perm_cons_erase hb).symm
    obtain ⟨v, hv, hlen, hmtf⟩ := ih (u := { u with mtf := b :: u.mtf.erase b, len := u.len + 1 }) (rbuf := b :: rbuf)
      (hperm.nodup_iff.2 hnodup) (fun c hc => hperm.mem_iff.2 (hmem c hc)) (by show u.len + 1 + text.length ≤ arsBlockSize u; omega)
    refine ⟨v, ?_, by rw [hlen, List.length_cons, Nat.add_comm text.length, ← Nat.add_assoc], hmtf.trans hperm⟩
    rw [mtfEncode, List.foldlM_cons, arsMtf_idxOf rbuf hb (by omega), List.reverse_cons, List.append_assoc]
    exact hv

/-- Decoding more indices than the block has room for ends with DEC_ARS_OVERFLOW. -/
theorem foldlM_arsMtf_overflow {text : List Byte} {u : ArsUnit} {rbuf : List Byte} (hnodup : u.mtf.Nodup)
    (hmem : ∀ b ∈ text, b ∈ u.mtf) (hover : arsBlockSize u < u.len + text.length) (hlen : u.len ≤ arsBlockSize u) :
    (mtfEncode u.mtf text).foldlM (fun p i => arsMtf p.1 p.2 i) (u, rbuf) = .error .decArsOverflow := by
  induction text generalizing u rbuf with
  | nil => exact absurd hover (by simpa using hlen)
  | cons b text ih =>
    obtain ⟨hb, hmem⟩ := List.forall_mem_cons.1 hmem
    rw [List.length_cons] at hover
    rw [mtfEncode, List.foldlM_cons]
    rcases Nat.lt_or_eq_of_le hlen with hroom | hfull
    · have hperm : (b :: u.mtf.erase b).Perm u.mtf := (List.perm_cons_erase hb).symm
      rw [arsMtf_idxOf rbuf hb hroom]
      exact ih (u := { u with mtf := b :: u.mtf.erase b, len := u.len + 1 }) (hperm.nodup_iff.2 hnodup)
        (fun c hc => hperm.mem_iff.2 (hmem c hc)) (by show arsBlockSize u < u.len + 1 + text.length; omega) hroom
    · rw [arsMtf_full rbuf _ hfull.ge]
      rfl

/-! ### Symbols (R731) -/

section
variable {bs : List Byte} {u v : ArsUnit} {k k' sym : Nat}

theorem arsPrimarySym_eq_ok (h : arsPrimarySym bs u k = .ok (sym, v, k')) :
    ∃ c m, arsDecode bs (arsCoderOf u k) u.primary = .ok (sym, c, m) ∧
      v = { u with range := c.range, code := c.code, primary := m } ∧ k' = c.pos := by
  obtain ⟨⟨s, c, m⟩, hdecode, h⟩ := except_bind_eq_ok.1 h
  cases h
  exact ⟨c, m, hdecode, rfl, rfl⟩

theorem arsSelectorSym_eq_ok (h : arsSelectorSym bs u k = .ok (sym, v, k')) :
    ∃ c m, arsDecode bs (arsCoderOf u k) u.selector = .ok (sym, c, m) ∧
      v = { u with range := c.range, code := c.code, selector := m } ∧ k' = c.pos := by
  obtain ⟨⟨s, c, m⟩, hdecode, h⟩ := except_bind_eq_ok.1 h
  cases h
  exact ⟨c, m, hdecode, rfl, rfl⟩

theorem arsGroupSym_eq_ok {g : Fin 7} (h : arsGroupSym bs g u k = .ok (sym, v, k')) :
    ∃ c m, arsDecode bs (arsCoderOf u k) u.groups[g] = .ok (sym, c, m) ∧
      v = { u with range := c.range, code := c.code, groups := u.groups.set g m } ∧ k' = c.pos := by
  obtain ⟨⟨s, c, m⟩, hdecode, h⟩ := except_bind_eq_ok.1 h
  cases h
  exact ⟨c, m, hdecode, rfl, rfl⟩

/-- What decoding symbols leaves alone: all but the coder and the models. -/
structure SameBlock (u v : ArsUnit) : Prop where
  mtf      : v.mtf = u.mtf
  blockExp : v.blockExp = u.blockExp
  eos      : v.eos = u.eos
  randf    : v.randf = u.randf
  prim     : v.prim = u.prim
  buf      : v.buf = u.buf
  len      : v.len = u.len
  lfMap    : v.lfMap = u.lfMap
  idx      : v.idx = u.idx
  opos     : v.opos = u.opos
  ti       : v.ti = u.ti
  rnext    : v.rnext = u.rnext
  rprev    : v.rprev = u.rprev
  streak   : v.streak = u.streak
  rep      : v.rep = u.rep

theorem sameBlock_refl (u : ArsUnit) : SameBlock u u := by constructor <;> rfl

theorem SameBlock.trans {w : ArsUnit} (h : SameBlock u v) (h' : SameBlock v w) : SameBlock u w where
  mtf := h'.mtf.trans h.mtf
  blockExp := h'.blockExp.trans h.blockExp
  eos := h'.eos.trans h.eos
  randf := h'.randf.trans h.randf
  prim := h'.prim.trans h.prim
  buf := h'.buf.trans h.buf
  len := h'.len.trans h.len
  lfMap := h'.lfMap.trans h.lfMap
  idx := h'.idx.trans h.idx
  opos := h'.opos.trans h.opos
  ti := h'.ti.trans h.ti
  rnext := h'.rnext.trans h.rnext
  rprev := h'.rprev.trans h.rprev
  streak := h'.streak.trans h.streak
  rep := h'.rep.trans h.rep

theorem SameBlock.size (h : SameBlock u v) : arsBlockSize v = arsBlockSize u := by rw [arsBlockSize, h.blockExp, arsBlockSize]

theorem arsPrimarySym_sameBlock (h : arsPrimarySym bs u k = .ok (sym, v, k')) : SameBlock u v := by
  obtain ⟨c, m, -, rfl, -⟩ := arsPrimarySym_eq_ok h
  constructor <;> rfl

theorem arsSelectorSym_sameBlock (h : arsSelectorSym bs u k = .ok (sym, v, k')) : SameBlock u v := by
  obtain ⟨c, m, -, rfl, -⟩ := arsSelectorSym_eq_ok h
  constructor <;> rfl

theorem arsGroupSym_sameBlock {g : Fin 7} (h : arsGroupSym bs g u k = .ok (sym, v, k')) : SameBlock u v := by
  obtain ⟨c, m, -, rfl, -⟩ := arsGroupSym_eq_ok h
  constructor <;> rfl

theorem arsField_sameBlock {n : Nat} (h : arsField bs n u k = .ok (sym, v, k')) : SameBlock u v := by
  induction n generalizing u k sym with
  | zero =>
    cases h
    exact sameBlock_refl _
  | succ n ih =>
    obtain ⟨⟨b, u', m⟩, hsym, h⟩ := except_bind_eq_ok.1 h
    obtain ⟨⟨w, u'', m'⟩, hfield, h⟩ := except_bind_eq_ok.1 h
    cases h
    exact (arsPrimarySym_sameBlock hsym).trans (ih hfield)

theorem readsSelectors_sameBlock {sels : List Nat} (h : ReadsSelectors bs u k sels v k') : SameBlock u v := by
  induction sels generalizing u k with
  | nil =>
    obtain ⟨rfl, -⟩ := h
    exact sameBlock_refl _
  | cons sel sels ih =>
    obtain ⟨u', m, hsym, hrest⟩ := h
    exact (arsSelectorSym_sameBlock hsym).trans (ih hrest)

end

/-! ### Zero runs (R733) -/

/-- The sub-loop reads the digits of a run and the selector that ends it. -/
theorem arsZeroRun_digits {bs : List Byte} {u v : ArsUnit} {k k' sel last n total p : Nat} {digits : List Nat} (hsel : sel ≤ 1)
    (hdigits : ∀ d ∈ digits, d ≤ 1) (hlast : 2 ≤ last) (hreads : ReadsSelectors bs u k (digits ++ [last]) v k')
    (hn : digits.length + 2 ≤ n) :
    arsZeroRun bs n total p sel u k = .ok (total + 2 ^ p * zeroRunLength (sel :: digits), last, v, k') := by
  induction digits generalizing u k sel n total p with
  | nil =>
    obtain ⟨n, rfl⟩ : ∃ m, n = m + 2 := ⟨n - 2, by rw [List.length_nil] at hn; omega⟩
    obtain ⟨u', m, hsym, rfl, rfl⟩ := hreads
    rw [arsZeroRun, if_pos hsel, hsym, except_ok_bind]
    dsimp only
    rw [arsZeroRun, if_neg (by omega), zeroRunLength, zeroRunLength, Nat.mul_comm]
  | cons d digits ih =>
    obtain ⟨n, rfl⟩ : ∃ m, n = m + 1 := ⟨n - 1, by rw [List.length_cons] at hn; omega⟩
    obtain ⟨hd, hdigits⟩ := List.forall_mem_cons.1 hdigits
    obtain ⟨u', m, hsym, hreads⟩ := hreads
    rw [arsZeroRun, if_pos hsel, hsym, except_ok_bind]
    dsimp only
    have hrun : zeroRunLength (sel :: d :: digits) = sel + 1 + 2 * zeroRunLength (d :: digits) := rfl
    rw [ih hd hdigits hreads (by rw [List.length_cons] at hn; omega), hrun]
    congr 2
    rw [pow_succ]
    ring

theorem arsBlockLoop_zeroRun {bs rbuf : List Byte} {u v : ArsUnit} {k k' first last n : Nat} {digits : List Nat} (hfirst : first ≤ 1)
    (hdigits : ∀ d ∈ digits, d ≤ 1) (hlast : 2 ≤ last) (hreads : ReadsSelectors bs u k (digits ++ [last]) v k')
    (hfuel : digits.length + 2 ≤ arsFuel bs) :
    arsBlockLoop bs (n + 1) first u rbuf k =
      if arsBlockSize u < u.len + zeroRunLength (first :: digits) then .error (.atBit k' .decArsOverflow)
      else arsBlockLoop bs n last { v with len := v.len + zeroRunLength (first :: digits) }
        (List.replicate (zeroRunLength (first :: digits)) (u.mtf.getD 0 0) ++ rbuf) k' := by
  have hsame := readsSelectors_sameBlock hreads
  have hrun := arsZeroRun_digits (total := 0) (p := 0) hfirst hdigits hlast hreads hfuel
  rw [pow_zero, Nat.one_mul, Nat.zero_add] at hrun
  rw [arsBlockLoop, if_pos hfirst, hrun, except_ok_bind]
  dsimp only
  rw [hsame.size, hsame.len, hsame.mtf]

/-- Settles O48: the byte at an index is the text's, and a run's digits are read one after another. -/
theorem moveToFrontInverts : Obligations.MoveToFrontInverts := by
  unfold Obligations.MoveToFrontInverts
  exact ⟨fun u text rbuf hnodup hmem => ⟨foldlM_arsMtf hnodup hmem, foldlM_arsMtf_overflow hnodup hmem⟩,
    fun bs rbuf u v k k' first last n digits hfirst hdigits hlast hreads hfuel =>
      arsBlockLoop_zeroRun hfirst hdigits hlast hreads hfuel⟩

end Sys2Proof.Machine
end
section
/-! PROOFS. What decoding a block of Arsenic does not look at (47_arsenic.md R730-R738): where the last block's output stands, and the
state of the final RLE. -/

namespace Sys2Proof.Machine

/-! ### `Except` computations under a function of their result -/

theorem except_map_bind {ε α β γ : Type} (x : Except ε α) (f : α → β) (g : β → Except ε γ) :
    x.map f >>= g = x >>= fun a => g (f a) := by
  cases x <;> rfl

theorem except_bind_map {ε α β γ : Type} (x : Except ε α) (g : α → Except ε β) (f : β → γ) :
    (x >>= g).map f = x >>= fun a => (g a).map f := by
  cases x <;> rfl

theorem except_map_mapError {ε ε' α β : Type} (x : Except ε α) (f : α → β) (g : ε → ε') :
    (x.map f).mapError g = (x.mapError g).map f := by
  cases x <;> rfl

theorem except_ite_map {ε α β : Type} {c : Prop} [Decidable c] {x y : Except ε α} {x' y' : Except ε β} {f : α → β} (hx : x' = x.map f)
    (hy : y' = y.map f) : (if c then x' else y') = (if c then x else y).map f := by
  split
  · exact hx
  · exact hy

/-! ### The decoder and the block of one unit with the output side of another -/

/-- The unit with the output side of `o`: where its output stands in the block, and the state of the final RLE. -/
def ArsUnit.onto (u o : ArsUnit) : ArsUnit :=
  { u with idx := o.idx, opos := o.opos, ti := o.ti, rnext := o.rnext, rprev := o.rprev, streak := o.streak, rep := o.rep }

/-- The unit with the state of the final RLE of `o`. -/
def ArsUnit.withRle (u o : ArsUnit) : ArsUnit := { u with rprev := o.rprev, streak := o.streak, rep := o.rep }

section
variable (bs : List Byte) (o : ArsUnit)

/-- A symbol's result with another output side. -/
def symOnto (o : ArsUnit) (r : Nat × ArsUnit × Nat) : Nat × ArsUnit × Nat := (r.1, r.2.1.onto o, r.2.2)

/-- A read's result with another output side. -/
def unitOnto (o : ArsUnit) (r : ArsUnit × Nat) : ArsUnit × Nat := (r.1.onto o, r.2)

theorem arsPrimarySym_onto (u : ArsUnit) (k : Nat) :
    arsPrimarySym bs (u.onto o) k = (arsPrimarySym bs u k).map (symOnto o) := by
  unfold arsPrimarySym
  rw [except_bind_map]
  rfl

theorem arsSelectorSym_onto (u : ArsUnit) (k : Nat) :
    arsSelectorSym bs (u.onto o) k = (arsSelectorSym bs u k).map (symOnto o) := by
  unfold arsSelectorSym
  rw [except_bind_map]
  rfl

theorem arsGroupSym_onto (g : Fin 7) (u : ArsUnit) (k : Nat) :
    arsGroupSym bs g (u.onto o) k = (arsGroupSym bs g u k).map (symOnto o) := by
  unfold arsGroupSym
  rw [except_bind_map]
  rfl

theorem arsField_onto (n : Nat) (u : ArsUnit) (k : Nat) : arsField bs n (u.onto o) k = (arsField bs n u k).map (symOnto o) := by
  induction n generalizing u k with
  | zero => rfl
  | succ n ih =>
    rw [arsField, arsField, arsPrimarySym_onto, except_map_bind, except_bind_map]
    refine congrArg _ (funext fun r => ?_)
    simp only [symOnto, ih, except_map_bind, except_bind_map]
    rfl

theorem arsMtf_eq (u : ArsUnit) (rbuf : List Byte) (i : Nat) :
    arsMtf u rbuf i =
      if arsBlockSize u ≤ u.len then .error .decArsOverflow
      else .ok ({ u with mtf := u.mtf.getD i 0 :: u.mtf.eraseIdx i, len := u.len + 1 }, u.mtf.getD i 0 :: rbuf) := rfl

theorem arsMtf_onto (u : ArsUnit) (rbuf : List Byte) (i : Nat) :
    arsMtf (u.onto o) rbuf i = (arsMtf u rbuf i).map fun p => (p.1.onto o, p.2) := by
  rw [arsMtf_eq, arsMtf_eq]
  exact except_ite_map rfl rfl

theorem arsZeroRun_onto (n total p sel : Nat) (u : ArsUnit) (k : Nat) :
    arsZeroRun bs n total p sel (u.onto o) k = (arsZeroRun bs n total p sel u k).map fun r => (r.1, symOnto o r.2) := by
  induction n generalizing total p sel u k with
  | zero => rfl
  | succ n ih =>
    rw [arsZeroRun, arsZeroRun]
    split
    · rw [arsSelectorSym_onto, except_map_bind, except_bind_map]
      exact congrArg _ (funext fun r => ih _ _ _ _ _)
    · rfl

/-- The block loop's result with another output side. -/
def loopOnto (o : ArsUnit) (r : ArsUnit × List Byte × Nat) : ArsUnit × List Byte × Nat := (r.1.onto o, r.2)

theorem arsBlockLoop_onto (n sel : Nat) (u : ArsUnit) (rbuf : List Byte) (k : Nat) :
    arsBlockLoop bs n sel (u.onto o) rbuf k = (arsBlockLoop bs n sel u rbuf k).map (loopOnto o) := by
  induction n generalizing sel u rbuf k with
  | zero => rfl
  | succ n ih =>
    have hnext : ∀ (u : ArsUnit) (rbuf : List Byte) (k : Nat),
        (arsSelectorSym bs (u.onto o) k >>= fun r => arsBlockLoop bs n r.1 r.2.1 rbuf r.2.2) =
          (arsSelectorSym bs u k >>= fun r => arsBlockLoop bs n r.1 r.2.1 rbuf r.2.2).map (loopOnto o) := fun u rbuf k => by
      rw [arsSelectorSym_onto, except_map_bind, except_bind_map]
      exact congrArg _ (funext fun r => ih _ _ _ _)
    have hmtf : ∀ (u : ArsUnit) (i k : Nat),
        ((arsMtf (u.onto o) rbuf i).mapError (Raise.atBit k) >>= fun p =>
            arsSelectorSym bs p.1 k >>= fun r => arsBlockLoop bs n r.1 r.2.1 p.2 r.2.2) =
          ((arsMtf u rbuf i).mapError (Raise.atBit k) >>= fun p =>
            arsSelectorSym bs p.1 k >>= fun r => arsBlockLoop bs n r.1 r.2.1 p.2 r.2.2).map (loopOnto o) := fun u i k => by
      rw [arsMtf_onto, except_map_mapError, except_map_bind, except_bind_map]
      exact congrArg _ (funext fun p => hnext _ _ _)
    rw [arsBlockLoop, arsBlockLoop]
    split
    · rw [arsZeroRun_onto, except_map_bind, except_bind_map]
      refine congrArg _ (funext fun r => ?_)
      simp only [symOnto]
      by_cases hover : arsBlockSize r.2.2.1 < r.2.2.1.len + r.1
      · rw [if_pos hover]
        exact if_pos hover
      · rw [if_neg hover]
        exact (if_neg hover).trans (ih _ { r.2.2.1 with len := r.2.2.1.len + r.1 } _ _)
    · split
      · rfl
      · split
        · exact hmtf u 1 k
        · rw [arsGroupSym_onto, except_map_bind, except_bind_map]
          exact congrArg _ (funext fun r => hmtf _ _ _)

theorem arsBlockData_onto (u : ArsUnit) (k : Nat) : arsBlockData bs (u.onto o) k = (arsBlockData bs u k).map (unitOnto o) := by
  have hsym := arsSelectorSym_onto bs o { u with len := 0 } k
  rw [arsBlockData, arsBlockData, except_bind_map]
  refine (congrArg (· >>= _) hsym).trans ((except_map_bind _ _ _).trans (congrArg _ (funext fun r => ?_)))
  simp only [symOnto, arsBlockLoop_onto, except_map_bind, except_bind_map]
  rfl

theorem arsFooter_onto (u : ArsUnit) (k : Nat) : arsFooter bs (u.onto o) k = (arsFooter bs u k).map (unitOnto o) := by
  have hfield := arsField_onto bs o 1 (arsResetModels u) k
  rw [arsFooter, arsFooter, except_bind_map]
  refine (congrArg (· >>= _) hfield).trans ((except_map_bind _ _ _).trans (congrArg _ (funext fun r => ?_)))
  refine except_ite_map ?_ rfl
  rw [except_bind_map]
  exact (congrArg (· >>= _) (arsField_onto bs o 32 { r.2.1 with eos := r.1 == 1 } r.2.2)).trans (except_map_bind _ _ _)

/-- A block is fetched whatever the last one's output side and the final RLE's state are, and keeps the latter. -/
theorem arsFetchBlock_onto (cfg : Config) (u : ArsUnit) (k : Nat) :
    arsFetchBlock cfg bs (u.onto o) k = (arsFetchBlock cfg bs u k).map fun r => (r.1.withRle o, r.2) := by
  rw [arsFetchBlock, arsFetchBlock]
  refine except_ite_map rfl ?_
  rw [arsField_onto, except_map_bind, except_bind_map]
  refine congrArg _ (funext fun r => ?_)
  dsimp only [symOnto]
  rw [except_bind_map]
  refine (congrArg (· >>= _) (arsField_onto bs o _ _ _)).trans ((except_map_bind _ _ _).trans (congrArg _ (funext fun q => ?_)))
  rw [except_bind_map]
  refine (congrArg (· >>= _) (arsBlockData_onto bs o { arsResetModels q.2.1 with
    randf := r.1 == 1, prim := q.1, mtf := (List.range 256).map (BitVec.ofNat 8) } q.2.2)).trans
    ((except_map_bind _ _ _).trans (congrArg _ (funext fun p => ?_)))
  rw [except_bind_map]
  refine (congrArg (· >>= _) (arsFooter_onto bs o p.1 p.2)).trans ((except_map_bind _ _ _).trans (congrArg _ (funext fun p => ?_)))
  exact except_ite_map rfl rfl

end

end Sys2Proof.Machine
end
section
/-! PROOFS. Arsenic's output stages over fetched blocks (47_arsenic.md R730, R740-R746): the bytes behind the inverse transform and
their final RLE. -/

namespace Sys2Proof.Machine
open Reference (arsExpand arsFlip IsBwt)

/-! ### A fetched block (R730) -/

section
variable {cfg : Config} {bs : List Byte} {u w : ArsUnit} {k k' : Nat}

/-- The block's walk, from where a fetched block is read. -/
def arsAtStart (cfg : Config) (x : ArsUnit) : ArsUnit :=
  { x with lfMap := arsLfMap x.buf, idx := x.prim, ti := 0, rnext := arsRandAt cfg 0, opos := 0 }

theorem arsFetchBlock_eq_ok (h : arsFetchBlock cfg bs u k = .ok (w, k')) :
    u.eos = false ∧ ∃ r1 u1 k1 prim u2 k2 u3 k3 x, arsField bs 1 u k = .ok (r1, u1, k1) ∧
      arsField bs (u1.blockExp + 9) u1 k1 = .ok (prim, u2, k2) ∧
      arsBlockData bs { arsResetModels u2 with randf := r1 == 1, prim, mtf := (List.range 256).map (BitVec.ofNat 8) } k2 = .ok (u3, k3) ∧
      arsFooter bs u3 k3 = .ok (x, k') ∧ (0 < x.len → x.prim < x.len) ∧ w = arsAtStart cfg x := by
  rw [arsFetchBlock] at h
  split at h
  · cases h
  next heos =>
  obtain ⟨⟨r1, u1, k1⟩, hrand, h⟩ := except_bind_eq_ok.1 h
  obtain ⟨⟨prim, u2, k2⟩, hprim, h⟩ := except_bind_eq_ok.1 h
  obtain ⟨⟨u3, k3⟩, hdata, h⟩ := except_bind_eq_ok.1 h
  obtain ⟨⟨x, k4⟩, hfooter, h⟩ := except_bind_eq_ok.1 h
  dsimp only at h
  split at h
  · cases h
  next hindex =>
  cases h
  exact ⟨Bool.eq_false_iff.2 heos, r1, u1, k1, prim, u2, k2, u3, k3, x, hrand, hprim, hdata, hfooter, fun hlen => by omega, rfl⟩

theorem withRle_onto_self (w o : ArsUnit) : w.onto (w.withRle o) = w.withRle o := rfl

/-- A fetched block's walk starts at its primary index, with the bytes and flips of its text before it. -/
theorem arsFetchBlock_starts {text out : List Byte} (h : arsFetchBlock cfg bs u k = .ok (w, k')) (hlen : w.len = text.length)
    (htext : text = [] ∨ IsBwt text w.buf w.prim)
    (hout : out = if w.randf = true then
      arsFlip (fun i => cfg.arsRand.toList.getD i 0) 0 0 (cfg.arsRand.toList.getD 0 0) text else text) :
    w.opos = 0 ∧ (text = [] ∨ ∃ rots, WalkAt text rots w 0) ∧ arsHeld cfg w text = out := by
  obtain ⟨-, -, -, -, -, -, -, -, -, x, -, -, -, -, -, rfl⟩ := arsFetchBlock_eq_ok h
  exact ⟨rfl, htext.imp_right fun h => walkAt_of_isBwt h rfl rfl, hout.symm⟩

end

/-! ### The bytes behind the inverse transform -/

theorem arsHeld_eq_nil {cfg : Config} {u : ArsUnit} {text : List Byte} (h : arsHeld cfg u text = []) : text = [] := by
  cases text with
  | nil => rfl
  | cons b text =>
    rw [arsHeld_cons cfg u 0] at h
    cases h

/-- The unit and the cursor stand in a block, with `rest` before them from there to the end of the blocks; the next block would be
fetched from `v` at `k'`. -/
structure ArsAt (cfg : Config) (bs : List Byte) (v : ArsUnit) (k' : Nat) (base : ArsUnit) (outs : List (List Byte)) (text : List Byte)
    (p : ArsUnit × Nat) (rest : List Byte) : Prop where
  unit   : p.1 = base.onto p.1
  blocks : HoldsArsBlocks cfg bs base p.2 outs v k'
  fuel   : outs.length < arsFuel bs
  len    : p.1.len = text.length
  inText : p.1.opos ≤ text.length
  walk   : text = [] ∨ ∃ rots, WalkAt text rots p.1 p.1.opos
  held   : rest = arsHeld cfg p.1 (text.drop p.1.opos) ++ outs.flatten

/-- The unit and the cursor stand before `rest`. -/
def ArsHolds (cfg : Config) (bs : List Byte) (v : ArsUnit) (k' : Nat) (p : ArsUnit × Nat) (rest : List Byte) : Prop :=
  ∃ base outs text, ArsAt cfg bs v k' base outs text p rest

section
variable {cfg : Config} {bs : List Byte} {v : ArsUnit} {k' : Nat} {base u : ArsUnit} {outs : List (List Byte)} {text rest : List Byte}
  {k : Nat}

/-- Where a block is used up, the next one is fetched. -/
theorem ArsAt.fetch {out : List Byte} (h : ArsAt cfg bs v k' base (out :: outs) text (u, k) rest) (hend : u.len ≤ u.opos) :
    ∃ w text' k2, arsFetchBlock cfg bs u k = .ok (w.withRle u, k2) ∧ ArsAt cfg bs v k' w outs text' (w.withRle u, k2) rest := by
  obtain ⟨w, k2, text', hfetch, hlen, htext, hout, hblocks⟩ := h.blocks
  obtain ⟨hopos, hwalk, hheld⟩ := arsFetchBlock_starts hfetch hlen htext hout
  have hfetch' : arsFetchBlock cfg bs u k = .ok (w.withRle u, k2) := by
    have honto := arsFetchBlock_onto bs u cfg base k
    rw [← h.unit, hfetch] at honto
    exact honto
  have hfuel := h.fuel
  have hlenText := h.len
  have hrest := h.held
  dsimp only at hlenText hrest
  rw [List.drop_eq_nil_of_le (hlenText ▸ hend), arsHeld_nil, List.nil_append, List.flatten_cons, ← hheld] at hrest
  have hopos' : (w.withRle u).opos = 0 := hopos
  refine ⟨w, text', k2, hfetch', withRle_onto_self w u, hblocks, by rw [List.length_cons] at hfuel; omega, hlen, ?_, ?_, ?_⟩
  · exact hopos'.le.trans (Nat.zero_le _)
  · dsimp only
    rw [hopos']
    exact hwalk.imp_right fun ⟨rots, hw⟩ => ⟨rots, hw.order, hw.buf, hw.lfMap, hw.row⟩
  · dsimp only
    rw [hopos', List.drop_zero, hrest]
    rfl

/-- `while opos >= L: FetchBlock()` finds the next byte's block. -/
theorem ArsAt.arsFetch_ok {n : Nat} {b : Byte} (h : ArsAt cfg bs v k' base outs text (u, k) (b :: rest)) (hn : outs.length < n) :
    ∃ w k2 base' outs' text', arsFetch cfg bs n u k = .ok (w, k2) ∧ w = w.withRle u ∧ w.opos < w.len ∧
      ArsAt cfg bs v k' base' outs' text' (w, k2) (b :: rest) := by
  induction n generalizing base u outs text k with
  | zero => omega
  | succ n ih =>
    rw [arsFetch]
    split
    · next hend =>
      cases outs with
      | nil =>
        have hrest := h.held
        have hlen := h.len
        dsimp only at hlen hrest
        rw [List.drop_eq_nil_of_le (hlen ▸ hend), arsHeld_nil] at hrest
        cases hrest
      | cons out outs =>
        obtain ⟨w, text', k2, hfetch, hnext⟩ := h.fetch hend
        obtain ⟨w', k3, base', outs', text'', hloop, hrle, hlt, hat⟩ := ih hnext (by rw [List.length_cons] at hn; omega)
        exact ⟨w', k3, base', outs', text'', by rw [hfetch, except_ok_bind]; exact hloop, hrle, hlt, hat⟩
    · next hmore => exact ⟨u, k, base, outs, text, rfl, rfl, by omega, h⟩

/-- Behind the last byte the fetch ends with the error of the block behind the last one. -/
theorem ArsAt.arsFetch_error {n : Nat} {q : Raise} (h : ArsAt cfg bs v k' base outs text (u, k) []) (hn : outs.length < n)
    (hq : arsFetchBlock cfg bs v k' = .error q) : arsFetch cfg bs n u k = .error q := by
  induction n generalizing base u outs text k with
  | zero => omega
  | succ n ih =>
    obtain ⟨hheld, -⟩ := List.append_eq_nil_iff.1 h.held.symm
    have hend : u.len ≤ u.opos := h.len.le.trans (List.drop_eq_nil_iff.1 (arsHeld_eq_nil hheld))
    rw [arsFetch, if_pos hend]
    cases outs with
    | nil =>
      obtain ⟨hv, hk⟩ := h.blocks
      dsimp only at hv hk
      have hunit := h.unit
      have honto := arsFetchBlock_onto bs u cfg base k
      dsimp only at hunit
      rw [← hunit, ← hv, ← hk, hq] at honto
      rw [← hk, honto]
      rfl
    | cons out outs =>
      obtain ⟨w, text', k2, hfetch, hnext⟩ := h.fetch hend
      rw [hfetch, except_ok_bind]
      exact ih hnext (by rw [List.length_cons] at hn; omega)

/-- The next byte, and the state of the final RLE unchanged. -/
theorem ArsHolds.next {b : Byte} (h : ArsHolds cfg bs v k' (u, k) (b :: rest)) :
    ∃ w k2, arsNextByte cfg bs u k = .ok (b, w, k2) ∧ w = w.withRle u ∧ ArsHolds cfg bs v k' (w, k2) rest := by
  obtain ⟨base, outs, text, h⟩ := h
  obtain ⟨w, k2, base', outs', text', hfetch, hrle, hlt, hat⟩ := h.arsFetch_ok h.fuel
  have hlen := hat.len
  have hheld := hat.held
  have hunit := hat.unit
  dsimp only at hlen hheld hunit
  have hm : w.opos < text'.length := hlen ▸ hlt
  rcases hat.walk with hnil | ⟨rots, hwalk⟩
  · rw [hnil] at hm
    cases hm
  dsimp only at hwalk
  obtain ⟨idx, hbyte, hnext⟩ := hwalk.next cfg hm
  rw [List.drop_eq_getElem_cons hm, arsHeld_cons cfg w idx, List.cons_append] at hheld
  obtain ⟨hb, hrest⟩ := List.cons.inj hheld
  have hstepped : arsStepped cfg w idx = (arsStepped cfg w idx).withRle w ∧
      arsStepped cfg w idx = w.onto (arsStepped cfg w idx) ∧ (arsStepped cfg w idx).len = w.len := by
    unfold arsStepped
    split <;> exact ⟨rfl, rfl, rfl⟩
  obtain ⟨hrle', honto, hlen'⟩ := hstepped
  refine ⟨arsStepped cfg w idx, k2, ?_, ?_, base', outs', text', ?_, hat.blocks, hat.fuel, ?_, ?_, ?_, ?_⟩
  · rw [arsNextByte, hfetch, except_ok_bind]
    dsimp only
    rw [hbyte, hb]
    rfl
  · rw [hrle', hrle]
    rfl
  · dsimp only
    rw [honto, hunit]
    rfl
  · exact hlen'.trans hlen
  · dsimp only
    rw [arsStepped_opos]
    exact hm
  · dsimp only
    rw [arsStepped_opos]
    exact .inr ⟨rots, hnext⟩
  · dsimp only
    rw [arsStepped_opos]
    exact hrest

theorem ArsHolds.at_end {q : Raise} (h : ArsHolds cfg bs v k' (u, k) []) (hq : arsFetchBlock cfg bs v k' = .error q) :
    arsNextByte cfg bs u k = .error q := by
  obtain ⟨base, outs, text, h⟩ := h
  rw [arsNextByte, h.arsFetch_error h.fuel hq, except_error_bind]

/-- Where the unit stands does not depend on the final RLE. -/
theorem ArsHolds.withRle (h : ArsHolds cfg bs v k' (u, k) rest) (o : ArsUnit) : ArsHolds cfg bs v k' (u.withRle o, k) rest := by
  obtain ⟨base, outs, text, h⟩ := h
  have hunit := congrArg (ArsUnit.withRle · o) h.unit
  exact ⟨base, outs, text, hunit, h.blocks, h.fuel, h.len, h.inText,
    h.walk.imp_right fun ⟨rots, hw⟩ => ⟨rots, hw.order, hw.buf, hw.lfMap, hw.row⟩, h.held⟩

/-! ### The final RLE (R745, R746) -/

/-- The final RLE's copies that are due, and the expansion of the bytes before it. -/
def ArsRleAt (cfg : Config) (bs : List Byte) (v : ArsUnit) (k' : Nat) (p : ArsUnit × Nat) (out : List Byte) : Prop :=
  ∃ rest, ArsHolds cfg bs v k' p rest ∧ out = List.replicate p.1.rep p.1.rprev ++ arsExpand p.1.rprev p.1.streak rest

/-- A byte that is no count. -/
theorem arsRlePlain_gives {b : Byte} {out : List Byte} {c : Byte} (h : ArsHolds cfg bs v k' (u, k) rest) (hrep : u.rep = 0)
    (hstreak : u.streak ≠ 4) (hout : c :: out = arsExpand u.rprev u.streak (b :: rest)) :
    ∃ w, arsRlePlain u b k = (c, w) ∧ ArsRleAt cfg bs v k' w out := by
  rw [arsExpand, if_neg hstreak] at hout
  rw [arsRlePlain]
  split at hout
  · next hb =>
    obtain ⟨rfl, hexpand⟩ := List.cons.inj hout
    rw [if_pos hb]
    exact ⟨_, rfl, rest, h.withRle { u with streak := u.streak + 1 }, by rw [hexpand]; dsimp only; rw [hrep]; rfl⟩
  · next hb =>
    obtain ⟨rfl, hexpand⟩ := List.cons.inj hout
    rw [if_neg hb]
    exact ⟨_, rfl, rest, h.withRle { u with rprev := c, streak := 1 }, by rw [hexpand]; dsimp only; rw [hrep]; rfl⟩

/-- A byte that is a count and not 0. -/
theorem replicate_count {b : Byte} (hb : b ≠ 0) (c : Byte) : List.replicate b.toNat c = c :: List.replicate (b.toNat - 1) c := by
  have h0 : b.toNat ≠ 0 := fun h => hb (BitVec.eq_of_toNat_eq h)
  obtain ⟨n, hn⟩ := Nat.exists_eq_succ_of_ne_zero h0
  rw [hn]
  rfl

theorem arsRleStep_of_due (h : 0 < u.rep) : arsRleStep cfg bs (u, k) = .ok (u.rprev, { u with rep := u.rep - 1 }, k) := if_pos h

/-- No copy due and no count expected: the next byte. -/
theorem arsRleStep_of_plain (hrep : u.rep = 0) (hstreak : u.streak ≠ 4) {b : Byte} {w : ArsUnit} {k2 : Nat}
    (h : arsNextByte cfg bs u k = .ok (b, w, k2)) (hrle : w = w.withRle u) : arsRleStep cfg bs (u, k) = .ok (arsRlePlain w b k2) := by
  have hw : w.streak ≠ 4 := by
    rw [hrle]
    exact hstreak
  rw [arsRleStep, if_neg (by omega), h, except_ok_bind]
  exact if_neg hw

theorem arsRleStep_of_count (hrep : u.rep = 0) (hstreak : u.streak = 4) {b : Byte} {w : ArsUnit} {k2 : Nat}
    (h : arsNextByte cfg bs u k = .ok (b, w, k2)) (hrle : w = w.withRle u) :
    arsRleStep cfg bs (u, k) =
      if b = 0 then arsNextByte cfg bs { w with streak := 0 } k2 >>= fun r => .ok (arsRlePlain r.2.1 r.1 r.2.2)
      else .ok (u.rprev, { w with streak := 0, rep := b.toNat - 1 }, k2) := by
  have hw : w.streak = 4 ∧ w.rprev = u.rprev := by
    rw [hrle]
    exact ⟨hstreak, rfl⟩
  rw [arsRleStep, if_neg (by omega), h, except_ok_bind, ← hw.2]
  exact if_pos hw.1

theorem streams_arsRleStep (cfg : Config) (bs : List Byte) (v : ArsUnit) (k' : Nat) :
    Streams (arsRleStep cfg bs) (ArsRleAt cfg bs v k') := by
  rintro ⟨u, k⟩ c out ⟨rest, h, hout⟩
  dsimp only at hout
  rcases Nat.eq_zero_or_eq_succ_pred u.rep with hrep | hrep
  · rw [hrep, List.replicate_zero, List.nil_append] at hout
    cases rest with
    | nil => cases hout
    | cons b rest =>
      obtain ⟨w, k2, hbyte, hrle, hnext⟩ := h.next
      have hfields : w.rep = u.rep ∧ w.streak = u.streak ∧ w.rprev = u.rprev := by
        rw [hrle]
        exact ⟨rfl, rfl, rfl⟩
      obtain ⟨hwrep, hwstreak, hwprev⟩ := hfields
      by_cases hstreak : u.streak = 4
      · rw [arsRleStep_of_count hrep hstreak hbyte hrle]
        rw [arsExpand, if_pos hstreak] at hout
        have hzero := hnext.withRle { w with streak := 0 }
        split
        · next hb =>
          rw [hb, show (0 : Byte).toNat = 0 from rfl, List.replicate_zero, List.nil_append] at hout
          cases rest with
          | nil => cases hout
          | cons b' rest =>
            obtain ⟨w', k3, hbyte', hrle', hnext'⟩ := hzero.next
            have hbyte'' : arsNextByte cfg bs { w with streak := 0 } k2 = .ok (b', w', k3) := hbyte'
            have hfields' : w'.rep = 0 ∧ w'.streak = 0 ∧ w'.rprev = u.rprev := by
              rw [hrle']
              exact ⟨hwrep.trans hrep, rfl, hwprev⟩
            obtain ⟨hrep', hstreak', hprev'⟩ := hfields'
            rw [← hprev', ← hstreak'] at hout
            obtain ⟨p, hp, hat⟩ := arsRlePlain_gives hnext' hrep' (by omega) hout
            exact ⟨p, by rw [hbyte'', except_ok_bind]; exact congrArg _ hp, hat⟩
        · next hb =>
          rw [replicate_count hb, List.cons_append] at hout
          obtain ⟨rfl, hexpand⟩ := List.cons.inj hout
          refine ⟨_, rfl, rest, hnext.withRle { w with streak := 0, rep := b.toNat - 1 }, ?_⟩
          rw [hexpand]
          dsimp only
          rw [hwprev]
      · rw [arsRleStep_of_plain hrep hstreak hbyte hrle]
        rw [← hwprev, ← hwstreak] at hout
        obtain ⟨p, hp, hat⟩ := arsRlePlain_gives hnext (hwrep.trans hrep) (by omega) hout
        exact ⟨p, congrArg _ hp, hat⟩
  · rw [hrep, List.replicate_succ, List.cons_append] at hout
    obtain ⟨rfl, hexpand⟩ := List.cons.inj hout
    exact ⟨_, arsRleStep_of_due (by omega), rest, h.withRle { u with rep := u.rep - 1 }, hexpand⟩

theorem arsRleStep_of_error {q : Raise} (hrep : u.rep = 0) (h : arsNextByte cfg bs u k = .error q) :
    arsRleStep cfg bs (u, k) = .error q := by
  rw [arsRleStep, if_neg (by omega), h, except_error_bind]

/-- Behind the last byte of the expansion the step ends with the error of the block behind the last one. -/
theorem arsRleStep_at_end {q : Raise} (hq : arsFetchBlock cfg bs v k' = .error q) {p : ArsUnit × Nat}
    (h : ArsRleAt cfg bs v k' p []) : arsRleStep cfg bs p = .error q := by
  obtain ⟨u, k⟩ := p
  obtain ⟨rest, h, hout⟩ := h
  obtain ⟨hrep, hout⟩ := List.append_eq_nil_iff.1 hout.symm
  have hrep := List.replicate_eq_nil_iff _ |>.1 hrep
  dsimp only at hrep hout
  cases rest with
  | nil => exact arsRleStep_of_error hrep (h.at_end hq)
  | cons b rest =>
    obtain ⟨w, k2, hbyte, hrle, hnext⟩ := h.next
    rw [arsExpand] at hout
    split at hout
    · next hstreak =>
      obtain ⟨hb, hout⟩ := List.append_eq_nil_iff.1 hout
      have hb : b = 0 := BitVec.eq_of_toNat_eq (List.replicate_eq_nil_iff _ |>.1 hb)
      rw [arsRleStep_of_count hrep hstreak hbyte hrle, if_pos hb]
      cases rest with
      | nil =>
        have hend : arsNextByte cfg bs { w with streak := 0 } k2 = .error q := (hnext.withRle { w with streak := 0 }).at_end hq
        rw [hend, except_error_bind]
      | cons b' rest =>
        rw [arsExpand, if_neg (by decide)] at hout
        split at hout <;> cases hout
    · split at hout <;> cases hout

end

end Sys2Proof.Machine
end
section
/-! PROOFS. What a computation gives and the errors that it can end with, put together from its parts. -/

namespace Sys2Proof.Machine

/-- The computation answers only what meets `post`, and ends only with errors that meet `errs`. -/
structure Gives {α : Type} (errs : Err → Prop) (post : α → Prop) (x : Except Raise α) : Prop where
  ok    : ∀ a, x = .ok a → post a
  error : ∀ q, x = .error q → errs q.err

section
variable {α β : Type} {errs errs' : Err → Prop} {post : α → Prop} {post' : β → Prop}

theorem gives_ok {a : α} (h : post a) : Gives errs post (.ok a) :=
  ⟨fun _ ha => (by cases ha; exact h), fun _ hq => (by cases hq)⟩

theorem gives_error {q : Raise} (h : errs q.err) : Gives errs post (.error q) :=
  ⟨fun _ ha => (by cases ha), fun _ hq => (by cases hq; exact h)⟩

theorem Gives.bind {x : Except Raise α} {f : α → Except Raise β} (hx : Gives errs post x) (hf : ∀ a, post a → Gives errs post' (f a)) :
    Gives errs post' (x >>= f) := by
  cases x with
  | ok a => exact hf a (hx.ok a rfl)
  | error q => exact gives_error (hx.error q rfl)

theorem Gives.mono {x : Except Raise α} {post₂ : α → Prop} (hx : Gives errs post x) (herrs : ∀ e, errs e → errs' e)
    (hpost : ∀ a, post a → post₂ a) : Gives errs' post₂ x :=
  ⟨fun a ha => hpost a (hx.ok a ha), fun q hq => herrs _ (hx.error q hq)⟩

theorem Gives.ite {c : Prop} [Decidable c] {x y : Except Raise α} (hx : c → Gives errs post x) (hy : ¬ c → Gives errs post y) :
    Gives errs post (if c then x else y) := by
  split
  · next h => exact hx h
  · next h => exact hy h

/-- Adding to the byte count of an error does not change which it is. -/
theorem Gives.mapAfter {x : Except Raise α} (n : Nat) (hx : Gives errs post x) : Gives errs post (x.mapError (Raise.after n)) := by
  cases x with
  | ok a => exact gives_ok (hx.ok a rfl)
  | error q => exact gives_error (hx.error q rfl)

/-- A computation whose errors name no cursor yet. -/
theorem gives_mapError {x : Except Err α} {f : Err → Raise} (hf : ∀ e, (f e).err = e) (hok : ∀ a, x = .ok a → post a)
    (herr : ∀ e, x = .error e → errs e) : Gives errs post (x.mapError f) := by
  cases x with
  | ok a => exact gives_ok (hok a rfl)
  | error e => exact gives_error (by rw [hf]; exact herr e rfl)

theorem gives_orEnd {e : Err} {k : Nat} {r : Option (Nat × Nat)} (he : errs e) : Gives errs (fun _ => True) (orEnd e k r) := by
  cases r with
  | none => exact gives_error he
  | some r => exact gives_ok trivial

/-- A byte loop whose step keeps an invariant. -/
theorem gives_forkLoop {σ : Type} {p : σ → Except Raise (Byte × σ)} {inv : σ → Prop}
    (hp : ∀ u, inv u → Gives errs (fun r => inv r.2) (p u)) (n : Nat) {u : σ} (hu : inv u) :
    Gives errs (fun r : List Byte × σ => r.1.length = n ∧ inv r.2) (forkLoop p n u) := by
  induction n generalizing u with
  | zero => exact gives_ok ⟨rfl, hu⟩
  | succ n ih =>
    refine (hp u hu).bind fun r hr => ((ih hr).mapAfter 1).bind fun q hq => gives_ok ⟨?_, hq.2⟩
    rw [List.length_cons, hq.1]

end

end Sys2Proof.Machine
end
section
/-! PROOFS. Arsenic never finds a scale of 0 nor leaves its LF-map (47_arsenic.md R723, R741): what its unit keeps. -/

namespace Sys2Proof.Machine

/-! ### The coder and the models -/

/-- The coder's range is within bounds and every model is sound (47_arsenic.md R722-R725). -/
structure ArsSound (u : ArsUnit) : Prop where
  range    : ArsRangeOk u.range
  primary  : ArsModelOk u.primary
  selector : ArsModelOk u.selector
  groups   : ∀ g : Fin 7, ArsModelOk u.groups[g]

theorem arsGroups_get_ok (g : Fin 7) : ArsModelOk arsGroups[g] := arsGroups_ok _ (by simp)

theorem arsSound_init (code : Nat) : ArsSound (arsInit code) :=
  ⟨⟨by show 2 ^ 24 < 2 ^ 25; omega, le_rfl⟩, arsPrimary_ok, arsSelector_ok, arsGroups_get_ok⟩

theorem ArsSound.resetModels {u : ArsUnit} (h : ArsSound u) : ArsSound (arsResetModels u) :=
  ⟨h.range, h.primary, arsSelector_ok, arsGroups_get_ok⟩

/-- What decoding a symbol gives: a sound unit with the same block; the one error is DEC_UNDERFLOW. -/
abbrev GivesSymbol (u : ArsUnit) (x : Except Raise (Nat × ArsUnit × Nat)) : Prop :=
  Gives (· = .decUnderflow) (fun r => ArsSound r.2.1 ∧ SameBlock u r.2.1) x

section
variable {u : ArsUnit} (h : ArsSound u) (bs : List Byte) (k : Nat)
include h

theorem gives_arsPrimarySym : GivesSymbol u (arsPrimarySym bs u k) := by
  have hdecode : Gives (· = .decUnderflow) (fun r : Nat × ArsCoder × ArsModel => ArsRangeOk r.2.1.range ∧ ArsModelOk r.2.2)
      (arsDecode bs (arsCoderOf u k) u.primary) := by
    refine ⟨fun r hr => ?_, fun q hq => arsDecode_error h.primary h.range hq⟩
    obtain ⟨-, -, hrange, hmodel, -⟩ := arsDecode_ok h.primary h.range hr
    exact ⟨hrange, hmodel⟩
  exact hdecode.bind fun r hr => gives_ok ⟨⟨hr.1, hr.2, h.selector, h.groups⟩, by constructor <;> rfl⟩

theorem gives_arsSelectorSym : GivesSymbol u (arsSelectorSym bs u k) := by
  have hdecode : Gives (· = .decUnderflow) (fun r : Nat × ArsCoder × ArsModel => ArsRangeOk r.2.1.range ∧ ArsModelOk r.2.2)
      (arsDecode bs (arsCoderOf u k) u.selector) := by
    refine ⟨fun r hr => ?_, fun q hq => arsDecode_error h.selector h.range hq⟩
    obtain ⟨-, -, hrange, hmodel, -⟩ := arsDecode_ok h.selector h.range hr
    exact ⟨hrange, hmodel⟩
  exact hdecode.bind fun r hr => gives_ok ⟨⟨hr.1, h.primary, hr.2, h.groups⟩, by constructor <;> rfl⟩

theorem gives_arsGroupSym (g : Fin 7) : GivesSymbol u (arsGroupSym bs g u k) := by
  have hdecode : Gives (· = .decUnderflow) (fun r : Nat × ArsCoder × ArsModel => ArsRangeOk r.2.1.range ∧ ArsModelOk r.2.2)
      (arsDecode bs (arsCoderOf u k) u.groups[g]) := by
    refine ⟨fun r hr => ?_, fun q hq => arsDecode_error (h.groups g) h.range hq⟩
    obtain ⟨-, -, hrange, hmodel, -⟩ := arsDecode_ok (h.groups g) h.range hr
    exact ⟨hrange, hmodel⟩
  refine hdecode.bind fun r hr => gives_ok ⟨⟨hr.1, h.primary, h.selector, fun g' => ?_⟩, by constructor <;> rfl⟩
  show ArsModelOk (u.groups.set g r.2.2)[g']
  rw [Fin.getElem_fin, Vector.getElem_set]
  split
  · exact hr.2
  · exact h.groups g'

theorem gives_arsField (n : Nat) : GivesSymbol u (arsField bs n u k) := by
  induction n generalizing u k with
  | zero => exact gives_ok ⟨h, sameBlock_refl u⟩
  | succ n ih =>
    exact (gives_arsPrimarySym h bs k).bind fun r hr => (ih hr.1 r.2.2).bind fun q hq => gives_ok ⟨hq.1, hr.2.trans hq.2⟩

/-! ### A block's data (R732-R737) -/

theorem gives_arsZeroRun (n total p sel : Nat) :
    Gives (· = .decUnderflow) (fun r : Nat × Nat × ArsUnit × Nat => ArsSound r.2.2.1 ∧ SameBlock u r.2.2.1)
      (arsZeroRun bs n total p sel u k) := by
  induction n generalizing u total p sel k with
  | zero => exact gives_error rfl
  | succ n ih =>
    rw [arsZeroRun]
    refine Gives.ite (fun _ => ?_) fun _ => gives_ok ⟨h, sameBlock_refl u⟩
    exact (gives_arsSelectorSym h bs k).bind fun r hr => (ih hr.1 r.2.2 _ _ r.1).mono (fun _ he => he) fun q hq =>
      ⟨hq.1, hr.2.trans hq.2⟩

/-- The errors that a block's data can end with. -/
def ArsDataErr (e : Err) : Prop := e = .decUnderflow ∨ e = .decArsOverflow

/-- A sound unit inside a block, with as many bytes as it counts and the header of `u`. -/
structure ArsFilled (u : ArsUnit) (r : ArsUnit) (rbuf : List Byte) : Prop where
  sound : ArsSound r
  len   : rbuf.length = r.len
  prim  : r.prim = u.prim

omit h in
theorem ArsFilled.symbol {u r r' : ArsUnit} {rbuf : List Byte} (h : ArsFilled u r rbuf) (hsound : ArsSound r') (hsame : SameBlock r r') :
    ArsFilled u r' rbuf :=
  ⟨hsound, h.len.trans hsame.len.symm, hsame.prim.trans h.prim⟩

omit h in
theorem gives_arsMtf {r : ArsUnit} {rbuf : List Byte} (h : ArsFilled u r rbuf) (i : Nat) :
    Gives ArsDataErr (fun p : ArsUnit × List Byte => ArsFilled u p.1 p.2) ((arsMtf r rbuf i).mapError (Raise.atBit k)) := by
  rw [arsMtf_eq]
  split
  · exact gives_error (.inr rfl)
  · exact gives_ok ⟨⟨h.sound.range, h.sound.primary, h.sound.selector, h.sound.groups⟩, congrArg (· + 1) h.len, h.prim⟩

omit h in
theorem gives_arsBlockLoop (n sel : Nat) {r : ArsUnit} {rbuf : List Byte} (h : ArsFilled u r rbuf) :
    Gives ArsDataErr (fun q : ArsUnit × List Byte × Nat => ArsFilled u q.1 q.2.1) (arsBlockLoop bs n sel r rbuf k) := by
  induction n generalizing r sel rbuf k with
  | zero => exact gives_error (.inl rfl)
  | succ n ih =>
    have hnext : ∀ (r : ArsUnit) (rbuf : List Byte) (k : Nat), ArsFilled u r rbuf →
        Gives ArsDataErr (fun q : ArsUnit × List Byte × Nat => ArsFilled u q.1 q.2.1)
          (arsSelectorSym bs r k >>= fun q => arsBlockLoop bs n q.1 q.2.1 rbuf q.2.2) := fun r rbuf k h =>
      ((gives_arsSelectorSym h.sound bs k).mono (fun _ => .inl) fun _ hq => hq).bind fun q hq =>
        ih q.2.2 q.1 (h.symbol hq.1 hq.2)
    rw [arsBlockLoop]
    refine Gives.ite (fun _ => ?_) fun _ => Gives.ite (fun _ => gives_ok h) fun _ => Gives.ite (fun _ => ?_) fun _ => ?_
    · refine ((gives_arsZeroRun h.sound bs k _ 0 0 sel).mono (fun _ => .inl) fun _ hq => hq).bind fun q hq =>
        Gives.ite (fun _ => gives_error (.inr rfl)) fun _ => ?_
      refine ih (r := { q.2.2.1 with len := q.2.2.1.len + q.1 }) _ _ ⟨⟨hq.1.range, hq.1.primary, hq.1.selector, hq.1.groups⟩, ?_,
        hq.2.prim.trans h.prim⟩
      rw [List.length_append, List.length_replicate, h.len, ← hq.2.len, Nat.add_comm]
    · exact (gives_arsMtf k h 1).bind fun p hp => hnext p.1 p.2 k hp
    · exact ((gives_arsGroupSym h.sound bs k _).mono (fun _ => .inl) fun _ hq => hq).bind fun q hq =>
        (gives_arsMtf q.2.2 (h.symbol hq.1 hq.2) q.1).bind fun p hp => hnext p.1 p.2 q.2.2 hp

theorem gives_arsBlockData :
    Gives ArsDataErr (fun r : ArsUnit × Nat => ArsSound r.1 ∧ r.1.buf.length = r.1.len ∧ r.1.prim = u.prim) (arsBlockData bs u k) := by
  have hstart : ArsSound { u with len := 0 } := ⟨h.range, h.primary, h.selector, h.groups⟩
  refine ((gives_arsSelectorSym hstart bs k).mono (fun _ => .inl) fun _ hr => hr).bind fun r hr =>
    (gives_arsBlockLoop bs r.2.2 _ r.1 (u := u) (rbuf := []) ⟨hr.1, hr.2.len.symm, hr.2.prim⟩).bind fun q hq =>
      gives_ok ⟨⟨hq.sound.range, hq.sound.primary, hq.sound.selector, hq.sound.groups⟩, ?_, hq.prim⟩
  exact (List.length_reverse).trans hq.len

/-- What the footer leaves alone. -/
structure SameData (u v : ArsUnit) : Prop where
  buf  : v.buf = u.buf
  len  : v.len = u.len
  prim : v.prim = u.prim

theorem gives_arsFooter :
    Gives (· = .decUnderflow) (fun r : ArsUnit × Nat => ArsSound r.1 ∧ SameData u r.1) (arsFooter bs u k) := by
  refine (gives_arsField h.resetModels bs k 1).bind fun r hr => ?_
  have hsound : ArsSound { r.2.1 with eos := r.1 == 1 } := ⟨hr.1.range, hr.1.primary, hr.1.selector, hr.1.groups⟩
  refine Gives.ite (fun _ => ?_) fun _ => gives_ok ⟨hsound, hr.2.buf, hr.2.len, hr.2.prim⟩
  exact (gives_arsField hsound bs r.2.2 32).bind fun q hq => gives_ok
    ⟨hq.1, hq.2.buf.trans hr.2.buf, hq.2.len.trans hr.2.len, hq.2.prim.trans hr.2.prim⟩

end

/-! ### The LF-map (R741) -/

/-- The parts of a list of each key are the list in another order. -/
theorem flatMap_filter_perm {α : Type} (f : α → Nat) (n : Nat) (l : List α) (hlt : ∀ a ∈ l, f a < n) :
    ((List.range n).flatMap fun c => l.filter fun a => f a == c).Perm l := by
  have hperm := List.mergeSort_perm l fun a b => decide (f a ≤ f b)
  have hsorted : (l.mergeSort fun a b => decide (f a ≤ f b)).Pairwise fun a b => f a ≤ f b :=
    (List.pairwise_mergeSort (le := fun a b => decide (f a ≤ f b)) (by simpa using fun a b c => le_trans)
      (by simpa using fun a b => le_total (f a) (f b)) l).imp (by simp)
  have hparts := sorted_eq_flatMap_filter f n _ hsorted fun a ha => hlt a (hperm.mem_iff.1 ha)
  exact (List.Perm.flatMap_left _ fun c _ => hperm.symm.filter _).trans (hparts ▸ hperm)

/-- The LF-map lists every place of the buffer once. -/
theorem arsLfMap_perm (buf : List Byte) : (arsLfMap buf).Perm (List.range buf.length) := by
  have hperm := (flatMap_filter_perm (fun p : Byte × Nat => p.1.toNat) 256 buf.zipIdx fun p _ => p.1.isLt).map (·.2)
  rw [List.map_flatMap, List.zipIdx_map_snd, ← List.range_eq_range'] at hperm
  exact hperm

/-- A place of the buffer leads to another. -/
theorem arsLfMap_get {buf : List Byte} {i : Nat} (h : i < buf.length) : ∃ j < buf.length, (arsLfMap buf)[i]? = some j := by
  have hperm := arsLfMap_perm buf
  have hi : i < (arsLfMap buf).length := by rw [hperm.length_eq, List.length_range]; exact h
  exact ⟨_, List.mem_range.1 (hperm.mem_iff.1 (List.getElem_mem hi)), List.getElem?_eq_getElem hi⟩

/-! ### The unit between two bytes -/

/-- The unit is sound, the LF-map is its buffer's, and while the block has bytes the walk stands at a place of the buffer. -/
structure ArsWalks (u : ArsUnit) : Prop where
  sound : ArsSound u
  buf   : u.buf.length = u.len
  lfMap : u.lfMap = arsLfMap u.buf
  place : u.opos < u.len → u.idx < u.len

/-- The errors that fetching a byte can end with. -/
def ArsFetchErr (e : Err) : Prop := ArsDataErr e ∨ e = .trnArsEos ∨ e = .decArsBwtIndex

theorem gives_arsFetchBlock (cfg : Config) (bs : List Byte) {u : ArsUnit} (h : ArsSound u) (k : Nat) :
    Gives ArsFetchErr (fun r : ArsUnit × Nat => ArsWalks r.1) (arsFetchBlock cfg bs u k) := by
  have hunder : ∀ e, e = Err.decUnderflow → ArsFetchErr e := fun _ he => .inl (.inl he)
  rw [arsFetchBlock]
  refine Gives.ite (fun _ => gives_error (.inr (.inl rfl))) fun _ => ?_
  refine ((gives_arsField h bs k 1).mono hunder fun _ hr => hr).bind fun r hr =>
    ((gives_arsField hr.1 bs r.2.2 _).mono hunder fun _ hq => hq).bind fun q hq => ?_
  have hstart : ArsSound { arsResetModels q.2.1 with randf := r.1 == 1, prim := q.1, mtf := (List.range 256).map (BitVec.ofNat 8) } :=
    ⟨hq.1.range, hq.1.primary, arsSelector_ok, arsGroups_get_ok⟩
  refine ((gives_arsBlockData hstart bs q.2.2).mono (fun _ => .inl) fun _ hd => hd).bind fun d hd =>
    ((gives_arsFooter hd.1 bs d.2).mono hunder fun _ hf => hf).bind fun f hf => ?_
  refine Gives.ite (fun _ => gives_error (.inr (.inr rfl))) fun hindex => gives_ok ?_
  refine ⟨⟨hf.1.range, hf.1.primary, hf.1.selector, hf.1.groups⟩, ?_, rfl, fun hpos => ?_⟩
  · show f.1.buf.length = f.1.len
    rw [hf.2.buf, hd.2.1, hf.2.len]
  · show f.1.prim < f.1.len
    have hpos : 0 < f.1.len := hpos
    omega

theorem gives_arsFetch (cfg : Config) (bs : List Byte) (n : Nat) {u : ArsUnit} (h : ArsWalks u) (k : Nat) :
    Gives ArsFetchErr (fun r : ArsUnit × Nat => ArsWalks r.1 ∧ r.1.opos < r.1.len) (arsFetch cfg bs n u k) := by
  induction n generalizing u k with
  | zero => exact gives_error (.inl (.inl rfl))
  | succ n ih =>
    rw [arsFetch]
    exact Gives.ite (fun _ => (gives_arsFetchBlock cfg bs h.sound k).bind fun r hr => ih hr r.2) fun hmore =>
      gives_ok ⟨h, Nat.not_le.1 hmore⟩

/-- While the block has bytes, the walk finds the next one. -/
theorem ArsWalks.next (cfg : Config) {u : ArsUnit} (h : ArsWalks u) (hmore : u.opos < u.len) :
    ∃ b idx, arsBwtNext cfg u = .ok (b, arsStepped cfg u idx) ∧ ArsWalks (arsStepped cfg u idx) := by
  have hplace : u.idx < u.buf.length := by rw [h.buf]; exact h.place hmore
  obtain ⟨idx, hlt, hidx⟩ := arsLfMap_get hplace
  rw [← h.lfMap] at hidx
  refine ⟨_, idx, arsBwtNext_eq hidx (List.getElem?_eq_getElem hlt), ?_⟩
  have hidx' : idx < u.len := by rw [← h.buf]; exact hlt
  unfold arsStepped
  split <;> exact ⟨⟨h.sound.range, h.sound.primary, h.sound.selector, h.sound.groups⟩, h.buf, h.lfMap, fun _ => hidx'⟩

theorem gives_arsNextByte (cfg : Config) (bs : List Byte) {u : ArsUnit} (h : ArsWalks u) (k : Nat) :
    Gives ArsFetchErr (fun r : Byte × ArsUnit × Nat => ArsWalks r.2.1) (arsNextByte cfg bs u k) := by
  refine (gives_arsFetch cfg bs (arsFuel bs) h k).bind fun r hr => ?_
  obtain ⟨b, idx, hbyte, hnext⟩ := hr.1.next cfg hr.2
  dsimp only
  rw [hbyte]
  exact gives_ok hnext

/-- The final RLE's state is no part of this. -/
theorem ArsWalks.withRle {u : ArsUnit} (h : ArsWalks u) (o : ArsUnit) : ArsWalks (u.withRle o) :=
  ⟨⟨h.sound.range, h.sound.primary, h.sound.selector, h.sound.groups⟩, h.buf, h.lfMap, h.place⟩

theorem ArsWalks.rlePlain {u : ArsUnit} (h : ArsWalks u) (b : Byte) (k : Nat) : ArsWalks (arsRlePlain u b k).2.1 := by
  rw [arsRlePlain]
  split
  · exact h.withRle { u with streak := u.streak + 1 }
  · exact h.withRle { u with rprev := b, streak := 1 }

theorem gives_arsRleStep (cfg : Config) (bs : List Byte) {p : ArsUnit × Nat} (h : ArsWalks p.1) :
    Gives ArsFetchErr (fun r : Byte × ArsUnit × Nat => ArsWalks r.2.1) (arsRleStep cfg bs p) := by
  obtain ⟨u, k⟩ := p
  refine Gives.ite (fun _ => gives_ok (h.withRle { u with rep := u.rep - 1 })) fun _ => ?_
  refine (gives_arsNextByte cfg bs h k).bind fun r hr => Gives.ite (fun _ => ?_) fun _ => gives_ok (hr.rlePlain r.1 r.2.2)
  have hzero : ArsWalks { r.2.1 with streak := 0 } := hr.withRle { r.2.1 with streak := 0 }
  refine Gives.ite (fun _ => ?_) fun _ => gives_ok (hr.withRle { r.2.1 with streak := 0, rep := r.1.toNat - 1 })
  exact (gives_arsNextByte cfg bs hzero r.2.2).bind fun q hq => gives_ok (hq.rlePlain q.1 q.2.2)

/-! ### The stream header (R721) -/

/-- The errors that the header can end with. -/
def ArsStartErr (e : Err) : Prop := e = .decUnderflow ∨ e = .fmtArsSignature ∨ e = .resArsBlock

/-- A unit whose job has fetched no block yet. -/
structure ArsFresh (u : ArsUnit) : Prop where
  sound : ArsSound u
  block : SameBlock
    { ArsUnit.blank with mtf := (List.range 256).map (BitVec.ofNat 8), blockExp := u.blockExp, eos := u.eos } u

theorem ArsFresh.walks {u : ArsUnit} (h : ArsFresh u) : ArsWalks u where
  sound := h.sound
  buf := by rw [h.block.buf, h.block.len]; rfl
  lfMap := by
    rw [h.block.lfMap, h.block.buf]
    exact (List.perm_nil.1 (arsLfMap_perm [])).symm
  place := by
    rw [h.block.opos, h.block.len]
    exact fun hlt => absurd hlt (lt_irrefl _)

theorem gives_arsStart (cap : Nat) (bs : List Byte) : Gives ArsStartErr (fun r : ArsUnit × Nat => ArsFresh r.1) (arsStart cap bs) := by
  refine (gives_orEnd (.inl rfl)).bind fun c _ => ((gives_arsField (arsSound_init c.1) bs c.2 8).mono (fun _ => .inl) fun _ hr => hr).bind
    fun a ha => Gives.ite (fun _ => gives_error (.inr (.inl rfl))) fun _ =>
    ((gives_arsField ha.1 bs a.2.2 8).mono (fun _ => .inl) fun _ hr => hr).bind fun b hb =>
    Gives.ite (fun _ => gives_error (.inr (.inl rfl))) fun _ =>
    ((gives_arsField hb.1 bs b.2.2 4).mono (fun _ => .inl) fun _ hr => hr).bind fun e he =>
    Gives.ite (fun _ => gives_error (.inr (.inr rfl))) fun _ => ?_
  have hsound : ArsSound { e.2.1 with blockExp := e.1 } := ⟨he.1.range, he.1.primary, he.1.selector, he.1.groups⟩
  refine ((gives_arsField hsound bs e.2.2 1).mono (fun _ => .inl) fun _ hr => hr).bind fun f hf => gives_ok ?_
  have hblock := (ha.2.trans hb.2).trans he.2
  refine ⟨⟨hf.1.range, hf.1.primary, arsSelector_ok, arsGroups_get_ok⟩, ?_⟩
  have hlast := hf.2
  exact ⟨hlast.mtf.trans hblock.mtf, rfl, rfl, hlast.randf.trans hblock.randf, hlast.prim.trans hblock.prim,
    hlast.buf.trans hblock.buf, hlast.len.trans hblock.len, hlast.lfMap.trans hblock.lfMap, hlast.idx.trans hblock.idx,
    hlast.opos.trans hblock.opos, hlast.ti.trans hblock.ti, hlast.rnext.trans hblock.rnext, hlast.rprev.trans hblock.rprev,
    hlast.streak.trans hblock.streak, hlast.rep.trans hblock.rep⟩

end Sys2Proof.Machine
end
section
/-! PROOFS. SIT_ARS over blocks and over headers (47_arsenic.md). -/

namespace Sys2Proof.Machine
open Reference (arsExpand ArsItem zeroRunLength ascii)

section
variable {s : State} {bs : List Byte}

theorem sitArsJob_of_input (h : s.inputIs bs) (hfit : s.forkFits) :
    sitArsJob s = arsStart s.cfg.arsBlockCap bs >>= fun start =>
      forkLoop (arsRleStep s.cfg bs) s.latch.outLen.toNat start >>= fun r =>
        .ok { out := r.1, units := { s.units with ars := r.2.1 }, bitpos := r.2.2 } := by
  rw [sitArsJob, checkCommand_of_forkFits (by decide) (by decide) hfit, except_ok_bind, jobInput_of_inputIs h, jobOutLen]

/-- A header that is not accepted ends the job. -/
theorem sitArs_fails_start {c : Bool} {q : Raise} {e : Err} (h : s.inputIs bs) (hfit : s.forkFits)
    (hstart : arsStart s.cfg.arsBlockCap bs = .error q) (he : q.err = e) : FailsWith (.sitArs c) s e := by
  rw [FailsWith, exec_sitArs, sitArsJob_of_input h hfit, hstart, except_error_bind]
  exact endJob_failedWith ⟨q, rfl, he⟩

/-- A job that gets its OUT_LEN bytes. -/
theorem sitArs_done {c : Bool} {start last : ArsUnit × Nat} {out : List Byte} (h : s.inputIs bs) (hfit : s.forkFits)
    (hstart : arsStart s.cfg.arsBlockCap bs = .ok start)
    (hloop : forkLoop (arsRleStep s.cfg bs) s.latch.outLen.toNat start = .ok (out, last)) :
    ∃ t, exec (.sitArs c) s = .next t ∧ DoneWith s t out {} := by
  rw [exec_sitArs, sitArsJob_of_input h hfit, hstart, except_ok_bind, hloop, except_ok_bind]
  exact endJob_doneWith (r := { out, units := _, bitpos := _ }) rfl ((forkLoop_length hloop).le.trans hfit.2)

variable {u v : ArsUnit} {k k' : Nat} {outs : List (List Byte)}

/-- At the start of the job the whole expansion of the blocks' bytes stands before the unit. -/
theorem arsRleAt_start (hstart : arsStart s.cfg.arsBlockCap bs = .ok (u, k)) (hblocks : HoldsArsBlocks s.cfg bs u k outs v k')
    (hfuel : outs.length < arsFuel bs) : ArsRleAt s.cfg bs v k' (u, k) (arsExpand 0 0 outs.flatten) := by
  have hblock := ((gives_arsStart s.cfg.arsBlockCap bs).ok _ hstart).block
  have hopos : u.opos = 0 := hblock.opos
  have hrep : u.rep = 0 := hblock.rep
  have hprev : u.rprev = 0 := hblock.rprev
  have hstreak : u.streak = 0 := hblock.streak
  refine ⟨outs.flatten, ⟨u, outs, [], rfl, hblocks, hfuel, hblock.len, hopos.le, .inl rfl, ?_⟩, ?_⟩
  · rw [List.drop_nil, arsHeld_nil, List.nil_append]
  · dsimp only
    rw [hrep, hprev, hstreak, List.replicate_zero, List.nil_append]

/-- Behind the blocks the job ends with the error that the next fetch meets. -/
theorem sitArs_fails_behind {c : Bool} {q : Raise} {e : Err} (h : s.inputIs bs) (hfit : s.forkFits)
    (hstart : arsStart s.cfg.arsBlockCap bs = .ok (u, k)) (hblocks : HoldsArsBlocks s.cfg bs u k outs v k')
    (hfuel : outs.length < arsFuel bs) (hlen : (arsExpand 0 0 outs.flatten).length < s.latch.outLen.toNat)
    (hq : arsFetchBlock s.cfg bs v k' = .error q) (he : q.err = e) : FailsWith (.sitArs c) s e := by
  rw [FailsWith, exec_sitArs, sitArsJob_of_input h hfit, hstart, except_ok_bind,
    (streams_arsRleStep s.cfg bs v k').forkLoop_beyond (arsRleAt_start hstart hblocks hfuel)
      (fun p hp => arsRleStep_at_end hq hp) hlen, except_error_bind]
  exact endJob_failedWith ⟨_, rfl, he⟩

theorem arsFetchBlock_of_eos {cfg : Config} (heos : v.eos = true) : arsFetchBlock cfg bs v k' = .error (.atBit k' .trnArsEos) :=
  if_pos heos

theorem sitArs_done_blocks {c : Bool} (h : s.inputIs bs) (hfit : s.forkFits) (hstart : arsStart s.cfg.arsBlockCap bs = .ok (u, k))
    (hblocks : HoldsArsBlocks s.cfg bs u k outs v k') (hfuel : outs.length < arsFuel bs)
    (hlen : s.latch.outLen.toNat ≤ (arsExpand 0 0 outs.flatten).length) :
    ∃ t, exec (.sitArs c) s = .next t ∧ DoneWith s t ((arsExpand 0 0 outs.flatten).take s.latch.outLen.toNat) {} := by
  obtain ⟨w, hloop, -⟩ := (streams_arsRleStep s.cfg bs v k').forkLoop_take (arsRleAt_start hstart hblocks hfuel) hlen
  exact sitArs_done h hfit hstart hloop

end

/-- Settles O45: the blocks' texts pass through the inverse transform and the final RLE; behind them the next fetch ends the job. -/
theorem sitArsOneBlock : Obligations.SitArsOneBlock := by
  unfold Obligations.SitArsOneBlock
  intro s c bs u v k k' outs h hfit hstart hblocks hfuel
  dsimp only
  refine ⟨fun hlen => ?_, fun heos hlen => ?_⟩
  · exact sitArs_done_blocks h hfit hstart hblocks hfuel hlen
  · exact sitArs_fails_behind h hfit hstart hblocks hfuel hlen (arsFetchBlock_of_eos heos) rfl

/-! ### Streams that are written out -/

/-- A header that one block size lets pass, every larger one does; a smaller one ends with RES_ARS_BLOCK. -/
theorem arsStart_of_cap {cap : Nat} {bs : List Byte} {u : ArsUnit} {k : Nat} (h : arsStart cap bs = .ok (u, k)) (cap' : Nat) :
    (arsBlockSize u ≤ cap' → arsStart cap' bs = .ok (u, k)) ∧
      (cap' < arsBlockSize u → ∃ q, arsStart cap' bs = .error q ∧ q.err = .resArsBlock) := by
  obtain ⟨⟨code, k0⟩, hcode, h⟩ := except_bind_eq_ok.1 h
  obtain ⟨⟨a, u1, k1⟩, hsig1, h⟩ := except_bind_eq_ok.1 h
  dsimp only at h
  split at h
  · cases h
  next ha =>
  obtain ⟨⟨b, u2, k2⟩, hsig2, h⟩ := except_bind_eq_ok.1 h
  dsimp only at h
  split at h
  · cases h
  next hb =>
  obtain ⟨⟨e, u3, k3⟩, hexp, h⟩ := except_bind_eq_ok.1 h
  dsimp only at h
  split at h
  · cases h
  next hcap =>
  obtain ⟨⟨f, u4, k4⟩, heos, h⟩ := except_bind_eq_ok.1 h
  have hsize : arsBlockSize u = arsBlockSize { u3 with blockExp := e } := by
    cases h
    exact (arsField_sameBlock heos).size
  rw [hsize, arsStart, hcode, except_ok_bind]
  dsimp only
  rw [hsig1, except_ok_bind]
  dsimp only
  rw [if_neg ha, hsig2, except_ok_bind]
  dsimp only
  rw [if_neg hb, hexp, except_ok_bind]
  dsimp only
  refine ⟨fun hle => ?_, fun hlt => ⟨_, if_pos hlt, rfl⟩⟩
  rw [if_neg (Nat.not_lt.2 hle), heos, except_ok_bind]
  exact h

/-- The parameters give a fetched block no more than its first flip. -/
theorem arsFetchBlock_config (cfg cfg' : Config) (bs : List Byte) (u : ArsUnit) (k : Nat) :
    arsFetchBlock cfg bs u k = (arsFetchBlock cfg' bs u k).map fun r => ({ r.1 with rnext := arsRandAt cfg 0 }, r.2) := by
  rw [arsFetchBlock, arsFetchBlock]
  refine except_ite_map rfl ?_
  simp only [except_bind_map]
  refine congrArg _ (funext fun r => congrArg _ (funext fun q => congrArg _ (funext fun d => congrArg _ (funext fun f => ?_))))
  exact except_ite_map rfl rfl

/-- A header that lets its own block size pass lets every larger one pass. -/
theorem arsStart_of_le {cap cap' : Nat} {bs : List Byte} {u : ArsUnit} {k : Nat} (h : arsStart cap bs = .ok (u, k)) (hle : cap ≤ cap') :
    arsStart cap' bs = .ok (u, k) := by
  refine (arsStart_of_cap h cap').1 (le_trans (Nat.not_lt.1 fun hlt => ?_) hle)
  obtain ⟨q, hq, -⟩ := (arsStart_of_cap h cap).2 hlt
  rw [h] at hq
  cases hq

/-- The first block of a stream of blocks of 512 bytes. -/
def firstBlock (bs : List Byte) : Except Raise (ArsUnit × Nat) :=
  arsStart 512 bs >>= fun p => arsFetchBlock default bs p.1 p.2

/-- The error that a computation ends with. -/
def errorOf {α : Type} : Except Raise α → Option Err
  | .ok _ => none
  | .error q => some q.err

theorem exists_of_errorOf {α : Type} {x : Except Raise α} {e : Err} (h : errorOf x = some e) : ∃ q, x = .error q ∧ q.err = e := by
  cases x with
  | ok a => cases h
  | error q => exact ⟨q, rfl, Option.some.inj h⟩

theorem exists_of_toOption_map {ε α β : Type} {x : Except ε α} {f : α → β} {b : β} (h : x.toOption.map f = some b) :
    ∃ a, x = .ok a ∧ f a = b := by
  cases x with
  | error q => cases h
  | ok a => exact ⟨a, rfl, Option.some.inj h⟩

/-- The "banana" stream of 47_arsenic.md R720. -/
def bananaBytes : List Byte := bytesOf [0x42, 0xC1, 0xC5, 0x40, 0xF2, 0x3C, 0x7E, 0x25, 0xFA, 0x64, 0xBE, 0xD0, 0x00, 0x00]

/-- What the first block of the "banana" stream holds. -/
theorem firstBlock_banana :
    (firstBlock bananaBytes).toOption.map (fun r => (r.1.len, r.1.buf, r.1.prim, r.1.randf, r.1.eos)) =
      some (6, ascii "nnbaaa", 3, false, true) := by
  decide +kernel

theorem isBwt_banana : Reference.IsBwt (ascii "banana") (ascii "nnbaaa") 3 :=
  ⟨[ascii "abanan", ascii "anaban", ascii "ananab", ascii "banana", ascii "nabana", ascii "nanaba"], by decide +kernel,
    by decide +kernel, by decide +kernel, by decide +kernel⟩

/-- The "banana" stream is one block, which holds "banana" and ends it. -/
theorem holdsArsBlocks_banana (cfg : Config) (hcap : 512 ≤ cfg.arsBlockCap) :
    ∃ u k v k', arsStart cfg.arsBlockCap bananaBytes = .ok (u, k) ∧
      HoldsArsBlocks cfg bananaBytes u k [ascii "banana"] v k' ∧ v.eos = true := by
  obtain ⟨⟨v, k'⟩, hblock, hfields⟩ := exists_of_toOption_map firstBlock_banana
  simp only [Prod.mk.injEq] at hfields
  obtain ⟨hlen, hbuf, hprim, hrand, heos⟩ := hfields
  obtain ⟨⟨u, k⟩, hstart, hfetch⟩ := except_bind_eq_ok.1 hblock
  have hfetch' : arsFetchBlock cfg bananaBytes u k = .ok ({ v with rnext := arsRandAt cfg 0 }, k') := by
    rw [arsFetchBlock_config cfg default, hfetch]
    rfl
  refine ⟨u, k, _, k', arsStart_of_le hstart hcap, ⟨_, k', ascii "banana", hfetch', hlen, .inr ?_, ?_, rfl, rfl⟩, heos⟩
  · dsimp only
    rw [hbuf, hprim]
    exact isBwt_banana
  · dsimp only
    rw [hrand]
    rfl

/-- Settles O44: O45 over the stream's one block. -/
theorem sitArsDecodesBanana : Obligations.SitArsDecodesBanana := by
  unfold Obligations.SitArsDecodesBanana
  intro s c h hfit hcap
  obtain ⟨u, k, v, k', hstart, hblocks, heos⟩ := holdsArsBlocks_banana s.cfg hcap
  have hfuel : [ascii "banana"].length < arsFuel bananaBytes := by decide
  have hexpand : Reference.arsExpand 0 0 [ascii "banana"].flatten = ascii "banana" := by decide
  obtain ⟨hdone, hfails⟩ := sitArsOneBlock s c bananaBytes u v k k' _ h hfit hstart hblocks hfuel
  rw [hexpand] at hdone hfails
  exact ⟨hdone, hfails heos⟩

end Sys2Proof.Machine
end
section
/-! PROOFS. How SIT_ARS ends where a header or a block is wrong (47_arsenic.md R721, R732, R733, R740). -/

namespace Sys2Proof.Machine
open Reference (arsExpand ArsItem zeroRunLength)

/-! ### Symbols of two units with one coder and one set of models -/

/-- Units that decode the same symbols. -/
structure SameCoder (u v : ArsUnit) : Prop where
  range    : v.range = u.range
  code     : v.code = u.code
  selector : v.selector = u.selector
  groups   : v.groups = u.groups

section
variable {bs : List Byte} {u u' v : ArsUnit} {k k' sym : Nat}

theorem SameCoder.coder (h : SameCoder u u') (k : Nat) : arsCoderOf u' k = arsCoderOf u k := by
  rw [arsCoderOf, arsCoderOf, h.range, h.code]

theorem SameCoder.selectorSym (h : SameCoder u u') (hsym : arsSelectorSym bs u k = .ok (sym, v, k')) :
    ∃ v', arsSelectorSym bs u' k = .ok (sym, v', k') ∧ SameCoder v v' := by
  obtain ⟨c, m, hdecode, rfl, rfl⟩ := arsSelectorSym_eq_ok hsym
  refine ⟨{ u' with range := c.range, code := c.code, selector := m }, ?_, rfl, rfl, rfl, h.groups⟩
  rw [arsSelectorSym, h.coder, h.selector, hdecode]
  rfl

theorem SameCoder.groupSym (h : SameCoder u u') {g : Fin 7} (hsym : arsGroupSym bs g u k = .ok (sym, v, k')) :
    ∃ v', arsGroupSym bs g u' k = .ok (sym, v', k') ∧ SameCoder v v' := by
  obtain ⟨c, m, hdecode, rfl, rfl⟩ := arsGroupSym_eq_ok hsym
  refine ⟨{ u' with range := c.range, code := c.code, groups := u'.groups.set g m }, ?_, rfl, rfl, h.selector, ?_⟩
  · rw [arsGroupSym, h.coder, h.groups, hdecode]
    rfl
  · dsimp only
    rw [h.groups]

theorem SameCoder.readsSelectors {sels : List Nat} (h : SameCoder u u') (hreads : ReadsSelectors bs u k sels v k') :
    ∃ v', ReadsSelectors bs u' k sels v' k' ∧ SameCoder v v' := by
  induction sels generalizing u u' k with
  | nil =>
    obtain ⟨rfl, rfl⟩ := hreads
    exact ⟨u', ⟨rfl, rfl⟩, h⟩
  | cons sel sels ih =>
    obtain ⟨w, m, hsym, hrest⟩ := hreads
    obtain ⟨w', hsym', hw⟩ := h.selectorSym hsym
    obtain ⟨v', hrest', hv⟩ := ih hw hrest
    exact ⟨v', ⟨w', m, hsym', hrest'⟩, hv⟩

end

/-! ### The parts of a block's data (R733-R735) -/

section
variable {bs : List Byte}

/-- The loop's turn at a byte by its index. -/
theorem arsBlockLoop_index {u u1 w : ArsUnit} {rbuf : List Byte} {k k1 m sel i next n : Nat}
    (hsel : sel = 2 ∧ i = 1 ∧ u1 = u ∧ k1 = k ∨ 3 ≤ sel ∧ sel ≤ 9 ∧ arsGroupSym bs (Fin.ofNat 7 (sel - 3)) u k = .ok (i, u1, k1))
    (hroom : u1.len < arsBlockSize u1)
    (hnext : arsSelectorSym bs { u1 with mtf := u1.mtf.getD i 0 :: u1.mtf.eraseIdx i, len := u1.len + 1 } k1 = .ok (next, w, m)) :
    arsBlockLoop bs (n + 1) sel u rbuf k = arsBlockLoop bs n next w (u1.mtf.getD i 0 :: rbuf) m := by
  have hmtf : (arsMtf u1 rbuf i).mapError (Raise.atBit k1) =
      .ok ({ u1 with mtf := u1.mtf.getD i 0 :: u1.mtf.eraseIdx i, len := u1.len + 1 }, u1.mtf.getD i 0 :: rbuf) := by
    rw [arsMtf_eq, if_neg (Nat.not_le.2 hroom)]
    rfl
  rw [arsBlockLoop]
  rcases hsel with ⟨rfl, rfl, rfl, rfl⟩ | ⟨h3, h9, hgroup⟩
  · rw [if_neg (by omega), if_neg (by omega), if_pos rfl, hmtf, except_ok_bind]
    dsimp only
    rw [hnext, except_ok_bind]
  · rw [if_neg (by omega), if_neg (by omega), if_neg (by omega), hgroup, except_ok_bind]
    dsimp only
    rw [hmtf, except_ok_bind]
    dsimp only
    rw [hnext, except_ok_bind]

/-- The loop goes through the parts that fit the block. -/
theorem arsBlockLoop_items {items : List ArsItem} {u u' x : ArsUnit} {rbuf : List Byte} {k n first sel fuel : Nat}
    (hcoder : SameCoder u u') (hreads : ReadsItems bs first u k items sel x n)
    (hdigits : ∀ ds, ArsItem.run ds ∈ items → ds.length < arsFuel bs)
    (hfit : u'.len + (items.map ArsItem.length).sum ≤ arsBlockSize u') :
    ∃ x' rbuf', arsBlockLoop bs (fuel + items.length) first u' rbuf k = arsBlockLoop bs fuel sel x' rbuf' n ∧ SameCoder x x' ∧
      x'.len = u'.len + (items.map ArsItem.length).sum ∧ arsBlockSize x' = arsBlockSize u' := by
  induction items generalizing u u' rbuf k first with
  | nil =>
    obtain ⟨rfl, rfl, rfl⟩ := hreads
    exact ⟨u', rbuf, rfl, hcoder, rfl, rfl⟩
  | cons item items ih =>
    rw [List.map_cons, List.sum_cons] at hfit
    obtain ⟨hdigits1, hdigitsRest⟩ : (∀ ds, ArsItem.run ds = item → ds.length < arsFuel bs) ∧
        ∀ ds, ArsItem.run ds ∈ items → ds.length < arsFuel bs :=
      ⟨fun ds h => hdigits ds (List.mem_cons.2 (.inl h)), fun ds h => hdigits ds (List.mem_cons_of_mem _ h)⟩
    rw [List.map_cons, List.sum_cons, List.length_cons, ← Nat.add_assoc]
    cases item with
    | run digits =>
      obtain ⟨more, next, w, m, rfl, hle, hnext, hsels, hrest⟩ := hreads
      obtain ⟨hfirst, hmore⟩ := List.forall_mem_cons.1 hle
      have hfuel := hdigits1 _ rfl
      rw [List.length_cons] at hfuel
      obtain ⟨w', hsels', hw⟩ := hcoder.readsSelectors hsels
      have hsame := readsSelectors_sameBlock hsels'
      rw [ArsItem.length] at hfit ⊢
      obtain ⟨x', rbuf', hloop, hx, hlen, hsize⟩ := ih
        (u' := { w' with len := w'.len + zeroRunLength (first :: more) })
        (rbuf := List.replicate (zeroRunLength (first :: more)) (u'.mtf.getD 0 0) ++ rbuf)
        ⟨hw.range, hw.code, hw.selector, hw.groups⟩ hrest hdigitsRest (by
          show w'.len + zeroRunLength (first :: more) + _ ≤ arsBlockSize w'
          rw [hsame.len, hsame.size]
          omega)
      refine ⟨x', rbuf', ?_, hx, ?_, hsize.trans hsame.size⟩
      · rw [arsBlockLoop_zeroRun hfirst hmore hnext hsels' (by omega), if_neg (by omega)]
        exact hloop
      · rw [hlen]
        dsimp only
        rw [hsame.len, Nat.add_assoc]
    | index i =>
      obtain ⟨u1, k1, next, w, m, hsel, hsym, hrest⟩ := hreads
      rw [ArsItem.length] at hfit ⊢
      obtain ⟨u1', hsel', hu1, hsame⟩ : ∃ u1', (first = 2 ∧ i = 1 ∧ u1' = u' ∧ k1 = k ∨
          3 ≤ first ∧ first ≤ 9 ∧ arsGroupSym bs (Fin.ofNat 7 (first - 3)) u' k = .ok (i, u1', k1)) ∧ SameCoder u1 u1' ∧
          SameBlock u' u1' := by
        rcases hsel with ⟨h2, hi, rfl, rfl⟩ | ⟨h3, h9, hgroup⟩
        · exact ⟨u', .inl ⟨h2, hi, rfl, rfl⟩, hcoder, sameBlock_refl u'⟩
        · obtain ⟨u1', hgroup', hu1⟩ := hcoder.groupSym hgroup
          exact ⟨u1', .inr ⟨h3, h9, hgroup'⟩, hu1, arsGroupSym_sameBlock hgroup'⟩
      have hu1'' : SameCoder u1 { u1' with mtf := u1'.mtf.getD i 0 :: u1'.mtf.eraseIdx i, len := u1'.len + 1 } :=
        ⟨hu1.range, hu1.code, hu1.selector, hu1.groups⟩
      obtain ⟨w', hsym', hw⟩ := hu1''.selectorSym hsym
      have hsame' := arsSelectorSym_sameBlock hsym'
      have hlen' : w'.len = u'.len + 1 := by rw [hsame'.len]; exact congrArg (· + 1) hsame.len
      have hsize' : arsBlockSize w' = arsBlockSize u' := hsame'.size.trans hsame.size
      obtain ⟨x', rbuf', hloop, hx, hlen, hsize⟩ := ih (rbuf := u1'.mtf.getD i 0 :: rbuf) hw hrest hdigitsRest (by
        rw [hlen', hsize']
        omega)
      refine ⟨x', rbuf', ?_, hx, by rw [hlen, hlen', Nat.add_assoc], hsize.trans hsize'⟩
      rw [arsBlockLoop_index hsel' (by rw [hsame.size, hsame.len]; omega) hsym']
      exact hloop

/-- The part that does not fit ends the loop. -/
theorem arsBlockLoop_overflows {x x' : ArsUnit} {rbuf : List Byte} {n sel fuel room : Nat} (hcoder : SameCoder x x')
    (hover : ArsOverflows bs room sel x n) (hroom : x'.len + room = arsBlockSize x') :
    ∃ q, arsBlockLoop bs (fuel + 1) sel x' rbuf n = .error q ∧ q.err = .decArsOverflow := by
  rcases hover with ⟨more, next, v, k', hsel, hmore, hnext, hfuel, hsels, hlong⟩ | ⟨rfl, hbyte⟩
  · obtain ⟨v', hsels', -⟩ := hcoder.readsSelectors hsels
    rw [arsBlockLoop_zeroRun hsel hmore hnext hsels' hfuel, if_pos (by omega)]
    exact ⟨_, rfl, rfl⟩
  · rw [arsBlockLoop]
    rcases hbyte with rfl | ⟨h3, h9, i, v, k', hgroup⟩
    · rw [if_neg (by omega), if_neg (by omega), if_pos rfl, arsMtf_full rbuf 1 (by omega)]
      exact ⟨_, rfl, rfl⟩
    · obtain ⟨v', hgroup', -⟩ := hcoder.groupSym hgroup
      have hsame := arsGroupSym_sameBlock hgroup'
      rw [if_neg (by omega), if_neg (by omega), if_neg (by omega), hgroup', except_ok_bind]
      dsimp only
      rw [arsMtf_full rbuf i (by rw [hsame.size, hsame.len]; omega)]
      exact ⟨_, rfl, rfl⟩

/-- A block's data that do not fit the block. -/
theorem arsBlockData_overflows {w w1 x : ArsUnit} {m m1 n first sel : Nat} {items : List ArsItem}
    (hsym : arsSelectorSym bs w m = .ok (first, w1, m1)) (hreads : ReadsItems bs first w1 m1 items sel x n)
    (hfuel : items.length < arsFuel bs) (hdigits : ∀ ds, ArsItem.run ds ∈ items → ds.length < arsFuel bs)
    (hfit : (items.map ArsItem.length).sum ≤ arsBlockSize w)
    (hover : ArsOverflows bs (arsBlockSize w - (items.map ArsItem.length).sum) sel x n) :
    ∃ q, arsBlockData bs w m = .error q ∧ q.err = .decArsOverflow := by
  have hw : SameCoder w { w with len := 0 } := ⟨rfl, rfl, rfl, rfl⟩
  obtain ⟨w1', hsym', hw1⟩ := hw.selectorSym hsym
  have hsame := arsSelectorSym_sameBlock hsym'
  have hlen : w1'.len = 0 := hsame.len
  have hsize : arsBlockSize w1' = arsBlockSize w := hsame.size
  obtain ⟨fuel, hfuel⟩ : ∃ fuel, arsFuel bs = fuel + 1 + items.length := ⟨arsFuel bs - 1 - items.length, by omega⟩
  obtain ⟨x', rbuf', hloop, hx, hxlen, hxsize⟩ := arsBlockLoop_items (fuel := fuel + 1) (rbuf := []) hw1 hreads hdigits (by omega)
  obtain ⟨q, hq, he⟩ := arsBlockLoop_overflows (fuel := fuel) (rbuf := rbuf') hx hover (by omega)
  refine ⟨q, ?_, he⟩
  rw [arsBlockData, hsym', except_ok_bind]
  dsimp only
  rw [hfuel, hloop, hq, except_error_bind]

end

/-! ### The block behind the blocks that hold (R730) -/

section
variable {cfg : Config} {bs : List Byte} {v w : ArsUnit} {k m : Nat}

theorem holdsArsBlocks_sound {u : ArsUnit} {k' : Nat} {outs : List (List Byte)} (h : HoldsArsBlocks cfg bs u k outs v k')
    (hu : ArsSound u) : ArsSound v := by
  induction outs generalizing u k with
  | nil =>
    obtain ⟨rfl, -⟩ := h
    exact hu
  | cons out outs ih =>
    obtain ⟨w, m, text, hfetch, -, -, -, hrest⟩ := h
    exact ih hrest ((gives_arsFetchBlock cfg bs hu k).ok _ hfetch).sound

theorem arsFetchBlock_of_header (h : ReadsArsHeader bs v k w m) :
    arsFetchBlock cfg bs v k = arsBlockData bs w m >>= fun d => arsFooter bs d.1 d.2 >>= fun f =>
      if 0 < f.1.len ∧ f.1.len ≤ f.1.prim then .error (.atBit f.2 .decArsBwtIndex) else .ok (arsAtStart cfg f.1, f.2) := by
  obtain ⟨heos, randf, u1, k1, prim, u2, hrand, hprim, rfl⟩ := h
  rw [arsFetchBlock, heos, if_neg Bool.false_ne_true, hrand, except_ok_bind]
  dsimp only
  rw [(arsField_sameBlock hrand).blockExp, hprim, except_ok_bind]
  rfl

theorem ReadsArsHeader.sound (h : ReadsArsHeader bs v k w m) (hv : ArsSound v) : ArsSound w := by
  obtain ⟨-, randf, u1, k1, prim, u2, hrand, hprim, rfl⟩ := h
  have hu1 := ((gives_arsField hv bs k 1).ok _ hrand).1
  have hu2 := ((gives_arsField hu1 bs k1 _).ok _ hprim).1
  exact ⟨hu2.range, hu2.primary, arsSelector_ok, arsGroups_get_ok⟩

/-- A primary index at or above the block's length. -/
theorem arsFetchBlock_bwtIndex {x y : ArsUnit} {n n' : Nat} (h : ReadsArsHeader bs v k w m) (hv : ArsSound v)
    (hdata : arsBlockData bs w m = .ok (x, n)) (hfooter : arsFooter bs x n = .ok (y, n')) (hpos : 0 < x.len) (hindex : x.len ≤ w.prim) :
    arsFetchBlock cfg bs v k = .error (.atBit n' .decArsBwtIndex) := by
  obtain ⟨hx, -, hprim⟩ := (gives_arsBlockData (h.sound hv) bs m).ok _ hdata
  have hsame := ((gives_arsFooter hx bs n).ok _ hfooter).2
  rw [arsFetchBlock_of_header h, hdata, except_ok_bind, hfooter, except_ok_bind]
  refine if_pos ⟨?_, ?_⟩
  · rw [hsame.len]
    exact hpos
  · rw [hsame.len, hsame.prim, hprim]
    exact hindex

end

/-! ### The stream header (R721) -/

section
variable {s : State} {bs : List Byte} {c : Bool}

theorem sitArs_fails_short (h : s.inputIs bs) (hfit : s.forkFits) (hlen : bs.length ≤ 3) :
    FailsAtOnce (.sitArs c) s .decUnderflow := by
  have hcode : readBitsBE bs 0 26 = none := by
    rw [readBitsBE, if_neg (by omega), if_pos (by omega)]
  refine failsAtOnce_of_exec ?_
  rw [exec_sitArs, sitArsJob_of_input h hfit, arsStart, hcode]
  rfl

/-- The header, from the code bits on. -/
theorem arsStart_of_code {cap : Nat} (hlen : 4 ≤ bs.length) :
    arsStart cap bs = arsField bs 8 (arsInit (bitsBE bs 0 26)) 26 >>= fun a =>
      if a.1 ≠ 0x41 then .error (.atBit a.2.2 .fmtArsSignature)
      else arsField bs 8 a.2.1 a.2.2 >>= fun b =>
        if b.1 ≠ 0x73 then .error (.atBit b.2.2 .fmtArsSignature)
        else arsField bs 4 b.2.1 b.2.2 >>= fun e =>
          if cap < 2 ^ (e.1 + 9) then .error (.atBit e.2.2 .resArsBlock)
          else arsField bs 1 { e.2.1 with blockExp := e.1 } e.2.2 >>= fun f =>
            .ok (arsResetModels { f.2.1 with eos := f.1 == 1 }, f.2.2) := by
  have hcode : readBitsBE bs 0 26 = some (bitsBE bs 0 26, 26) := by
    rw [readBitsBE, if_neg (by omega), if_neg (by omega)]
  rw [arsStart, hcode]
  rfl

/-- A job without output reads the header alone. -/
theorem sitArs_done_nil {start : ArsUnit × Nat} (h : s.inputIs bs) (hfit : s.forkFits)
    (hstart : arsStart s.cfg.arsBlockCap bs = .ok start) (hlen : s.latch.outLen = 0) :
    ∃ t, exec (.sitArs c) s = .next t ∧ DoneWith s t [] {} :=
  sitArs_done h hfit hstart (last := start) (by rw [hlen]; rfl)

/-- Behind the header comes the first fetch. -/
theorem sitArs_fails_first {u : ArsUnit} {k : Nat} {q : Raise} {e : Err} (h : s.inputIs bs) (hfit : s.forkFits)
    (hstart : arsStart s.cfg.arsBlockCap bs = .ok (u, k)) (hlen : s.latch.outLen ≠ 0)
    (hq : arsFetchBlock s.cfg bs u k = .error q) (he : q.err = e) : FailsWith (.sitArs c) s e := by
  refine sitArs_fails_behind (outs := []) h hfit hstart ⟨rfl, rfl⟩ (by rw [arsFuel]; exact Nat.mul_pos (by omega) (by omega)) ?_ hq he
  exact Nat.pos_of_ne_zero fun hz => hlen (BitVec.eq_of_toNat_eq hz)

end

/-! ### O49 -/

section
variable {s : State} {bs : List Byte} (c : Bool) (h : s.inputIs bs) (hfit : s.forkFits)
include h hfit

/-- A stream whose first block, with a block buffer of 512 bytes, meets an error. -/
theorem sitArs_fails_firstBlock {e : Err} (hcap : 512 ≤ s.cfg.arsBlockCap) (hlen : s.latch.outLen ≠ 0)
    (hstart : (arsStart 512 bs).isOk = true) (herr : errorOf (firstBlock bs) = some e) : FailsWith (.sitArs c) s e := by
  obtain ⟨q, hq, he⟩ := exists_of_errorOf herr
  rcases hp : arsStart 512 bs with q' | ⟨u, k⟩
  · rw [hp] at hstart
    cases hstart
  rw [firstBlock, hp, except_ok_bind] at hq
  refine sitArs_fails_first h hfit (arsStart_of_le hp hcap) hlen (q := q) ?_ he
  rw [arsFetchBlock_config s.cfg default, hq]
  rfl

/-- The empty stream of the vectors, whose header says that it ends there. -/
theorem sitArs_emptyStream (hbs : bs = bytesOf [0x42, 0xC1, 0xC6, 0xA3, 0xFD, 0xE8]) :
    if s.cfg.arsBlockCap < 512 then FailsWith (.sitArs c) s .resArsBlock
    else if s.latch.outLen = 0 then ∃ t, exec (.sitArs c) s = .next t ∧ DoneWith s t [] {}
    else FailsWith (.sitArs c) s .trnArsEos := by
  subst hbs
  have hfields : (arsStart 512 (bytesOf [0x42, 0xC1, 0xC6, 0xA3, 0xFD, 0xE8])).toOption.map
      (fun r => (arsBlockSize r.1, r.1.eos)) = some (512, true) := by decide +kernel
  obtain ⟨⟨u, k⟩, hstart, heq⟩ := exists_of_toOption_map hfields
  obtain ⟨hsize, heos⟩ := Prod.mk.inj heq
  dsimp only at hsize heos
  obtain ⟨hle, hlt⟩ := arsStart_of_cap hstart s.cfg.arsBlockCap
  rw [hsize] at hle hlt
  split
  · next hcap =>
    obtain ⟨q, hq, he⟩ := hlt hcap
    exact sitArs_fails_start h hfit hq he
  · next hcap =>
    have hstart := hle (Nat.not_lt.1 hcap)
    split
    · next hlen => exact sitArs_done_nil h hfit hstart hlen
    · next hlen => exact sitArs_fails_first h hfit hstart hlen (arsFetchBlock_of_eos heos) rfl

/-- A field of the header that the input ends in. -/
theorem sitArs_fails_field {f : Nat × ArsUnit × Nat → Except Raise (ArsUnit × Nat)} {n k : Nat} {u : ArsUnit} {q : Raise}
    (hstart : arsStart s.cfg.arsBlockCap bs = arsField bs n u k >>= f) (hu : ArsSound u) (hq : arsField bs n u k = .error q) :
    FailsWith (.sitArs c) s .decUnderflow := by
  rw [hq, except_error_bind] at hstart
  exact sitArs_fails_start h hfit hstart ((gives_arsField hu bs k n).error q hq)

/-- A field of the header that has a wrong value. -/
theorem sitArs_fails_check {p : Prop} [Decidable p] {e : Err} {k : Nat} {x : Except Raise (ArsUnit × Nat)}
    (hstart : arsStart s.cfg.arsBlockCap bs = if p then .error (.atBit k e) else x) (hp : p) : FailsWith (.sitArs c) s e :=
  sitArs_fails_start h hfit (hstart.trans (if_pos hp)) rfl

/-- A header whose fields are read. -/
theorem sitArs_header_read {eos k : Nat} {u : ArsUnit}
    (hstart : arsStart s.cfg.arsBlockCap bs = .ok (arsResetModels { u with eos := eos == 1 }, k)) :
    (s.latch.outLen = 0 → ∃ t, exec (.sitArs c) s = .next t ∧ DoneWith s t [] {}) ∧
      (eos = 1 → s.latch.outLen ≠ 0 → FailsWith (.sitArs c) s .trnArsEos) := by
  refine ⟨sitArs_done_nil h hfit hstart, fun heos hlen => sitArs_fails_first h hfit hstart hlen (arsFetchBlock_of_eos ?_) rfl⟩
  rw [heos]
  rfl

end

/-- A field is decoded whatever the block size is. -/
theorem arsField_blockExp (bs : List Byte) (n b : Nat) (u : ArsUnit) (k : Nat) :
    arsField bs n { u with blockExp := b } k = (arsField bs n u k).map fun r => (r.1, { r.2.1 with blockExp := b }, r.2.2) := by
  induction n generalizing u k with
  | zero => rfl
  | succ n ih =>
    have hsym : arsPrimarySym bs { u with blockExp := b } k =
        (arsPrimarySym bs u k).map fun r => (r.1, { r.2.1 with blockExp := b }, r.2.2) := by
      rw [arsPrimarySym, arsPrimarySym, except_bind_map]
      rfl
    rw [arsField, arsField, hsym, except_map_bind, except_bind_map]
    refine congrArg _ (funext fun r => ?_)
    simp only [ih, except_map_bind, except_bind_map]
    rfl

/-- Settles O49: the header field by field, and behind the blocks the data of the next one. -/
theorem sitArsHeaderErrors : Obligations.SitArsHeaderErrors := by
  unfold Obligations.SitArsHeaderErrors
  intro s c bs h hfit
  refine ⟨sitArs_fails_short h hfit, fun hlen => ?_, sitArs_emptyStream c h hfit, fun hbs hcap hout => ?_, fun hbs hcap hout => ?_, ?_⟩
  · have hstart := arsStart_of_code (cap := s.cfg.arsBlockCap) hlen
    have hu := arsSound_init (bitsBE bs 0 26)
    rcases hsig1 : arsField bs 8 (arsInit (bitsBE bs 0 26)) 26 with q | ⟨sig1, u1, k1⟩
    · exact sitArs_fails_field c h hfit hstart hu hsig1
    rw [hsig1, except_ok_bind] at hstart
    have hu1 := ((gives_arsField hu bs _ _).ok _ hsig1).1
    dsimp only at hstart hu1 ⊢
    by_cases ha : sig1 ≠ 0x41
    · rw [if_pos ha]
      exact sitArs_fails_check c h hfit hstart ha
    rw [if_neg ha] at hstart ⊢
    rcases hsig2 : arsField bs 8 u1 k1 with q | ⟨sig2, u2, k2⟩
    · exact sitArs_fails_field c h hfit hstart hu1 hsig2
    rw [hsig2, except_ok_bind] at hstart
    have hu2 := ((gives_arsField hu1 bs _ _).ok _ hsig2).1
    dsimp only at hstart hu2 ⊢
    by_cases hb : sig2 ≠ 0x73
    · rw [if_pos hb]
      exact sitArs_fails_check c h hfit hstart hb
    rw [if_neg hb] at hstart ⊢
    rcases hexp : arsField bs 4 u2 k2 with q | ⟨b, u3, k3⟩
    · exact sitArs_fails_field c h hfit hstart hu2 hexp
    rw [hexp, except_ok_bind] at hstart
    have hu3 := ((gives_arsField hu2 bs _ _).ok _ hexp).1
    dsimp only at hstart hu3 ⊢
    by_cases hcap : s.cfg.arsBlockCap < 2 ^ (b + 9)
    · rw [if_pos hcap]
      exact sitArs_fails_check c h hfit hstart hcap
    rw [if_neg hcap] at hstart ⊢
    have hu3' : ArsSound { u3 with blockExp := b } := ⟨hu3.range, hu3.primary, hu3.selector, hu3.groups⟩
    have heos' := arsField_blockExp bs 1 b u3 k3
    rcases heos : arsField bs 1 u3 k3 with q | ⟨eos, u4, k4⟩
    · rw [heos] at heos'
      exact sitArs_fails_field c h hfit hstart hu3' heos'
    rw [heos] at heos'
    rw [heos'] at hstart
    exact sitArs_header_read c h hfit hstart
  · subst hbs
    exact sitArs_fails_firstBlock c h hfit hcap hout (by decide +kernel) (by decide +kernel)
  · subst hbs
    exact sitArs_fails_firstBlock c h hfit hcap hout (by decide +kernel) (by decide +kernel)
  · intro u v w k k' m outs hstart hblocks hfuel hlen hheader
    have hv := holdsArsBlocks_sound hblocks ((gives_arsStart _ bs).ok _ hstart).sound
    refine ⟨fun x n y n' hdata hfooter hpos hindex => ?_, fun first sel w1 x m1 n items hsym hreads hitems hdigits => ?_⟩
    · exact sitArs_fails_behind h hfit hstart hblocks hfuel hlen (arsFetchBlock_bwtIndex hheader hv hdata hfooter hpos hindex) rfl
    · intro held hfits hover
      obtain ⟨q, hq, he⟩ := arsBlockData_overflows hsym hreads hitems hdigits hfits hover
      refine sitArs_fails_behind (q := q) h hfit hstart hblocks hfuel hlen ?_ he
      rw [arsFetchBlock_of_header hheader, hq, except_error_bind]

end Sys2Proof.Machine
end
section
/-! PROOFS. Every job ends with DONE or with an error that can arise (60_exceptions.md R851, R852; 70_reset_and_hazards.md R920). -/

namespace Sys2Proof.Machine

/-! ### Computations whose errors can arise -/

/-- The computation answers, or ends with an error that can arise. -/
abbrev Ends {α : Type} (x : Except Raise α) : Prop := Gives (· ∈ Err.raisable) (fun _ => True) x

section
variable {α β : Type}

theorem ends_ok (a : α) : Ends (.ok a : Except Raise α) := gives_ok trivial

theorem ends_error {q : Raise} (h : q.err ∈ Err.raisable) : Ends (.error q : Except Raise α) := gives_error h

theorem ends_atBit {k : Nat} {e : Err} (h : e ∈ Err.raisable) : Ends (.error (.atBit k e) : Except Raise α) := gives_error h

theorem ends_atByte {p : Nat} {e : Err} (h : e ∈ Err.raisable) : Ends (.error (.atByte p e) : Except Raise α) := gives_error h

theorem Ends.bind {x : Except Raise α} {f : α → Except Raise β} (hx : Ends x) (hf : ∀ a, Ends (f a)) : Ends (x >>= f) :=
  Gives.bind hx fun a _ => hf a

theorem Ends.ite {c : Prop} [Decidable c] {x y : Except Raise α} (hx : Ends x) (hy : Ends y) : Ends (if c then x else y) :=
  Gives.ite (fun _ => hx) fun _ => hy

theorem Ends.mapError {x : Except Raise α} {f : Raise → Raise} (hx : Ends x) (hf : ∀ q, (f q).err = q.err) : Ends (x.mapError f) := by
  cases x with
  | ok a => exact ends_ok a
  | error q => exact ends_error (by rw [hf]; exact hx.error q rfl)

theorem ends_mapError {x : Except Err α} {f : Err → Raise} (hf : ∀ e, (f e).err = e) (h : ∀ e, x = .error e → e ∈ Err.raisable) :
    Ends (x.mapError f) :=
  gives_mapError hf (fun _ _ => trivial) h

theorem ends_orEnd {e : Err} {k : Nat} {r : Option (Nat × Nat)} (he : e ∈ Err.raisable) : Ends (orEnd e k r) := gives_orEnd he

theorem ends_forkLoop {σ : Type} {p : σ → Except Raise (Byte × σ)} (hp : ∀ u, Ends (p u)) (n : Nat) (u : σ) : Ends (forkLoop p n u) :=
  (gives_forkLoop (inv := fun _ => True) (fun u _ => hp u) n trivial).mono (fun _ he => he) fun _ _ => trivial

end

/-! ### What every job shares -/

theorem ends_checkCommand (s : State) (rsvd : BitVec 23) (op : BitVec 8) : Ends (checkCommand s rsvd op) := by
  refine Ends.ite (ends_error ?_) (Ends.ite (ends_error ?_) (Ends.ite (ends_error ?_) (Ends.ite (ends_error ?_)
    (Ends.ite (ends_error ?_) (ends_ok ())))))
  all_goals decide

theorem ends_readByte (inp : List Byte) (p : Nat) : Ends (readByte inp p) := by
  unfold readByte
  split
  · exact ends_atByte (by decide)
  · exact ends_ok _

theorem ends_forkResult (c : Bool) (s : State) (fork : List Byte) (u : Units) (p k : Nat) : Ends (forkResult c s fork u p k) := by
  refine (ends_mapError (fun _ => rfl) fun e he => ?_).bind fun _ => ends_ok _
  rw [forkCrcCheck] at he
  split at he <;> cases he
  decide

/-! ### Canonical Huffman trees -/

theorem buildCanonical_error_raisable {lens : List Nat} {e : Err} (h : buildCanonical lens = .error e) : e ∈ Err.raisable := by
  rw [buildCanonical] at h
  split at h <;> cases h
  decide

theorem ends_huffDecode {bit : Nat → Option (Nat × Nat)} {eof : Err} (heof : eof ∈ Err.raisable) (single : Bool) (t : Tree) (k : Nat) :
    Ends (huffDecode bit eof single t k) := by
  have hnocode : ∀ k, Ends (.error (.atBit k .decHuffNocode) : Except Raise (Nat × Nat)) := fun k => ends_atBit (by decide)
  have hwalk : ∀ n v l k, Ends (huffWalk bit eof t n v l k) := by
    intro n
    induction n with
    | zero => exact fun _ _ k => hnocode k
    | succ n ih =>
      intro v l k
      rw [huffWalk]
      split
      · exact ends_error heof
      · dsimp only
        split
        · exact ends_ok _
        · exact Ends.ite (ih _ _ _) (hnocode _)
  unfold huffDecode
  split
  · exact hnocode k
  · exact Ends.ite (ends_ok _) (hwalk _ _ _ _)
  · exact hwalk _ _ _ _

/-! ### StuffIt methods 1, 2 and 13 -/

theorem ends_rle90Scan (last : Byte) (rest : List Byte) (p : Nat) : Ends (rle90Scan last rest p) := by
  induction rest, p using rle90Scan.induct with
  | case1 p => exact ends_atByte (by decide)
  | case2 b p hb => rw [rle90Scan, if_pos hb]; exact ends_ok _
  | case3 b p hb => rw [rle90Scan, if_neg hb]; exact ends_atByte (by decide)
  | case4 b n rest p hb => rw [rle90Scan, if_pos hb]; exact ends_ok _
  | case5 b rest p hb => rw [rle90Scan, if_neg hb, if_pos rfl]; exact ends_ok _
  | case6 b rest p hb h0 ih => rw [rle90Scan, if_neg hb, if_neg h0, if_pos rfl]; exact ih
  | case7 b n rest p hb h0 h1 => rw [rle90Scan, if_neg hb, if_neg h0, if_neg h1]; exact ends_ok _

theorem ends_rle90Step (inp : List Byte) (w : Rle90Unit × Nat) : Ends (rle90Step inp w) :=
  Ends.ite (ends_ok _) (ends_rle90Scan _ _ _)

theorem lzwExpand_error_raisable {u : LzwUnit} {code : Nat} {e : Err} (h : lzwExpand u code = .error e) : e ∈ Err.raisable := by
  have he : e = .decLzwCode := by
    unfold lzwExpand at h
    split at h
    · split at h <;> cases h
      rfl
    · split at h
      · cases h
      · split at h <;> cases h
        rfl
  rw [he]
  decide

theorem ends_lzwNextCode (inp : List Byte) (n : Nat) (u : LzwUnit) (k : Nat) : Ends (lzwNextCode inp n u k) := by
  induction n generalizing u k with
  | zero => exact ends_atBit (by decide)
  | succ n ih =>
    rw [lzwNextCode]
    split
    · exact ends_atBit (by decide)
    · refine Ends.ite (ih _ _) ?_
      split
      · next e he => exact ends_error (lzwExpand_error_raisable he)
      · exact ends_ok _

theorem ends_lzwStep (inp : List Byte) (w : LzwUnit × Nat) : Ends (lzwStep inp w) := by
  obtain ⟨u, k⟩ := w
  rw [lzwStep]
  split
  · exact ends_ok _
  · exact ends_lzwNextCode _ _ _ _

theorem ends_m13Bits (inp : List Byte) (k n : Nat) : Ends (m13Bits inp k n) := ends_orEnd (by decide)

theorem ends_m13Decode (inp : List Byte) (single : Bool) (t : Tree) (k : Nat) : Ends (m13Decode inp single t k) :=
  ends_huffDecode (by decide) single t k

theorem ends_m13Put (n : Nat) (lens : List Nat) (v c k : Nat) : Ends (m13Put n lens v c k) :=
  Ends.ite (ends_atBit (by decide)) (ends_ok _)

theorem ends_m13Command (inp : List Byte) (n c cur : Nat) (lens : List Nat) (k : Nat) : Ends (m13Command inp n c cur lens k) := by
  have hput : ∀ v c k cur, Ends (m13Put n lens v c k >>= fun lens => .ok (cur, lens, k) : Except Raise (Nat × List Nat × Nat)) :=
    fun v c k cur => (ends_m13Put n lens v c k).bind fun _ => ends_ok _
  refine Ends.ite (hput _ _ _ _) (Ends.ite (hput _ _ _ _) (Ends.ite (Ends.ite (ends_atBit (by decide)) (hput _ _ _ _))
    (Ends.ite (Ends.ite (ends_atBit (by decide)) (hput _ _ _ _)) (Ends.ite ?_ (Ends.ite ?_ ?_)))))
  all_goals exact (ends_m13Bits _ _ _).bind fun r => hput _ _ _ _

theorem ends_m13Lengths (cfg : Config) (inp : List Byte) (n turns cur : Nat) (lens : List Nat) (k : Nat) :
    Ends (m13Lengths cfg inp n turns cur lens k) := by
  induction turns generalizing cur lens k with
  | zero => exact ends_ok _
  | succ turns ih =>
    exact Ends.ite (ends_ok _) ((ends_m13Decode _ _ _ _).bind fun r => (ends_m13Command _ _ _ _ _ _).bind fun q => ih _ _ _)

theorem ends_m13ReadTree (cfg : Config) (inp : List Byte) (n k : Nat) : Ends (m13ReadTree cfg inp n k) :=
  (ends_m13Lengths _ _ _ _ _ _ _).bind fun _ =>
    (ends_mapError (fun _ => rfl) fun _ => buildCanonical_error_raisable).bind fun _ => ends_ok _

theorem ends_m13Start (cfg : Config) (inp : List Byte) : Ends (m13Start cfg inp) := by
  unfold m13Start
  split
  · exact ends_error (by decide)
  · refine Ends.ite (ends_error (by decide)) (Ends.ite (ends_ok _) (Ends.mapError ?_ fun _ => rfl))
    refine (ends_m13ReadTree _ _ _ _).bind fun _ => Ends.ite ?_ ((ends_m13ReadTree _ _ _ _).bind fun _ => ?_)
    all_goals exact (ends_m13ReadTree _ _ _ _).bind fun _ => ends_ok _

theorem ends_m13Match (inp : List Byte) (u : M13Unit) (sym k : Nat) : Ends (m13Match inp u sym k) := by
  have hbits : ∀ n c, Ends (m13Bits inp k n >>= fun r => .ok (r.1 + c, r.2) : Except Raise (Nat × Nat)) := fun n c =>
    (ends_m13Bits _ _ _).bind fun _ => ends_ok _
  have hlength : Ends (m13Length inp sym k) := Ends.ite (ends_ok _) (Ends.ite (hbits _ _) (hbits _ _))
  refine hlength.bind fun _ => (ends_m13Decode _ _ _ _).bind fun r => Ends.bind ?_ fun _ => ends_ok _
  exact Ends.ite (ends_ok _) ((ends_m13Bits _ _ _).bind fun _ => ends_ok _)

theorem ends_m13Step (inp : List Byte) (w : M13Unit × Nat) : Ends (m13Step inp w) :=
  Ends.ite (ends_ok _) ((ends_m13Decode _ _ _ _).bind fun _ =>
    Ends.ite (ends_ok _) (Ends.ite ((ends_m13Match _ _ _ _).bind fun _ => ends_ok _) (ends_atBit (by decide))))

theorem ends_sitM13Job (c : Bool) (s : State) : Ends (sitM13Job c s) :=
  (ends_checkCommand _ _ _).bind fun _ => (ends_m13Start _ _).bind fun _ =>
    ((ends_forkLoop (ends_m13Step _) _ _).mapError (f := Raise.afterM13Header) fun _ => rfl).bind fun _ => ends_forkResult _ _ _ _ _ _

/-! ### SIT_ARS -/

theorem arsFetchErr_raisable {e : Err} (h : ArsFetchErr e) : e ∈ Err.raisable := by
  rcases h with (rfl | rfl) | rfl | rfl <;> decide

theorem arsStartErr_raisable {e : Err} (h : ArsStartErr e) : e ∈ Err.raisable := by
  rcases h with rfl | rfl | rfl <;> decide

/-- The unit stays sound from the header to the last byte, so a scale of 0 and a place outside the LF-map do not occur. -/
theorem ends_sitArsJob (s : State) : Ends (sitArsJob s) := by
  refine (ends_checkCommand _ _ _).bind fun _ => Gives.bind ((gives_arsStart _ _).mono (fun _ => arsStartErr_raisable) fun _ h => h)
    fun start hstart => Gives.bind (post := fun _ => True) ?_ fun _ _ => ends_ok _
  exact (gives_forkLoop (inv := fun w : ArsUnit × Nat => ArsWalks w.1) (fun w hw => gives_arsRleStep _ _ hw) _ hstart.walks).mono
    (fun _ => arsFetchErr_raisable) fun _ _ => trivial

/-! ### Compact Pro -/

theorem ends_rle81Escape {σ : Type} {pull : σ → Except Raise (Byte × σ)} (hpull : ∀ c, Ends (pull c)) (u : Rle81Unit) (c : σ) :
    Ends (rle81Escape pull u c) :=
  (hpull c).bind fun _ => Ends.ite ((hpull _).bind fun _ => Ends.ite (ends_ok _) (ends_ok _)) (Ends.ite (ends_ok _) (ends_ok _))

theorem ends_rle81Step {σ : Type} {pull : σ → Except Raise (Byte × σ)} (hpull : ∀ c, Ends (pull c)) (w : Rle81Unit × σ) :
    Ends (rle81Step pull w) :=
  Ends.ite (ends_ok _) (Ends.ite (ends_rle81Escape hpull _ _) ((hpull _).bind fun _ => Ends.ite (ends_ok _) (ends_rle81Escape hpull _ _)))

theorem ends_lzhBits (inp : List Byte) (k n : Nat) : Ends (lzhBits inp k n) := ends_orEnd (by decide)

theorem ends_lzhDecode (inp : List Byte) (t : Tree) (k : Nat) : Ends (lzhDecode inp t k) := ends_huffDecode (by decide) false t k

theorem ends_lzhNibbles (inp : List Byte) (n k : Nat) : Ends (lzhNibbles inp n k) := by
  induction n generalizing k with
  | zero => exact ends_ok _
  | succ n ih => exact (ends_lzhBits _ _ _).bind fun _ => (ih _).bind fun _ => ends_ok _

theorem ends_lzhReadTable (inp : List Byte) (n k : Nat) : Ends (lzhReadTable inp n k) :=
  (ends_lzhBits _ _ _).bind fun _ => Ends.ite (ends_atBit (by decide)) ((ends_lzhNibbles _ _ _).bind fun _ =>
    (ends_mapError (fun _ => rfl) fun _ => buildCanonical_error_raisable).bind fun _ => ends_ok _)

theorem ends_lzhStartBlock (inp : List Byte) (u : LzhUnit) (k : Nat) : Ends (lzhStartBlock inp u k) :=
  (ends_lzhReadTable _ _ _).bind fun _ => (ends_lzhReadTable _ _ _).bind fun _ => (ends_lzhReadTable _ _ _).bind fun _ => ends_ok _

theorem ends_lzhSymbol (inp : List Byte) (u : LzhUnit) (k : Nat) : Ends (lzhSymbol inp u k) := by
  have hmatch : ∀ k, Ends (lzhMatch inp u k) := fun k => (ends_lzhDecode _ _ _).bind fun _ => Ends.ite (ends_atBit (by decide))
    ((ends_lzhDecode _ _ _).bind fun _ => (ends_lzhBits _ _ _).bind fun _ => ends_ok _)
  exact (ends_lzhBits _ _ _).bind fun _ => Ends.ite ((ends_lzhDecode _ _ _).bind fun _ => ends_ok _)
    ((hmatch _).bind fun _ => ends_ok _)

theorem ends_lzhNext (inp : List Byte) (w : LzhUnit × Nat) : Ends (lzhNext inp w) := by
  have hblock : ∀ u k, Ends (lzhStartBlock inp u k >>= fun r => lzhSymbol inp r.1 r.2) := fun u k =>
    (ends_lzhStartBlock _ _ _).bind fun _ => ends_lzhSymbol _ _ _
  exact Ends.ite (ends_atBit (by decide)) (Ends.ite (ends_ok _) (Ends.ite (hblock _ _) (Ends.ite (hblock _ _) (ends_lzhSymbol _ _ _))))

/-! ### BinHex -/

theorem ends_findBody (inp : List Byte) : Ends (findBody inp) := by
  unfold findBody
  split
  · exact ends_error (by decide)
  · split
    · exact ends_error (by decide)
    · split
      · exact ends_error (by decide)
      · exact ends_ok _

theorem ends_hqxFill (cfg : Config) (rest : List Byte) (acc nacc p : Nat) : Ends (hqxFill cfg rest acc nacc p) := by
  induction rest generalizing acc nacc p with
  | nil => exact Ends.ite (ends_ok _) (ends_atByte (by decide))
  | cons c rest ih =>
    rw [hqxFill]
    refine Ends.ite (ends_ok _) (Ends.ite (ih _ _ _) (Ends.ite (ends_atByte (by decide)) ?_))
    split
    · exact ends_atByte (by decide)
    · exact ih _ _ _

theorem ends_hqxNextRaw (cfg : Config) (inp : List Byte) (u : HqxUnit) (p : Nat) : Ends (hqxNextRaw cfg inp u p) :=
  (ends_hqxFill _ _ _ _ _).bind fun _ => ends_ok _

theorem ends_hqxH (cfg : Config) (inp : List Byte) (w : HqxUnit × Nat) : Ends (hqxH cfg inp w) := by
  have hnext : ∀ u p, Ends (hqxNextByte cfg inp u p) := fun u p =>
    Ends.ite (ends_ok _) ((ends_hqxNextRaw _ _ _ _).bind fun _ => Ends.ite (ends_ok _) ((ends_hqxNextRaw _ _ _ _).bind fun _ =>
      Ends.ite (ends_ok _) (Ends.ite (ends_atByte (by decide)) (ends_ok _))))
  exact (hnext _ _).bind fun _ => ends_ok _

theorem ends_hqxTake (cfg : Config) (inp : List Byte) (emitted n : Nat) (u : HqxUnit) (p : Nat) :
    Ends (hqxTake cfg inp emitted n u p) :=
  (ends_forkLoop (ends_hqxH cfg inp) _ _).mapError fun _ => rfl

theorem ends_hqxEmit (cfg : Config) (inp : List Byte) (emitted n : Nat) (u : HqxUnit) (p : Nat) :
    Ends (hqxEmit cfg inp emitted n u p) :=
  (ends_forkLoop (ends_hqxH cfg inp) _ _).mapError fun _ => rfl

theorem ends_hqxHeader (cfg : Config) (inp : List Byte) (u : HqxUnit) (p : Nat) : Ends (hqxHeader cfg inp u p) := by
  refine (ends_hqxH _ _ _).bind fun _ => Ends.ite (ends_atByte (by decide)) ?_
  iterate 8 refine (ends_hqxTake _ _ _ _ _ _).bind fun _ => ?_
  exact Ends.ite (ends_atByte (by decide)) (ends_ok _)

theorem ends_hqxForkCrc (cfg : Config) (inp : List Byte) (emitted : Nat) {e : Err} (he : e ∈ Err.raisable) (u : HqxUnit) (p : Nat) :
    Ends (hqxForkCrc cfg inp emitted e u p) :=
  (ends_hqxTake _ _ _ _ _ _).bind fun _ => Ends.ite (ends_error he) (ends_ok _)

theorem ends_hqxScanColon (cfg : Config) (rest : List Byte) (p : Nat) : Ends (hqxScanColon cfg rest p) := by
  induction rest generalizing p with
  | nil => exact ends_atByte (by decide)
  | cons c rest ih => exact Ends.ite (ih _) (Ends.ite (ends_ok _) (Ends.ite (ends_atByte (by decide)) (ih _)))

theorem ends_hqxParse (cfg : Config) (mode : HqxMode) (inp : List Byte) : Ends (hqxParse cfg mode inp) := by
  have hrsrc : ∀ u p, Ends (hqxRsrc cfg mode inp u p) := fun u p => by
    cases mode with
    | file => exact ends_hqxEmit _ _ _ _ _ _
    | wrap => exact ends_hqxTake _ _ _ _ _ _
  refine (ends_findBody _).bind fun _ => (ends_hqxHeader _ _ _ _).bind fun _ => Ends.ite (ends_atByte (by decide)) ?_
  refine (ends_hqxEmit _ _ _ _ _ _).bind fun _ => (ends_hqxForkCrc _ _ _ (by decide) _ _).bind fun _ => (hrsrc _ _).bind fun _ =>
    (ends_hqxForkCrc _ _ _ (by decide) _ _).bind fun _ => ((ends_hqxScanColon _ _ _).mapError (f := Raise.after _) fun _ => rfl).bind fun _ => ends_ok _

/-! ### MacBinary -/

theorem ends_macbHeader (inp : List Byte) : Ends (macbHeader inp) := by
  refine (ends_mapError (fun _ => rfl) fun e he => ?_).bind fun _ =>
    Ends.ite (ends_atByte (by decide)) (Ends.ite (ends_atByte (by decide)) (ends_ok _))
  have herr : e = .trnEof ∨ e = .valMacbHeader ∨ e = .valMacbNameLen ∨ e = .valMacbCrc := by
    unfold macbHeaderCheck at he
    repeat' split at he
    all_goals cases he
    all_goals simp
  rcases herr with rfl | rfl | rfl | rfl <;> decide

theorem ends_macbFork (inp : List Byte) (p emitted start n : Nat) : Ends (macbFork inp p emitted start n) :=
  Ends.ite (ends_error (show Err.trnEof ∈ Err.raisable by decide)) (ends_ok _)

theorem ends_binFileJob (s : State) : Ends (binFileJob s) :=
  (ends_checkCommand _ _ _).bind fun _ => (ends_macbHeader _).bind fun _ => Ends.ite (ends_atByte (by decide))
    ((ends_macbFork _ _ _ _ _).bind fun _ => (ends_macbFork _ _ _ _ _).bind fun _ => ends_ok _)

theorem ends_binWrapJob (s : State) : Ends (binWrapJob s) :=
  (ends_checkCommand _ _ _).bind fun _ => (ends_macbHeader _).bind fun _ => Ends.ite (ends_atByte (by decide))
    (Ends.ite (ends_atByte (by decide)) ((ends_macbFork _ _ _ _ _).bind fun _ => ends_ok _))

/-! ### O15 -/

theorem ends_sitUnsupJob (op : BitVec 8) (s : State) : Ends (sitUnsupJob op s) :=
  (ends_checkCommand _ _ _).bind fun _ => ends_error (by decide)

/-- A byte loop between CheckCommand and a StuffIt fork op's end. -/
theorem ends_forkJob {σ : Type} {p : σ → Except Raise (Byte × σ)} (hp : ∀ u, Ends (p u)) (s : State) (op : BitVec 8) (u : σ)
    {f : List Byte × σ → Except Raise JobResult} (hf : ∀ r, Ends (f r)) :
    Ends (checkCommand s 0 op >>= fun _ => forkLoop p (jobOutLen s) u >>= f) :=
  (ends_checkCommand _ _ _).bind fun _ => (ends_forkLoop hp _ _).bind hf

theorem ends_jobOf (i : Instr) (s : State) : Ends (jobOf i s) := by
  have hresult : ∀ c fork u p k, Ends (forkResult c s fork u p k) := fun c => ends_forkResult c s
  cases i with
  | sitRaw c => exact ends_forkJob (ends_readByte _) _ _ _ fun _ => hresult _ _ _ _ _
  | sitRle90 c => exact ends_forkJob (ends_rle90Step _) _ _ _ fun _ => hresult _ _ _ _ _
  | sitLzw c => exact ends_forkJob (ends_lzwStep _) _ _ _ fun _ => hresult _ _ _ _ _
  | sitM13 c => exact ends_sitM13Job c s
  | sitArs c => exact ends_sitArsJob s
  | cptRle c => exact ends_forkJob (ends_rle81Step (ends_readByte _)) _ _ _ fun _ => ends_ok _
  | cptLzh c => exact ends_forkJob (ends_rle81Step (ends_lzhNext _)) _ _ _ fun _ => ends_ok _
  | hqxDetect c => exact (ends_checkCommand _ _ _).bind fun _ => ends_ok _
  | hqxFile c => exact (ends_checkCommand _ _ _).bind fun _ => (ends_hqxParse _ _ _).bind fun _ => ends_ok _
  | hqxWrap c => exact (ends_checkCommand _ _ _).bind fun _ => (ends_hqxParse _ _ _).bind fun _ => ends_ok _
  | binDetect c => exact (ends_checkCommand _ _ _).bind fun _ => ends_ok _
  | binFile c => exact ends_binFileJob s
  | binWrap c => exact ends_binWrapJob s
  | crcXmodem c => exact (ends_checkCommand _ _ _).bind fun _ => ends_ok _
  | crcArc c => exact (ends_checkCommand _ _ _).bind fun _ => ends_ok _
  | reservedOp op c => exact ends_error (by decide)
  | reservedBits rsvd c op => exact ends_error (by decide)
  | _ => exact ends_sitUnsupJob _ s

theorem endedErr_raiseError (q : Raise) (s : State) : (raiseError q s).endedErr q.err :=
  ⟨rfl, rfl, rfl, rfl, rfl, rfl, rfl, rfl, rfl, rfl, rfl⟩

theorem endedDone_finishJob (r : JobResult) (s : State) : (finishJob s r).endedDone := ⟨rfl, rfl⟩

/-- Settles O15: the errors of each job's parts are the job's. -/
theorem jobAlwaysEnds : Obligations.JobAlwaysEnds := by
  unfold Obligations.JobAlwaysEnds
  intro i s
  have hends := ends_jobOf i s
  rw [exec_eq_endJob_jobOf]
  cases hjob : jobOf i s with
  | error q =>
    exact ⟨_, rfl, jobKeeps_raiseError q s, .inr ⟨_, hends.error q hjob, endedErr_raiseError q s⟩⟩
  | ok r =>
    rw [endJob]
    split
    · exact ⟨_, rfl, jobKeeps_raiseError _ s, .inr ⟨.resOutCap, by decide, endedErr_raiseError _ s⟩⟩
    · exact ⟨_, rfl, jobKeeps_finishJob s r, .inl (endedDone_finishJob r s)⟩

end Sys2Proof.Machine
end
section
/-! PROOFS. Every step keeps the invariant (10_state.md sections 2 and 3). -/

namespace Sys2Proof.Machine

section
variable {s t : State}

theorem status_busy_of_raisable : ∀ e ∈ Err.raisable, e.status.getLsbD 0 = false := by decide

/-- A job that has ended, with DONE or with an error that can arise. -/
theorem inv_of_ended (hmem : t.memWf) (hstatus : t.regs.status = statusDone ∨ ∃ e ∈ Err.raisable, t.regs.status = e.status)
    (hphase : t.seq.phase = .idle) (hreserved : ReservedBitsZero t.regs) : t.Inv := by
  have hbusy : t.busy = false := by
    rw [State.busy]
    rcases hstatus with h | ⟨e, he, h⟩
    · rw [h]
      rfl
    · rw [h]
      exact status_busy_of_raisable e he
  exact ⟨hmem, .inr (.inr hstatus), by simp [hphase, hbusy], hreserved, by simp [hbusy]⟩

/-- Cleared result registers have no reserved bit. -/
theorem reservedBitsZero_cleared {r : Regs} (h : ReservedBitsZero r) (st : Word) : ReservedBitsZero (r.cleared st) :=
  ⟨h.1, BitVec.zero_and, BitVec.zero_and, BitVec.zero_and, BitVec.zero_and⟩

theorem and_mask_idem (w m : Word) : w &&& m &&& m = w &&& m := by
  rw [BitVec.and_assoc, BitVec.and_self]

/-! ### The engine's turn -/

theorem inv_endUnconstrained (h : s.Inv) : (endUnconstrained s).Inv :=
  inv_of_ended ⟨h.mem.1, Space.forget_wf _ _, Space.forget_wf _ _⟩ (endUnconstrained_status s) rfl
    ⟨h.reserved.1, and_mask_idem _ _, and_mask_idem _ _, and_mask_idem _ _, and_mask_idem _ _⟩

theorem inv_raiseError (h : s.Inv) {q : Raise} (hq : q.err ∈ Err.raisable) : (raiseError q s).Inv :=
  inv_of_ended ⟨h.mem.1, Space.forget_wf _ _, Space.forget_wf _ _⟩ (.inr ⟨_, hq, rfl⟩) rfl (reservedBitsZero_cleared h.reserved _)

theorem zext32_and_halfMask (h : Half) : zext32 h &&& 0x0000FFFF = zext32 h := by
  have hnat : (zext32 h).toNat = h.toNat := BitVec.toNat_setWidth_of_le (by omega)
  refine BitVec.eq_of_toNat_eq ?_
  rw [BitVec.toNat_and, hnat]
  exact Nat.and_two_pow_sub_one_of_lt_two_pow (n := 16) h.isLt

/-- A name's length fits MD_NAMELEN. -/
theorem ofNat_and_mdNameLenMask {n : Nat} (h : n ≤ 63) : BitVec.ofNat 32 n &&& mdNameLenMask = BitVec.ofNat 32 n := by
  have hnat : (BitVec.ofNat 32 n).toNat = n := Nat.mod_eq_of_lt (by omega)
  refine BitVec.eq_of_toNat_eq ?_
  rw [BitVec.toNat_and, hnat]
  exact Nat.and_two_pow_sub_one_of_lt_two_pow (n := 8) (by omega)

theorem inv_finishJob (h : s.Inv) {i : Instr} {r : JobResult} (hr : JobResult.Keeps i r) (hlen : r.out.length ≤ s.cfg.outCap) :
    (finishJob s r).Inv := by
  obtain ⟨hinn, hout, hname⟩ := h.mem
  have hnameWf : (nameAfter s.name r.name).wf 256 := by
    rcases hr.name with hnone | ⟨nm, hnm, hle, -⟩
    · rw [hnone]
      exact hname
    · rw [hnm]
      exact Space.writeList_wf hname (by simp; omega)
  have hnameLen : (r.name.getD []).length ≤ 63 := by
    rcases hr.name with hnone | ⟨nm, hnm, hle, -⟩
    · rw [hnone]
      exact Nat.zero_le _
    · rw [hnm]
      exact hle
  exact inv_of_ended ⟨hinn, Space.writeList_wf hout (by rw [Nat.zero_add]; exact hlen), hnameWf⟩ (.inl rfl) rfl
    ⟨h.reserved.1, zext32_and_halfMask _, hr.result, zext32_and_halfMask _, ofNat_and_mdNameLenMask hnameLen⟩

theorem inv_exec (h : s.Inv) {i : Instr} (hstep : exec i s = .next t) : t.Inv := by
  rw [exec_eq_endJob_jobOf] at hstep
  cases hjob : jobOf i s with
  | error q =>
    rw [hjob] at hstep
    cases hstep
    exact inv_raiseError h ((ends_jobOf i s).error q hjob)
  | ok r =>
    rw [hjob, endJob] at hstep
    split at hstep
    · cases hstep
      exact inv_raiseError h (by decide : Err.resOutCap ∈ Err.raisable)
    · cases hstep
      exact inv_finishJob h (jobOf_keeps hjob) (by omega)

/-! ### The host's turn -/

/-- What changes neither the registers nor the phase. -/
theorem inv_of_memories (h : s.Inv) (hregs : t.regs = s.regs) (hseq : t.seq = s.seq) (hmem : t.memWf) : t.Inv := by
  have hbusy : t.busy = s.busy := by rw [State.busy, hregs, State.busy]
  exact ⟨hmem, hregs ▸ h.status, by rw [hseq, hbusy]; exact h.phase, hregs ▸ h.reserved, by rw [hbusy, hregs]; exact h.running⟩

theorem inv_startJob (h : s.Inv) : (startJob s).Inv :=
  ⟨h.mem, .inr (.inl rfl), by simp [startJob, State.busy, Regs.cleared, statusBusy], reservedBitsZero_cleared h.reserved _,
    fun _ => ⟨rfl, rfl, rfl, rfl, rfl, rfl, rfl, rfl, rfl⟩⟩

theorem inv_writeCtrl (h : s.Inv) (v : Word) : (writeCtrl v s).Inv := by
  have hstored : State.Inv { s with regs := { s.regs with ctrl := v &&& ctrlMask } } :=
    ⟨h.mem, h.status, h.phase, ⟨and_mask_idem v ctrlMask, h.reserved.2⟩, h.running⟩
  rw [writeCtrl]
  split
  · exact inv_startJob hstored
  · exact hstored

theorem inv_writeReg (h : s.Inv) (off : Nat) (v : Word) : (writeReg off v s).Inv := by
  unfold writeReg
  split
  · exact inv_writeCtrl h v
  all_goals exact ⟨h.mem, h.status, h.phase, h.reserved, h.running⟩

theorem inv_powerOnReset : (powerOnReset s).Inv :=
  ⟨⟨Space.forget_wf _ _, Space.forget_wf _ _, Space.forget_wf _ _⟩, resetMeetsInvariant.status, resetMeetsInvariant.phase,
    resetMeetsInvariant.reserved, resetMeetsInvariant.running⟩

theorem inv_readReg (h : s.Inv) (off : Nat) (r : ReadResult) : ((readReg off s).returns r).Inv := by
  rw [readReg]
  split <;> exact ⟨h.mem, h.status, h.phase, h.reserved, h.running⟩

theorem inv_writeCells (h : s.Inv) {cells : List (ByteSpace × Nat)} {bs : List Byte} (hcells : CellsOk s.cfg cells) :
    (writeCells cells bs s).Inv :=
  inv_of_memories h (writeCells_regs _ _ _) (writeCells_seq _ _ _) (by
    rw [State.memWf, writeCells_cfg]
    exact writeCells_wf hcells h.mem)

theorem inv_hostAct (h : s.Inv) {a : HostAct} (hact : hostAct a s = .next t) : t.Inv := by
  rcases hostAct_next hact with rfl | rfl | ⟨off, v, rfl⟩ | ⟨off, r, rfl⟩ | ⟨cells, bs, hcells, -, rfl⟩ | ⟨cells, r, -, rfl⟩
  · exact h
  · exact inv_powerOnReset
  · exact inv_writeReg h off v
  · exact inv_readReg h off r
  · exact inv_writeCells h hcells
  · exact ⟨h.mem, h.status, h.phase, h.reserved, h.running⟩

end

/-- Settles O3: the engine's turn ends the job with DONE or an error that can arise, and the host's acts keep the registers' rules. -/
theorem stepKeepsInvariant : Obligations.StepKeepsInvariant := by
  unfold Obligations.StepKeepsInvariant
  intro s t h hstep
  rcases step_next hstep with ⟨-, -, rfl⟩ | ⟨-, -, hexec⟩ | ⟨-, -, rfl⟩ | ⟨a, rest, -, -, hact⟩
  · exact inv_endUnconstrained h
  · exact inv_exec h hexec
  · exact h
  · have hhost : State.Inv { s with host := rest } := ⟨h.mem, h.status, h.phase, h.reserved, h.running⟩
    exact inv_hostAct hhost hact

end Sys2Proof.Machine
end
section
/-! PROOFS. The text of a BinHex file (42_binhex.md R403-R413; 30_encoding.md R208-R211): where its body begins, its digits as raw
bytes, and those expanded. -/

namespace Sys2Proof.Machine
open Reference (bitsMsb hqxExpand isWhitespace HqxPreambleLine HqxBody HqxBadChar SixBits WholeBytes streamBitMsb)

/-! ### The envelope (R403) -/

theorem findPreamble_of_first {pre post : List Byte} (k : Nat) (hstands : hqxPreamble <+: post)
    (hfirst : ∀ i < pre.length, ¬ hqxPreamble <+: (pre ++ post).drop i) : findPreamble (pre ++ post) k = some (k + pre.length) := by
  induction pre generalizing k with
  | nil =>
    obtain ⟨rest, rfl⟩ := hstands
    have hprefix : hqxPreamble.isPrefixOf (hqxPreamble ++ rest) = true := List.isPrefixOf_iff_prefix.2 (List.prefix_append _ _)
    exact if_pos hprefix
  | cons c pre ih =>
    have hc : ¬ hqxPreamble.isPrefixOf (c :: (pre ++ post)) = true := fun h =>
      hfirst 0 (by simp) (List.isPrefixOf_iff_prefix.1 h)
    have hrest := ih (k + 1) fun i hi => hfirst (i + 1) (by rw [List.length_cons]; omega)
    rw [List.cons_append, findPreamble, if_neg hc, hrest, List.length_cons]
    congr 1
    omega

theorem findFrom_of_first {test : Byte → Bool} {inp before after : List Byte} {k : Nat} {c : Byte} (hdrop : inp.drop k = before ++ c :: after)
    (hbefore : ∀ b ∈ before, test b = false) (hc : test c = true) : findFrom test inp k = some (k + before.length) := by
  have hnone : before.findIdx? test = none := List.findIdx?_eq_none_iff.2 hbefore
  simp [findFrom, hdrop, List.findIdx?_append, hnone, List.findIdx?_cons, hc]

theorem findFrom_of_none {test : Byte → Bool} {inp : List Byte} {k : Nat} (h : ∀ b ∈ inp.drop k, test b = false) :
    findFrom test inp k = none := by
  rw [findFrom, List.findIdx?_eq_none_iff.2 h]

section
variable {inp pre mid rest : List Byte}

theorem findPreamble_of_line (h : HqxPreambleLine inp pre mid rest) : findPreamble inp 0 = some pre.length := by
  obtain ⟨rfl, hfirst, -⟩ := h
  rw [← hqxPreamble_eq_preamble, List.append_assoc, List.append_assoc] at hfirst ⊢
  rw [findPreamble_of_first 0 (List.prefix_append _ _) hfirst, Nat.zero_add]

theorem drop_of_line (h : HqxPreambleLine inp pre mid rest) : inp.drop (pre.length + 40) = mid ++ rest := by
  obtain ⟨rfl, -, -⟩ := h
  have hlen : (pre ++ Reference.preamble).length = pre.length + 40 := by rw [List.length_append]; rfl
  rw [List.append_assoc (pre ++ Reference.preamble), ← hlen, List.drop_left]

theorem noLineBreak_of_line (h : HqxPreambleLine inp pre mid rest) : ∀ b ∈ mid, isLineBreak b = false := by
  obtain ⟨-, -, hmid⟩ := h
  intro b hb
  obtain ⟨hcr, hlf⟩ := hmid b hb
  rw [isLineBreak, beq_eq_false_iff_ne.2 hcr, beq_eq_false_iff_ne.2 hlf, Bool.or_false]

theorem isLineBreak_of {b : Byte} (h : b = 0x0D ∨ b = 0x0A) : isLineBreak b = true := by
  rcases h with rfl | rfl <;> rfl

/-- Behind the preamble's line the body's colon is looked for. -/
theorem findLineBreak_of_line {brk : Byte} {gap : List Byte} (h : HqxPreambleLine inp pre mid (brk :: gap))
    (hbrk : brk = 0x0D ∨ brk = 0x0A) : findFrom isLineBreak inp (pre.length + 40) = some (pre.length + 40 + mid.length) ∧
      inp.drop (pre.length + 40 + mid.length + 1) = gap := by
  have hdrop := drop_of_line h
  refine ⟨findFrom_of_first hdrop (noLineBreak_of_line h) (isLineBreak_of hbrk), ?_⟩
  rw [Nat.add_assoc (pre.length + 40), ← List.drop_drop, hdrop, ← List.drop_drop, List.drop_left, List.drop_succ_cons, List.drop_zero]

/-- No preamble. -/
theorem findBody_of_no_preamble (h : ¬ ∃ k, k + 40 ≤ inp.length ∧ (inp.drop k).take 40 = Reference.preamble) :
    findBody inp = .error { err := .fmtHqxNoPreamble } := by
  have hnone : findPreamble inp 0 = none :=
    Option.not_isSome_iff_eq_none.1 (mt findPreamble_isSome_iff_take_drop.1 h)
  rw [findBody, hnone]

/-- A preamble without a line break behind it, or without a colon behind that. -/
theorem findBody_of_no_colon (h : HqxPreambleLine inp pre mid rest)
    (hrest : rest = [] ∨ ∃ brk gap, rest = brk :: gap ∧ (brk = 0x0D ∨ brk = 0x0A) ∧ ∀ b ∈ gap, b ≠ 0x3A) :
    findBody inp = .error { err := .trnEof } := by
  rw [findBody, findPreamble_of_line h]
  rcases hrest with rfl | ⟨brk, gap, rfl, hbrk, hgap⟩
  · have hnone : findFrom isLineBreak inp (pre.length + 40) = none := findFrom_of_none (by
      rw [drop_of_line h, List.append_nil]
      exact noLineBreak_of_line h)
    dsimp only
    rw [hnone]
  · obtain ⟨hfind, hdrop⟩ := findLineBreak_of_line h hbrk
    have hnone : findFrom (· == 0x3A) inp (pre.length + 40 + mid.length + 1) = none := findFrom_of_none (by
      rw [hdrop]
      exact fun b hb => beq_eq_false_iff_ne.2 (hgap b hb))
    dsimp only
    rw [hfind]
    dsimp only
    rw [hnone]

/-- The body begins behind its colon. -/
theorem findBody_of_body {brk : Byte} {gap body : List Byte} (h : HqxPreambleLine inp pre mid (brk :: gap ++ [0x3A] ++ body))
    (hbrk : brk = 0x0D ∨ brk = 0x0A) (hgap : ∀ b ∈ gap, b ≠ 0x3A) :
    ∃ p, findBody inp = .ok p ∧ inp.drop p = body ∧ p + body.length = inp.length := by
  have hshape : brk :: gap ++ [0x3A] ++ body = brk :: (gap ++ 0x3A :: body) := by simp
  rw [hshape] at h
  obtain ⟨hfind, hdrop⟩ := findLineBreak_of_line h hbrk
  have hcolon : findFrom (· == 0x3A) inp (pre.length + 40 + mid.length + 1) = some (pre.length + 40 + mid.length + 1 + gap.length) :=
    findFrom_of_first hdrop (fun b hb => beq_eq_false_iff_ne.2 (hgap b hb)) rfl
  refine ⟨pre.length + 40 + mid.length + 1 + gap.length + 1, ?_, ?_, ?_⟩
  · rw [findBody, findPreamble_of_line h]
    dsimp only
    rw [hfind]
    dsimp only
    rw [hcolon]
  · rw [Nat.add_assoc (pre.length + 40 + mid.length + 1), ← List.drop_drop, hdrop, ← List.drop_drop, List.drop_left, List.drop_succ_cons,
      List.drop_zero]
  · have hlen := congrArg List.length hdrop
    rw [List.length_drop, List.length_append, List.length_cons] at hlen
    omega

end

/-! ### The digits as bits (R404, R405) -/

/-- The digits' characters, with whitespace between them. -/
def BodyText (cfg : Config) (body : List Byte) (ds : List (Fin 64)) : Prop :=
  body.filter (fun c => !isWhitespace c) = ds.map fun d => cfg.hqxAlphabet[d]

/-- The alphabet's characters differ and are neither whitespace nor a colon. -/
structure AlphabetOk (cfg : Config) : Prop where
  nodup : cfg.hqxAlphabet.toList.Nodup
  plain : ∀ c ∈ cfg.hqxAlphabet.toList, isWhitespace c = false ∧ c ≠ 0x3A

/-- The digits' bits. -/
def digitBits (ds : List (Fin 64)) : List Bool := ds.flatMap fun d => bitsMsb 6 d.val

/-- The bytes' bits. -/
def byteBits (bs : List Byte) : List Bool := bs.flatMap fun b => bitsMsb 8 b.toNat

theorem digitBits_length (ds : List (Fin 64)) : (digitBits ds).length = 6 * ds.length := by
  simp [digitBits, Nat.mul_comm]

theorem byteBits_length (bs : List Byte) : (byteBits bs).length = 8 * bs.length := by
  simp [byteBits, Nat.mul_comm]

section
variable {cfg : Config} (hok : AlphabetOk cfg)
include hok

theorem AlphabetOk.index (d : Fin 64) : hqxIndex cfg cfg.hqxAlphabet[d] = some d.val := by
  have hd : d.val < cfg.hqxAlphabet.toList.length := by simp
  have hget : cfg.hqxAlphabet[d] = cfg.hqxAlphabet.toList[d.val] := by simp
  rw [hqxIndex, hget, List.idxOf?_eq_some_iff]
  refine ⟨hd, by simp, fun j hj => ?_⟩
  rw [hok.nodup.getElem_inj_iff]
  omega

omit hok in
theorem mem_alphabet (d : Fin 64) : cfg.hqxAlphabet[d] ∈ cfg.hqxAlphabet.toList := by simp

/-- What the body holds at its next character: whitespace, or the next digit. -/
theorem AlphabetOk.body_cons {c : Byte} {body : List Byte} {ds : List (Fin 64)} (h : BodyText cfg (c :: body) ds) :
    (isHqxWs c = true ∧ BodyText cfg body ds) ∨
      ∃ d ds', ds = d :: ds' ∧ BodyText cfg body ds' ∧ isHqxWs c = false ∧ c ≠ 0x3A ∧ hqxIndex cfg c = some d.val := by
  cases hws : isWhitespace c with
  | true => exact .inl ⟨hws, by rwa [BodyText, List.filter_cons_of_neg (by simp [hws])] at h⟩
  | false =>
    rw [BodyText, List.filter_cons_of_pos (by simp [hws])] at h
    cases ds with
    | nil => cases h
    | cons d ds =>
      obtain ⟨rfl, hrest⟩ := List.cons.inj h
      exact .inr ⟨d, ds, rfl, hrest, hws, (hok.plain _ (mem_alphabet d)).2, hok.index d⟩

end

theorem bitsMsb_mod (n v : Nat) : bitsMsb n (v % 2 ^ n) = bitsMsb n v := by
  rw [bitsMsb, bitsMsb, Reference.bitsLsb, Reference.bitsLsb]
  refine congrArg _ (List.map_congr_left fun i hi => ?_)
  simp [Nat.testBit_mod_two_pow, List.mem_range.1 hi]

/-- A digit's bits go behind those that are buffered. -/
theorem bitsMsb_digit (n acc : Nat) (d : Fin 64) : bitsMsb (n + 6) (64 * acc + d.val) = bitsMsb n acc ++ bitsMsb 6 d.val := by
  have hdiv : (64 * acc + d.val) / 2 ^ 6 = acc := by omega
  have hmod : (64 * acc + d.val) % 2 ^ 6 = d.val := by omega
  rw [bitsMsb_add, hdiv, ← bitsMsb_mod 6 (64 * acc + d.val), hmod]

/-! ### The buffer (R405) -/

section
variable {cfg : Config} {acc nacc p : Nat}

theorem hqxFill_full (rest : List Byte) (h : 8 ≤ nacc) : hqxFill cfg rest acc nacc p = .ok (acc, nacc, p) := by
  cases rest <;> exact if_pos h

theorem hqxFill_nil (h : nacc < 8) : hqxFill cfg [] acc nacc p = .error (.atByte p .trnEof) := if_neg (by omega)

/-- A character that is taken while fewer than 8 bits are buffered. -/
theorem hqxFill_cons {c : Byte} {rest : List Byte} (h : nacc < 8) :
    hqxFill cfg (c :: rest) acc nacc p =
      if isHqxWs c then hqxFill cfg rest acc nacc (p + 1)
      else if c = 0x3A then .error (.atByte (p + 1) .trnEof)
      else (hqxIndex cfg c).elim (.error (.atByte (p + 1) .decHqxBadChar)) fun v =>
        hqxFill cfg rest (64 * acc + v) (nacc + 6) (p + 1) := by
  rw [hqxFill, if_neg (by omega)]
  cases hqxIndex cfg c <;> rfl

variable (hok : AlphabetOk cfg)
include hok

/-- With enough digits before it, the loop buffers 8 bits or more. -/
theorem hqxFill_ok {body : List Byte} {ds : List (Fin 64)} (h : BodyText cfg body ds) (tail : List Byte)
    (hbits : 8 ≤ nacc + 6 * ds.length) :
    ∃ used body' ds' acc' nacc', body = used ++ body' ∧ BodyText cfg body' ds' ∧
      hqxFill cfg (body ++ tail) acc nacc p = .ok (acc', nacc', p + used.length) ∧ 8 ≤ nacc' ∧
      bitsMsb nacc acc ++ digitBits ds = bitsMsb nacc' acc' ++ digitBits ds' := by
  induction body generalizing ds acc nacc p with
  | nil =>
    cases ds with
    | nil => exact ⟨[], [], [], acc, nacc, rfl, h, hqxFill_full _ hbits, hbits, rfl⟩
    | cons d ds => cases h
  | cons c body ih =>
    by_cases hfull : 8 ≤ nacc
    · exact ⟨[], c :: body, ds, acc, nacc, rfl, h, hqxFill_full _ hfull, hfull, rfl⟩
    rw [List.cons_append, hqxFill_cons (by omega)]
    rcases hok.body_cons h with ⟨hws, hbody⟩ | ⟨d, ds, rfl, hbody, hws, hcolon, hindex⟩
    · obtain ⟨used, body', ds', acc', nacc', rfl, hbody', hfill, hle, heq⟩ := ih (acc := acc) (p := p + 1) hbody hbits
      refine ⟨c :: used, body', ds', acc', nacc', rfl, hbody', ?_, hle, heq⟩
      rw [if_pos hws, hfill, List.length_cons, Nat.add_comm used.length, Nat.add_assoc]
    · rw [List.length_cons] at hbits
      obtain ⟨used, body', ds', acc', nacc', rfl, hbody', hfill, hle, heq⟩ :=
        ih (acc := 64 * acc + d.val) (nacc := nacc + 6) (p := p + 1) hbody (by omega)
      refine ⟨c :: used, body', ds', acc', nacc', rfl, hbody', ?_, hle, ?_⟩
      · rw [if_neg (by simp [hws]), if_neg hcolon, hindex, Option.elim_some, hfill, List.length_cons, Nat.add_comm used.length,
          Nat.add_assoc]
      · rw [← heq, bitsMsb_digit, List.append_assoc]
        rfl

/-- With too few digits before it, the loop goes on to what follows the body. -/
theorem hqxFill_short {body : List Byte} {ds : List (Fin 64)} (h : BodyText cfg body ds) (tail : List Byte)
    (hbits : nacc + 6 * ds.length < 8) :
    ∃ acc', hqxFill cfg (body ++ tail) acc nacc p = hqxFill cfg tail acc' (nacc + 6 * ds.length) (p + body.length) := by
  induction body generalizing ds acc nacc p with
  | nil =>
    cases ds with
    | nil => exact ⟨acc, rfl⟩
    | cons d ds => cases h
  | cons c body ih =>
    rw [List.cons_append, hqxFill_cons (by omega), List.length_cons]
    rcases hok.body_cons h with ⟨hws, hbody⟩ | ⟨d, ds, rfl, hbody, hws, hcolon, hindex⟩
    · obtain ⟨acc', hfill⟩ := ih (acc := acc) (p := p + 1) hbody hbits
      exact ⟨acc', by rw [if_pos hws, hfill, Nat.add_comm body.length, Nat.add_assoc]⟩
    · rw [List.length_cons] at hbits ⊢
      obtain ⟨acc', hfill⟩ := ih (acc := 64 * acc + d.val) (nacc := nacc + 6) (p := p + 1) hbody (by omega)
      refine ⟨acc', ?_⟩
      rw [if_neg (by simp [hws]), if_neg hcolon, hindex, Option.elim_some, hfill]
      congr 1 <;> omega

end

/-- What follows the body, and the error that reading on ends with. -/
inductive TailStops (cfg : Config) : List Byte → Err → Prop where
  | ends : TailStops cfg [] .trnEof
  | colon (post : List Byte) : TailStops cfg (0x3A :: post) .trnEof
  | bad (c : Byte) (post : List Byte) : HqxBadChar cfg c → TailStops cfg (c :: post) .decHqxBadChar

theorem hqxIndex_of_bad {cfg : Config} {c : Byte} (h : c ∉ cfg.hqxAlphabet.toList) : hqxIndex cfg c = none :=
  List.idxOf?_eq_none_iff.2 h

theorem hqxFill_stops {cfg : Config} {tail : List Byte} {e : Err} (h : TailStops cfg tail e) {acc nacc p : Nat} (hn : nacc < 8) :
    ∃ q, hqxFill cfg tail acc nacc p = .error (.atByte q e) ∧ q + tail.tail.length = p + tail.length := by
  cases h with
  | ends => exact ⟨p, hqxFill_nil hn, rfl⟩
  | colon post =>
    refine ⟨p + 1, ?_, by rw [List.tail_cons, List.length_cons]; omega⟩
    rw [hqxFill_cons hn]
    rfl
  | bad c post hbad =>
    obtain ⟨hws, hcolon, halpha⟩ := hbad
    have hws : isHqxWs c = false := hws
    refine ⟨p + 1, ?_, by rw [List.tail_cons, List.length_cons]; omega⟩
    rw [hqxFill_cons hn, if_neg (by simp [hws]), if_neg hcolon, hqxIndex_of_bad halpha]
    rfl

/-! ### Raw bytes (R405) -/

/-- The unit and the cursor stand before the raw bytes: the bits that are buffered and those of the digits before the cursor are the
bytes' and then `left`; behind the body stands `tail`. -/
def RawAt (cfg : Config) (inp tail : List Byte) (left : List Bool) (u : HqxUnit) (p : Nat) (raw : List Byte) : Prop :=
  ∃ body ds, inp.drop p = body ++ tail ∧ p + (body ++ tail).length = inp.length ∧ BodyText cfg body ds ∧
    bitsMsb u.nacc u.acc ++ digitBits ds = byteBits raw ++ left

/-- The unit with the buffer and the repeats of `o`. -/
def HqxUnit.withSource (u o : HqxUnit) : HqxUnit := { u with acc := o.acc, nacc := o.nacc, prev := o.prev, hrep := o.hrep }

section
variable {cfg : Config} (hok : AlphabetOk cfg) {inp tail : List Byte} {left : List Bool} {u : HqxUnit} {p : Nat}
include hok

theorem hqxNextRaw_ok {b : Byte} {raw : List Byte} (h : RawAt cfg inp tail left u p (b :: raw)) :
    ∃ acc nacc q, hqxNextRaw cfg inp u p = .ok (b, { u with acc, nacc }, q) ∧
      RawAt cfg inp tail left { u with acc, nacc } q raw := by
  obtain ⟨body, ds, hdrop, hlen, hbody, hbits⟩ := h
  have hcount := congrArg List.length hbits
  rw [List.length_append, List.length_append, bitsMsb_length, digitBits_length, byteBits_length, List.length_cons] at hcount
  obtain ⟨used, body', ds', acc, nacc, rfl, hbody', hfill, hle, heq⟩ := hqxFill_ok (acc := u.acc) (nacc := u.nacc) (p := p) hok hbody tail
    (by omega)
  obtain ⟨n, rfl⟩ : ∃ n, nacc = 8 + n := ⟨nacc - 8, by omega⟩
  rw [hbits, bitsMsb_add, byteBits, List.flatMap_cons, List.append_assoc, List.append_assoc] at heq
  obtain ⟨hbyte, hrest⟩ := List.append_inj heq (by rw [bitsMsb_length, bitsMsb_length])
  have hb : BitVec.ofNat 8 (acc / 2 ^ n) = b := by
    refine BitVec.eq_of_toNat_eq ?_
    rw [BitVec.toNat_ofNat]
    refine bitsMsb_injective (Nat.mod_lt _ (by omega)) b.isLt ?_
    rw [bitsMsb_mod, hbyte]
  refine ⟨acc % 2 ^ n, n, p + used.length, ?_, body', ds', ?_, ?_, hbody', ?_⟩
  · rw [hqxNextRaw, hdrop, hfill, except_ok_bind]
    dsimp only
    rw [Nat.add_sub_cancel_left, hb]
  · rw [← List.drop_drop, hdrop, List.append_assoc, List.drop_left]
  · rw [← hlen]
    simp only [List.length_append]
    omega
  · dsimp only
    rw [bitsMsb_mod]
    exact hrest.symm

/-- With fewer than 8 bits before it, reading a raw byte ends with the tail's error. -/
theorem hqxNextRaw_stops {e : Err} (h : RawAt cfg inp tail left u p []) (hleft : left.length < 8) (hstops : TailStops cfg tail e) :
    ∃ q, hqxNextRaw cfg inp u p = .error (.atByte q e) ∧ q + tail.tail.length = inp.length := by
  obtain ⟨body, ds, hdrop, hlen, hbody, hbits⟩ := h
  have hcount := congrArg List.length hbits
  rw [List.length_append, List.length_append, bitsMsb_length, digitBits_length, byteBits_length, List.length_nil] at hcount
  obtain ⟨acc', hfill⟩ := hqxFill_short (acc := u.acc) (nacc := u.nacc) (p := p) hok hbody tail (by omega)
  obtain ⟨q, hq, hlast⟩ := hqxFill_stops hstops (acc := acc') (nacc := u.nacc + 6 * ds.length) (p := p + body.length) (by omega)
  refine ⟨q, ?_, ?_⟩
  · rw [hqxNextRaw, hdrop, hfill, hq, except_error_bind]
  · rw [hlast, ← hlen, List.length_append, Nat.add_assoc]

end

/-! ### Expanded bytes (R408-R413) -/

/-- The unit and the cursor stand before the bytes: the repeats that are due, and the expansion of raw bytes behind which `more` stands. -/
def HqxAt (cfg : Config) (inp tail : List Byte) (left : List Bool) (more : List Byte) (w : HqxUnit × Nat) (out : List Byte) : Prop :=
  ∃ raw part, RawAt cfg inp tail left w.1 w.2 (raw ++ more) ∧ hqxExpand w.1.prev raw = some part ∧
    out = List.replicate w.1.hrep w.1.prev ++ part

theorem hqxExpand_literal {prev b : Byte} (h : b ≠ 0x90) (raw : List Byte) :
    hqxExpand prev (b :: raw) = (hqxExpand b raw).map (b :: ·) := by
  cases raw <;> simp only [hqxExpand, if_pos h]

theorem hqxExpand_marker (prev n : Byte) (raw : List Byte) :
    hqxExpand prev (0x90 :: n :: raw) =
      if n = 0x00 then (hqxExpand 0x90 raw).map (0x90 :: ·)
      else if n = 0x01 then none
      else (hqxExpand prev raw).map (List.replicate (n.toNat - 1) prev ++ ·) := by
  simp [hqxExpand]

/-- What an expansion begins with: a literal, the marker itself, or a run. -/
theorem hqxExpand_cases {prev : Byte} {raw part : List Byte} (h : hqxExpand prev raw = some part) :
    (raw = [] ∧ part = []) ∨
      (∃ b raw' part', raw = b :: raw' ∧ b ≠ 0x90 ∧ hqxExpand b raw' = some part' ∧ part = b :: part') ∨
      (∃ raw' part', raw = 0x90 :: 0x00 :: raw' ∧ hqxExpand 0x90 raw' = some part' ∧ part = 0x90 :: part') ∨
      ∃ n raw' part', raw = 0x90 :: n :: raw' ∧ n ≠ 0x00 ∧ n ≠ 0x01 ∧ hqxExpand prev raw' = some part' ∧
        part = prev :: (List.replicate (n.toNat - 2) prev ++ part') := by
  cases raw with
  | nil => exact .inl ⟨rfl, (Option.some.inj h).symm⟩
  | cons b raw =>
    by_cases hb : b ≠ 0x90
    · rw [hqxExpand_literal hb, Option.map_eq_some_iff] at h
      obtain ⟨part', hpart, rfl⟩ := h
      exact .inr (.inl ⟨b, raw, part', rfl, hb, hpart, rfl⟩)
    obtain rfl := not_not.1 hb
    cases raw with
    | nil => simp [hqxExpand] at h
    | cons n raw =>
      rw [hqxExpand_marker] at h
      by_cases h0 : n = 0x00
      · rw [if_pos h0, Option.map_eq_some_iff] at h
        obtain ⟨part', hpart, rfl⟩ := h
        exact .inr (.inr (.inl ⟨raw, part', by rw [h0], hpart, rfl⟩))
      by_cases h1 : n = 0x01
      · rw [if_neg h0, if_pos h1] at h
        cases h
      · rw [if_neg h0, if_neg h1, Option.map_eq_some_iff] at h
        obtain ⟨part', hpart, rfl⟩ := h
        refine .inr (.inr (.inr ⟨n, raw, part', rfl, h0, h1, hpart, ?_⟩))
        rw [replicate_pred (two_le_toNat h0 h1), List.cons_append]

/-- Raw bytes stand for at least one byte. -/
theorem hqxExpand_eq_nil {prev : Byte} {raw : List Byte} (h : hqxExpand prev raw = some []) : raw = [] := by
  rcases hqxExpand_cases h with ⟨rfl, -⟩ | ⟨_, _, _, -, -, -, h⟩ | ⟨_, _, -, -, h⟩ | ⟨_, _, _, -, -, -, -, h⟩
  · rfl
  all_goals cases h

section
variable {cfg : Config} (hok : AlphabetOk cfg) {inp tail more : List Byte} {left : List Bool} {u : HqxUnit} {p : Nat}

theorem hqxNextByte_of_due (h : 0 < u.hrep) : hqxNextByte cfg inp u p = .ok (u.prev, { u with hrep := u.hrep - 1 }, p) := if_pos h

theorem hqxNextByte_of_literal {b : Byte} {v : HqxUnit} {q : Nat} (h : u.hrep = 0) (hraw : hqxNextRaw cfg inp u p = .ok (b, v, q))
    (hb : b ≠ 0x90) : hqxNextByte cfg inp u p = .ok (b, { v with prev := b }, q) := by
  rw [hqxNextByte, if_neg (by omega), hraw, except_ok_bind]
  exact if_pos hb

/-- Behind a marker its count is read. -/
theorem hqxNextByte_of_marker {v : HqxUnit} {q : Nat} (h : u.hrep = 0) (hraw : hqxNextRaw cfg inp u p = .ok (0x90, v, q)) :
    hqxNextByte cfg inp u p = hqxNextRaw cfg inp v q >>= fun r =>
      if r.1 = 0x00 then .ok (0x90, { r.2.1 with prev := 0x90 }, r.2.2)
      else if r.1 = 0x01 then .error (.atByte r.2.2 .decHqxRle01)
      else .ok (r.2.1.prev, { r.2.1 with hrep := r.1.toNat - 2 }, r.2.2) := by
  rw [hqxNextByte, if_neg (by omega), hraw, except_ok_bind]
  exact if_neg (by decide)

include hok

theorem hqxNextByte_ok {b : Byte} {rest : List Byte} (h : HqxAt cfg inp tail left more (u, p) (b :: rest)) :
    ∃ v q, hqxNextByte cfg inp u p = .ok (b, v, q) ∧ v = u.withSource v ∧ HqxAt cfg inp tail left more (v, q) rest := by
  obtain ⟨raw, part, hraw, hexpand, hout⟩ := h
  dsimp only at hraw hexpand hout
  rcases Nat.eq_zero_or_eq_succ_pred u.hrep with hrep | hrep
  · rw [hrep, List.replicate_zero, List.nil_append] at hout
    rw [← hout] at hexpand
    rcases hqxExpand_cases hexpand with ⟨-, h⟩ | ⟨c, raw, part, rfl, hc, hpart, h⟩ | ⟨raw, part, rfl, hpart, h⟩ |
      ⟨n, raw, part, rfl, h0, h1, hpart, h⟩
    · cases h
    · obtain ⟨rfl, rfl⟩ := List.cons.inj h
      obtain ⟨acc, nacc, q, hnext, hat⟩ := hqxNextRaw_ok hok hraw
      exact ⟨_, q, hqxNextByte_of_literal hrep hnext hc, rfl, raw, rest, hat, hpart, by rw [hrep]; rfl⟩
    · obtain ⟨rfl, rfl⟩ := List.cons.inj h
      obtain ⟨acc, nacc, q, hnext, hat⟩ := hqxNextRaw_ok hok hraw
      obtain ⟨acc', nacc', q', hnext', hat'⟩ := hqxNextRaw_ok hok hat
      refine ⟨{ u with acc := acc', nacc := nacc', prev := 0x90 }, q', ?_, rfl, raw, rest, hat', hpart, by rw [hrep]; rfl⟩
      rw [hqxNextByte_of_marker hrep hnext, hnext', except_ok_bind]
      exact if_pos rfl
    · obtain ⟨rfl, rfl⟩ := List.cons.inj h
      obtain ⟨acc, nacc, q, hnext, hat⟩ := hqxNextRaw_ok hok hraw
      obtain ⟨acc', nacc', q', hnext', hat'⟩ := hqxNextRaw_ok hok hat
      refine ⟨{ u with acc := acc', nacc := nacc', hrep := n.toNat - 2 }, q', ?_, rfl, raw, part, hat', hpart, rfl⟩
      rw [hqxNextByte_of_marker hrep hnext, hnext', except_ok_bind]
      exact (if_neg h0).trans (if_neg h1)
  · rw [hrep, List.replicate_succ, List.cons_append] at hout
    obtain ⟨rfl, hrest⟩ := List.cons.inj hout
    exact ⟨_, p, hqxNextByte_of_due (by omega), rfl, raw, part, hraw, hexpand, hrest⟩

omit hok in
/-- Behind the last byte only what follows the raw bytes is left. -/
theorem HqxAt.at_end (h : HqxAt cfg inp tail left more (u, p) []) : u.hrep = 0 ∧ RawAt cfg inp tail left u p more := by
  obtain ⟨raw, part, hraw, hexpand, hout⟩ := h
  obtain ⟨hrep, rfl⟩ := List.append_eq_nil_iff.1 hout.symm
  rw [hqxExpand_eq_nil hexpand, List.nil_append] at hraw
  exact ⟨List.replicate_eq_nil_iff _ |>.1 hrep, hraw⟩

/-- `90 01` where a byte is needed. -/
theorem hqxNextByte_rle01 {more' : List Byte} (h : HqxAt cfg inp tail left (0x90 :: 0x01 :: more') (u, p) []) :
    ∃ q, hqxNextByte cfg inp u p = .error (.atByte q .decHqxRle01) := by
  obtain ⟨hrep, hraw⟩ := h.at_end
  obtain ⟨acc, nacc, q, hnext, hat⟩ := hqxNextRaw_ok hok hraw
  obtain ⟨acc', nacc', q', hnext', -⟩ := hqxNextRaw_ok hok hat
  refine ⟨q', ?_⟩
  have hne : (0x01 : Byte) ≠ 0x00 := by decide
  rw [hqxNextByte_of_marker hrep hnext, hnext', except_ok_bind]
  exact (if_neg hne).trans (if_pos rfl)

/-- The body ends where a byte is needed, or inside an escape. -/
theorem hqxNextByte_stops {e : Err} (hmore : more = [] ∨ more = [0x90]) (h : HqxAt cfg inp tail left more (u, p) [])
    (hleft : left.length < 8) (hstops : TailStops cfg tail e) :
    ∃ q, hqxNextByte cfg inp u p = .error (.atByte q e) ∧ q + tail.tail.length = inp.length := by
  obtain ⟨hrep, hraw⟩ := h.at_end
  rcases hmore with rfl | rfl
  · obtain ⟨q, hq, hlast⟩ := hqxNextRaw_stops hok hraw hleft hstops
    exact ⟨q, by rw [hqxNextByte, if_neg (by omega), hq, except_error_bind], hlast⟩
  · obtain ⟨acc, nacc, q, hnext, hat⟩ := hqxNextRaw_ok hok hraw
    obtain ⟨q', hq', hlast⟩ := hqxNextRaw_stops hok hat hleft hstops
    exact ⟨q', by rw [hqxNextByte_of_marker hrep hnext, hq', except_error_bind], hlast⟩

end

/-! ### The digits of a body as raw bytes (R210) -/

/-- One of the elements that blocks of one length make. -/
theorem getElem?_flatMap_blocks {α β : Type} {n : Nat} (hn : 0 < n) (f : α → List β) (hf : ∀ a, (f a).length = n) (l : List α) (k : Nat) :
    (l.flatMap f)[k]? = l[k / n]?.bind fun a => (f a)[k % n]? := by
  induction l generalizing k with
  | nil => simp
  | cons a l ih =>
    rw [List.flatMap_cons]
    by_cases hk : k < n
    · rw [List.getElem?_append_left (by rw [hf]; exact hk), Nat.div_eq_of_lt hk, Nat.mod_eq_of_lt hk]
      rfl
    · obtain ⟨j, rfl⟩ : ∃ j, k = j + n := ⟨k - n, by omega⟩
      rw [List.getElem?_append_right (by rw [hf]; omega), hf, Nat.add_sub_cancel, ih, Nat.add_div_right _ hn, Nat.add_mod_right,
        List.getElem?_cons_succ]

theorem bitsMsb_getElem? {n i : Nat} (v : Nat) (hi : i < n) : (bitsMsb n v)[i]? = some (v.testBit (n - 1 - i)) := by
  rw [bitsMsb, List.getElem?_reverse (by simpa using hi), Reference.bitsLsb]
  simp [show n - 1 - i < n by omega]

theorem digitBits_getElem? {ds : List (Fin 64)} {k : Nat} (hk : k < 6 * ds.length) :
    (digitBits ds)[k]? = some ((ds.getD (k / 6) 0).val.testBit (5 - k % 6)) := by
  have hlt : k / 6 < ds.length := by omega
  rw [digitBits, getElem?_flatMap_blocks (by omega) _ (fun d : Fin 64 => bitsMsb_length 6 d.val), List.getElem?_eq_getElem hlt,
    Option.bind_some, bitsMsb_getElem? _ (Nat.mod_lt _ (by omega)), List.getD_eq_getElem _ _ hlt]

theorem byteBits_getElem? {bs : List Byte} {k : Nat} (hk : k < 8 * bs.length) : (byteBits bs)[k]? = some (streamBitMsb bs k) := by
  have hlt : k / 8 < bs.length := by omega
  rw [byteBits, getElem?_flatMap_blocks (by omega) _ (fun b : Byte => bitsMsb_length 8 b.toNat), List.getElem?_eq_getElem hlt,
    Option.bind_some, bitsMsb_getElem? _ (Nat.mod_lt _ (by omega)), streamBitMsb, List.getD_eq_getElem _ _ hlt]
  rfl

/-- The digits' bits are those of the bytes they hold, and then what is left over. -/
theorem digitBits_eq {raw : List Byte} {ds : List (Fin 64)} (hlen : 8 * raw.length ≤ 6 * ds.length)
    (hbits : ∀ k < 8 * raw.length, streamBitMsb raw k = (ds.getD (k / 6) 0).val.testBit (5 - k % 6)) :
    ∃ left, digitBits ds = byteBits raw ++ left ∧ left.length = 6 * ds.length - 8 * raw.length := by
  refine ⟨(digitBits ds).drop (8 * raw.length), ?_, by rw [List.length_drop, digitBits_length]⟩
  have htake : (digitBits ds).take (8 * raw.length) = byteBits raw := by
    refine List.ext_getElem? fun k => ?_
    by_cases hk : k < 8 * raw.length
    · rw [List.getElem?_take_of_lt hk, digitBits_getElem? (by omega), byteBits_getElem? hk, hbits k hk]
    · rw [List.getElem?_eq_none (by rw [List.length_take]; omega), List.getElem?_eq_none (by rw [byteBits_length]; omega)]
  rw [← htake, List.take_append_drop]

theorem digitBits_of_wholeBytes {raw : List Byte} {ds : List (Fin 64)} (h : WholeBytes raw ds) :
    ∃ left, digitBits ds = byteBits raw ++ left ∧ left.length < 8 := by
  obtain ⟨hlen, hbits⟩ := h
  obtain ⟨left, heq, hleft⟩ := digitBits_eq (by omega) hbits
  exact ⟨left, heq, by omega⟩

theorem digitBits_of_sixBits {raw : List Byte} {used : List (Fin 64)} (h : SixBits raw used) (extra : List (Fin 64)) :
    ∃ left, digitBits (used ++ extra) = byteBits raw ++ left := by
  obtain ⟨hlen, hbits⟩ := h
  obtain ⟨left, heq, -⟩ := digitBits_eq (by omega) hbits
  refine ⟨left ++ digitBits extra, ?_⟩
  rw [digitBits, List.flatMap_append, ← List.append_assoc, ← heq]
  rfl

/-- Where the body begins, the unit stands before the expansion of its raw bytes. -/
theorem hqxAt_body {cfg : Config} {inp tail : List Byte} {ds : List (Fin 64)} (h : HqxBody cfg inp ds tail) :
    AlphabetOk cfg ∧ ∃ p, findBody inp = .ok p ∧ ∀ raw more left part, digitBits ds = byteBits (raw ++ more) ++ left →
      hqxExpand 0 raw = some part → HqxAt cfg inp tail left more ({ phase := .body }, p) part := by
  obtain ⟨⟨pre, mid, brk, gap, body, hline, hbrk, hgap, hbody⟩, hnodup, hplain⟩ := h
  rw [List.append_assoc _ body tail] at hline
  obtain ⟨p, hfind, hdrop, hlen⟩ := findBody_of_body hline hbrk hgap
  exact ⟨⟨hnodup, hplain⟩, p, hfind, fun raw more left part hbits hexpand =>
    ⟨raw, part, ⟨body, ds, hdrop, hlen, hbody, hbits⟩, hexpand, rfl⟩⟩

/-! ### The closing colon (R420) -/

section
variable {cfg : Config} (hok : AlphabetOk cfg) {inp tail more : List Byte} {left : List Bool} {u : HqxUnit} {p : Nat}
include hok

theorem hqxScanColon_body {body : List Byte} {ds : List (Fin 64)} (h : BodyText cfg body ds) (p : Nat) :
    hqxScanColon cfg (body ++ tail) p = hqxScanColon cfg tail (p + body.length) := by
  induction body generalizing ds p with
  | nil => rfl
  | cons c body ih =>
    rw [List.cons_append, hqxScanColon, List.length_cons]
    rcases hok.body_cons h with ⟨hws, hbody⟩ | ⟨d, ds, rfl, hbody, hws, hcolon, hindex⟩
    · rw [if_pos hws, ih hbody, Nat.add_assoc, Nat.add_comm 1]
    · rw [if_neg (by simp [hws]), if_neg hcolon, if_neg (by simp [hindex]), ih hbody, Nat.add_assoc, Nat.add_comm 1]

/-- Behind the container the digits that are left are read and discarded. -/
theorem hqxScanColon_at {out : List Byte} (h : HqxAt cfg inp tail left more (u, p) out) :
    ∃ q, hqxScanColon cfg (inp.drop p) p = hqxScanColon cfg tail q ∧ q + tail.length = inp.length := by
  obtain ⟨raw, part, ⟨body, ds, hdrop, hlen, hbody, -⟩, -, -⟩ := h
  dsimp only at hdrop hlen
  refine ⟨p + body.length, by rw [hdrop, hqxScanColon_body hok hbody], ?_⟩
  rw [← hlen, List.length_append, Nat.add_assoc]

end

theorem hqxScanColon_colon (cfg : Config) (post : List Byte) (q : Nat) : hqxScanColon cfg (0x3A :: post) q = .ok (q + 1) := rfl

theorem hqxScanColon_stops {cfg : Config} {tail : List Byte} {e : Err} (h : TailStops cfg tail e) (hcolon : tail.head? ≠ some 0x3A)
    (q : Nat) : ∃ q', hqxScanColon cfg tail q = .error (.atByte q' e) ∧ q' + tail.tail.length = q + tail.length := by
  cases h with
  | ends => exact ⟨q, rfl, rfl⟩
  | colon post => exact absurd rfl hcolon
  | bad c post hbad =>
    obtain ⟨hws, hne, halpha⟩ := hbad
    have hws : isHqxWs c = false := hws
    refine ⟨q + 1, ?_, by rw [List.tail_cons, List.length_cons]; omega⟩
    rw [hqxScanColon, if_neg (by simp [hws]), if_neg hne, if_pos (by simp [hqxIndex_of_bad halpha])]

end Sys2Proof.Machine
end
section
/-! PROOFS. The container of a BinHex file (42_binhex.md R414-R420), read byte by byte: what the parts of its parser read, and how they
end where the bytes do. -/

namespace Sys2Proof.Machine
open Reference (bytes16 bytes32 hqxHead hqxSection hqxContainer)

/-! ### A computation that reads bytes -/

/-- Behind the last byte the next read ends with an error, and it and the cursor there meet `P`. -/
def HqxEnds (cfg : Config) (inp : List Byte) (At : HqxUnit × Nat → List Byte → Prop) (P : Err → Nat → Prop) : Prop :=
  ∀ u p, At (u, p) [] → ∃ q, hqxNextByte cfg inp u p = .error q ∧ P q.err q.bpos

/-- The computation, begun at `w`, reads `xs`: where they stand it answers what meets `post` and goes on at the state named there; where
the bytes end before them, it ends as the read that misses one. -/
structure Feeds {β : Type} (cfg : Config) (inp : List Byte) (At : HqxUnit × Nat → List Byte → Prop) (w : HqxUnit × Nat)
    (x : Except Raise β) (xs : List Byte) (post : β → HqxUnit × Nat → Prop) : Prop where
  whole : ∀ rest, At w (xs ++ rest) → ∃ r w', x = .ok r ∧ post r w' ∧ At w' rest
  cut   : ∀ P, HqxEnds cfg inp At P → ∀ part, At w part → part <+: xs → part ≠ xs → ∃ q, x = .error q ∧ P q.err q.bpos

section
variable {β γ : Type} {cfg : Config} {inp : List Byte} {At : HqxUnit × Nat → List Byte → Prop} {w : HqxUnit × Nat} {xs ys : List Byte}
  {post : β → HqxUnit × Nat → Prop} {post' : γ → HqxUnit × Nat → Prop}

theorem feeds_ok {r : β} (h : post r w) : Feeds cfg inp At w (.ok r) [] post :=
  ⟨fun _ hat => ⟨r, w, rfl, h, hat⟩, fun _ _ _ _ hprefix hne => absurd (List.prefix_nil.1 hprefix) hne⟩

theorem Feeds.bind {x : Except Raise β} {g : β → Except Raise γ} (hx : Feeds cfg inp At w x xs post)
    (hg : ∀ r w', post r w' → Feeds cfg inp At w' (g r) ys post') : Feeds cfg inp At w (x >>= g) (xs ++ ys) post' := by
  constructor
  · intro rest hat
    rw [List.append_assoc] at hat
    obtain ⟨r, w', rfl, hr, hat'⟩ := hx.whole _ hat
    exact (hg r w' hr).whole rest hat'
  · intro P hends part hat hprefix hne
    rcases List.prefix_or_prefix_of_prefix hprefix (List.prefix_append xs ys) with hpart | ⟨part', rfl⟩
    · by_cases hwhole : part = xs
      · subst hwhole
        obtain ⟨r, w', rfl, hr, hat'⟩ := hx.whole [] (by rwa [List.append_nil])
        refine (hg r w' hr).cut P hends [] hat' List.nil_prefix fun hnil => hne ?_
        rw [← hnil, List.append_nil]
      · obtain ⟨q, rfl, hq⟩ := hx.cut P hends part hat hpart hwhole
        exact ⟨q, rfl, hq⟩
    · obtain ⟨r, w', rfl, hr, hat'⟩ := hx.whole _ hat
      exact (hg r w' hr).cut P hends part' hat' ((List.prefix_append_right_inj _).1 hprefix) fun heq => hne (by rw [heq])

/-- Only what stands before the state matters. -/
theorem Feeds.start {w' : HqxUnit × Nat} {x : Except Raise β} (hx : Feeds cfg inp At w' x xs post)
    (h : ∀ out, At w out → At w' out) : Feeds cfg inp At w x xs post :=
  ⟨fun rest hat => hx.whole rest (h _ hat), fun P hends part hat => hx.cut P hends part (h _ hat)⟩

/-- An answer made from what the computation answers. -/
theorem Feeds.map {x : Except Raise β} {g : β → γ} (hx : Feeds cfg inp At w x xs post) (hg : ∀ r w', post r w' → post' (g r) w') :
    Feeds cfg inp At w (x >>= fun r => .ok (g r)) xs post' := by
  have h := hx.bind (ys := []) (post' := post') fun r w' hr => feeds_ok (r := g r) (hg r w' hr)
  rwa [List.append_nil] at h

/-- The byte count of an error is no part of this. -/
theorem Feeds.mapError {x : Except Raise β} {f : Raise → Raise} (hx : Feeds cfg inp At w x xs post)
    (hf : ∀ q, (f q).err = q.err ∧ (f q).bpos = q.bpos) : Feeds cfg inp At w (x.mapError f) xs post := by
  constructor
  · intro rest hat
    obtain ⟨r, w', rfl, hpost, hat'⟩ := hx.whole rest hat
    exact ⟨r, w', rfl, hpost, hat'⟩
  · intro P hends part hat hprefix hne
    obtain ⟨q, rfl, hq⟩ := hx.cut P hends part hat hprefix hne
    obtain ⟨herr, hbpos⟩ := hf q
    exact ⟨f q, rfl, by rw [herr, hbpos]; exact hq⟩

end

/-! ### H() and the reads of several bytes -/

/-- The unit with the buffer and the repeats of `o`, whose CRC has taken the bytes. -/
def HqxUnit.fed (u o : HqxUnit) (xs : List Byte) : HqxUnit := { u.withSource o with crc := crcXmodem xs u.crc }

theorem crcXmodem_append (d d' : List Byte) (c : Half) : crcXmodem (d ++ d') c = crcXmodem d' (crcXmodem d c) := List.foldl_append

theorem HqxUnit.fed_crc (u o : HqxUnit) (xs : List Byte) : (u.fed o xs).crc = crcXmodem xs u.crc := rfl

theorem HqxUnit.fed_fed (u o o' : HqxUnit) (xs ys : List Byte) : (u.fed o xs).fed o' ys = u.fed o' (xs ++ ys) := by
  simp [HqxUnit.fed, HqxUnit.withSource, crcXmodem, List.foldl_append]

section
variable {cfg : Config} (hok : AlphabetOk cfg) {inp tail more : List Byte} {left : List Bool}
include hok

theorem feeds_hqxH (u : HqxUnit) (p : Nat) (b : Byte) :
    Feeds cfg inp (HqxAt cfg inp tail left more) (u, p) (hqxH cfg inp (u, p)) [b]
      fun r w' => r.1 = b ∧ r.2 = w' ∧ ∃ o, w'.1 = u.fed o [b] := by
  constructor
  · intro rest hat
    obtain ⟨v, q, hnext, hv, hat'⟩ := hqxNextByte_ok hok hat
    refine ⟨(b, { v with crc := crcXmodemByte v.crc b }, q), ({ v with crc := crcXmodemByte v.crc b }, q), ?_, ⟨rfl, rfl, v, ?_⟩, hat'⟩
    · rw [hqxH, hnext, except_ok_bind]
    · have hcrc : v.crc = u.crc := by rw [hv]; rfl
      dsimp only
      rw [hcrc]
      exact congrArg (fun o => { o with crc := crcXmodemByte u.crc b }) hv
  · intro P hends part hat hprefix hne
    have hnil : part = [] := by
      rcases List.prefix_cons_iff.1 hprefix with h | ⟨t, rfl, ht⟩
      · exact h
      · exact absurd (by rw [List.prefix_nil.1 ht]) hne
    subst hnil
    obtain ⟨q, hq, hP⟩ := hends u p hat
    exact ⟨q, by rw [hqxH, hq, except_error_bind], hP⟩

theorem feeds_forkLoop_hqxH (xs : List Byte) (u : HqxUnit) (p : Nat) :
    Feeds cfg inp (HqxAt cfg inp tail left more) (u, p) (forkLoop (hqxH cfg inp) xs.length (u, p)) xs
      fun r w' => r.1 = xs ∧ r.2 = w' ∧ ∃ o, w'.1 = u.fed o xs := by
  induction xs generalizing u p with
  | nil => exact feeds_ok ⟨rfl, rfl, u, rfl⟩
  | cons b xs ih =>
    rw [List.length_cons, forkLoop_succ, ← List.singleton_append]
    refine (feeds_hqxH hok u p b).bind ?_
    rintro ⟨b', w'⟩ w'' ⟨rfl, rfl, o, ho⟩
    obtain ⟨u', p'⟩ := w'
    dsimp only at ho
    subst ho
    refine ((ih (u.fed o [b']) p').mapError (f := Raise.after 1) fun _ => ⟨rfl, rfl⟩).map ?_
    rintro ⟨xs', w'⟩ w'' ⟨rfl, rfl, o', ho'⟩
    exact ⟨rfl, rfl, o', ho'.trans (HqxUnit.fed_fed u o o' [b'] xs')⟩

/-- What reading the bytes answers: them, and the unit and the cursor behind them. -/
abbrev TookBytes (u : HqxUnit) (xs : List Byte) (r : List Byte × HqxUnit × Nat) (w : HqxUnit × Nat) : Prop :=
  r.1 = xs ∧ r.2 = w ∧ ∃ o, w.1 = u.fed o xs

theorem feeds_hqxTake (emitted : Nat) {n : Nat} {xs : List Byte} (hn : xs.length = n) (u : HqxUnit) (p : Nat) :
    Feeds cfg inp (HqxAt cfg inp tail left more) (u, p) (hqxTake cfg inp emitted n u p) xs (TookBytes u xs) := by
  subst hn
  exact (feeds_forkLoop_hqxH hok xs u p).mapError fun _ => ⟨rfl, rfl⟩

theorem feeds_hqxEmit (emitted : Nat) {n : Nat} {xs : List Byte} (hn : xs.length = n) (u : HqxUnit) (p : Nat) :
    Feeds cfg inp (HqxAt cfg inp tail left more) (u, p) (hqxEmit cfg inp emitted n u p) xs (TookBytes u xs) := by
  subst hn
  exact (feeds_forkLoop_hqxH hok xs u p).mapError fun _ => ⟨rfl, rfl⟩

end

/-! ### The header (R414-R416) -/

theorem ofNat_beNat_bytes32 (w : Word) : BitVec.ofNat 32 (beNat (bytes32 w)) = w := by
  have hw := w.isLt
  refine BitVec.eq_of_toNat_eq ?_
  simp only [bytes32, beNat, List.foldl_cons, List.foldl_nil, BitVec.toNat_ofNat, BitVec.extractLsb'_toNat, Nat.shiftRight_eq_div_pow]
  omega

theorem ofNat_beNat_bytes16 (h : Half) : BitVec.ofNat 16 (beNat (bytes16 h)) = h := by
  have hh := h.isLt
  refine BitVec.eq_of_toNat_eq ?_
  simp only [bytes16, beNat, List.foldl_cons, List.foldl_nil, BitVec.toNat_ofNat, BitVec.extractLsb'_toNat, Nat.shiftRight_eq_div_pow]
  omega

/-- The header's bytes up to its CRC check, with the name length check (R415). -/
def hqxHeadRead (cfg : Config) (inp : List Byte) (u : HqxUnit) (p : Nat) : Except Raise (HqxUnit × Nat) := do
  let (l, u, p) ← hqxH cfg inp ({ u with crc := 0 }, p)
  if l.toNat < 1 ∨ 63 < l.toNat then .error (.atByte p .valHqxNameLen)
  else
    let (nm, u, p) ← hqxTake cfg inp 0 l.toNat { u with nameLen := l.toNat } p
    let (_, u, p) ← hqxTake cfg inp 0 1 { u with nm } p
    let (type, u, p) ← hqxTake cfg inp 0 4 u p
    let (creator, u, p) ← hqxTake cfg inp 0 4 u p
    let (flags, u, p) ← hqxTake cfg inp 0 2 u p
    let (dl, u, p) ← hqxTake cfg inp 0 4 u p
    let (rl, u, p) ← hqxTake cfg inp 0 4 u p
    let (_, u, p) ← hqxTake cfg inp 0 2
      { u with
        type := BitVec.ofNat 32 (beNat type), creator := BitVec.ofNat 32 (beNat creator),
        flags := BitVec.ofNat 16 (beNat flags), dl := BitVec.ofNat 32 (beNat dl), rl := BitVec.ofNat 32 (beNat rl) } p
    .ok (u, p)

theorem except_bind_assoc {ε α β γ : Type} (x : Except ε α) (f : α → Except ε β) (g : β → Except ε γ) :
    x >>= f >>= g = x >>= fun a => f a >>= g := by
  cases x <;> rfl

theorem hqxHeader_eq (cfg : Config) (inp : List Byte) (u : HqxUnit) (p : Nat) :
    hqxHeader cfg inp u p = hqxHeadRead cfg inp u p >>= fun r =>
      if r.1.crc ≠ 0 then .error (.atByte r.2 .valHqxHdrCrc) else .ok r := by
  rw [hqxHeader, hqxHeadRead, except_bind_assoc]
  refine congrArg _ (funext fun r => ?_)
  by_cases hl : r.1.toNat < 1 ∨ 63 < r.1.toNat
  · simp only [if_pos hl]
    rfl
  · simp only [if_neg hl, except_bind_assoc]
    rfl

/-- The unit behind a header, whose fields it holds. -/
structure HqxHeadIs (nm : List Byte) (type creator : Word) (flags : Half) (dl rl : Word) (u : HqxUnit) : Prop where
  nm      : u.nm = nm
  type    : u.type = type
  creator : u.creator = creator
  flags   : u.flags = flags
  dl      : u.dl = dl
  rl      : u.rl = rl

section
variable {cfg : Config} (hok : AlphabetOk cfg) {inp tail more : List Byte} {left : List Bool} {nm : List Byte} (nul : Byte)
  (type creator : Word) (flags : Half) (dl rl : Word) (hlo : 1 ≤ nm.length) (hhi : nm.length ≤ 63)
include hok hlo hhi

theorem feeds_hqxHeadRead (a b : Byte) (u : HqxUnit) (p : Nat) :
    Feeds cfg inp (HqxAt cfg inp tail left more) (u, p) (hqxHeadRead cfg inp u p) (hqxHead nm nul type creator flags dl rl ++ [a, b])
      fun r w' => r = w' ∧ HqxHeadIs nm type creator flags dl rl w'.1 ∧
        w'.1.crc = crcXmodem (hqxHead nm nul type creator flags dl rl ++ [a, b]) := by
  have hshape : hqxHead nm nul type creator flags dl rl ++ [a, b] = [BitVec.ofNat 8 nm.length] ++ (nm ++ ([nul] ++ (bytes32 type ++
      (bytes32 creator ++ (bytes16 flags ++ (bytes32 dl ++ (bytes32 rl ++ [a, b]))))))) := by simp [hqxHead]
  have hl : (BitVec.ofNat 8 nm.length).toNat = nm.length := by
    rw [BitVec.toNat_ofNat]
    omega
  rw [hshape]
  rw [hqxHeadRead]
  refine Feeds.start (w' := ({ u with crc := 0 }, p)) (Feeds.bind (feeds_hqxH hok _ _ _) ?_) fun _ h => h
  rintro ⟨l, w⟩ ⟨u1, p1⟩ ⟨hl', rfl, o1, hu1⟩
  dsimp only at hl' hu1 ⊢
  rw [hl', hl, if_neg (by omega)]
  refine Feeds.start (w' := ({ u1 with nameLen := nm.length }, p1)) (Feeds.bind (feeds_hqxTake hok 0 (by rfl) _ _) ?_) fun _ h => h
  rintro ⟨nm', w⟩ ⟨u2, p2⟩ ⟨rfl, rfl, o2, hu2⟩
  refine Feeds.start (w' := ({ u2 with nm := nm' }, p2)) (Feeds.bind (feeds_hqxTake hok 0 (by rfl) _ _) ?_) fun _ h => h
  rintro ⟨nul', w⟩ ⟨u3, p3⟩ ⟨rfl, rfl, o3, hu3⟩
  refine Feeds.bind (feeds_hqxTake hok 0 (by rfl) _ _) ?_
  rintro ⟨type', w⟩ ⟨u4, p4⟩ ⟨rfl, rfl, o4, hu4⟩
  refine Feeds.bind (feeds_hqxTake hok 0 (by rfl) _ _) ?_
  rintro ⟨creator', w⟩ ⟨u5, p5⟩ ⟨rfl, rfl, o5, hu5⟩
  refine Feeds.bind (feeds_hqxTake hok 0 (by rfl) _ _) ?_
  rintro ⟨flags', w⟩ ⟨u6, p6⟩ ⟨rfl, rfl, o6, hu6⟩
  refine Feeds.bind (feeds_hqxTake hok 0 (by rfl) _ _) ?_
  rintro ⟨dl', w⟩ ⟨u7, p7⟩ ⟨rfl, rfl, o7, hu7⟩
  refine Feeds.bind (feeds_hqxTake hok 0 (by rfl) _ _) ?_
  rintro ⟨rl', w⟩ ⟨u8, p8⟩ ⟨rfl, rfl, o8, hu8⟩
  dsimp only
  refine Feeds.start (w' := (_, p8)) (Feeds.map (feeds_hqxTake hok 0 (by rfl) _ _) ?_) fun _ h => h
  rintro ⟨crc', w⟩ ⟨u9, p9⟩ ⟨rfl, rfl, o9, hu9⟩
  dsimp only at *
  subst hu1 hu2 hu3 hu4 hu5 hu6 hu7 hu8 hu9
  refine ⟨rfl, ⟨rfl, ofNat_beNat_bytes32 type, ofNat_beNat_bytes32 creator, ofNat_beNat_bytes16 flags, ofNat_beNat_bytes32 dl,
    ofNat_beNat_bytes32 rl⟩, ?_⟩
  simp [HqxUnit.fed, HqxUnit.withSource, crcXmodem]

end

/-- A section's CRC is the last two bytes that leave the register at 0 (41_common.md R352). -/
theorem crcXmodem_append_eq_zero_iff {d : List Byte} {a b : Byte} : crcXmodem (d ++ [a, b]) = 0 ↔ [a, b] = bytes16 (crcXmodem d) := by
  refine ⟨fun h => ?_, fun h => by rw [h]; exact crcXmodem_append_self d⟩
  obtain ⟨hhigh, hlow⟩ := extractLsb'_append_pair a b
  rw [(crcSelfCheck d a b).1 h, bytes16, hhigh, hlow]

/-- A computation goes on to an answer where a check passes. -/
theorem Feeds.mapOk {β γ : Type} {cfg : Config} {inp : List Byte} {At : HqxUnit × Nat → List Byte → Prop} {w : HqxUnit × Nat}
    {xs : List Byte} {post : β → HqxUnit × Nat → Prop} {post' : γ → HqxUnit × Nat → Prop} {x : Except Raise β}
    {f : β → Except Raise γ} (hx : Feeds cfg inp At w x xs post) (hf : ∀ r w', post r w' → ∃ c, f r = .ok c ∧ post' c w') :
    Feeds cfg inp At w (x >>= f) xs post' := by
  have h := hx.bind (g := f) (ys := []) (post' := post') fun r w' hr => by
    obtain ⟨c, hc, hpost⟩ := hf r w' hr
    rw [hc]
    exact feeds_ok hpost
  rwa [List.append_nil] at h

section
variable {cfg : Config} (hok : AlphabetOk cfg) {inp tail more : List Byte} {left : List Bool} {nm : List Byte} (nul : Byte)
  (type creator : Word) (flags : Half) (dl rl : Word) (hlo : 1 ≤ nm.length) (hhi : nm.length ≤ 63)
include hok hlo hhi

theorem feeds_hqxHeader (u : HqxUnit) (p : Nat) :
    Feeds cfg inp (HqxAt cfg inp tail left more) (u, p) (hqxHeader cfg inp u p) (hqxSection (hqxHead nm nul type creator flags dl rl))
      fun r w' => r = w' ∧ HqxHeadIs nm type creator flags dl rl w'.1 := by
  rw [hqxHeader_eq, hqxSection]
  refine (feeds_hqxHeadRead hok nul type creator flags dl rl hlo hhi _ _ u p).mapOk ?_
  rintro r w' ⟨rfl, hfields, hcrc⟩
  refine ⟨r, ?_, rfl, hfields⟩
  rw [hcrc, crcXmodem_append_eq_zero_iff.2 rfl]
  rfl

/-- A header whose CRC is not its bytes'. -/
theorem hqxHeader_badCrc {a b : Byte} {rest : List Byte} {u : HqxUnit} {p : Nat}
    (h : HqxAt cfg inp tail left more (u, p) (hqxHead nm nul type creator flags dl rl ++ [a, b] ++ rest))
    (hbad : [a, b] ≠ bytes16 (crcXmodem (hqxHead nm nul type creator flags dl rl))) :
    ∃ q, hqxHeader cfg inp u p = .error (.atByte q .valHqxHdrCrc) := by
  obtain ⟨r, w', hread, ⟨rfl, -, hcrc⟩, -⟩ := (feeds_hqxHeadRead hok nul type creator flags dl rl hlo hhi a b u p).whole rest h
  refine ⟨r.2, ?_⟩
  rw [hqxHeader_eq, hread, except_ok_bind, hcrc]
  exact if_pos fun hzero => hbad (crcXmodem_append_eq_zero_iff.1 hzero)

end

/-- A name's length that is 0 or above 63. -/
theorem hqxHeader_badName {cfg : Config} (hok : AlphabetOk cfg) {inp tail more : List Byte} {left : List Bool} {l : Byte}
    {rest : List Byte} {u : HqxUnit} {p : Nat} (h : HqxAt cfg inp tail left more (u, p) (l :: rest))
    (hbad : l.toNat = 0 ∨ 63 < l.toNat) : ∃ q, hqxHeader cfg inp u p = .error (.atByte q .valHqxNameLen) := by
  obtain ⟨⟨l', w⟩, w', hread, ⟨rfl, rfl, -⟩, -⟩ := (feeds_hqxH hok { u with crc := 0 } p l).whole rest h
  refine ⟨w.2, ?_⟩
  rw [hqxHeader, hread, except_ok_bind]
  exact if_pos (hbad.imp_left fun hz => Nat.lt_one_iff.2 hz)

/-! ### The forks (R417-R419) -/

theorem HqxHeadIs.fed {nm : List Byte} {type creator : Word} {flags : Half} {dl rl : Word} {u : HqxUnit}
    (h : HqxHeadIs nm type creator flags dl rl u) (c : Half) (o : HqxUnit) (xs : List Byte) :
    HqxHeadIs nm type creator flags dl rl (HqxUnit.fed { u with crc := c } o xs) :=
  ⟨h.nm, h.type, h.creator, h.flags, h.dl, h.rl⟩

/-- Both forks and their CRCs. -/
def hqxForks (cfg : Config) (mode : HqxMode) (inp : List Byte) (u : HqxUnit) (p : Nat) :
    Except Raise (List Byte × List Byte × HqxUnit × Nat) := do
  let (data, u, p) ← hqxEmit cfg inp 0 u.dl.toNat { u with crc := 0 } p
  let (u, p) ← hqxForkCrc cfg inp u.dl.toNat .valHqxDataCrc u p
  let (rsrc, u, p) ← hqxRsrc cfg mode inp u p
  let (u, p) ← hqxForkCrc cfg inp (hqxNeed mode u) .valHqxRsrcCrc u p
  .ok (data, rsrc, u, p)

theorem hqxParse_eq (cfg : Config) (mode : HqxMode) (inp : List Byte) :
    hqxParse cfg mode inp = findBody inp >>= fun p => hqxHeader cfg inp { phase := .body } p >>= fun h =>
      if cfg.outCap < hqxNeed mode h.1 then .error (.atByte h.2 .resOutCap)
      else hqxForks cfg mode inp h.1 h.2 >>= fun r =>
        (hqxScanColon cfg (inp.drop r.2.2.2) r.2.2.2).mapError (.after (hqxNeed mode r.2.2.1)) >>= fun p =>
          .ok (r.1, r.2.1, { r.2.2.1 with phase := .done }, p) := by
  rw [hqxParse]
  refine congrArg _ (funext fun p => congrArg _ (funext fun h => ?_))
  by_cases hcap : cfg.outCap < hqxNeed mode h.1
  · exact (if_pos hcap).trans (if_pos hcap).symm
  · refine (if_neg hcap).trans (Eq.trans ?_ (if_neg hcap).symm)
    simp only [hqxForks, except_bind_assoc]
    rfl

section
variable {cfg : Config} (hok : AlphabetOk cfg) {inp tail more : List Byte} {left : List Bool}
include hok

theorem feeds_hqxForkCrc (emitted : Nat) (e : Err) {u : HqxUnit} (p : Nat) {d : List Byte} (hu : u.crc = crcXmodem d) :
    Feeds cfg inp (HqxAt cfg inp tail left more) (u, p) (hqxForkCrc cfg inp emitted e u p) (bytes16 (crcXmodem d))
      fun r w' => r = w' ∧ ∃ o, w'.1 = u.fed o (bytes16 (crcXmodem d)) := by
  refine (feeds_hqxTake hok emitted (by rfl) u p).mapOk ?_
  rintro ⟨xs, w⟩ w' ⟨rfl, rfl, o, ho⟩
  have hcrc : w.1.crc = 0 := by
    rw [ho, HqxUnit.fed_crc, hu, ← crcXmodem_append, crcXmodem_append_self]
  exact ⟨w, if_neg (by rw [hcrc]; simp), rfl, o, ho⟩

/-- A fork whose CRC is not its bytes'. -/
theorem hqxForkCrc_bad {emitted : Nat} {e : Err} {u : HqxUnit} {p : Nat} {d rest : List Byte} {a b : Byte} (hu : u.crc = crcXmodem d)
    (h : HqxAt cfg inp tail left more (u, p) ([a, b] ++ rest)) (hbad : [a, b] ≠ bytes16 (crcXmodem d)) :
    ∃ q, hqxForkCrc cfg inp emitted e u p = .error q ∧ q.err = e := by
  obtain ⟨⟨xs, w⟩, w', htake, ⟨rfl, rfl, o, ho⟩, -⟩ := (feeds_hqxTake hok emitted (n := 2) (by rfl) u p).whole rest h
  have hcrc : w.1.crc ≠ 0 := by
    rw [ho, HqxUnit.fed_crc, hu, ← crcXmodem_append]
    exact fun hzero => hbad (crcXmodem_append_eq_zero_iff.1 hzero)
  refine ⟨{ err := e, outCount := emitted, bpos := w.2 }, ?_, rfl⟩
  rw [hqxForkCrc, htake, except_ok_bind]
  exact if_pos hcrc

theorem feeds_hqxRsrc (mode : HqxMode) {u : HqxUnit} (p : Nat) {rsrc : List Byte} (hn : rsrc.length = u.rl.toNat) :
    Feeds cfg inp (HqxAt cfg inp tail left more) (u, p) (hqxRsrc cfg mode inp u p) rsrc (TookBytes { u with crc := 0 } rsrc) := by
  cases mode with
  | file => exact (feeds_hqxEmit hok _ hn { u with crc := 0 } p).start fun _ h => h
  | wrap => exact (feeds_hqxTake hok _ hn { u with crc := 0 } p).start fun _ h => h

variable {nm : List Byte} {type creator : Word} {flags : Half} {dl rl : Word} {data rsrc : List Byte} {u : HqxUnit}
  (hu : HqxHeadIs nm type creator flags dl rl u) (hdl : data.length = dl.toNat) (hrl : rsrc.length = rl.toNat) (mode : HqxMode) (p : Nat)
include hu hdl

theorem feeds_hqxForks_data :
    Feeds cfg inp (HqxAt cfg inp tail left more) (u, p) (hqxEmit cfg inp 0 u.dl.toNat { u with crc := 0 } p) data
      (TookBytes { u with crc := 0 } data) :=
  (feeds_hqxEmit hok 0 (by rw [hu.dl, hdl]) { u with crc := 0 } p).start fun _ h => h

include hrl

theorem feeds_hqxForks :
    Feeds cfg inp (HqxAt cfg inp tail left more) (u, p) (hqxForks cfg mode inp u p) (hqxSection data ++ hqxSection rsrc)
      fun r w' => r = (data, rsrc, w') ∧ HqxHeadIs nm type creator flags dl rl w'.1 := by
  rw [hqxSection, hqxSection, List.append_assoc, hqxForks]
  refine (feeds_hqxForks_data hok hu hdl p).bind ?_
  rintro ⟨data', w⟩ ⟨u1, p1⟩ ⟨hdata, rfl, o1, hu1⟩
  dsimp only at hdata hu1
  subst hdata hu1
  refine (feeds_hqxForkCrc hok _ _ p1 rfl).bind ?_
  rintro ⟨u2, p2⟩ w ⟨rfl, o2, rfl⟩
  refine (feeds_hqxRsrc hok mode p2 (hrl.trans (by rw [← hu.rl]; rfl))).bind ?_
  rintro ⟨rsrc', w⟩ ⟨u3, p3⟩ ⟨hrsrc, rfl, o3, hu3⟩
  dsimp only at hrsrc hu3
  subst hrsrc hu3
  refine (feeds_hqxForkCrc hok _ _ p3 rfl).map ?_
  rintro ⟨u4, p4⟩ w ⟨rfl, o4, rfl⟩
  exact ⟨rfl, hu.nm, hu.type, hu.creator, hu.flags, hu.dl, hu.rl⟩

omit hrl in
/-- A data fork whose CRC is not its bytes'. -/
theorem hqxForks_badData {a b : Byte} {rest : List Byte} (h : HqxAt cfg inp tail left more (u, p) (data ++ [a, b] ++ rest))
    (hbad : [a, b] ≠ bytes16 (crcXmodem data)) : ∃ q, hqxForks cfg mode inp u p = .error q ∧ q.err = .valHqxDataCrc := by
  rw [List.append_assoc] at h
  obtain ⟨⟨data', w⟩, ⟨u1, p1⟩, hdata, ⟨hbytes, rfl, o1, hu1⟩, hat⟩ := (feeds_hqxForks_data hok hu hdl p).whole _ h
  dsimp only at hbytes hu1
  subst hbytes hu1
  obtain ⟨q, hq, he⟩ := hqxForkCrc_bad (emitted := _) (e := .valHqxDataCrc) hok rfl hat hbad
  refine ⟨q, ?_, he⟩
  rw [hqxForks, hdata, except_ok_bind]
  dsimp only
  rw [hq, except_error_bind]

/-- A resource fork whose CRC is not its bytes'. -/
theorem hqxForks_badRsrc {a b : Byte} {rest : List Byte}
    (h : HqxAt cfg inp tail left more (u, p) (hqxSection data ++ rsrc ++ [a, b] ++ rest)) (hbad : [a, b] ≠ bytes16 (crcXmodem rsrc)) :
    ∃ q, hqxForks cfg mode inp u p = .error q ∧ q.err = .valHqxRsrcCrc := by
  rw [hqxSection, List.append_assoc, List.append_assoc, List.append_assoc] at h
  obtain ⟨⟨data', w⟩, ⟨u1, p1⟩, hdata, ⟨hbytes, rfl, o1, hu1⟩, hat⟩ := (feeds_hqxForks_data hok hu hdl p).whole _ h
  dsimp only at hbytes hu1
  subst hbytes hu1
  obtain ⟨⟨u2, p2⟩, w, hcrc, ⟨rfl, o2, rfl⟩, hat⟩ := (feeds_hqxForkCrc hok _ .valHqxDataCrc p1 rfl).whole _ hat
  obtain ⟨⟨rsrc', w⟩, ⟨u3, p3⟩, hrsrc, ⟨hbytes', rfl, o3, hu3⟩, hat⟩ :=
    (feeds_hqxRsrc hok mode p2 (hrl.trans (by rw [← hu.rl]; rfl))).whole _ hat
  dsimp only at hbytes' hu3
  subst hbytes' hu3
  obtain ⟨q, hq, he⟩ := hqxForkCrc_bad (emitted := _) (e := .valHqxRsrcCrc) hok rfl hat hbad
  refine ⟨q, ?_, he⟩
  rw [hqxForks, hdata, except_ok_bind]
  dsimp only
  rw [hcrc, except_ok_bind]
  dsimp only
  rw [hrsrc, except_ok_bind]
  dsimp only
  rw [hq, except_error_bind]

end

end Sys2Proof.Machine
end
section
/-! PROOFS. HQX_FILE and HQX_WRAP over whole inputs, well made or not (42_binhex.md R401, R402). -/

namespace Sys2Proof.Machine
open Reference (bytes16 hqxExpand hqxHead hqxSection hqxContainer HqxBody HqxText SixBits WholeBytes HqxPreambleLine HqxBadChar)

/-! ### The container between the envelope and the closing colon -/

/-- The bytes of OUT that forks of these lengths need (R417). -/
def hqxNeedOf (mode : HqxMode) (dl rl : Nat) : Nat :=
  match mode with
  | .file => dl + rl
  | .wrap => dl

theorem hqxNeed_eq (mode : HqxMode) (u : HqxUnit) : hqxNeed mode u = hqxNeedOf mode u.dl.toNat u.rl.toNat := by
  cases mode <;> rfl

/-- The header, the capacity check and the forks. -/
def hqxRead (cfg : Config) (mode : HqxMode) (inp : List Byte) (p : Nat) : Except Raise (List Byte × List Byte × HqxUnit × Nat) :=
  hqxHeader cfg inp { phase := .body } p >>= fun h =>
    if cfg.outCap < hqxNeed mode h.1 then .error (.atByte h.2 .resOutCap) else hqxForks cfg mode inp h.1 h.2

theorem hqxParse_eq_read (cfg : Config) (mode : HqxMode) (inp : List Byte) :
    hqxParse cfg mode inp = findBody inp >>= fun p => hqxRead cfg mode inp p >>= fun r =>
      (hqxScanColon cfg (inp.drop r.2.2.2) r.2.2.2).mapError (.after (hqxNeed mode r.2.2.1)) >>= fun p =>
        .ok (r.1, r.2.1, { r.2.2.1 with phase := .done }, p) := by
  rw [hqxParse_eq]
  refine congrArg _ (funext fun p => ?_)
  rw [hqxRead, except_bind_assoc]
  refine congrArg _ (funext fun h => ?_)
  by_cases hcap : cfg.outCap < hqxNeed mode h.1
  · rw [if_pos hcap, if_pos hcap, except_error_bind]
  · rw [if_neg hcap, if_neg hcap]

section
variable {cfg : Config} (hok : AlphabetOk cfg) {inp tail more : List Byte} {left : List Bool} {nm : List Byte} (nul : Byte)
  (type creator : Word) (flags : Half) (hlo : 1 ≤ nm.length) (hhi : nm.length ≤ 63) (mode : HqxMode) (p : Nat)
include hok hlo hhi

theorem feeds_hqxRead {data rsrc : List Byte} (hdata : data.length < 2 ^ 32) (hrsrc : rsrc.length < 2 ^ 32)
    (hfits : hqxNeedOf mode data.length rsrc.length ≤ cfg.outCap) :
    Feeds cfg inp (HqxAt cfg inp tail left more) ({ phase := .body }, p) (hqxRead cfg mode inp p)
      (hqxContainer nm nul type creator flags data rsrc)
      fun r w' => r = (data, rsrc, w') ∧
        HqxHeadIs nm type creator flags (BitVec.ofNat 32 data.length) (BitVec.ofNat 32 rsrc.length) w'.1 := by
  have hdl : data.length = (BitVec.ofNat 32 data.length).toNat := (Nat.mod_eq_of_lt hdata).symm
  have hrl : rsrc.length = (BitVec.ofNat 32 rsrc.length).toNat := (Nat.mod_eq_of_lt hrsrc).symm
  rw [hqxContainer, List.append_assoc]
  refine (feeds_hqxHeader hok nul type creator flags _ _ hlo hhi _ p).bind ?_
  rintro ⟨u, p1⟩ w' ⟨rfl, hu⟩
  have hneed : hqxNeed mode u ≤ cfg.outCap := by rwa [hqxNeed_eq, hu.dl, hu.rl, ← hdl, ← hrl]
  dsimp only
  rw [if_neg (Nat.not_lt.2 hneed)]
  exact feeds_hqxForks hok hu hdl hrl mode p1

/-- Forks that need more than OUT holds. -/
theorem hqxRead_outCap {dl rl : Word} {rest : List Byte}
    (h : HqxAt cfg inp tail left more ({ phase := .body }, p) (hqxSection (hqxHead nm nul type creator flags dl rl) ++ rest))
    (hcap : cfg.outCap < hqxNeedOf mode dl.toNat rl.toNat) : ∃ q, hqxRead cfg mode inp p = .error q ∧ q.err = .resOutCap := by
  obtain ⟨⟨u, p1⟩, w', hhead, ⟨rfl, hu⟩, -⟩ := (feeds_hqxHeader hok nul type creator flags dl rl hlo hhi _ p).whole _ h
  refine ⟨.atByte p1 .resOutCap, ?_, rfl⟩
  rw [hqxRead, hhead, except_ok_bind, hqxNeed_eq, hu.dl, hu.rl]
  exact if_pos hcap

/-- Behind a sound header whose forks fit, the forks are read. -/
theorem hqxRead_of_header {data rsrc rest : List Byte} (hdata : data.length < 2 ^ 32) (hrsrc : rsrc.length < 2 ^ 32)
    (hfits : hqxNeedOf mode data.length rsrc.length ≤ cfg.outCap)
    (h : HqxAt cfg inp tail left more ({ phase := .body }, p)
      (hqxSection (hqxHead nm nul type creator flags (BitVec.ofNat 32 data.length) (BitVec.ofNat 32 rsrc.length)) ++ rest)) :
    ∃ u p1, hqxRead cfg mode inp p = hqxForks cfg mode inp u p1 ∧ HqxAt cfg inp tail left more (u, p1) rest ∧
      HqxHeadIs nm type creator flags (BitVec.ofNat 32 data.length) (BitVec.ofNat 32 rsrc.length) u := by
  obtain ⟨⟨u, p1⟩, w', hhead, ⟨rfl, hu⟩, hat⟩ := (feeds_hqxHeader hok nul type creator flags _ _ hlo hhi _ p).whole _ h
  have hneed : hqxNeed mode u ≤ cfg.outCap := by
    rwa [hqxNeed_eq, hu.dl, hu.rl, BitVec.toNat_ofNat, BitVec.toNat_ofNat, Nat.mod_eq_of_lt hdata, Nat.mod_eq_of_lt hrsrc]
  refine ⟨u, p1, ?_, hat, hu⟩
  rw [hqxRead, hhead, except_ok_bind]
  exact if_neg (Nat.not_lt.2 hneed)

end

/-! ### Well-made inputs -/

/-- A file's text: the forks, the name and the header's fields. -/
theorem hqxParse_of_text {cfg : Config} {mode : HqxMode} {bs nm data rsrc raw : List Byte} {nul : Byte} {type creator : Word} {flags : Half}
    {digits extra : List (Fin 64)} (hlo : 1 ≤ nm.length) (hhi : nm.length ≤ 63) (hdata : data.length < 2 ^ 32)
    (hrsrc : rsrc.length < 2 ^ 32) (hfits : hqxNeedOf mode data.length rsrc.length ≤ cfg.outCap)
    (hexpand : hqxExpand 0 raw = some (hqxContainer nm nul type creator flags data rsrc)) (hsix : SixBits raw digits)
    (htext : HqxText cfg bs (digits ++ extra)) :
    ∃ u p, hqxParse cfg mode bs = .ok (data, rsrc, u, p) ∧
      HqxHeadIs nm type creator flags (BitVec.ofNat 32 data.length) (BitVec.ofNat 32 rsrc.length) u := by
  obtain ⟨post, hbody⟩ := htext
  obtain ⟨hok, p, hfind, hat⟩ := hqxAt_body hbody
  obtain ⟨left, hbits⟩ := digitBits_of_sixBits hsix extra
  have hstart := hat raw [] left _ (by rwa [List.append_nil]) hexpand
  rw [← List.append_nil (hqxContainer _ _ _ _ _ _ _)] at hstart
  obtain ⟨r, ⟨u, p1⟩, hread, ⟨rfl, hu⟩, hat'⟩ := (feeds_hqxRead hok nul type creator flags hlo hhi mode p hdata hrsrc hfits).whole _ hstart
  obtain ⟨q, hscan, -⟩ := hqxScanColon_at hok hat'
  refine ⟨{ u with phase := .done }, q + 1, ?_, hu.nm, hu.type, hu.creator, hu.flags, hu.dl, hu.rl⟩
  rw [hqxParse_eq_read, hfind, except_ok_bind, hread, except_ok_bind]
  dsimp only
  rw [hscan, hqxScanColon_colon]
  rfl

section
variable {s : State} {bs : List Byte} (h : s.inputIs bs) (hfit : s.inputFits)
include h hfit

theorem hqxFileJob_of_input :
    hqxFileJob s = hqxParse s.cfg .file bs >>= fun r =>
      .ok
        { out := r.1 ++ r.2.1, dataLen := r.2.2.1.dl, rsrcLen := r.2.2.1.rl, mdType := r.2.2.1.type, mdCreator := r.2.2.1.creator,
          mdFlags := hqxCleanFlags r.2.2.1.flags, name := some r.2.2.1.nm, units := { s.units with hqx := r.2.2.1 },
          bpos := r.2.2.2 } := by
  have hcheck : checkCommand s 0 0x21 = .ok () :=
    checkCommand_of_not_forkOp (by decide) (by decide) (by decide) hfit
  rw [hqxFileJob, hcheck, except_ok_bind, jobInput_of_inputIs h]

theorem hqxWrapJob_of_input :
    hqxWrapJob s = hqxParse s.cfg .wrap bs >>= fun r =>
      .ok { out := r.1, units := { s.units with hqx := r.2.2.1 }, bpos := r.2.2.2 } := by
  have hcheck : checkCommand s 0 0x22 = .ok () :=
    checkCommand_of_not_forkOp (by decide) (by decide) (by decide) hfit
  rw [hqxWrapJob, hcheck, except_ok_bind, jobInput_of_inputIs h]

end

/-- Settles O54: the text's digits make the raw bytes, these expand to the container, and its parts are read in order. -/
theorem hqxFileDecodes : Obligations.HqxFileDecodes := by
  unfold Obligations.HqxFileDecodes
  intro s c bs nm data rsrc raw nul type creator flags digits extra h hfit hlo hhi hdata hrsrc hfits hexpand hsix htext
  obtain ⟨u, p, hparse, hu⟩ := hqxParse_of_text (mode := .file) hlo hhi hdata hrsrc hfits hexpand hsix htext
  rw [exec_hqxFile, hqxFileJob_of_input h hfit, hparse, except_ok_bind]
  dsimp only
  rw [hu.nm, hu.type, hu.creator, hu.flags, hu.dl, hu.rl]
  exact endJob_doneNamed rfl (by rw [List.length_append]; exact hfits)

/-- Settles O55: the same parse, of which the data fork is handed out. -/
theorem hqxWrapDecodes : Obligations.HqxWrapDecodes := by
  unfold Obligations.HqxWrapDecodes
  intro s c bs nm data rsrc raw nul type creator flags digits extra h hfit hlo hhi hdata hrsrc hfits hexpand hsix htext
  obtain ⟨u, p, hparse, -⟩ := hqxParse_of_text (mode := .wrap) hlo hhi hdata hrsrc hfits hexpand hsix htext
  rw [exec_hqxWrap, hqxWrapJob_of_input h hfit, hparse, except_ok_bind]
  exact endJob_doneWith (r := { out := data, units := _, bpos := _ }) rfl hfits

end Sys2Proof.Machine
end
section
/-! PROOFS. How HQX_FILE and HQX_WRAP end where the text is wrong (42_binhex.md R401-R420). -/

namespace Sys2Proof.Machine
open Reference (bytes16 hqxExpand hqxHead hqxSection hqxContainer HqxBody SixBits WholeBytes HqxPreambleLine HqxBadChar)

/-! ### Errors inside the container -/

theorem hqxParse_error_of_read {cfg : Config} {mode : HqxMode} {inp : List Byte} {p : Nat} {q : Raise} (hfind : findBody inp = .ok p)
    (hread : hqxRead cfg mode inp p = .error q) : hqxParse cfg mode inp = .error q := by
  rw [hqxParse_eq_read, hfind, except_ok_bind, hread, except_error_bind]

theorem hqxRead_error_of_header {cfg : Config} (mode : HqxMode) {inp : List Byte} {p : Nat} {q : Raise}
    (hheader : hqxHeader cfg inp { phase := .body } p = .error q) : hqxRead cfg mode inp p = .error q := by
  rw [hqxRead, hheader, except_error_bind]

/-- The digits' whole bytes, of which `raw` have an expansion: the read of the container begins before it. -/
theorem hqxAt_wholeBytes {cfg : Config} {inp tail raw more part : List Byte} {digits : List (Fin 64)} (h : HqxBody cfg inp digits tail)
    (hwhole : WholeBytes (raw ++ more) digits) (hexpand : hqxExpand 0 raw = some part) :
    AlphabetOk cfg ∧ ∃ p left, findBody inp = .ok p ∧ left.length < 8 ∧ HqxAt cfg inp tail left more ({ phase := .body }, p) part := by
  obtain ⟨hok, p, hfind, hat⟩ := hqxAt_body h
  obtain ⟨left, hbits, hleft⟩ := digitBits_of_wholeBytes hwhole
  exact ⟨hok, p, left, hfind, hleft, hat raw more left part hbits hexpand⟩

section
variable {cfg : Config} {inp tail raw more : List Byte} {digits : List (Fin 64)} (h : HqxBody cfg inp digits tail) (mode : HqxMode)
include h

theorem hqxParse_badName {l : Byte} {rest : List Byte} (hwhole : WholeBytes (raw ++ more) digits)
    (hexpand : hqxExpand 0 raw = some (l :: rest)) (hbad : l.toNat = 0 ∨ 63 < l.toNat) :
    ∃ q, hqxParse cfg mode inp = .error q ∧ q.err = .valHqxNameLen := by
  obtain ⟨hok, p, left, hfind, -, hat⟩ := hqxAt_wholeBytes h hwhole hexpand
  obtain ⟨q, hheader⟩ := hqxHeader_badName hok hat hbad
  exact ⟨_, hqxParse_error_of_read hfind (hqxRead_error_of_header mode hheader), rfl⟩

variable {nm : List Byte} (nul : Byte) (type creator : Word) (flags : Half) (hlo : 1 ≤ nm.length) (hhi : nm.length ≤ 63)
include hlo hhi

theorem hqxParse_badHeadCrc {rest : List Byte} {dl rl : Word} {a b : Byte} (hwhole : WholeBytes (raw ++ more) digits)
    (hexpand : hqxExpand 0 raw = some (hqxHead nm nul type creator flags dl rl ++ [a, b] ++ rest))
    (hbad : [a, b] ≠ bytes16 (crcXmodem (hqxHead nm nul type creator flags dl rl))) :
    ∃ q, hqxParse cfg mode inp = .error q ∧ q.err = .valHqxHdrCrc := by
  obtain ⟨hok, p, left, hfind, -, hat⟩ := hqxAt_wholeBytes h hwhole hexpand
  obtain ⟨q, hheader⟩ := hqxHeader_badCrc hok nul type creator flags dl rl hlo hhi hat hbad
  exact ⟨_, hqxParse_error_of_read hfind (hqxRead_error_of_header mode hheader), rfl⟩

theorem hqxParse_outCap {rest : List Byte} {dl rl : Word} (hwhole : WholeBytes (raw ++ more) digits)
    (hexpand : hqxExpand 0 raw = some (hqxSection (hqxHead nm nul type creator flags dl rl) ++ rest))
    (hcap : cfg.outCap < hqxNeedOf mode dl.toNat rl.toNat) : ∃ q, hqxParse cfg mode inp = .error q ∧ q.err = .resOutCap := by
  obtain ⟨hok, p, left, hfind, -, hat⟩ := hqxAt_wholeBytes h hwhole hexpand
  obtain ⟨q, hread, he⟩ := hqxRead_outCap hok nul type creator flags hlo hhi mode p hat hcap
  exact ⟨q, hqxParse_error_of_read hfind hread, he⟩

variable {data rsrc : List Byte} (hdata : data.length < 2 ^ 32) (hrsrc : rsrc.length < 2 ^ 32)
  (hfits : hqxNeedOf mode data.length rsrc.length ≤ cfg.outCap)
include hdata hrsrc hfits

theorem hqxParse_badData {rest : List Byte} {a b : Byte} (hwhole : WholeBytes (raw ++ more) digits)
    (hexpand : hqxExpand 0 raw = some (hqxSection (hqxHead nm nul type creator flags (BitVec.ofNat 32 data.length)
      (BitVec.ofNat 32 rsrc.length)) ++ data ++ [a, b] ++ rest)) (hbad : [a, b] ≠ bytes16 (crcXmodem data)) :
    ∃ q, hqxParse cfg mode inp = .error q ∧ q.err = .valHqxDataCrc := by
  obtain ⟨hok, p, left, hfind, -, hat⟩ := hqxAt_wholeBytes h hwhole hexpand
  rw [List.append_assoc, List.append_assoc, ← List.append_assoc data] at hat
  obtain ⟨u, p1, hread, hat', hu⟩ := hqxRead_of_header hok nul type creator flags hlo hhi mode p hdata hrsrc hfits hat
  obtain ⟨q, hforks, he⟩ := hqxForks_badData hok hu (Nat.mod_eq_of_lt hdata).symm mode p1 hat' hbad
  exact ⟨q, hqxParse_error_of_read hfind (hread.trans hforks), he⟩

theorem hqxParse_badRsrc {rest : List Byte} {a b : Byte} (hwhole : WholeBytes (raw ++ more) digits)
    (hexpand : hqxExpand 0 raw = some (hqxSection (hqxHead nm nul type creator flags (BitVec.ofNat 32 data.length)
      (BitVec.ofNat 32 rsrc.length)) ++ hqxSection data ++ rsrc ++ [a, b] ++ rest)) (hbad : [a, b] ≠ bytes16 (crcXmodem rsrc)) :
    ∃ q, hqxParse cfg mode inp = .error q ∧ q.err = .valHqxRsrcCrc := by
  obtain ⟨hok, p, left, hfind, -, hat⟩ := hqxAt_wholeBytes h hwhole hexpand
  simp only [List.append_assoc (hqxSection (hqxHead _ _ _ _ _ _ _))] at hat
  obtain ⟨u, p1, hread, hat', hu⟩ := hqxRead_of_header hok nul type creator flags hlo hhi mode p hdata hrsrc hfits hat
  obtain ⟨q, hforks, he⟩ :=
    hqxForks_badRsrc hok hu (Nat.mod_eq_of_lt hdata).symm (Nat.mod_eq_of_lt hrsrc).symm mode p1 hat' hbad
  exact ⟨q, hqxParse_error_of_read hfind (hread.trans hforks), he⟩

/-- `90 01` before the container is whole. -/
theorem hqxParse_rle01 {part : List Byte} (hwhole : WholeBytes (raw ++ [0x90, 0x01] ++ more) digits) (hexpand : hqxExpand 0 raw = some part)
    (hprefix : part <+: hqxContainer nm nul type creator flags data rsrc) (hne : part ≠ hqxContainer nm nul type creator flags data rsrc) :
    ∃ q, hqxParse cfg mode inp = .error q ∧ q.err = .decHqxRle01 := by
  rw [List.append_assoc] at hwhole
  obtain ⟨hok, p, left, hfind, -, hat⟩ := hqxAt_wholeBytes h hwhole hexpand
  obtain ⟨q, hread, he⟩ := (feeds_hqxRead hok nul type creator flags hlo hhi mode p hdata hrsrc hfits).cut (fun e _ => e = .decHqxRle01)
    (fun u p hend => by
      obtain ⟨q, hq⟩ := hqxNextByte_rle01 hok hend
      exact ⟨_, hq, rfl⟩) part hat hprefix hne
  exact ⟨q, hqxParse_error_of_read hfind hread, he⟩

/-- The body ends before the container is whole, perhaps inside an escape. -/
theorem hqxParse_cut {part : List Byte} {e : Err} (hmore : more = [] ∨ more = [0x90]) (hwhole : WholeBytes (raw ++ more) digits)
    (hexpand : hqxExpand 0 raw = some part) (hprefix : part <+: hqxContainer nm nul type creator flags data rsrc)
    (hne : part ≠ hqxContainer nm nul type creator flags data rsrc) (hstops : TailStops cfg tail e) :
    ∃ q, hqxParse cfg mode inp = .error q ∧ q.err = e ∧ q.bpos + tail.tail.length = inp.length := by
  obtain ⟨hok, p, left, hfind, hleft, hat⟩ := hqxAt_wholeBytes h hwhole hexpand
  obtain ⟨q, hread, hq⟩ := (feeds_hqxRead hok nul type creator flags hlo hhi mode p hdata hrsrc hfits).cut
    (fun e' b => e' = e ∧ b + tail.tail.length = inp.length)
    (fun u p hend => by
      obtain ⟨q, hq, hlast⟩ := hqxNextByte_stops hok hmore hend hleft hstops
      exact ⟨_, hq, rfl, hlast⟩) part hat hprefix hne
  exact ⟨q, hqxParse_error_of_read hfind hread, hq⟩

/-- The container is whole, but no colon closes the body (R420). -/
theorem hqxParse_unclosed {used extra : List (Fin 64)} {e : Err} (hdigits : digits = used ++ extra) (hsix : SixBits raw used)
    (hexpand : hqxExpand 0 raw = some (hqxContainer nm nul type creator flags data rsrc)) (hstops : TailStops cfg tail e)
    (hcolon : tail.head? ≠ some 0x3A) :
    ∃ q, hqxParse cfg mode inp = .error q ∧ q.err = e ∧ q.bpos + tail.tail.length = inp.length := by
  subst hdigits
  obtain ⟨hok, p, hfind, hat⟩ := hqxAt_body h
  obtain ⟨left, hbits⟩ := digitBits_of_sixBits hsix extra
  have hstart := hat raw [] left _ (by rwa [List.append_nil]) hexpand
  rw [← List.append_nil (hqxContainer _ _ _ _ _ _ _)] at hstart
  obtain ⟨r, ⟨u, p1⟩, hread, ⟨rfl, -⟩, hat'⟩ := (feeds_hqxRead hok nul type creator flags hlo hhi mode p hdata hrsrc hfits).whole _ hstart
  obtain ⟨q, hscan, hq⟩ := hqxScanColon_at hok hat'
  obtain ⟨q', hstop, hq'⟩ := hqxScanColon_stops hstops hcolon q
  refine ⟨(Raise.atByte q' e).after (hqxNeed mode u), ?_, rfl, hq'.trans hq⟩
  rw [hqxParse_eq_read, hfind, except_ok_bind, hread, except_ok_bind]
  dsimp only
  rw [hscan, hstop]
  rfl

end

/-! ### The two commands -/

/-- Both commands end as their parse does where it fails. -/
theorem exec_hqx_of_parse_error {s : State} {c : Bool} {i : Instr} {bs : List Byte} (h : s.inputIs bs) (hfit : s.inputFits)
    (hi : i ∈ [Instr.hqxFile c, .hqxWrap c]) :
    ∃ mode, (∀ q, hqxParse s.cfg mode bs = .error q → exec i s = .next (raiseError q s)) ∧
      ∀ dl rl, (if i = .hqxFile c then dl + rl else dl) = hqxNeedOf mode dl rl := by
  simp only [List.mem_cons, List.not_mem_nil, or_false] at hi
  rcases hi with rfl | rfl
  · refine ⟨.file, fun q hq => ?_, fun dl rl => if_pos rfl⟩
    rw [exec_hqxFile, hqxFileJob_of_input h hfit, hq, except_error_bind]
    rfl
  · refine ⟨.wrap, fun q hq => ?_, fun dl rl => if_neg (by simp)⟩
    rw [exec_hqxWrap, hqxWrapJob_of_input h hfit, hq, except_error_bind]
    rfl

/-- Settles O56: the first part of the text that is missing, wrong, too large or cut off decides the parse's error. -/
theorem hqxRejects : Obligations.HqxRejects := by
  unfold Obligations.HqxRejects
  intro s c i bs h hfit hi
  obtain ⟨mode, hexec, hneed⟩ := exec_hqx_of_parse_error h hfit hi
  simp only [hneed]
  have hfails : ∀ {e}, (∃ q, hqxParse s.cfg mode bs = .error q ∧ q.err = e) → FailsWith i s e := by
    rintro e ⟨q, hq, rfl⟩
    exact ⟨_, hexec q hq, failedWith_raiseError q s⟩
  have hatOnce : ∀ {e}, findBody bs = .error { err := e } → FailsAtOnce i s e := fun hfind =>
    failsAtOnce_of_exec (hexec _ (by rw [hqxParse_eq_read, hfind, except_error_bind]))
  refine ⟨fun hnone => hatOnce (findBody_of_no_preamble hnone), fun pre mid rest hline hrest => hatOnce (findBody_of_no_colon hline hrest),
    fun digits tail hbody => ⟨fun raw more l rest hwhole hexpand hbad => hfails (hqxParse_badName hbody mode hwhole hexpand hbad),
      fun nm nul type creator flags hlo hhi => ⟨?_, fun data rsrc hdata hrsrc hfits => ⟨?_, fun raw part hexpand => ⟨?_, ?_⟩⟩⟩⟩⟩
  · intro raw more rest dl rl a b hwhole hexpand
    split
    next hbad => exact hfails (hqxParse_badHeadCrc hbody mode nul type creator flags hlo hhi hwhole hexpand hbad)
    next hcrc =>
      rw [not_not.1 hcrc] at hexpand
      exact fun hcap => hfails (hqxParse_outCap hbody mode nul type creator flags hlo hhi hwhole hexpand hcap)
  · exact fun raw more rest a b hwhole =>
      ⟨fun hexpand hbad => hfails (hqxParse_badData hbody mode nul type creator flags hlo hhi hdata hrsrc hfits hwhole hexpand hbad),
        fun hexpand hbad => hfails (hqxParse_badRsrc hbody mode nul type creator flags hlo hhi hdata hrsrc hfits hwhole hexpand hbad)⟩
  · exact fun hprefix hne more hwhole =>
      hfails (hqxParse_rle01 hbody mode nul type creator flags hlo hhi hdata hrsrc hfits hwhole hexpand hprefix hne)
  · intro hpart
    have hstop : ∀ e, TailStops s.cfg tail e → (part = hqxContainer nm nul type creator flags data rsrc → tail.head? ≠ some 0x3A) →
        ∃ t, exec i s = .next t ∧ FailedWith s t e ∧ t.seq.bpos + tail.tail.length = bs.length := by
      intro e hstops hcolon
      suffices hq : ∃ q, hqxParse s.cfg mode bs = .error q ∧ q.err = e ∧ q.bpos + tail.tail.length = bs.length by
        obtain ⟨q, hq, rfl, hlast⟩ := hq
        exact ⟨_, hexec q hq, failedWith_raiseError q s, hlast⟩
      rcases hpart with ⟨hprefix, hne, hwhole | hwhole⟩ | ⟨rfl, used, extra, hdigits, hsix⟩
      · rw [← List.append_nil raw] at hwhole
        exact hqxParse_cut hbody mode nul type creator flags hlo hhi hdata hrsrc hfits (.inl rfl) hwhole hexpand hprefix hne hstops
      · exact hqxParse_cut hbody mode nul type creator flags hlo hhi hdata hrsrc hfits (.inr rfl) hwhole hexpand hprefix hne hstops
      · exact hqxParse_unclosed hbody mode nul type creator flags hlo hhi hdata hrsrc hfits hdigits hsix hexpand hstops (hcolon rfl)
    constructor
    · rintro bad post rfl hbad
      exact hstop _ (.bad bad post hbad) fun _ hcolon => hbad.2.1 (Option.some.inj hcolon)
    · rintro (rfl | ⟨hne, hcolon⟩)
      · exact hstop _ .ends fun _ hcolon => nomatch hcolon
      · obtain ⟨post, rfl⟩ := List.head?_eq_some_iff.1 hcolon
        exact hstop _ (.colon post) fun heq => absurd heq hne

end Sys2Proof.Machine
end
